-- ==== Sys2Proof/Word.lean ====
section
/-! DEFINITION. The words of the HV-418 and the plain data its commands, frames and tables are made of. -/

namespace Sys2Proof

/-- A data word of the bank, of a port and of the control space: 32 bits, lane 0 least significant (scope 4.3). -/
abbrev Word := BitVec 32
/-- A station number, 0 to 7. -/
abbrev Station := BitVec 3
/-- The tag of an outstanding entry, 0 to 15 (R62). -/
abbrev Tag := BitVec 4
/-- A page of a bank, 0 to 31. -/
abbrev Page := BitVec 5
/-- A word within a page, 0 to 8,191. -/
abbrev Offset := BitVec 13
/-- A lane mask, bit n for lane n (R27). -/
abbrev Lanes := BitVec 4
/-- The serial of a probe, 0 to 255 (R6). -/
abbrev Serial := BitVec 8
/-- A count or tally as a frame or a data word carries it, 0 to 8,192. -/
abbrev Count := BitVec 14
/-- A frame: 16 bytes, byte 0 (sent first) most significant (R25). -/
abbrev Frame := BitVec 128
/-- A hold-table slot number (R120). -/
abbrev Slot := Fin 6

/-- The four local ports (R40). -/
inductive Port
  | p | c1 | c2 | c3
  deriving DecidableEq, Repr

/-- One thing of a kind for each local port. -/
structure PerPort (α : Type) where
  p : α
  c1 : α
  c2 : α
  c3 : α
  deriving DecidableEq, Repr

/-- The seven operations (R27, OP). -/
inductive Op
  | read | write | holdRead | commit | bulkStart | bulkQuery | bulkAbort
  deriving DecidableEq, Repr

/-- The guard actions (R110). -/
inductive GuardAct
  | keep | set | clear
  deriving DecidableEq, Repr

/-- The kinds of bulk job (R146). -/
inductive BulkKind
  | fill | check | scrub
  deriving DecidableEq, Repr

/-- The kinds of frame (R26). -/
inductive Kind
  | req | ans | done | loop
  deriving DecidableEq, Repr

/-- The fourteen answer statuses (R38). -/
inductive Status
  | ok | corrected | uncorrectable | outOfRange | guardFault | privFault | alreadyHeld
  | holdLost | retry | accepted | busy | noJob | notOwner | aborted
  deriving DecidableEq, Repr

/-- The completion codes of a local port (R39). -/
inductive Code
  | answer (st : Status)
  | posted | readOnly | noAccess | noWindow | badRequest
  | noStation | timeout | ringDown | retryLimit
  deriving DecidableEq, Repr

/-- How a bulk job ended (R160). -/
inductive JobOutcome
  | complete | mismatch
  deriving DecidableEq, Repr

/-- A requester as the hold table and the bulk engine know it: station and port (R125, R152). -/
structure Holder where
  station : Station
  port : Port
  deriving DecidableEq, Repr

/-- An operation with the fields that are present for it (R28); absent fields do not exist here. -/
inductive Command
  | read
  | write (lanes : Lanes) (data : Word) (act : GuardAct)
  | holdRead
  | commit (lanes : Lanes) (data : Word) (act : GuardAct)
  | bulkStart (kind : BulkKind) (pattern : Word) (count : Count)
  | bulkQuery
  | bulkAbort
  deriving DecidableEq, Repr

/-- A translated request: its operation, its privilege and its word address in the serving bank
(R28, R47, R108). -/
structure Request where
  command : Command
  privileged : Bool
  page : Page
  offset : Offset
  deriving DecidableEq, Repr

/-- The request pins of a local port, as numbers with the codes of the frame fields (R40).
The last four are pins of port P alone. -/
structure PortRequest where
  op : BitVec 4
  window : BitVec 5
  offset : Offset
  data : Word
  lanes : Lanes
  guardAct : BitVec 2
  bulkKind : BitVec 2
  count : Count
  privileged : Bool
  control : Bool
  deriving DecidableEq, Repr

/-- The strap pins, as sampled at the release of a reset (scope 2.1). `pages` is the number read on
the two PAGES pins; `long` is TSCALE. -/
structure Straps where
  station : Station
  pages : BitVec 2
  guardOn : Bool
  long : Bool
  deriving DecidableEq, Repr

/-- The four tallies of a bulk job as a frame carries them (R27). -/
structure Tallies where
  done : Count
  skipped : Count
  corrected : Count
  uncorrectable : Count
  deriving DecidableEq, Repr

/-- PROGRESS of a bulk job (R31). `waiting` is PSTATE: WAITING_HOLD when true, RUNNING when false. -/
structure Progress where
  waiting : Bool
  next : Offset
  remaining : Count
  tallies : Tallies
  deriving DecidableEq, Repr

/-- What an answer carries besides its status (R31); `word false 0` is also the body of an answer
that carries the status alone, since absent fields are 0 on the link (R25). -/
inductive AnswerBody
  | word (guard : Bool) (data : Word)
  | bulk (progress : Progress)
  deriving DecidableEq, Repr

/-- A completion on a local port: its code, its data words in order, its guard flag (R59). -/
structure Completion where
  code : Code
  words : List Word
  guard : Bool
  deriving DecidableEq, Repr

/-- A stored word of the bank: the data and guard bit of its last write, and the set of its 40 stored
bits that are wrong, bits 31:0 for the data, bit 32 for the guard bit, bits 39:33 for the check bits
(R84, R86; DESIGN CHOICE, safe, log entry 7). -/
structure StoredWord where
  data : Word
  guard : Bool
  wrong : BitVec 40
  deriving DecidableEq, Repr, Inhabited

/-- How a word with three or more wrong bits is decoded: as clean, with one bit taken for the wrong one and
changed (bits numbered as in `StoredWord.wrong`), or as double (R86). -/
inductive Misread
  | clean
  | single (changed : Fin 40)
  | double
  deriving DecidableEq, Repr, Inhabited

/-- What the check of a word read passes on (R86). -/
inductive CheckResult
  | clean (data : Word) (guard : Bool)
  | single (data : Word) (guard : Bool)
  | double
  deriving DecidableEq, Repr, Inhabited

end Sys2Proof
end

