-- ==== Sys2Proof/Syntax.lean ====
section
/-! DEFINITION. The commands: one constructor for each row of spec/opcode_table.json. -/

namespace Sys2Proof

/-- The events and operations of the HV-418. The operands are what the event brings from outside the
part, or which of several like things it befalls (log entry 30). ACCEPTANCE brings the request pins of a port as they now
stand, none while the present strobe is low (log entry 13). -/
inductive Instr
  | coldResetAssertion
  | coldResetRelease (pins : Straps)
  | warmResetAssertion
  | warmResetRelease (pins : Straps)
  | lossOfCarrier
  | returnOfCarrier
  | loopArrival (frame : Frame)
  | reqArrival (frame : Frame)
  | ansArrival (frame : Frame)
  | doneArrival (frame : Frame)
  | probeTimerExpiry
  | probeClaim
  | sendingEnd
  | acceptance (port : Port) (pins : Option PortRequest)
  | send (port : Port)
  | answerTimerExpiry (tag : Tag)
  | backoffTimerExpiry (tag : Tag)
  | resendClaim (tag : Tag)
  | quarantineExpiry (tag : Tag)
  | refreshTimerExpiry
  | refresh
  | refreshEnd
  | read
  | write
  | holdRead
  | commit
  | bulkStart
  | bulkQuery
  | bulkAbort
  | wordOperationEnd
  | holdTimerExpiry (slot : Slot)
  | bulkStep
  | bulkStepEnd
  | noticeRead
  | statusRead
  | windowWrite
  | controlSpaceWrite
  | throughFrameArrival (frame : Frame)
  deriving DecidableEq, Repr

end Sys2Proof
end

