-- ==== Sys2Proof/Decode.lean ====
section
/-! DEFINITION. Codes and fields of the ring frames (chapter 2), read and made; and the command a table word
spells (none: the table gives no row any bits). -/

namespace Sys2Proof

/-! ### Codes -/

/-- The PORT codes (R27). -/
def Port.code : Port → BitVec 2
  | .p => 0
  | .c1 => 1
  | .c2 => 2
  | .c3 => 3

/-- The port a PORT field names; all four codes are used (R27). -/
def Port.ofCode (c : BitVec 2) : Port :=
  if c = 0 then .p else if c = 1 then .c1 else if c = 2 then .c2 else .c3

/-- The OP codes (R27). -/
def Op.code : Op → BitVec 4
  | .read => 1
  | .write => 2
  | .holdRead => 3
  | .commit => 4
  | .bulkStart => 5
  | .bulkQuery => 6
  | .bulkAbort => 7

/-- The operation an OP code names, none for an unused code (R27). -/
def Op.ofCode (c : BitVec 4) : Option Op :=
  [Op.read, .write, .holdRead, .commit, .bulkStart, .bulkQuery, .bulkAbort].find? (fun o => o.code == c)

/-- The GUARD_ACT codes (R27). -/
def GuardAct.code : GuardAct → BitVec 2
  | .keep => 0
  | .set => 1
  | .clear => 2

/-- The guard action a code names, none for the unused code 3 (R27). -/
def GuardAct.ofCode (c : BitVec 2) : Option GuardAct :=
  [GuardAct.keep, .set, .clear].find? (fun a => a.code == c)

/-- The BULK_KIND codes (R27). -/
def BulkKind.code : BulkKind → BitVec 2
  | .fill => 1
  | .check => 2
  | .scrub => 3

/-- The kind of job a code names, none for the unused code 0 (R27). -/
def BulkKind.ofCode (c : BitVec 2) : Option BulkKind :=
  [BulkKind.fill, .check, .scrub].find? (fun k => k.code == c)

/-- The KIND codes (R27). -/
def Kind.code : Kind → BitVec 4
  | .req => 1
  | .ans => 2
  | .done => 3
  | .loop => 4

/-- The kind of frame a KIND code names, none for an unused code (R26, R27). -/
def Kind.ofCode (c : BitVec 4) : Option Kind :=
  [Kind.req, .ans, .done, .loop].find? (fun k => k.code == c)

/-- The frame codes of the answer statuses (R38). -/
def Status.code : Status → BitVec 4
  | .ok => 0
  | .corrected => 1
  | .uncorrectable => 2
  | .outOfRange => 3
  | .guardFault => 4
  | .privFault => 5
  | .alreadyHeld => 6
  | .holdLost => 7
  | .retry => 8
  | .accepted => 9
  | .busy => 10
  | .noJob => 11
  | .notOwner => 12
  | .aborted => 13

/-- The status a frame code names, none for the unused codes Eh and Fh (R27, R38). -/
def Status.ofCode (c : BitVec 4) : Option Status :=
  [Status.ok, .corrected, .uncorrectable, .outOfRange, .guardFault, .privFault, .alreadyHeld, .holdLost,
    .retry, .accepted, .busy, .noJob, .notOwner, .aborted].find? (fun s => s.code == c)

/-- The number of a completion code on the completion status pins (R39). -/
def Code.number : Code → BitVec 5
  | .answer st => st.code.setWidth 5
  | .posted => 16
  | .readOnly => 17
  | .noAccess => 18
  | .noWindow => 19
  | .badRequest => 20
  | .noStation => 21
  | .timeout => 22
  | .ringDown => 23
  | .retryLimit => 24

/-- The OUTCOME codes (R27). -/
def JobOutcome.code : JobOutcome → BitVec 1
  | .complete => 0
  | .mismatch => 1

/-- One bit for a flag: set 1, clear 0. -/
def bit (b : Bool) : BitVec 1 := BitVec.ofBool b

/-- The operation of a command. -/
def Command.op : Command → Op
  | .read => .read
  | .write .. => .write
  | .holdRead => .holdRead
  | .commit .. => .commit
  | .bulkStart .. => .bulkStart
  | .bulkQuery => .bulkQuery
  | .bulkAbort => .bulkAbort

/-! ### The check sequence (R37) -/

/-- One bit of the frame taken into the remainder. -/
def crcBit (rem : BitVec 16) (b : Bool) : BitVec 16 :=
  if rem.msb != b then (rem <<< 1) ^^^ 0x1021#16 else rem <<< 1

/-- The remainder after a run of bits, first bit first. -/
def crcBits (rem : BitVec 16) (bits : List Bool) : BitVec 16 := bits.foldl crcBit rem

/-- The bits of a run of bytes in the order they are sent: bit 7 of the first byte first (R25). -/
def sentBits {w : Nat} (x : BitVec w) : List Bool := (List.range w).map (fun i => x.getMsbD i)

/-- The check sequence of bytes 0 to 13. -/
def checkSequence (body : BitVec 112) : BitVec 16 := crcBits 0xFFFF#16 (sentBits body)

/-- A whole frame: its fourteen bytes with their check sequence as bytes 14 and 15. -/
def Frame.sealed (body : BitVec 112) : Frame := body ++ checkSequence body

/-- Bytes 0 to 13 of a frame. -/
def Frame.body (f : Frame) : BitVec 112 := f.extractLsb' 16 112

/-- The comparison of R14. -/
def Frame.checked (f : Frame) : Bool := checkSequence (Frame.body f) == f.extractLsb' 0 16

/-! ### Reading fields (R27) -/

/-- The `len` bits of a frame whose least significant one is bit `lsb` of byte `byte`; a field of more
than one byte runs into the bytes before it (R25). -/
def Frame.field (f : Frame) (byte lsb len : Nat) : BitVec len := f.extractLsb' (8 * (15 - byte) + lsb) len

def Frame.kind (f : Frame) : Option Kind := Kind.ofCode (Frame.field f 0 4 4)
/-- OP of a REQ, none for an unused code. -/
def Frame.op (f : Frame) : Option Op := Op.ofCode (Frame.field f 0 0 4)
def Frame.status (f : Frame) : Option Status := Status.ofCode (Frame.field f 0 0 4)
def Frame.dest (f : Frame) : Station := Frame.field f 1 4 3
def Frame.origin (f : Frame) : Station := Frame.field f 1 0 3
def Frame.tag (f : Frame) : Tag := Frame.field f 2 4 4
def Frame.port (f : Frame) : Port := Port.ofCode (Frame.field f 2 2 2)
def Frame.privileged (f : Frame) : Bool := Frame.field f 2 1 1 == 1#1
def Frame.guard (f : Frame) : Bool := Frame.field f 2 0 1 == 1#1
def Frame.guardAct (f : Frame) : Option GuardAct := GuardAct.ofCode (Frame.field f 3 6 2)
def Frame.lanes (f : Frame) : Lanes := Frame.field f 3 0 4
def Frame.serial (f : Frame) : Serial := Frame.field f 3 0 8
def Frame.page (f : Frame) : Page := Frame.field f 4 0 5
def Frame.offset (f : Frame) : Offset := Frame.field f 6 0 13
def Frame.data (f : Frame) : Word := Frame.field f 10 0 32
def Frame.count (f : Frame) : Count := Frame.field f 12 0 14
/-- BULK_KIND of a REQ, none for code 0. -/
def Frame.jobKind (f : Frame) : Option BulkKind := BulkKind.ofCode (Frame.field f 13 0 2)
/-- BULK_KIND of a DONE, none for code 0. -/
def Frame.doneKind (f : Frame) : Option BulkKind := BulkKind.ofCode (Frame.field f 0 2 2)
def Frame.outcome (f : Frame) : JobOutcome := if Frame.field f 0 0 1 = 1#1 then .mismatch else .complete
def Frame.firstMismatch (f : Frame) : Offset := Frame.field f 5 0 13
def Frame.tallies (f : Frame) : Tallies where
  done := Frame.field f 8 2 14
  skipped := Frame.field f 10 4 14
  corrected := Frame.field f 12 6 14
  uncorrectable := Frame.field f 13 0 14
/-- PROGRESS of a bulk answer, none where PSTATE carries code 0 or 3 (R34). -/
def Frame.progress (f : Frame) : Option Progress :=
  let rest (waiting : Bool) : Progress :=
    { waiting, next := Frame.field f 4 0 13, remaining := Frame.field f 6 0 14, tallies := Frame.tallies f }
  if Frame.field f 3 6 2 = 1#2 then some (rest false)
  else if Frame.field f 3 6 2 = 2#2 then some (rest true) else none

/-- OFFSET plus COUNT stays within the page and COUNT is at least 1 (R46, R30). -/
def countFits (offset : Offset) (count : Count) : Bool :=
  decide (1 ≤ count.toNat) && decide (offset.toNat + count.toNat ≤ 8192)

/-- A COMMIT with its release written in one way: an empty lane mask carries no data and KEEP
(R28, R110). -/
def mkCommit (lanes : Lanes) (data : Word) (act : GuardAct) : Command :=
  if lanes = 0 then .commit 0 0 .keep else .commit lanes data act

/-- A BULK_START; SCRUB carries no pattern (R28). -/
def mkBulkStart (kind : BulkKind) (pattern : Word) (count : Count) : Command :=
  .bulkStart kind (if kind = .scrub then 0 else pattern) count

/-- The command of a REQ frame, none where the frame is malformed (R30). -/
def Frame.command (f : Frame) : Option Command :=
  match Frame.op f with
  | none => none
  | some .read => some .read
  | some .write =>
    match Frame.guardAct f with
    | none => none
    | some act => if Frame.lanes f = 0 then none else some (.write (Frame.lanes f) (Frame.data f) act)
  | some .holdRead => some .holdRead
  | some .commit => (Frame.guardAct f).map (mkCommit (Frame.lanes f) (Frame.data f))
  | some .bulkStart =>
    match Frame.jobKind f with
    | none => none
    | some k =>
      if countFits (Frame.offset f) (Frame.count f) && Frame.port f == .p then
        some (mkBulkStart k (Frame.data f) (Frame.count f))
      else none
  | some .bulkQuery => some .bulkQuery
  | some .bulkAbort => some .bulkAbort

/-- The request of a REQ frame, its present fields alone (R25, R29), none where it is malformed. -/
def Frame.request (f : Frame) : Option Request :=
  (Frame.command f).map fun c =>
    { command := c, privileged := Frame.privileged f, page := Frame.page f, offset := Frame.offset f }

/-! ### Making frames -/

/-- GUARD_ACT and LANES of a REQ, 0 where absent (R28). -/
def Command.mask : Command → BitVec 2 × Lanes
  | .write lanes _ act => (act.code, lanes)
  | .commit lanes _ act => (act.code, lanes)
  | _ => (0, 0)

/-- DATA of a REQ, 0 where absent (R28). -/
def Command.data : Command → Word
  | .write _ d _ => d
  | .commit _ d _ => d
  | .bulkStart _ pattern _ => pattern
  | _ => 0

/-- COUNT and BULK_KIND of a REQ, 0 where absent (R28). -/
def Command.job : Command → Count × BitVec 2
  | .bulkStart k _ count => (count, k.code)
  | _ => (0, 0)

/-- The REQ frame of a request (R28). -/
def reqFrame (own dest : Station) (tag : Tag) (port : Port) (r : Request) : Frame :=
  Frame.sealed (1#4 ++ r.command.op.code ++ 0#1 ++ dest ++ 0#1 ++ own ++ tag ++ port.code ++ bit r.privileged
    ++ 0#1 ++ r.command.mask.1 ++ 0#2 ++ r.command.mask.2 ++ 0#3 ++ r.page ++ 0#3 ++ r.offset
    ++ r.command.data ++ 0#2 ++ r.command.job.1 ++ 0#6 ++ r.command.job.2)

def Tallies.bits (t : Tallies) : BitVec 56 := t.done ++ t.skipped ++ t.corrected ++ t.uncorrectable

/-- The PSTATE and bulk state codes of a job under way (R27, R178). -/
def waitingCode (waiting : Bool) : BitVec 2 := if waiting then 2 else 1

/-- The ANS frame of an answer (R31, R32). -/
def ansFrame (own dest : Station) (tag : Tag) (port : Port) (st : Status) : AnswerBody → Frame
  | .word g d =>
    Frame.sealed (2#4 ++ st.code ++ 0#1 ++ dest ++ 0#1 ++ own ++ tag ++ port.code ++ 0#1 ++ bit g
      ++ 0#32 ++ d ++ 0#24)
  | .bulk pr =>
    Frame.sealed (2#4 ++ st.code ++ 0#1 ++ dest ++ 0#1 ++ own ++ tag ++ port.code ++ 0#2
      ++ waitingCode pr.waiting ++ 0#1 ++ pr.next ++ 0#2 ++ pr.remaining ++ pr.tallies.bits)

/-- The RETRY answer made in place from an arriving REQ (R33). -/
def retryFrame (f : Frame) : Frame :=
  ansFrame (Frame.dest f) (Frame.origin f) (Frame.tag f) (Frame.port f) .retry (.word false 0)

/-- The DONE frame of a bulk job (R35); FIRST_MISMATCH is present when given. -/
def doneFrame (own : Station) (owner : Holder) (kind : BulkKind) (outcome : JobOutcome) (t : Tallies)
    (first : Option Offset) : Frame :=
  Frame.sealed (3#4 ++ kind.code ++ 0#1 ++ outcome.code ++ 0#1 ++ owner.station ++ 0#1 ++ own ++ 0#4
    ++ owner.port.code ++ 0#2 ++ 0#8 ++ bit first.isSome ++ 0#2 ++ first.getD 0 ++ 0#8 ++ t.bits)

/-- The LOOP frame of a probe (R36). -/
def loopFrame (own : Station) (serial : Serial) : Frame :=
  Frame.sealed (4#4 ++ 0#4 ++ 0#5 ++ own ++ 0#8 ++ serial ++ 0#80)

/-! ### The table's words -/

/-- The command a table word spells: none, since spec/opcode_table.json gives no row any bits. -/
def decodeTableWord (_nbits _w : Nat) : Option Instr := none

end Sys2Proof
end

