-- ==== Sys2Proof/Config.lean ====
section
/-! DEFINITION. The fixed numbers of the part and its free values. -/

namespace Sys2Proof.Config

/-- Frames in the pass-through buffer (R19). -/
def passThroughPlaces : Nat := 3
/-- Places of the transmit queue (R22). -/
def transmitPlaces : Nat := 6
/-- Frames in the inbound request queue (R17). -/
def inboundPlaces : Nat := 8
/-- Entries of the deferred queue (R137). -/
def deferredPlaces : Nat := 12
/-- Notices in the notice queue (R168). -/
def noticePlaces : Nat := 8
/-- Serials in the recent-probe set (R6). -/
def recentPlaces : Nat := 8
/-- The probe timer, µs (R5). -/
def probePeriod : Nat := 100
/-- The refresh timer, µs (R88). -/
def refreshPeriod : Nat := 10
/-- The hold limit, µs (R121). -/
def holdLimit : Nat := 64
/-- The resend limit (R69). -/
def resendLimit : Nat := 6
/-- Words in a page. -/
def pageWords : Nat := 8192

/-- FREE VALUE: the stored word at an address that has not been written since the release of the last
cold reset, in the given cold-reset epoch (R85: "every word of the bank is unknown"; log entry 9). -/
opaque coldWord : Nat → Nat → StoredWord

/-- FREE VALUE: the stored word left by an operation that a cold reset cut short, by epoch and address
(R85, R106: "its word in any state"; log entry 10). -/
opaque cutShortWord : Nat → Nat → StoredWord

/-- FREE VALUE: which of the three results a stored word with three or more wrong bits is "decoded as", and
which bit a single result changes (R86; log entry 8). -/
opaque manyWrong : StoredWord → Misread

end Sys2Proof.Config
end

