-- ==== Sys2Proof/Machine/State.lean ====
section
/-! DEFINITION. The state of the station: everything the spec gives it, as plain data, and its value right after
reset. -/

namespace Sys2Proof.Machine

/-- The ring states (section 1.2). -/
inductive RingState
  | offline | probing | online | broken | conflict
  deriving DecidableEq, Repr

/-- What ring-out is sending: nothing, the oldest frame of the pass-through buffer, or the oldest frame of
the transmit queue (R20). -/
inductive Sending
  | idle | passThrough | transmit
  deriving DecidableEq, Repr

/-- A control-space access being performed (R58, R171). `refusedWrite` is a WRITE to an item that is not
writable. -/
inductive Access
  | noticeRead
  | statusRead
  | windowWrite (entry : BitVec 5) (value : Word)
  | refusedWrite
  deriving DecidableEq, Repr

/-- The state of a port with what its request place holds (R42). -/
inductive PortState
  | idle
  | atBank (request : Request)
  | toSend (target : Station) (request : Request)
  | inFlight (target : Station) (request : Request)
  | control (access : Access)
  deriving DecidableEq, Repr

/-- The request pins of a port with their present strobe (R40, R41): low, raised with a request that has not
been accepted, or raised still after its request was accepted. -/
inductive Strobe
  | low
  | presented (pins : PortRequest)
  | accepted (pins : PortRequest)
  deriving DecidableEq, Repr

/-- An entry of the window map (R47). -/
structure Window where
  valid : Bool
  target : Station
  page : Page
  readOnly : Bool
  privOnly : Bool
  deriving DecidableEq, Repr

/-- The states of an outstanding entry other than FREE (R62). -/
inductive EntryState
  | waitingAnswer | waitingResend | stale
  deriving DecidableEq, Repr

/-- An outstanding entry that is not FREE (R62). Its TAG is its index in the table. A timer of `none` in
WAITING_RESEND is a stopped backoff timer with a resend claim raised (R77). -/
structure Entry where
  state : EntryState
  port : Port
  target : Station
  request : Request
  posted : Bool
  attempts : Nat
  timer : Option Nat
  deriving DecidableEq, Repr

/-- A hold entry (R120). -/
structure Hold where
  page : Page
  offset : Offset
  holder : Holder
  timer : Nat
  stopped : Bool
  deriving DecidableEq, Repr

/-- The states of a deferred entry; SLOT is present while WAITING (R137). -/
inductive DeferredState
  | waiting (slot : Slot)
  | ready
  deriving DecidableEq, Repr

/-- A deferred entry (R137). -/
structure Deferred where
  origin : Station
  port : Port
  tag : Tag
  request : Request
  state : DeferredState
  deriving DecidableEq, Repr

/-- The job record while a job exists (R146); STATE is WAITING_HOLD exactly while SLOT is present. -/
structure Job where
  owner : Holder
  ownerTag : Option Tag
  kind : BulkKind
  privileged : Bool
  page : Page
  next : Offset
  remaining : Nat
  pattern : Word
  done : Nat
  skipped : Nat
  corrected : Nat
  uncorrectable : Nat
  slot : Option Slot
  deriving DecidableEq, Repr

/-- The notices (R166). -/
inductive Notice
  | postedFail (port : Port) (tag : Tag) (target : Station) (page : Page) (offset : Offset) (code : Code)
  | bulkDone (server : Station) (port : Port) (kind : BulkKind) (outcome : JobOutcome) (tallies : Tallies)
      (firstMismatch : Option Offset)
  | ringState (state : RingState)
  | ringDrop
  deriving DecidableEq, Repr

/-- The classes of the bank's rotation (R93). -/
inductive BankClass
  | remote | port | bulk
  deriving DecidableEq, Repr

/-- From which claim a granted request came, with what its outcome needs to reach its requester (R98).
A replay names its place in the deferred queue. -/
inductive Source
  | port (port : Port)
  | remote (origin : Station) (port : Port) (tag : Tag)
  | replay (index : Nat) (origin : Station) (port : Port) (tag : Tag)
  deriving DecidableEq, Repr

/-- What the end of a word operation does to the hold table (R121, R136). -/
inductive HoldEffect
  | keep
  | make (page : Page) (offset : Offset) (holder : Holder)
  | finish (slot : Slot)
  deriving DecidableEq, Repr

/-- The outcome of a word operation, decided within its grant and handed on at its end (R103).
`accessed` is the address of the word it reads or writes, none where it is refused before; `write` is the
word due to be written there. -/
structure WordResult where
  status : Status
  guard : Bool
  data : Word
  accessed : Option Nat
  write : Option StoredWord
  hold : HoldEffect
  deriving DecidableEq, Repr

/-- A word operation that holds the bank. `reserved` is its answer place (R97); `orphan` marks one whose
requester a warm reset has taken away (R105). -/
structure WordGrant where
  source : Source
  result : WordResult
  reserved : Bool
  orphan : Bool
  deriving DecidableEq, Repr

/-- A bulk step that holds the bank: its word, the write due, what its read counts in, whether it found a
mismatch, and its answer place (R154, R157 to R160). -/
structure StepGrant where
  address : Nat
  write : Option StoredWord
  skipped : Bool
  corrected : Bool
  uncorrectable : Bool
  mismatch : Bool
  reserved : Bool
  orphan : Bool
  deriving DecidableEq, Repr

/-- What holds the bank (R91). -/
inductive Grant
  | free
  | refresh
  | word (g : WordGrant)
  | step (g : StepGrant)
  deriving DecidableEq, Repr

/-- The bank: stored words by address, page × 8,192 + offset, addresses strictly rising; an address that
is not listed holds an unknown word (R85; log entries 7, 9, 28). -/
abbrev Memory := List (Nat × StoredWord)

/-- The station. -/
structure State where
  /-- the commands that wait, first in first out (the model's own queue) -/
  pending : List Instr
  /-- cold reset is asserted -/
  coldReset : Bool
  /-- warm reset is asserted -/
  warmReset : Bool
  /-- carrier on ring-in (R1) -/
  ringInCarrier : Bool
  /-- carrier on ring-out (R1) -/
  ringOutCarrier : Bool
  /-- the straps as last sampled -/
  straps : Straps
  ringState : RingState
  /-- µs left, none while stopped (R7) -/
  probeTimer : Option Nat
  /-- a probe claim waits for a transmit-queue place (R6) -/
  probeClaim : Bool
  probeSerial : Serial
  /-- the recent-probe set, oldest first (R6) -/
  recentProbes : List Serial
  /-- the pass-through buffer, oldest first (R19) -/
  passThrough : List Frame
  /-- the frames of the transmit queue, oldest first (R22) -/
  transmit : List Frame
  ringOut : Sending
  /-- the inbound request queue, oldest first (R17) -/
  inbound : List Frame
  /-- the request pins (R40, R41; log entry 13) -/
  strobes : PerPort Strobe
  ports : PerPort PortState
  /-- the completions given on each port since the last reset, oldest first, with a pulse of the completion strobe
  for each of their words (R59; log entry 17) -/
  completions : PerPort (List Completion)
  windows : Vector Window 32
  /-- the outstanding table by tag; none is FREE (R62) -/
  outstanding : Vector (Option Entry) 16
  mem : Memory
  /-- cold resets released so far (the model's own; log entry 9) -/
  epoch : Nat
  /-- µs left, none while stopped (R88) -/
  refreshTimer : Option Nat
  /-- a refresh claim stands (R88) -/
  refreshClaim : Bool
  rotation : BankClass
  portPointer : Port
  grant : Grant
  /-- the hold table by slot; none is an empty slot (R120) -/
  holds : Vector (Option Hold) 6
  /-- the deferred queue, oldest first (R137) -/
  deferred : List Deferred
  /-- the bulk engine; none is IDLE (R146) -/
  bulk : Option Job
  /-- FIRST_MISMATCH of the bulk engine's record (R146, R158; log entry 34) -/
  firstMismatch : Option Offset
  /-- the notice queue, head first (R168) -/
  notices : List Notice
  lost : Bool
  /-- the attention line (R169) -/
  attention : Bool
  deriving DecidableEq, Repr

/-- Why an internal event cannot happen in a state. Each is raised by the command of an event that the
part's own rules rule out there; stopping is safe (log entry 4). -/
inductive Fault
  /-- raised by the six timer expiries: the timer is not running. Safe. -/
  | timerNotRunning
  /-- raised by PROBE_CLAIM, SEND and RESEND_CLAIM: no such claim waits. Safe. -/
  | noSuchClaim
  /-- raised by PROBE_CLAIM, SEND and RESEND_CLAIM: the claim waits, since what it needs is not free. Safe. -/
  | claimMustWait
  /-- raised by REFRESH, READ to BULK_ABORT and BULK_STEP: the bank arbiter does not choose such a claim. Safe. -/
  | notTheChoice
  /-- raised by SENDING_END, REFRESH_END, WORD_OPERATION_END and BULK_STEP_END: nothing of the kind is under
  way. Safe. -/
  | nothingUnderWay
  /-- raised by NOTICE_READ, STATUS_READ, WINDOW_WRITE and CONTROL_SPACE_WRITE: port P is not in such an
  access. Safe. -/
  | noSuchAccess
  /-- raised by the arrivals: the frame belongs to another row of the table. Safe. -/
  | frameOfAnotherRow
  deriving DecidableEq, Repr

/-- Why a command has no outcome in the model. -/
inductive Refusal
  /-- raised by exec for a command that has no meaning yet (none is left). Safe. -/
  | notModelled (mnemonic : String)
  deriving DecidableEq, Repr

/-- The outcome of a command: a next state, a fault or a refusal. -/
abbrev Outcome := Host.Outcome State Fault Refusal

/-- A window entry after a reset (R49). -/
def Window.empty : Window := ⟨false, 0, 0, false, false⟩

/-- The station right after the release of a cold reset, with every strap pin 0, no ring-in carrier and every
present strobe low (DESIGN CHOICE for those pins, unsafe, log entry 6). -/
def State.reset : State where
  pending := []
  coldReset := false
  warmReset := false
  ringInCarrier := false
  ringOutCarrier := true
  straps := ⟨0, 0, false, false⟩
  ringState := .offline
  probeTimer := none
  probeClaim := false
  probeSerial := 0
  recentProbes := []
  passThrough := []
  transmit := []
  ringOut := .idle
  inbound := []
  strobes := ⟨.low, .low, .low, .low⟩
  ports := ⟨.idle, .idle, .idle, .idle⟩
  completions := ⟨[], [], [], []⟩
  windows := Vector.replicate 32 Window.empty
  outstanding := Vector.replicate 16 none
  mem := []
  epoch := 0
  refreshTimer := some Config.refreshPeriod
  refreshClaim := false
  rotation := .remote
  portPointer := .p
  grant := .free
  holds := Vector.replicate 6 none
  deferred := []
  bulk := none
  firstMismatch := none
  notices := []
  lost := false
  attention := false

end Sys2Proof.Machine
end

