-- ==== Sys2Proof/Machine/Operands.lean ====
section
/-! DEFINITION. The operands of requests: the pins of a port (R40, R43), the privilege of a request (R108), word
addresses, lane masks and merging (R101), and the check of a word read (R86). -/

namespace Sys2Proof.Machine

/-- What a port's request asks for, none where the first check of R43 refuses it. Pins that are not read
for the operation play no part (R40). -/
def pinsCommand (port : Port) (r : PortRequest) : Option Command :=
  match Op.ofCode r.op with
  | none => none
  | some .read => some .read
  | some .write =>
    match GuardAct.ofCode r.guardAct with
    | none => none
    | some act => if r.lanes = 0 then none else some (.write r.lanes r.data act)
  | some .holdRead => if port = .p then some .holdRead else none
  | some .commit =>
    match GuardAct.ofCode r.guardAct with
    | none => none
    | some act =>
      if port = .p && (r.lanes != 0 || act == .keep) then some (mkCommit r.lanes r.data act) else none
  | some .bulkStart =>
    match BulkKind.ofCode r.bulkKind with
    | none => none
    | some k => if port = .p then some (mkBulkStart k r.data r.count) else none
  | some .bulkQuery => if port = .p then some .bulkQuery else none
  | some .bulkAbort => if port = .p then some .bulkAbort else none

/-- The privilege of a request at its acceptance: a channel port's is always plain (R108). -/
def pinsPrivileged (port : Port) (r : PortRequest) : Bool := decide (port = .p) && r.privileged

/-- The request is directed at the control space: only P has the control-select line (R40, R58). -/
def pinsControl (port : Port) (r : PortRequest) : Bool := decide (port = .p) && r.control

/-- The request could change a word of the bank, so that a READ_ONLY window refuses it (R45). -/
def changesWord : Command → Bool
  | .read => false
  | .write .. => true
  | .holdRead => true
  | .commit lanes _ _ => lanes != 0
  | .bulkStart .fill _ _ => true
  | .bulkStart .scrub _ _ => true
  | .bulkStart .check _ _ => false
  | .bulkQuery => false
  | .bulkAbort => false

/-- The fifth check (R46): the bulk range stays in its page. -/
def rangeFits (offset : Offset) : Command → Bool
  | .bulkStart _ _ count => countFits offset count
  | _ => true

/-- A word address as one number (scope 4.2). -/
def wordAddress (page : Page) (offset : Offset) : Nat := page.toNat * Config.pageWords + offset.toNat

/-- The 32 data bits that a lane mask selects (R27). -/
def laneBits (lanes : Lanes) : Word :=
  let byte (i : Nat) : BitVec 8 := if lanes.getLsbD i then 0xFF else 0
  byte 3 ++ byte 2 ++ byte 1 ++ byte 0

/-- Lanes in the mask from the new data, the others from the old (R101). -/
def mergeLanes (lanes : Lanes) (new old : Word) : Word :=
  (new &&& laneBits lanes) ||| (old &&& ~~~(laneBits lanes))

/-- The guard bit that a guard action writes, from the one passed on (R110). -/
def guardAfter (act : GuardAct) (old : Bool) : Bool :=
  match act with
  | .keep => old
  | .set => true
  | .clear => false

/-- A word written whole, with fresh check bits (R84, R101). -/
def freshWord (data : Word) (guard : Bool) : StoredWord := ⟨data, guard, 0⟩

/-- How many of the 40 stored bits are wrong. -/
def wrongBits (w : StoredWord) : Nat := (List.range 40).countP (fun i => w.wrong.getLsbD i)

/-- The data that a stored word gives where these of its 40 bits are wrong. -/
def dataWith (w : StoredWord) (wrong : BitVec 40) : Word := w.data ^^^ wrong.extractLsb' 0 32

/-- The guard bit that a stored word gives where these of its 40 bits are wrong. -/
def guardWith (w : StoredWord) (wrong : BitVec 40) : Bool := w.guard ^^ wrong.getLsbD 32

/-- A word with three or more wrong bits, decoded as the free value says: as clean its stored bits are passed on,
as single its stored bits with one of them changed (R86; log entry 8). -/
def misread (w : StoredWord) : CheckResult :=
  match Config.manyWrong w with
  | .clean => .clean (dataWith w w.wrong) (guardWith w w.wrong)
  | .single i =>
    .single (dataWith w (w.wrong ^^^ (1#40 <<< i.val))) (guardWith w (w.wrong ^^^ (1#40 <<< i.val)))
  | .double => .double

/-- The check of a word read (R86). -/
def checkWord (w : StoredWord) : CheckResult :=
  match wrongBits w with
  | 0 => .clean w.data w.guard
  | 1 => .single w.data w.guard
  | 2 => .double
  | _ => misread w

/-- The pages of the bank by the PAGES strap; the fourth encoding is taken as 8 pages (R84). -/
def pageCount (straps : Straps) : Nat :=
  if straps.pages = 1 then 16 else if straps.pages = 2 then 32 else 8

/-- The answer timeout and the quarantine, µs (R64). -/
def answerTimeout (straps : Straps) : Nat := if straps.long then 800 else 200

/-- The port that follows in the order P, C1, C2, C3 and round (R94). -/
def nextPort : Port → Port
  | .p => .c1
  | .c1 => .c2
  | .c2 => .c3
  | .c3 => .p

end Sys2Proof.Machine
end

