-- ==== Sys2Proof/Machine/Flags.lean ====
section
/-! DEFINITION. The views of the station's state that software reads: the control-space layouts (R178), PROGRESS as
data words (R59), and the level of the attention line (R169). -/

namespace Sys2Proof.Machine

/-- The level of the attention line (R169). -/
def attentionLevel (notices : List Notice) (lost : Bool) : Bool := !notices.isEmpty || lost

/-- The ring-state codes of STATUS (R178). -/
def RingState.code : RingState → BitVec 3
  | .offline => 0
  | .probing => 1
  | .online => 2
  | .broken => 3
  | .conflict => 4

/-- A count in a field. -/
def countField (n w : Nat) : BitVec w := BitVec.ofNat w n

/-- The PAGES code STATUS shows: 8 pages for the fourth pin encoding (R84, R174). -/
def pagesCode (straps : Straps) : BitVec 2 := if straps.pages = 3 then 0 else straps.pages

/-- The bulk-state codes (R178). -/
def bulkCode : Option Job → BitVec 2
  | none => 0
  | some j => waitingCode j.slot.isSome

/-- A WINDOW item (R178). -/
def windowWord (w : Window) : Word :=
  bit w.valid ++ 0#13 ++ bit w.privOnly ++ bit w.readOnly ++ 0#5 ++ w.target ++ 0#3 ++ w.page

/-- The entry that a WINDOW write stores (R173, R178). -/
def windowOfWord (x : Word) : Window where
  valid := x.getLsbD 31
  target := x.extractLsb' 8 3
  page := x.extractLsb' 0 5
  readOnly := x.getLsbD 16
  privOnly := x.getLsbD 17

/-- Outstanding entries in a state (R82). -/
def entryCount (table : Vector (Option Entry) 16) (st : EntryState) : Nat :=
  table.toList.countP (fun e => match e with | some e => e.state == st | none => false)

/-- Slots holding an entry (R145). -/
def holdCount (holds : Vector (Option Hold) 6) : Nat := holds.toList.countP (fun h => h.isSome)

/-- The two words of STATUS (R174, R178). -/
def statusWords (s : State) : List Word :=
  [0#11 ++ bit s.lost ++ countField s.notices.length 4 ++ 0#2 ++ bulkCode s.bulk ++ bit s.straps.long
      ++ bit s.straps.guardOn ++ pagesCode s.straps ++ 0#1 ++ s.straps.station ++ 0#1 ++ s.ringState.code,
   0#8 ++ countField s.deferred.length 4 ++ 0#1 ++ countField (holdCount s.holds) 3 ++ 0#1
      ++ countField (entryCount s.outstanding .stale) 5
      ++ countField (entryCount s.outstanding .waitingResend) 5
      ++ countField (entryCount s.outstanding .waitingAnswer) 5]

/-- The three words of a notice (R178). A FIRST_MISMATCH that is absent leaves its value bits 0 (DESIGN CHOICE, safe,
log entry 32); the PORT of a BULK_DONE shows as its DONE frame carried it (DESIGN CHOICE, safe, log entry 33). -/
def noticeWords : Notice → List Word
  | .postedFail port tag target page offset code =>
    [1#4 ++ port.code ++ tag ++ target ++ page ++ 0#1 ++ offset, 0#27 ++ code.number, 0]
  | .bulkDone server port kind outcome t first =>
    [2#4 ++ port.code ++ kind.code ++ outcome.code ++ 0#1 ++ server ++ 0#5 ++ bit first.isSome ++ first.getD 0,
     0#2 ++ t.done ++ 0#2 ++ t.skipped,
     0#2 ++ t.corrected ++ 0#2 ++ t.uncorrectable]
  | .ringState st => [3#4 ++ 0#9 ++ st.code ++ 0#16, 0, 0]
  | .ringDrop => [4#4 ++ 0#28, 0, 0]

/-- What a NOTICE read returns: the head, or kind EMPTY (R175). -/
def noticeReadWords : List Notice → List Word
  | [] => [0, 0, 0]
  | n :: _ => noticeWords n

/-- A HOLD item (R176, R178). -/
def holdWord : Option Hold → Word
  | none => 0
  | some h =>
    1#1 ++ bit h.stopped ++ h.holder.station ++ h.holder.port.code ++ countField h.timer 7 ++ h.page ++ h.offset

/-- The tallies of a job as frames carry them. -/
def jobTallies (j : Job) : Tallies :=
  ⟨countField j.done 14, countField j.skipped 14, countField j.corrected 14, countField j.uncorrectable 14⟩

/-- PROGRESS of a job as it stands (R31, R151). -/
def jobProgress (j : Job) : Progress :=
  { waiting := j.slot.isSome, next := j.next, remaining := countField j.remaining 14, tallies := jobTallies j }

/-- The two tally words that PROGRESS and the BULK item share (R59, R178). -/
def tallyWords (t : Tallies) : List Word :=
  [0#2 ++ t.done ++ 0#2 ++ t.skipped, 0#2 ++ t.corrected ++ 0#2 ++ t.uncorrectable]

/-- PROGRESS as three data words (R59). -/
def progressWords (pr : Progress) : List Word :=
  (waitingCode pr.waiting ++ 0#1 ++ pr.next ++ 0#2 ++ pr.remaining) :: tallyWords pr.tallies

/-- A slot number in its three bits, 0 where absent (DESIGN CHOICE, safe, log entry 32). -/
def slotField (slot : Option Slot) : BitVec 3 :=
  match slot with
  | none => 0
  | some i => BitVec.ofNat 3 i.val

/-- The five words of BULK (R177, R178). An OWNER_TAG or SLOT that is absent leaves its value bits 0 (DESIGN CHOICE,
safe, log entry 32). -/
def bulkWords : Option Job → List Word
  | none => [0, 0, 0, 0, 0]
  | some j =>
    [waitingCode j.slot.isSome ++ j.kind.code ++ bit j.privileged ++ j.owner.station ++ j.owner.port.code
        ++ bit j.ownerTag.isSome ++ j.ownerTag.getD 0 ++ bit j.slot.isSome ++ slotField j.slot ++ 0#8 ++ j.page,
     0#3 ++ j.next ++ 0#2 ++ countField j.remaining 14,
     j.pattern] ++ tallyWords (jobTallies j)

/-- The data words of an answer on a port (R59). -/
def bodyWords : AnswerBody → List Word
  | .word _ d => [d]
  | .bulk pr => progressWords pr

/-- The guard flag of an answer on a port (R59). -/
def bodyGuard : AnswerBody → Bool
  | .word g _ => g
  | .bulk _ => false

/-- A completion with one data word of 0 and a guard flag of 0. -/
def plainCompletion (code : Code) : Completion := ⟨code, [0], false⟩

/-- The completion that gives an outcome on a port (R59). -/
def answerCompletion (st : Status) (body : AnswerBody) : Completion :=
  ⟨.answer st, bodyWords body, bodyGuard body⟩

/-- The completion of a control-space access that was performed (R172). Its guard flag, of which the spec says
nothing, is 0 (DESIGN CHOICE, safe, log entry 31). -/
def okCompletion (words : List Word) : Completion := ⟨.answer .ok, words, false⟩

end Sys2Proof.Machine
end

