-- ==== Sys2Proof/Machine/Ops.lean ====
section
/-! DEFINITION. The named operations on the station's state that the meanings share. -/

namespace Sys2Proof.Machine

/-! ### Ports, tables, memory -/

/-- What is kept for a port. -/
def portGet {α : Type} (x : PerPort α) : Port → α
  | .p => x.p
  | .c1 => x.c1
  | .c2 => x.c2
  | .c3 => x.c3

/-- `x` with what is kept for one port replaced. -/
def portSet {α : Type} (x : PerPort α) (port : Port) (v : α) : PerPort α :=
  match port with
  | .p => { x with p := v }
  | .c1 => { x with c1 := v }
  | .c2 => { x with c2 := v }
  | .c3 => { x with c3 := v }

/-- The tags in ascending order. -/
def allTags : List Tag := [0, 1, 2, 3, 4, 5, 6, 7, 8, 9, 10, 11, 12, 13, 14, 15]

/-- The slots in ascending order. -/
def allSlots : List Slot := [0, 1, 2, 3, 4, 5]

/-- The ports in the order P, C1, C2, C3, from one of them onward (R94). -/
def portsFrom (port : Port) : List Port :=
  [port, nextPort port, nextPort (nextPort port), nextPort (nextPort (nextPort port))]

/-- What is kept for the ports, each changed in one way. -/
def portMap {α : Type} (f : α → α) (x : PerPort α) : PerPort α := ⟨f x.p, f x.c1, f x.c2, f x.c3⟩

/-- The request pins of a port. -/
def State.strobe (s : State) (port : Port) : Strobe := portGet s.strobes port

/-- The state of a port. -/
def State.port (s : State) (port : Port) : PortState := portGet s.ports port

/-- The outstanding entry of a tag, none when FREE. -/
def State.entry (s : State) (tag : Tag) : Option Entry := s.outstanding.get tag.toFin

/-- The hold entry of a slot. -/
def State.slot (s : State) (i : Slot) : Option Hold := s.holds.get i

/-- The window map entry of a window. -/
def State.window (s : State) (n : BitVec 5) : Window := s.windows.get n.toFin

/-- The stored word at an address, none where none is listed. -/
def Memory.lookup : Memory → Nat → Option StoredWord
  | [], _ => none
  | (b, w) :: m, a => if b = a then some w else Memory.lookup m a

/-- The bank with a word stored; the addresses stay strictly rising. -/
def Memory.write : Memory → Nat → StoredWord → Memory
  | [], a, w => [(a, w)]
  | (b, v) :: m, a, w =>
    if a < b then (a, w) :: (b, v) :: m
    else if a = b then (a, w) :: m
    else (b, v) :: Memory.write m a w

/-- The canonical form: addresses strictly rising (log entry 28). -/
def Memory.wf : Memory → Bool
  | [] => true
  | [_] => true
  | (a, _) :: (b, w) :: m => decide (a < b) && Memory.wf ((b, w) :: m)

/-- The stored word at an address: what was last written, or the free value of an unknown word (R85). -/
def State.word (s : State) (a : Nat) : StoredWord := (Memory.lookup s.mem a).getD (Config.coldWord s.epoch a)

/-- A word written at the end of a grant, if one is due. -/
def State.writeDue (s : State) (a : Nat) (w : Option StoredWord) : State :=
  { s with mem := match w with | none => s.mem | some w => Memory.write s.mem a w }

/-- The own station number. -/
def State.own (s : State) : Station := s.straps.station

/-- Either reset is asserted. -/
def State.inReset (s : State) : Bool := s.coldReset || s.warmReset

/-! ### The transmit queue and ring-out -/

/-- The grant on the bank holds a reserved place of the transmit queue (R97). -/
def grantReserves : Grant → Bool
  | .free => false
  | .refresh => false
  | .word g => g.reserved
  | .step g => g.reserved

/-- Places of the transmit queue that are occupied or reserved (R22). -/
def State.usedPlaces (s : State) : Nat := s.transmit.length + (if grantReserves s.grant then 1 else 0)

/-- The transmit queue has a free place (R22). -/
def State.freePlace (s : State) : Bool := decide (s.usedPlaces < Config.transmitPlaces)

/-- The station may insert a frame of its transmit queue (R21). -/
def mayInsert (st : RingState) (f : Frame) : Bool :=
  match st with
  | .online => true
  | .probing => Frame.kind f == some .loop
  | _ => false

/-- The choice of the ring-out arbiter while ring-out is free (R21). -/
def ringOutChoice (st : RingState) (passThrough transmit : List Frame) : Sending :=
  match passThrough, transmit with
  | _ :: _, _ => .passThrough
  | [], f :: _ => if mayInsert st f then .transmit else .idle
  | [], [] => .idle

/-- The ring-out arbiter makes its choice if ring-out is free (R21). -/
def State.chooseRingOut (s : State) : State :=
  { s with
    ringOut :=
      match s.ringOut with
      | .idle => ringOutChoice s.ringState s.passThrough s.transmit
      | x => x }

/-- A frame is placed at the tail of the transmit queue (R22). -/
def State.placeTransmit (s : State) (f : Frame) : State :=
  State.chooseRingOut { s with transmit := s.transmit ++ [f] }

/-- An answer or DONE frame is handed to the transmit queue (R24). `reserved` says that its grant had
reserved a place. -/
def State.handFrame (s : State) (f : Frame) (reserved : Bool) : State :=
  if s.ringState = .online && (reserved || s.freePlace) then s.placeTransmit f else s

/-! ### Notices and completions -/

/-- A notice is placed, or lost at a full queue (R168); attention follows (R169). -/
def State.placeNotice (s : State) (n : Notice) : State :=
  { s with
    notices := if s.notices.length < Config.noticePlaces then s.notices ++ [n] else s.notices
    lost := if s.notices.length < Config.noticePlaces then s.lost else true
    attention := true }

/-- A frame is placed at the tail of the pass-through buffer, or dropped with a notice (R19). -/
def State.placePass (s : State) (f : Frame) : State :=
  if s.passThrough.length < Config.passThroughPlaces then
    State.chooseRingOut { s with passThrough := s.passThrough ++ [f] }
  else s.placeNotice .ringDrop

/-- A port enters a state. -/
def State.setPort (s : State) (port : Port) (st : PortState) : State :=
  { s with ports := portSet s.ports port st }

/-- A port's request pins change. -/
def State.setStrobe (s : State) (port : Port) (x : Strobe) : State :=
  { s with strobes := portSet s.strobes port x }

/-- A completion is given on a port and its request place becomes empty (R59, R41). -/
def State.complete (s : State) (port : Port) (c : Completion) : State :=
  { s with
    ports := portSet s.ports port .idle
    completions := portSet s.completions port (portGet s.completions port ++ [c]) }

/-! ### The outstanding table -/

/-- An outstanding entry changes. -/
def State.setEntry (s : State) (tag : Tag) (e : Option Entry) : State :=
  { s with outstanding := s.outstanding.set tag.toNat e tag.isLt }

/-- The end of an entry is reported: a completion on its port, or for a posted write a notice unless the
write was done (R68, R78). -/
def State.reportEnd (s : State) (tag : Tag) (e : Entry) (c : Completion) : State :=
  if e.posted then
    if c.code = .answer .ok || c.code = .answer .corrected then s
    else s.placeNotice (.postedFail e.port tag e.target e.request.page e.request.offset c.code)
  else s.complete e.port c

/-- An entry ends: it becomes FREE and is reported (R68). -/
def State.endEntry (s : State) (tag : Tag) (e : Entry) (c : Completion) : State :=
  (s.setEntry tag none).reportEnd tag e c

/-- One entry ends with RING_DOWN if it is waiting (R79). -/
def State.endIfWaiting (s : State) (tag : Tag) : State :=
  match s.entry tag with
  | some e => if e.state = .stale then s else s.endEntry tag e (plainCompletion .ringDown)
  | none => s

/-- One port completes with RING_DOWN if it is in TO_SEND (R55). -/
def State.endToSend (s : State) (port : Port) : State :=
  match s.port port with
  | .toSend _ _ => s.complete port (plainCompletion .ringDown)
  | _ => s

/-- The ring leaves PROBING or ONLINE for BROKEN or CONFLICT: waiting entries in ascending order of tag,
then waiting ports, complete with RING_DOWN (R79, R55). -/
def State.ringDown (s : State) : State :=
  (portsFrom .p).foldl State.endToSend (allTags.foldl State.endIfWaiting s)

/-- The REQ frame of an entry (R28). -/
def State.entryFrame (s : State) (tag : Tag) (e : Entry) : Frame :=
  reqFrame s.own e.target tag e.port e.request

/-- An entry in WAITING_RESEND resends (R76). -/
def State.resend (s : State) (tag : Tag) (e : Entry) : State :=
  State.placeTransmit
    (s.setEntry tag (some { e with
      state := .waitingAnswer, attempts := e.attempts + 1, timer := some (answerTimeout s.straps) }))
    (s.entryFrame tag e)

/-- The lowest-numbered FREE tag (R65). -/
def State.lowestFree (s : State) : Option Tag := allTags.find? (fun t => (s.entry t).isNone)

/-- An entry other than FREE holds this port's word of this station (R53, R66). -/
def State.wordBusy (s : State) (port : Port) (target : Station) (r : Request) : Bool :=
  allTags.any fun t =>
    match s.entry t with
    | some e => e.port == port && e.target == target && e.request.page == r.page && e.request.offset == r.offset
    | none => false

/-- The tag under which a request would be sent now; none unless the three conditions of R53 hold. -/
def State.sendTag (s : State) (port : Port) (target : Station) (r : Request) : Option Tag :=
  if s.wordBusy port target r || !s.freePlace then none else s.lowestFree

/-- A WRITE from a channel port is posted (R56). -/
def isPosted (port : Port) (c : Command) : Bool := decide (port ≠ .p) && decide (c.op = .write)

/-- The entry of a request that is sent now (R65). -/
def State.newEntry (s : State) (port : Port) (target : Station) (r : Request) : Entry where
  state := .waitingAnswer
  port := port
  target := target
  request := r
  posted := isPosted port r.command
  attempts := 0
  timer := some (answerTimeout s.straps)

/-- A request is sent under a tag (R53, R65, R56). -/
def State.sendRequest (s : State) (port : Port) (target : Station) (r : Request) (tag : Tag) : State :=
  let e := s.newEntry port target r
  let s1 := (s.setEntry tag (some e)).placeTransmit (s.entryFrame tag e)
  if e.posted then s1.complete port (plainCompletion .posted) else s1.setPort port (.inFlight target r)

/-! ### Holds -/

/-- The hold entry on a word, with its slot (R125). -/
def State.holdOn (s : State) (page : Page) (offset : Offset) : Option (Slot × Hold) :=
  allSlots.findSome? fun i =>
    match s.slot i with
    | some h => if h.page = page && h.offset = offset then some (i, h) else none
    | none => none

/-- The lowest-numbered empty slot (R121). -/
def State.emptySlot (s : State) : Option Slot := allSlots.find? (fun i => (s.slot i).isNone)

/-- A slot changes. -/
def State.setSlot (s : State) (i : Slot) (h : Option Hold) : State :=
  { s with holds := s.holds.set i.val h i.isLt }

/-- A hold is made in the lowest-numbered empty slot (R121, R130). -/
def State.makeHold (s : State) (page : Page) (offset : Offset) (holder : Holder) : State :=
  match s.emptySlot with
  | some i => s.setSlot i (some ⟨page, offset, holder, Config.holdLimit, false⟩)
  | none => s

/-- A deferred entry that waits on an ended hold becomes READY (R136). -/
def readied (i : Slot) (d : Deferred) : Deferred := if d.state = .waiting i then { d with state := .ready } else d

/-- The bulk engine is told of the end of a hold (R156). -/
def engineTold (i : Slot) (b : Option Job) : Option Job :=
  b.map fun j => if j.slot = some i then { j with slot := none } else j

/-- A hold ends (R136). -/
def State.endHold (s : State) (i : Slot) : State :=
  { s with
    holds := s.holds.set i.val none i.isLt
    deferred := s.deferred.map (readied i)
    bulk := engineTold i s.bulk }

/-- What the end of a word operation does to the hold table. -/
def State.applyHold (s : State) : HoldEffect → State
  | .keep => s
  | .make page offset holder => s.makeHold page offset holder
  | .finish i => s.endHold i

/-! ### Handing on an outcome -/

/-- The outcome of a request reaches its requester: a completion on the port, or an answer frame; a
replayed entry leaves the deferred queue (R103, R140, R32). -/
def State.deliver (s : State) (src : Source) (st : Status) (body : AnswerBody) (reserved : Bool) : State :=
  match src with
  | .port port => s.complete port (answerCompletion st body)
  | .remote origin port tag => s.handFrame (ansFrame s.own origin tag port st body) reserved
  | .replay k origin port tag =>
    State.handFrame { s with deferred := s.deferred.eraseIdx k } (ansFrame s.own origin tag port st body) reserved

/-! ### Probes -/

/-- The recent-probe set with one more serial, at most 8 of them (R6). -/
def addRecent (recent : List Serial) (x : Serial) : List Serial :=
  if recent.length < Config.recentPlaces then recent ++ [x] else (recent ++ [x]).drop 1

/-- The probe that a claim places (R6). -/
def State.placeProbe (s : State) : State :=
  State.placeTransmit
    { s with
      probeClaim := false
      recentProbes := addRecent s.recentProbes s.probeSerial
      probeSerial := s.probeSerial + 1 }
    (loopFrame s.own s.probeSerial)

/-- A probe claim just raised takes a free place at once, else it waits (R6). -/
def State.takeClaim (s : State) : State := if s.freePlace then s.placeProbe else s

/-! ### Ring-state entries -/

/-- The entry actions of PROBING: the set is emptied, a probe claim is raised and the timer starts (R5). -/
def State.beginProbing (s : State) : State :=
  { s with
    ringState := .probing
    recentProbes := []
    probeClaim := true
    probeTimer := some Config.probePeriod }

/-- Entry into PROBING: the claim raised is taken if a place is free (R5, R6). -/
def State.enterProbing (s : State) : State := s.beginProbing.takeClaim

/-- Entry into ONLINE (R9). -/
def State.enterOnline (s : State) : State :=
  State.placeNotice { s with ringState := .online, probeTimer := none, probeClaim := false } (.ringState .online)

/-- Entry into BROKEN (R11). -/
def State.enterBroken (s : State) : State :=
  State.ringDown
    (State.placeNotice
      { s with
        ringState := .broken, probeTimer := none, probeClaim := false,
        passThrough := [], transmit := [], ringOut := .idle }
      (.ringState .broken))

/-- Entry into CONFLICT (R13): a frame of the transmit queue being sent is cut short, one of the
pass-through buffer is sent to its end. -/
def State.enterConflict (s : State) : State :=
  State.chooseRingOut
    (State.ringDown
      (State.placeNotice
        { s with
          ringState := .conflict, probeTimer := none, probeClaim := false, transmit := [],
          ringOut := if s.ringOut = .transmit then .idle else s.ringOut }
        (.ringState .conflict)))

end Sys2Proof.Machine
end

