-- ==== Sys2Proof/Machine/Ports.lean ====
section
/-! DEFINITION. The local ports: acceptance and what follows a completion, ACCEPTANCE and SEND. -/

namespace Sys2Proof.Machine

/-- A request refused at its acceptance: the completion is given at once (section 3.3). -/
def State.refuse (s : State) (port : Port) (code : Code) : State := s.complete port (plainCompletion code)

/-- An accepted request is routed by its target (R50). -/
def State.route (s : State) (port : Port) (target : Station) (r : Request) : State :=
  if target = s.own then s.setPort port (.atBank r)
  else if s.ringState = .online then
    match s.sendTag port target r with
    | some tag => s.sendRequest port target r tag
    | none => s.setPort port (.toSend target r)
  else s.refuse port .ringDown

/-- A request without control-select: the five checks, then the routing (R43 to R50). -/
def State.acceptMemory (s : State) (port : Port) (r : PortRequest) : State :=
  match pinsCommand port r with
  | none => s.refuse port .badRequest
  | some c =>
    let w := s.window r.window
    if !w.valid then s.refuse port .noWindow
    else if w.privOnly && !pinsPrivileged port r then s.refuse port .noAccess
    else if w.readOnly && changesWord c then s.refuse port .readOnly
    else if !rangeFits r.offset c then s.refuse port .badRequest
    else s.route port w.target ⟨c, pinsPrivileged port r, w.page, r.offset⟩

/-- The items of the control space (R178). -/
inductive Item
  | window (n : BitVec 5)
  | status
  | notice
  | hold (i : Slot)
  | bulk
  deriving DecidableEq, Repr

/-- The item at an offset, none where the offset names none (R178). -/
def itemAt (offset : Offset) : Option Item :=
  let n := offset.toNat
  if n < 32 then some (.window (offset.setWidth 5))
  else if n = 0x40 then some .status
  else if n = 0x41 then some .notice
  else if n = 0x50 then some (.hold 0)
  else if n = 0x51 then some (.hold 1)
  else if n = 0x52 then some (.hold 2)
  else if n = 0x53 then some (.hold 3)
  else if n = 0x54 then some (.hold 4)
  else if n = 0x55 then some (.hold 5)
  else if n = 0x60 then some .bulk
  else none

/-- A control-space READ that has passed its checks. STATUS and NOTICE act at the end of their access; the
other items change nothing and complete here (R172; log entry 14). -/
def State.controlRead (s : State) : Item → State
  | .window n => s.complete .p (okCompletion [windowWord (s.window n)])
  | .status => s.setPort .p (.control .statusRead)
  | .notice => s.setPort .p (.control .noticeRead)
  | .hold i => s.complete .p (okCompletion [holdWord (s.slot i)])
  | .bulk => s.complete .p (okCompletion (bulkWords s.bulk))

/-- A control-space WRITE to a named item: only a WINDOW item is writable (R171, R173; log entry 15). -/
def State.controlWrite (s : State) (value : Word) : Item → State
  | .window n => s.setPort .p (.control (.windowWrite n value))
  | .status => s.setPort .p (.control .refusedWrite)
  | .notice => s.setPort .p (.control .refusedWrite)
  | .hold _ => s.setPort .p (.control .refusedWrite)
  | .bulk => s.setPort .p (.control .refusedWrite)

/-- A request from P with control-select raised, checked in the order of R171. -/
def State.acceptControl (s : State) (r : PortRequest) : State :=
  let o := Op.ofCode r.op
  if o = some .read || o = some .write then
    if r.privileged then
      match itemAt r.offset with
      | none => s.refuse .p .badRequest
      | some it => if o = some .read then s.controlRead it else s.controlWrite r.data it
    else s.refuse .p .noAccess
  else s.refuse .p .badRequest

/-- The request of the pins is taken into the empty request place, and checked and routed (R41). -/
def State.accept (s : State) (port : Port) (r : PortRequest) : State :=
  let s1 := s.setStrobe port (.accepted r)
  if pinsControl port r then s1.acceptControl r else s1.acceptMemory port r

/-- A request that waits on the pins of a port is accepted if the request place is empty and no reset is asserted
(R41, R59, R61). -/
def State.acceptWaiting (s : State) (port : Port) : State :=
  match s.strobe port with
  | .presented r => if s.inReset || s.port port ≠ .idle then s else s.accept port r
  | _ => s

/-- The requests that wait on the pins of all ports (R41). -/
def State.acceptAll (s : State) : State := (portsFrom .p).foldl State.acceptWaiting s

/-- A present strobe that is raised: a raising presents a request, and a strobe that stays raised after its request
was accepted presents none (R41). -/
def Strobe.raised (r : PortRequest) : Strobe → Strobe
  | .low => .presented r
  | .presented _ => .presented r
  | .accepted _ => .accepted r

/-- ACCEPTANCE (R41): the pins of a port as they now stand, and the acceptance of the request they present, at once
if the request place is empty and no reset is asserted (R61), later otherwise (log entry 13). -/
def execAcceptance (port : Port) (pins : Option PortRequest) (s : State) : Outcome :=
  .next <|
    match pins with
    | none => s.setStrobe port .low
    | some r => (s.setStrobe port ((s.strobe port).raised r)).acceptWaiting port

/-- The end of an entry is reported, and its master's next request accepted if it waits on the pins (R59, R68). -/
def State.tellEnd (s : State) (tag : Tag) (e : Entry) (c : Completion) : State :=
  if e.posted then s.reportEnd tag e c else (s.reportEnd tag e c).acceptWaiting e.port

/-- An entry becomes FREE and its end is told (R68). -/
def State.closeEntry (s : State) (tag : Tag) (e : Entry) (c : Completion) : State :=
  (s.setEntry tag none).tellEnd tag e c

/-- After an outcome was handed on: at a port the request then waiting on the pins is accepted (R59). -/
def State.acceptFor (s : State) (src : Source) : State :=
  match src with
  | .port port => s.acceptWaiting port
  | .remote _ _ _ => s
  | .replay _ _ _ _ => s

/-- SEND (R53, R54): a request in TO_SEND meets the three conditions. A posted write leaves the request place empty
(R56). -/
def execSend (port : Port) (s : State) : Outcome :=
  match s.port port with
  | .toSend target r =>
    if s.ringState = .online then
      match s.sendTag port target r with
      | some tag => .next ((s.sendRequest port target r tag).acceptWaiting port)
      | none => .fault .claimMustWait
    else .fault .claimMustWait
  | _ => .fault .noSuchClaim

end Sys2Proof.Machine
end

