-- ==== Sys2Proof/Machine/Arbiter.lean ====
section
/-! DEFINITION. The bank arbiter: the claims, their eligibility and the choice (R90 to R97). -/

namespace Sys2Proof.Machine

/-- A claim on the bank (R90). A replay names its place in the deferred queue. -/
inductive Claim
  | refresh
  | replay (index : Nat) (entry : Deferred)
  | remote (frame : Frame)
  | port (port : Port) (request : Request)
  | bulk
  deriving DecidableEq, Repr

/-- The answer-place condition: outside ONLINE no place is needed (R95). -/
def State.placeForAnswer (s : State) : Bool := decide (s.ringState ≠ .online) || s.freePlace

/-- The oldest READY entry from a place in the deferred queue onward (R139). -/
def oldestReady : List Deferred → Nat → Option (Nat × Deferred)
  | [], _ => none
  | d :: ds, k => if d.state = .ready then some (k, d) else oldestReady ds (k + 1)

/-- The REPLAY claim, if it is eligible (R92, R95). -/
def State.replayClaim (s : State) : Option Claim :=
  if s.placeForAnswer then (oldestReady s.deferred 0).map (fun x => .replay x.1 x.2) else none

/-- The REMOTE claim, if it is eligible: the head of the inbound request queue (R90, R95). -/
def State.remoteClaim (s : State) : Option Claim :=
  match s.inbound with
  | [] => none
  | f :: _ => if s.placeForAnswer then some (.remote f) else none

/-- An operation on a word, as against a bulk command (R96). -/
def isWordOp : Op → Bool
  | .read => true
  | .write => true
  | .holdRead => true
  | .commit => true
  | .bulkStart => false
  | .bulkQuery => false
  | .bulkAbort => false

/-- A LOCAL claim is eligible: its word is not held by another, and a HOLD_READ of a word not held finds an
empty slot (R96, R128). -/
def State.portEligible (s : State) (port : Port) (r : Request) : Bool :=
  if isWordOp r.command.op then
    match s.holdOn r.page r.offset with
    | some (_, h) => h.holder == ⟨s.own, port⟩
    | none => r.command.op != .holdRead || s.emptySlot.isSome
  else true

/-- The claim of one port, if it has one that is eligible (R51, R96). -/
def State.portClaim (s : State) (port : Port) : Option Claim :=
  match s.port port with
  | .atBank r => if s.portEligible port r then some (.port port r) else none
  | _ => none

/-- The LOCAL claim: the first port with an eligible one from the port pointer onward (R94). -/
def State.localClaim (s : State) : Option Claim := (portsFrom s.portPointer).findSome? s.portClaim

/-- A step of this job may end it for an owner at another station, so that it needs an answer place (R95). -/
def stepNeedsPlace (own : Station) (j : Job) : Bool :=
  j.owner.station != own && (j.kind == .check || j.remaining == 1)

/-- The BULK claim, if it is eligible: one while the engine is RUNNING (R148, R95). -/
def State.bulkClaim (s : State) : Option Claim :=
  match s.bulk with
  | none => none
  | some j =>
    if j.slot.isNone && (!stepNeedsPlace s.own j || s.placeForAnswer) then some .bulk else none

/-- The rotation (R93): the class the pointer names first, then the two after it. -/
def State.rotationClaim (s : State) : Option Claim :=
  match s.rotation with
  | .remote => (s.remoteClaim.or s.localClaim).or s.bulkClaim
  | .port => (s.localClaim.or s.bulkClaim).or s.remoteClaim
  | .bulk => (s.bulkClaim.or s.remoteClaim).or s.localClaim

/-- The choice of the bank arbiter (R91, R92): none while a grant holds the bank, while cold reset is
asserted (R106), or while no claim is eligible. -/
def State.choice (s : State) : Option Claim :=
  match s.grant with
  | .free =>
    if s.coldReset then none
    else if s.refreshClaim then some .refresh
    else s.replayClaim.or s.rotationClaim
  | _ => none

/-- The operation by which a REQ frame is granted: a malformed frame with an unused OP code goes with READ
(R30; log entry 16). -/
def frameOp (f : Frame) : Op := (Frame.op f).getD .read

/-- The operation of a claim. -/
def Claim.op : Claim → Option Op
  | .refresh => none
  | .replay _ d => some d.request.command.op
  | .remote f => some (frameOp f)
  | .port _ r => some r.command.op
  | .bulk => none

/-- A request taken for service (R98): from whom, and what, none where it is malformed (R30). -/
structure Taken where
  source : Source
  holder : Holder
  request : Option Request
  deriving DecidableEq, Repr

/-- The request of a claim. -/
def Claim.taken (own : Station) : Claim → Option Taken
  | .refresh => none
  | .replay k d => some ⟨.replay k d.origin d.port d.tag, ⟨d.origin, d.port⟩, some d.request⟩
  | .remote f =>
    some ⟨.remote (Frame.origin f) (Frame.port f) (Frame.tag f), ⟨Frame.origin f, Frame.port f⟩, Frame.request f⟩
  | .port q r => some ⟨.port q, ⟨own, q⟩, some r⟩
  | .bulk => none

/-- What a grant does to the inbound request queue and the pointers (R17, R93, R94). -/
def State.advance (s : State) : Claim → State
  | .refresh => s
  | .replay _ _ => s
  | .remote _ => { s with inbound := s.inbound.drop 1, rotation := .port }
  | .port port _ => { s with rotation := .bulk, portPointer := nextPort port }
  | .bulk => { s with rotation := .remote }

/-- The grant of a request reserves an answer place (R24, R97). -/
def State.reserves (s : State) : Source → Bool
  | .port _ => false
  | .remote _ _ _ => decide (s.ringState = .online)
  | .replay _ _ _ _ => decide (s.ringState = .online)

/-- The arbiter's choice is a request of this operation: the request, and the state with it taken (R98). -/
def State.takeRequestOf (s : State) (o : Op) : Option (Taken × State) :=
  match s.choice with
  | none => none
  | some c =>
    if c.op = some o then
      match c.taken s.own with
      | none => none
      | some t => some (t, s.advance c)
    else none

/-- The range check, with that of a malformed frame: the request to go on with, none when it is refused
(R87). -/
def State.inRange (s : State) (t : Taken) : Option Request :=
  match t.request with
  | none => none
  | some r => if r.page.toNat < pageCount s.straps then some r else none

end Sys2Proof.Machine
end

