-- ==== Sys2Proof/Machine/Bank.lean ====
section
/-! DEFINITION. The bank: REFRESH_TIMER_EXPIRY, REFRESH, REFRESH_END, READ, WRITE, HOLD_READ, COMMIT,
WORD_OPERATION_END, HOLD_TIMER_EXPIRY. -/

namespace Sys2Proof.Machine

/-! ### Refresh -/

/-- REFRESH_TIMER_EXPIRY (R88): the timer restarts and a claim is raised unless one waits. -/
def execRefreshTimerExpiry (s : State) : Outcome :=
  match s.refreshTimer with
  | none => .fault .timerNotRunning
  | some _ => .next { s with refreshTimer := some Config.refreshPeriod, refreshClaim := true }

/-- REFRESH (R89): the refresh claim is granted. -/
def execRefresh (s : State) : Outcome :=
  if s.choice = some .refresh then .next { s with refreshClaim := false, grant := .refresh }
  else .fault .notTheChoice

/-- REFRESH_END (R91): the bank becomes free. -/
def execRefreshEnd (s : State) : Outcome :=
  match s.grant with
  | .refresh => .next { s with grant := .free }
  | _ => .fault .nothingUnderWay

/-! ### What a word operation comes to -/

/-- An outcome decided without the word (R87, R111, R126, R129). -/
def refusal (st : Status) (hold : HoldEffect) : WordResult := ⟨st, false, 0, none, none, hold⟩

/-- An outcome that writes nothing after the word was read and gives no data (R101, R114). -/
def unwritten (a : Nat) (st : Status) (hold : HoldEffect) : WordResult := ⟨st, false, 0, some a, none, hold⟩

/-- A word read for its requester: READ, and the end of the hold path (R99, R130). -/
def readResult (a : Nat) (st : Status) (g : Bool) (d : Word) (hold : HoldEffect) : WordResult :=
  ⟨st, g, d, some a, none, hold⟩

/-- A word written (R101, R102, R133). -/
def writeResult (a : Nat) (st : Status) (w : StoredWord) (hold : HoldEffect) : WordResult :=
  ⟨st, false, 0, some a, some w, hold⟩

/-- READ of a word (R99). -/
def readWord (s : State) (r : Request) : WordResult :=
  let a := wordAddress r.page r.offset
  match checkWord (s.word a) with
  | .clean d g => readResult a .ok g d .keep
  | .single d g => readResult a .corrected g d .keep
  | .double => unwritten a .uncorrectable .keep

/-- The privilege test (R111, R112): a plain request may not set or clear a guard bit. -/
def privilegeFails (privileged : Bool) (act : GuardAct) : Bool := !privileged && act != .keep

/-- The guard test (R113, R114, R116): with GUARD_ON a plain request may not touch a guarded word. -/
def guardFails (s : State) (privileged guard : Bool) : Bool := s.straps.guardOn && !privileged && guard

/-- The guard test and the merge of a word that its check passed on (R101, R133). -/
def mergeWrite (s : State) (r : Request) (lanes : Lanes) (data : Word) (act : GuardAct) (hold : HoldEffect)
    (st : Status) (d : Word) (g : Bool) : WordResult :=
  let a := wordAddress r.page r.offset
  if guardFails s r.privileged g then unwritten a .guardFault hold
  else writeResult a st (freshWord (mergeLanes lanes data d) (guardAfter act g)) hold

/-- Read, check, guard test, merge and write (R101, R133). -/
def readMergeWrite (s : State) (r : Request) (lanes : Lanes) (data : Word) (act : GuardAct) (hold : HoldEffect) :
    WordResult :=
  let a := wordAddress r.page r.offset
  match checkWord (s.word a) with
  | .clean d g => mergeWrite s r lanes data act hold .ok d g
  | .single d g => mergeWrite s r lanes data act hold .corrected d g
  | .double => unwritten a .uncorrectable hold

/-- A WRITE is made in a single pass (R100). -/
def singlePass (s : State) (lanes : Lanes) (act : GuardAct) : Bool :=
  !s.straps.guardOn && lanes == 0xF && act != .keep

/-- WRITE of a word that is not held (R100 to R102). -/
def writeWord (s : State) (r : Request) (lanes : Lanes) (data : Word) (act : GuardAct) : WordResult :=
  if privilegeFails r.privileged act then refusal .privFault .keep
  else if singlePass s lanes act then
    writeResult (wordAddress r.page r.offset) .ok (freshWord data (guardAfter act false)) .keep
  else readMergeWrite s r lanes data act .keep

/-- The guard test of a HOLD_READ and the hold it makes (R114, R130). -/
def holdUnlessGuarded (s : State) (r : Request) (holder : Holder) (st : Status) (d : Word) (g : Bool) : WordResult :=
  let a := wordAddress r.page r.offset
  if guardFails s r.privileged g then unwritten a .guardFault .keep
  else readResult a st g d (.make r.page r.offset holder)

/-- HOLD_READ of a word that is not held: the hold path (R130). -/
def holdReadWord (s : State) (r : Request) (holder : Holder) : WordResult :=
  if s.emptySlot.isNone then refusal .retry .keep
  else
    match checkWord (s.word (wordAddress r.page r.offset)) with
    | .clean d g => holdUnlessGuarded s r holder .ok d g
    | .single d g => holdUnlessGuarded s r holder .corrected d g
    | .double => unwritten (wordAddress r.page r.offset) .uncorrectable .keep

/-- COMMIT of the holder of a slot (R132, R133, R112): whatever its status, the hold ends with it. -/
def commitWord (s : State) (r : Request) (lanes : Lanes) (data : Word) (act : GuardAct) (i : Slot) : WordResult :=
  if lanes = 0 then refusal .ok (.finish i)
  else if privilegeFails r.privileged act then refusal .privFault (.finish i)
  else readMergeWrite s r lanes data act (.finish i)

/-- A request whose word is not held (R129). -/
def serveUnheld (s : State) (t : Taken) (r : Request) : WordResult :=
  match r.command with
  | .read => readWord s r
  | .write lanes data act => writeWord s r lanes data act
  | .holdRead => holdReadWord s r t.holder
  | .commit _ _ _ => refusal .holdLost .keep
  | .bulkStart _ _ _ => refusal .outOfRange .keep
  | .bulkQuery => refusal .outOfRange .keep
  | .bulkAbort => refusal .outOfRange .keep

/-- A request of the holder of its word (R126). -/
def serveHolder (s : State) (r : Request) (i : Slot) : WordResult :=
  match r.command with
  | .read => readWord s r
  | .write _ _ _ => refusal .alreadyHeld .keep
  | .holdRead => refusal .alreadyHeld .keep
  | .commit lanes data act => commitWord s r lanes data act i
  | .bulkStart _ _ _ => refusal .outOfRange .keep
  | .bulkQuery => refusal .outOfRange .keep
  | .bulkAbort => refusal .outOfRange .keep

/-! ### The grant -/

/-- A word operation takes the bank with its outcome decided (R91, R103). -/
def State.beginWord (s : State) (src : Source) (res : WordResult) : State :=
  { s with grant := .word ⟨src, res, s.reserves src, false⟩ }

/-- The hold timer of a slot is stopped at the grant of its holder's COMMIT (R132). -/
def State.stopHold (s : State) (i : Slot) : State :=
  { s with holds := s.holds.set i.val ((s.slot i).map fun h => { h with stopped := true }) i.isLt }

/-- A COMMIT of the holder stops the hold timer at its grant; nothing else does (R132, R126). -/
def State.stopFor (s : State) (i : Slot) (c : Command) : State :=
  if c.op = .commit then s.stopHold i else s

/-- A request that meets another holder's hold (R127, R140). A LOCAL claim is not granted then (R128); the
branch is not reached (log entry 26). -/
def State.meetHold (s : State) (t : Taken) (r : Request) (i : Slot) : State :=
  match t.source with
  | .remote origin port tag =>
    if s.deferred.length < Config.deferredPlaces then
      { s with deferred := s.deferred ++ [⟨origin, port, tag, r, .waiting i⟩] }
    else s.beginWord t.source (refusal .retry .keep)
  | .replay k origin port tag => { s with deferred := s.deferred.set k ⟨origin, port, tag, r, .waiting i⟩ }
  | .port _ => s.beginWord t.source (refusal .holdLost .keep)

/-- The grant of a word request (R98): range check, hold check, then its own path. -/
def State.grantWord (s : State) (t : Taken) : State :=
  match s.inRange t with
  | none => s.beginWord t.source (refusal .outOfRange .keep)
  | some r =>
    match s.holdOn r.page r.offset with
    | none => s.beginWord t.source (serveUnheld s t r)
    | some (i, h) =>
      if h.holder = t.holder then State.beginWord (s.stopFor i r.command) t.source (serveHolder s r i)
      else s.meetHold t r i

/-- The bank is granted to a request of this word operation, if the arbiter chooses one. -/
def grantOf (o : Op) (s : State) : Outcome :=
  match s.takeRequestOf o with
  | some (t, s1) => .next (s1.grantWord t)
  | none => .fault .notTheChoice

/-- READ (R98, R99). -/
def execRead (s : State) : Outcome := grantOf .read s

/-- WRITE (R98, R100). -/
def execWrite (s : State) : Outcome := grantOf .write s

/-- HOLD_READ (R98, R130). -/
def execHoldRead (s : State) : Outcome := grantOf .holdRead s

/-- COMMIT (R98, R132, R133). -/
def execCommit (s : State) : Outcome := grantOf .commit s

/-! ### The end of a word operation and of a hold -/

/-- The end of a word operation whose requester is still there (R103). -/
def State.endWord (s : State) (g : WordGrant) : State :=
  State.deliver (s.applyHold g.result.hold) g.source g.result.status (.word g.result.guard g.result.data) g.reserved

/-- WORD_OPERATION_END (R103, R105): the word due is written, the bank becomes free, and unless a warm reset
took the requester away the hold is made or ended and the outcome handed on. -/
def execWordOperationEnd (s : State) : Outcome :=
  match s.grant with
  | .word g =>
    let s1 := State.writeDue { s with grant := .free } (g.result.accessed.getD 0) g.result.write
    .next (if g.orphan then s1 else (s1.endWord g).acceptFor g.source)
  | _ => .fault .nothingUnderWay

/-- HOLD_TIMER_EXPIRY (R122, R136): the hold ends. -/
def execHoldTimerExpiry (i : Slot) (s : State) : Outcome :=
  match s.slot i with
  | none => .fault .timerNotRunning
  | some h => if h.stopped then .fault .timerNotRunning else .next (s.endHold i)

end Sys2Proof.Machine
end

