-- ==== Sys2Proof/Machine/Bulk.lean ====
section
/-! DEFINITION. The bulk engine: BULK_START, BULK_QUERY, BULK_ABORT, BULK_STEP, BULK_STEP_END. -/

namespace Sys2Proof.Machine

/-! ### Commands -/

/-- The tag of a request from the ring (R146, R150). A REQ with the own station as ORIGIN counts as one, so that its job
holds OWNER_TAG present beside the OWNER (own, P) (DESIGN CHOICE, safe, log entry 23). -/
def sourceTag : Source → Option Tag
  | .port _ => none
  | .remote _ _ tag => some tag
  | .replay _ _ _ tag => some tag

/-- The record of a job just taken (R150). -/
def newJob (t : Taken) (r : Request) (kind : BulkKind) (pattern : Word) (count : Count) : Job where
  owner := t.holder
  ownerTag := sourceTag t.source
  kind := kind
  privileged := r.privileged
  page := r.page
  next := r.offset
  remaining := count.toNat
  pattern := pattern
  done := 0
  skipped := 0
  corrected := 0
  uncorrectable := 0
  slot := none

/-- What the engine decides about a command, and the engine after it (R150 to R152). -/
def engineDecides (b : Option Job) (t : Taken) (r : Request) : Status × AnswerBody × Option Job :=
  match r.command, b with
  | .bulkStart kind pattern count, none => (.accepted, .word false 0, some (newJob t r kind pattern count))
  | .bulkStart _ _ _, some j => (.busy, .word false 0, some j)
  | .bulkQuery, none => (.noJob, .word false 0, none)
  | .bulkQuery, some j => (.ok, .bulk (jobProgress j), some j)
  | .bulkAbort, none => (.noJob, .word false 0, none)
  | .bulkAbort, some j =>
    if j.owner = t.holder then (.aborted, .bulk (jobProgress j), none) else (.notOwner, .word false 0, some j)
  | _, b => (.outOfRange, .word false 0, b)

/-- The hand-over of a command: range check, the engine's decision, and the outcome handed on (R149). A job just
taken has no FIRST_MISMATCH (R150). -/
def State.handOver (s : State) (t : Taken) : State :=
  match s.inRange t with
  | none => s.deliver t.source .outOfRange (.word false 0) (s.reserves t.source)
  | some r =>
    let d := engineDecides s.bulk t r
    State.deliver
      { s with
        bulk := d.2.2
        firstMismatch := if d.1 = .accepted then none else s.firstMismatch }
      t.source d.1 d.2.1 (s.reserves t.source)

/-- A bulk command is granted the bank, if the arbiter chooses one; its hand-over ends at once (R98). -/
def handOverOf (o : Op) (s : State) : Outcome :=
  match s.takeRequestOf o with
  | some (t, s1) => .next ((s1.handOver t).acceptFor t.source)
  | none => .fault .notTheChoice

/-- BULK_START (R149, R150). -/
def execBulkStart (s : State) : Outcome := handOverOf .bulkStart s

/-- BULK_QUERY (R149, R151). -/
def execBulkQuery (s : State) : Outcome := handOverOf .bulkQuery s

/-- BULK_ABORT (R149, R152). -/
def execBulkAbort (s : State) : Outcome := handOverOf .bulkAbort s

/-! ### Steps -/

/-- A step's outcome: the write due and what the read counts in. -/
def stepResult (a : Nat) (write : Option StoredWord) (skipped corrected uncorrectable mismatch reserved : Bool) :
    StepGrant := ⟨a, write, skipped, corrected, uncorrectable, mismatch, reserved, false⟩

/-- A FILL step on a word its check passed on (R118, R157). -/
def fillPassed (s : State) (j : Job) (a : Nat) (g corrected reserved : Bool) : StepGrant :=
  if s.straps.guardOn && !j.privileged && g then stepResult a none true false false false reserved
  else stepResult a (some (freshWord j.pattern g)) false corrected false false reserved

/-- A FILL step (R118, R157). -/
def fillStep (s : State) (j : Job) (a : Nat) (reserved : Bool) : StepGrant :=
  match checkWord (s.word a) with
  | .clean _ g => fillPassed s j a g false reserved
  | .single _ g => fillPassed s j a g true reserved
  | .double =>
    if s.straps.guardOn && !j.privileged then stepResult a none false false true false reserved
    else stepResult a (some (freshWord j.pattern false)) false false true false reserved

/-- A CHECK step (R158). -/
def checkStep (s : State) (j : Job) (a : Nat) (reserved : Bool) : StepGrant :=
  match checkWord (s.word a) with
  | .clean d _ => stepResult a none false false false (d != j.pattern) reserved
  | .single d _ => stepResult a none false true false (d != j.pattern) reserved
  | .double => stepResult a none false false true true reserved

/-- A SCRUB step (R159). -/
def scrubStep (s : State) (a : Nat) (reserved : Bool) : StepGrant :=
  match checkWord (s.word a) with
  | .clean _ _ => stepResult a none false false false false reserved
  | .single d g => stepResult a (some (freshWord d g)) false true false false reserved
  | .double => stepResult a none false false true false reserved

/-- The step of a job on its next word (R154). -/
def jobStep (s : State) (j : Job) (reserved : Bool) : StepGrant :=
  let a := wordAddress j.page j.next
  match j.kind with
  | .fill => fillStep s j a reserved
  | .check => checkStep s j a reserved
  | .scrub => scrubStep s a reserved

/-- The grant of a step reserves an answer place (R154, R95). -/
def State.stepReserves (s : State) (j : Job) : Bool := stepNeedsPlace s.own j && decide (s.ringState = .online)

/-- BULK_STEP (R154, R155): on a held word the engine waits and the grant ends; otherwise the step holds the
bank with its outcome decided. -/
def execBulkStep (s : State) : Outcome :=
  match s.choice, s.bulk with
  | some .bulk, some j =>
    match s.holdOn j.page j.next with
    | some (i, _) => .next { s.advance .bulk with bulk := some { j with slot := some i } }
    | none => .next { s.advance .bulk with grant := .step (jobStep s j (s.stepReserves j)) }
  | _, _ => .fault .notTheChoice

/-- One more where a tally counts. -/
def tally (n : Nat) (counts : Bool) : Nat := if counts then n + 1 else n

/-- The record after a step (R160). -/
def stepped (j : Job) (g : StepGrant) : Job :=
  { j with
    next := j.next + 1
    remaining := j.remaining - 1
    done := j.done + 1
    skipped := tally j.skipped g.skipped
    corrected := tally j.corrected g.corrected
    uncorrectable := tally j.uncorrectable g.uncorrectable }

/-- The job ends, with its record updated and FIRST_MISMATCH set at a mismatch (R158): DONE to an owner elsewhere, a
notice to the own processor (R161, R162). -/
def State.endJob (s : State) (j : Job) (outcome : JobOutcome) (first : Option Offset) (reserved : Bool) : State :=
  if j.owner.station = s.own then
    State.placeNotice { s with bulk := none, firstMismatch := first }
      (.bulkDone s.own j.owner.port j.kind outcome (jobTallies j) first)
  else
    State.handFrame { s with bulk := none, firstMismatch := first }
      (doneFrame s.own j.owner j.kind outcome (jobTallies j) first) reserved

/-- The end of a step of a job that still exists (R160). -/
def State.endStep (s : State) (j : Job) (g : StepGrant) : State :=
  if g.mismatch then s.endJob (stepped j g) .mismatch (some j.next) g.reserved
  else if (stepped j g).remaining = 0 then s.endJob (stepped j g) .complete none g.reserved
  else { s with bulk := some (stepped j g) }

/-- BULK_STEP_END (R160 to R162, R105, R164): the word due is written, the bank becomes free, and the record
is updated unless a reset took the job away. -/
def execBulkStepEnd (s : State) : Outcome :=
  match s.grant with
  | .step g =>
    let s1 := State.writeDue { s with grant := .free } g.address g.write
    match s.bulk with
    | some j => .next (if g.orphan then s1 else s1.endStep j g)
    | none => .next s1
  | _ => .fault .nothingUnderWay

end Sys2Proof.Machine
end

