-- ==== Sys2Proof/Machine/Control.lean ====
section
/-! DEFINITION. The ends of control-space accesses: NOTICE_READ, STATUS_READ, WINDOW_WRITE, CONTROL_SPACE_WRITE. -/

namespace Sys2Proof.Machine

/-- The end of an access: its completion, and the request then waiting on the pins of P accepted (R58, R59, R172). -/
def State.endAccess (s : State) (c : Completion) : State := (s.complete .p c).acceptWaiting .p

/-- NOTICE_READ (R175): the head notice is returned and removed; attention follows (R169). -/
def execNoticeRead (s : State) : Outcome :=
  match s.port .p with
  | .control .noticeRead =>
    .next
      (State.endAccess
        { s with
          notices := s.notices.drop 1
          attention := attentionLevel (s.notices.drop 1) s.lost }
        (okCompletion (noticeReadWords s.notices)))
  | _ => .fault .noSuchAccess

/-- STATUS_READ (R174): STATUS is returned, then LOST is cleared; attention follows (R169). -/
def execStatusRead (s : State) : Outcome :=
  match s.port .p with
  | .control .statusRead =>
    .next
      (State.endAccess { s with lost := false, attention := attentionLevel s.notices false }
        (okCompletion (statusWords s)))
  | _ => .fault .noSuchAccess

/-- WINDOW_WRITE (R48, R173): all five fields of the entry are replaced at the end of the access. -/
def execWindowWrite (s : State) : Outcome :=
  match s.port .p with
  | .control (.windowWrite n value) =>
    .next
      (State.endAccess { s with windows := s.windows.set n.toNat (windowOfWord value) n.isLt }
        (okCompletion [0]))
  | _ => .fault .noSuchAccess

/-- CONTROL_SPACE_WRITE (R171): a WRITE to an item that is not writable completes with BAD_REQUEST and has no
effect. -/
def execControlSpaceWrite (s : State) : Outcome :=
  match s.port .p with
  | .control .refusedWrite => .next (s.endAccess (plainCompletion .badRequest))
  | _ => .fault .noSuchAccess

end Sys2Proof.Machine
end

