-- ==== Sys2Proof/Machine/Outstanding.lean ====
section
/-! DEFINITION. The outstanding table's own events: ANSWER_TIMER_EXPIRY, BACKOFF_TIMER_EXPIRY, RESEND_CLAIM,
QUARANTINE_EXPIRY. -/

namespace Sys2Proof.Machine

/-- ANSWER_TIMER_EXPIRY (R73): the entry completes with TIMEOUT and enters STALE. -/
def execAnswerTimerExpiry (tag : Tag) (s : State) : Outcome :=
  match s.entry tag with
  | none => .fault .timerNotRunning
  | some e =>
    if e.state = .waitingAnswer then
      .next
        (State.tellEnd
          (s.setEntry tag (some { e with state := .stale, timer := some (answerTimeout s.straps) }))
          tag e (plainCompletion .timeout))
    else .fault .timerNotRunning

/-- BACKOFF_TIMER_EXPIRY (R76, R77): a resend into a free place, or a resend claim. -/
def execBackoffTimerExpiry (tag : Tag) (s : State) : Outcome :=
  match s.entry tag with
  | none => .fault .timerNotRunning
  | some e =>
    if e.state = .waitingResend && e.timer.isSome then
      .next (if s.freePlace then s.resend tag e else s.setEntry tag (some { e with timer := none }))
    else .fault .timerNotRunning

/-- RESEND_CLAIM (R77): the waiting claim takes a free place. -/
def execResendClaim (tag : Tag) (s : State) : Outcome :=
  match s.entry tag with
  | none => .fault .noSuchClaim
  | some e =>
    if e.state = .waitingResend && e.timer.isNone then
      if s.freePlace then .next (s.resend tag e) else .fault .claimMustWait
    else .fault .noSuchClaim

/-- QUARANTINE_EXPIRY (R74): the entry becomes FREE. -/
def execQuarantineExpiry (tag : Tag) (s : State) : Outcome :=
  match s.entry tag with
  | none => .fault .timerNotRunning
  | some e => if e.state = .stale then .next (s.setEntry tag none) else .fault .timerNotRunning

end Sys2Proof.Machine
end

