-- ==== Sys2Proof/Machine/Reset.lean ====
section
/-! DEFINITION. COLD_RESET_ASSERTION, COLD_RESET_RELEASE, WARM_RESET_ASSERTION, WARM_RESET_RELEASE. -/

namespace Sys2Proof.Machine

/-- The request of a raised strobe is presented anew. -/
def Strobe.again : Strobe → Strobe
  | .low => .low
  | .presented r => .presented r
  | .accepted r => .presented r

/-- What the assertion of either reset clears: the ring interface but for the probe serial (R3), the ports
(R60), the window map (R49), the outstanding table (R63), the pointers (R105, R106), the hold table (R124),
the deferred queue (R142), the bulk engine (R164) and the notice logic (R170). A present strobe that stays raised
presents a new request, to be accepted at the release (R41, R61). -/
def State.clearWorking (s : State) : State :=
  { s with
    ringOutCarrier := false
    ringState := .offline
    probeTimer := none
    probeClaim := false
    recentProbes := []
    passThrough := []
    transmit := []
    ringOut := .idle
    inbound := []
    strobes := portMap Strobe.again s.strobes
    ports := ⟨.idle, .idle, .idle, .idle⟩
    completions := ⟨[], [], [], []⟩
    windows := Vector.replicate 32 Window.empty
    outstanding := Vector.replicate 16 none
    rotation := .remote
    portPointer := .p
    holds := Vector.replicate 6 none
    deferred := []
    bulk := none
    firstMismatch := none
    notices := []
    lost := false
    attention := false }

/-- A grant whose requester a warm reset takes away: it runs to its end without a reservation and reports
nothing (R105). -/
def orphaned : Grant → Grant
  | .free => .free
  | .refresh => .refresh
  | .word g => .word { g with reserved := false, orphan := true }
  | .step g => .step { g with reserved := false, orphan := true }

/-- The address of the word that a grant reads or writes. -/
def grantAddress : Grant → Option Nat
  | .free => none
  | .refresh => none
  | .word g => g.result.accessed
  | .step g => some g.address

/-- The bank after a grant is cut short: its word is left in any state, a free value (R85, R106; log entry 10). -/
def State.cutShort (s : State) : Memory :=
  match grantAddress s.grant with
  | none => s.mem
  | some a => Memory.write s.mem a (Config.cutShortWord s.epoch a)

/-- Out of reset, the station drives ring-out carrier and looks at ring-in carrier (R4). It stays as it is
while the other reset is still asserted (log entry 12). -/
def State.leaveReset (s : State) : State :=
  if s.inReset then s
  else if s.ringInCarrier then State.enterProbing { s with ringOutCarrier := true }
  else { s with ringOutCarrier := true }

/-- COLD_RESET_ASSERTION (R3, R106). A reset pin already asserted is no event (log entry 5). -/
def execColdResetAssertion (s : State) : Outcome :=
  .next <|
    if s.coldReset then s
    else
      { s.clearWorking with
        coldReset := true
        probeSerial := 0
        mem := s.cutShort
        refreshTimer := none
        refreshClaim := false
        grant := .free }

/-- COLD_RESET_RELEASE (R4, R61, R88, R106): straps sampled, refresh timer started, bank unknown (R85), and the
requests of raised strobes accepted. -/
def execColdResetRelease (pins : Straps) (s : State) : Outcome :=
  .next <|
    if s.coldReset then
      State.acceptAll
        (State.leaveReset
          { s with
            coldReset := false
            straps := pins
            mem := []
            epoch := s.epoch + 1
            refreshTimer := some Config.refreshPeriod })
    else s

/-- WARM_RESET_ASSERTION (R3, R105): the bank, the probe serial and refresh are kept. -/
def execWarmResetAssertion (s : State) : Outcome :=
  .next <|
    if s.warmReset then s
    else { s.clearWorking with warmReset := true, grant := orphaned s.grant }

/-- WARM_RESET_RELEASE (R4, R61, R105): straps sampled again, and the requests of raised strobes accepted. -/
def execWarmResetRelease (pins : Straps) (s : State) : Outcome :=
  .next <|
    if s.warmReset then State.acceptAll (State.leaveReset { s with warmReset := false, straps := pins }) else s

end Sys2Proof.Machine
end

