-- ==== Sys2Proof/Machine/Ring.lean ====
section
/-! DEFINITION. The ring interface: LOSS_OF_CARRIER, RETURN_OF_CARRIER, the arrivals, PROBE_TIMER_EXPIRY, PROBE_CLAIM,
SENDING_END. -/

namespace Sys2Proof.Machine

/-! ### Carrier -/

/-- LOSS_OF_CARRIER (R10). Carrier already absent is no event; in reset only the pin changes (R1). -/
def execLossOfCarrier (s : State) : Outcome :=
  .next <|
    if s.ringInCarrier then
      match s.ringState with
      | .probing => State.acceptAll (State.enterBroken { s with ringInCarrier := false })
      | .online => State.acceptAll (State.enterBroken { s with ringInCarrier := false })
      | .offline => { s with ringInCarrier := false }
      | .broken => { s with ringInCarrier := false }
      | .conflict => { s with ringInCarrier := false }
    else s

/-- RETURN_OF_CARRIER (R4, R12). Carrier already present is no event; in reset only the pin changes (R1). -/
def execReturnOfCarrier (s : State) : Outcome :=
  .next <|
    if s.ringInCarrier then s
    else if s.inReset then { s with ringInCarrier := true }
    else
      match s.ringState with
      | .offline => State.enterProbing { s with ringInCarrier := true }
      | .broken => State.enterProbing { s with ringInCarrier := true }
      | .probing => { s with ringInCarrier := true }
      | .online => { s with ringInCarrier := true }
      | .conflict => { s with ringInCarrier := true }

/-! ### Arriving frames -/

/-- Frames arrive: carrier is present, no reset is asserted, and the ring state is PROBING, ONLINE or
CONFLICT (R2, section 1.2). -/
def State.receives (s : State) : Bool :=
  s.ringInCarrier && !s.inReset && decide (s.ringState ≠ .offline) && decide (s.ringState ≠ .broken)

/-- A probe with the own origin comes back (R8). -/
def State.takeProbe (s : State) (f : Frame) : State :=
  if s.recentProbes.contains (Frame.serial f) then
    if s.ringState = .probing then s.enterOnline else s
  else s.enterConflict.acceptAll

/-- A REQ for this station: queued inbound, or turned in place into a RETRY answer (R17, R18). -/
def State.takeRequest (s : State) (f : Frame) : State :=
  if s.inbound.length < Config.inboundPlaces then { s with inbound := s.inbound ++ [f] }
  else s.placePass (retryFrame f)

/-- An own REQ that came back unclaimed (R72). -/
def State.takeUnclaimed (s : State) (f : Frame) : State :=
  match s.entry (Frame.tag f) with
  | none => s
  | some e =>
    if e.state = .waitingAnswer && e.target == Frame.dest f && e.port == Frame.port f then
      s.closeEntry (Frame.tag f) e (plainCompletion .noStation)
    else s

/-- OP and STATUS make PROGRESS present (R31). -/
def carriesProgress (o : Op) (st : Status) : Bool :=
  (o == .bulkQuery && st == .ok) || (o == .bulkAbort && st == .aborted)

/-- The status of an answer that matches an entry, none where it does not match (R67). -/
def answerStatus (e : Entry) (f : Frame) : Option Status :=
  if Frame.origin f = e.target && Frame.port f = e.port then
    match Frame.status f with
    | none => none
    | some st =>
      if carriesProgress e.request.command.op st && (Frame.progress f).isNone then none else some st
  else none

/-- The fields of an answer that its completion carries, read by the entry's OP (R34, R59, R68). Data and
guard flag are 0 unless the status is OK or CORRECTED (log entry 18). -/
def answerFields (o : Op) (st : Status) (f : Frame) : AnswerBody :=
  match o, st with
  | .read, .ok => .word (Frame.guard f) (Frame.data f)
  | .read, .corrected => .word (Frame.guard f) (Frame.data f)
  | .holdRead, .ok => .word (Frame.guard f) (Frame.data f)
  | .holdRead, .corrected => .word (Frame.guard f) (Frame.data f)
  | o, st =>
    if carriesProgress o st then
      match Frame.progress f with
      | some pr => .bulk pr
      | none => .word false 0
    else .word false 0

/-- A matching RETRY at an entry in WAITING_ANSWER (R69). -/
def State.takeRetry (s : State) (tag : Tag) (e : Entry) : State :=
  if e.attempts < Config.resendLimit then
    s.setEntry tag (some { e with state := .waitingResend, timer := some (4 * (e.attempts + 1)) })
  else s.closeEntry tag e (plainCompletion .retryLimit)

/-- An answer handed to the outstanding table (R67 to R70). -/
def State.takeAnswer (s : State) (f : Frame) : State :=
  match s.entry (Frame.tag f) with
  | none => s
  | some e =>
    match answerStatus e f with
    | none => s
    | some st =>
      match e.state with
      | .waitingAnswer =>
        if st = .retry then s.takeRetry (Frame.tag f) e
        else s.closeEntry (Frame.tag f) e (answerCompletion st (answerFields e.request.command.op st f))
      | .waitingResend => s
      | .stale => s.setEntry (Frame.tag f) none

/-- FIRST_MISMATCH of a DONE, taken as present by BULK_KIND and OUTCOME alone (R35). -/
def doneFirstMismatch (f : Frame) (k : BulkKind) : Option Offset :=
  if k = .check && Frame.outcome f = .mismatch then some (Frame.firstMismatch f) else none

/-- A DONE for this station (R35, R163). -/
def State.takeDone (s : State) (f : Frame) : State :=
  match Frame.doneKind f with
  | none => s
  | some k =>
    s.placeNotice
      (.bulkDone (Frame.origin f) (Frame.port f) k (Frame.outcome f) (Frame.tallies f) (doneFirstMismatch f k))

/-- A frame that has passed the check, in PROBING or ONLINE: the first row of R15 that it matches. -/
def State.classify (s : State) (k : Kind) (f : Frame) : State :=
  if k = .loop && Frame.origin f = s.own then s.takeProbe f
  else if k = .req && Frame.dest f = s.own then s.takeRequest f
  else if k = .req && Frame.origin f = s.own then s.takeUnclaimed f
  else if k = .ans && Frame.dest f = s.own then s.takeAnswer f
  else if k = .done && Frame.dest f = s.own then s.takeDone f
  else if (k = .ans || k = .done) && Frame.origin f = s.own then s
  else s.placePass f

/-- A frame at ring-in: received only as R2 says, checked (R14), then classified (R15) or forwarded (R16). -/
def State.arrive (s : State) (f : Frame) : State :=
  if s.receives && Frame.checked f then
    match Frame.kind f with
    | none => s
    | some k => if s.ringState = .conflict then s.placePass f else s.classify k f
  else s

/-- A frame of the row's kind arrives (log entry 21). -/
def arriveAs (k : Kind) (f : Frame) (s : State) : Outcome :=
  if Frame.kind f = some k then .next (s.arrive f) else .fault .frameOfAnotherRow

/-- LOOP_ARRIVAL (R8, R14 to R16). -/
def execLoopArrival (f : Frame) (s : State) : Outcome := arriveAs .loop f s

/-- REQ_ARRIVAL (R14 to R18, R72). -/
def execReqArrival (f : Frame) (s : State) : Outcome := arriveAs .req f s

/-- ANS_ARRIVAL (R14 to R16, R67). -/
def execAnsArrival (f : Frame) (s : State) : Outcome := arriveAs .ans f s

/-- DONE_ARRIVAL (R14 to R16, R163). -/
def execDoneArrival (f : Frame) (s : State) : Outcome := arriveAs .done f s

/-- The frames of THROUGH_FRAME_ARRIVAL: an unused KIND, an ANS or DONE for another station, or any frame in
CONFLICT (log entry 21). -/
def State.isThrough (s : State) (f : Frame) : Bool :=
  match Frame.kind f with
  | none => true
  | some k =>
    decide (s.ringState = .conflict) || ((k == .ans || k == .done) && Frame.dest f != s.own)

/-- THROUGH_FRAME_ARRIVAL (R14 to R16). -/
def execThroughFrameArrival (f : Frame) (s : State) : Outcome :=
  if s.isThrough f then .next (s.arrive f) else .fault .frameOfAnotherRow

/-! ### Probing and sending -/

/-- PROBE_TIMER_EXPIRY (R7): the timer restarts, and a claim is raised, and taken if a place is free, unless one
waits already. -/
def execProbeTimerExpiry (s : State) : Outcome :=
  match s.probeTimer with
  | none => .fault .timerNotRunning
  | some _ =>
    .next <|
      if s.probeClaim then { s with probeTimer := some Config.probePeriod }
      else State.takeClaim { s with probeTimer := some Config.probePeriod, probeClaim := true }

/-- PROBE_CLAIM (R6): a claim that found no place when it was raised takes one that has become free. -/
def execProbeClaim (s : State) : Outcome :=
  if s.probeClaim then
    if s.freePlace then .next s.placeProbe else .fault .claimMustWait
  else .fault .noSuchClaim

/-- SENDING_END (R20): the frame leaves its buffer and the arbiter chooses again (R21). -/
def execSendingEnd (s : State) : Outcome :=
  match s.ringOut with
  | .idle => .fault .nothingUnderWay
  | .passThrough => .next (State.chooseRingOut { s with ringOut := .idle, passThrough := s.passThrough.drop 1 })
  | .transmit => .next (State.chooseRingOut { s with ringOut := .idle, transmit := s.transmit.drop 1 })

end Sys2Proof.Machine
end

