-- ==== Sys2Proof/Machine/Dispatch.lean ====
section
/-! DEFINITION. The effect of each command. -/

namespace Sys2Proof.Machine

/-- What a command does to everything but the queue. -/
def exec (i : Instr) (s : State) : Host.Outcome State Fault Refusal :=
  match i with
  | .coldResetAssertion => Sys2Proof.Machine.execColdResetAssertion s
  | .coldResetRelease pins => Sys2Proof.Machine.execColdResetRelease pins s
  | .warmResetAssertion => Sys2Proof.Machine.execWarmResetAssertion s
  | .warmResetRelease pins => Sys2Proof.Machine.execWarmResetRelease pins s
  | .lossOfCarrier => Sys2Proof.Machine.execLossOfCarrier s
  | .returnOfCarrier => Sys2Proof.Machine.execReturnOfCarrier s
  | .loopArrival f => Sys2Proof.Machine.execLoopArrival f s
  | .reqArrival f => Sys2Proof.Machine.execReqArrival f s
  | .ansArrival f => Sys2Proof.Machine.execAnsArrival f s
  | .doneArrival f => Sys2Proof.Machine.execDoneArrival f s
  | .probeTimerExpiry => Sys2Proof.Machine.execProbeTimerExpiry s
  | .probeClaim => Sys2Proof.Machine.execProbeClaim s
  | .sendingEnd => Sys2Proof.Machine.execSendingEnd s
  | .acceptance port pins => Sys2Proof.Machine.execAcceptance port pins s
  | .send port => Sys2Proof.Machine.execSend port s
  | .answerTimerExpiry tag => Sys2Proof.Machine.execAnswerTimerExpiry tag s
  | .backoffTimerExpiry tag => Sys2Proof.Machine.execBackoffTimerExpiry tag s
  | .resendClaim tag => Sys2Proof.Machine.execResendClaim tag s
  | .quarantineExpiry tag => Sys2Proof.Machine.execQuarantineExpiry tag s
  | .refreshTimerExpiry => Sys2Proof.Machine.execRefreshTimerExpiry s
  | .refresh => Sys2Proof.Machine.execRefresh s
  | .refreshEnd => Sys2Proof.Machine.execRefreshEnd s
  | .read => Sys2Proof.Machine.execRead s
  | .write => Sys2Proof.Machine.execWrite s
  | .holdRead => Sys2Proof.Machine.execHoldRead s
  | .commit => Sys2Proof.Machine.execCommit s
  | .bulkStart => Sys2Proof.Machine.execBulkStart s
  | .bulkQuery => Sys2Proof.Machine.execBulkQuery s
  | .bulkAbort => Sys2Proof.Machine.execBulkAbort s
  | .wordOperationEnd => Sys2Proof.Machine.execWordOperationEnd s
  | .holdTimerExpiry slot => Sys2Proof.Machine.execHoldTimerExpiry slot s
  | .bulkStep => Sys2Proof.Machine.execBulkStep s
  | .bulkStepEnd => Sys2Proof.Machine.execBulkStepEnd s
  | .noticeRead => Sys2Proof.Machine.execNoticeRead s
  | .statusRead => Sys2Proof.Machine.execStatusRead s
  | .windowWrite => Sys2Proof.Machine.execWindowWrite s
  | .controlSpaceWrite => Sys2Proof.Machine.execControlSpaceWrite s
  | .throughFrameArrival f => Sys2Proof.Machine.execThroughFrameArrival f s

end Sys2Proof.Machine
end

