-- ==== Sys2Proof/Machine/Tick.lean ====
section
/-! DEFINITION. The 1 µs tick, which passes when no command waits (DESIGN CHOICE, log entry 2). -/

namespace Sys2Proof.Machine

/-- One µs off a running timer. -/
def countDown (t : Option Nat) : Option Nat := t.map (fun n => n - 1)

/-- One µs off an entry's timer (R64). -/
def countEntry (e : Entry) : Entry := { e with timer := countDown e.timer }

/-- One µs off a hold timer that runs (R122, R132). -/
def countHold (h : Hold) : Hold := if h.stopped then h else { h with timer := h.timer - 1 }

/-- Every running timer one µs further down. -/
def State.countTimers (s : State) : State :=
  { s with
    probeTimer := countDown s.probeTimer
    refreshTimer := countDown s.refreshTimer
    outstanding := s.outstanding.map (fun e => e.map countEntry)
    holds := s.holds.map (fun h => h.map countHold) }

/-- The expiry of an entry's timer, where it stands at 0 (R64). -/
def entryExpiry (tag : Tag) (e : Entry) : List Instr :=
  if e.timer = some 0 then
    match e.state with
    | .waitingAnswer => [.answerTimerExpiry tag]
    | .waitingResend => [.backoffTimerExpiry tag]
    | .stale => [.quarantineExpiry tag]
  else []

/-- The expiry of a slot's hold timer, where it stands at 0 (R122). -/
def slotExpiry (i : Slot) (h : Hold) : List Instr :=
  if !h.stopped && h.timer == 0 then [.holdTimerExpiry i] else []

/-- The expiries due at this tick. Those of one tick need no order among them (R64, R122); the model takes
this one (log entry 2). -/
def State.dueExpiries (s : State) : List Instr :=
  (if s.refreshTimer = some 0 then [.refreshTimerExpiry] else [])
    ++ (if s.probeTimer = some 0 then [.probeTimerExpiry] else [])
    ++ allSlots.flatMap (fun i => match s.slot i with | some h => slotExpiry i h | none => [])
    ++ allTags.flatMap (fun t => match s.entry t with | some e => entryExpiry t e | none => [])

/-- Several commands one after another. -/
def execAll : List Instr → State → Outcome
  | [], s => .next s
  | c :: cs, s =>
    match exec c s with
    | .next s1 => execAll cs s1
    | .fault r => .fault r
    | .refused r => .refused r

/-- One tick: the timers count down and those that reach 0 expire. -/
def tick (s : State) : Outcome := execAll s.countTimers.dueExpiries s.countTimers

end Sys2Proof.Machine
end

