-- ==== Sys2Proof/Safety.lean ====
section
/-! DEFINITION. Safe runs, and the laws of the station's state that every step keeps. -/

namespace Sys2Proof.Machine

/-- A step from `s` answers the next state `t`. -/
def Steps (s t : State) : Prop := step s = .next t

/-- `t` is reached from `s` by steps that all answer a next state. -/
inductive Reaches (s : State) : State → Prop
  | refl : Reaches s s
  | tail {t u : State} : Reaches s t → Steps t u → Reaches s u

/-- A run of `n` steps from `s` is safe: no step of it faults or is refused. -/
def SafeRun (n : Nat) (s : State) : Prop := ∃ t, Host.Core.run ⟨State, Fault, Refusal, step, State.reset⟩ n s = .next t

/-- A law is kept: a step from a state with it answers a state with it. -/
def Kept (law : State → Prop) : Prop := ∀ s t : State, law s → Steps s t → law t

/-! ### Buffers and the notice logic -/

/-- No buffer holds more than its places (R6, R17, R19, R22, R137, R168). -/
structure QueuesWithinPlaces (s : State) : Prop where
  passThrough : s.passThrough.length ≤ 3
  transmit : s.usedPlaces ≤ 6
  inbound : s.inbound.length ≤ 8
  recent : s.recentProbes.length ≤ 8
  deferred : s.deferred.length ≤ 12
  notices : s.notices.length ≤ 8

/-- While either reset is asserted the working state stays cleared, a grant reports nothing, and under cold
reset the bank is free and refresh is stopped (R3, R60, R63, R105, R106, R124, R142, R164, R170). -/
structure ClearInReset (s : State) : Prop where
  cleared : s.inReset = true → s.clearWorking = s
  grants : s.inReset = true → orphaned s.grant = s.grant
  cold : s.coldReset = true → s.grant = .free ∧ s.refreshTimer = none ∧ s.refreshClaim = false

/-- The attention line is asserted exactly while a notice is held or LOST is set, and is deasserted while
either reset is asserted (R169, R170). -/
structure AttentionFollows (s : State) : Prop extends ClearInReset s where
  level : s.attention = true ↔ s.notices ≠ [] ∨ s.lost = true
  deasserted : s.inReset = true → s.attention = false

/-- The bank's list is in its canonical form. -/
def MemoryCanonical (s : State) : Prop := Memory.wf s.mem = true

/-- The recent-probe set holds the serials before the probe serial, oldest first (R6). -/
def RecentAreLast (s : State) : Prop :=
  ∀ k, k < s.recentProbes.length →
    s.recentProbes[k]? = some (s.probeSerial - BitVec.ofNat 8 (s.recentProbes.length - k))

/-! ### The ring interface and what waits for it -/

/-- The ring state agrees with the resets, with ring-in carrier and with the probe logic
(R1, R3, R4, R7, section 1.2). -/
structure RingConsistent (s : State) : Prop where
  outCarrier : s.ringOutCarrier = !s.inReset
  reset : s.inReset = true → s.ringState = .offline
  offline : s.ringState = .offline → s.inReset = false → s.ringInCarrier = false
  broken : s.ringState = .broken → s.ringInCarrier = false
  joined : s.ringState = .probing ∨ s.ringState = .online → s.ringInCarrier = true
  timer : s.probeTimer.isSome = true ↔ s.ringState = .probing
  claim : s.probeClaim = true → s.ringState = .probing

/-- Nothing waits for the ring unless it is ONLINE: no request to be sent and no entry that waits
(R55, R79, R80). -/
structure WaitsOnlyOnline (s : State) : Prop extends RingConsistent s where
  ports : ∀ q target r, s.port q = .toSend target r → s.ringState = .online
  entries : ∀ t e, s.entry t = some e → e.state ≠ .stale → s.ringState = .online

/-- The transmit queue holds frames only in PROBING, and then LOOP frames alone, and in ONLINE (R23); what
ring-out sends is in its buffer, and ring-out is idle only while there is nothing to choose (R20, R21). -/
structure SendingConsistent (s : State) : Prop extends WaitsOnlyOnline s where
  queue : s.transmit ≠ [] → s.ringState = .probing ∨ s.ringState = .online
  probes : s.ringState = .probing → ∀ f ∈ s.transmit, Frame.kind f = some .loop
  pass : s.ringOut = .passThrough → s.passThrough ≠ []
  own : s.ringOut = .transmit → s.transmit ≠ []
  idle : s.ringOut = .idle → ringOutChoice s.ringState s.passThrough s.transmit = .idle

/-- The notices POSTED_FAIL with RING_DOWN that an exit from ONLINE places, in ascending order of tag (R79). -/
def State.lostWrites (s : State) : List Notice :=
  allTags.filterMap fun t =>
    match s.entry t with
    | some e =>
      if e.state ≠ .stale ∧ e.posted = true then
        some (.postedFail e.port t e.target e.request.page e.request.offset .ringDown)
      else none
    | none => none

/-- The entry of tag `t` waits with a request of port `q` that has no completion yet (R62, R79). -/
def State.waitsFor (s : State) (q : Port) (t : Tag) : Bool :=
  match s.entry t with
  | some e => e.state != .stale && !e.posted && e.port == q
  | none => false

/-- How often an exit from ONLINE completes a port with RING_DOWN: once for each entry that waits for it, or once
for its request in TO_SEND (R55, R79). In a station that a run can reach it is at most once. -/
def State.lostRequests (s : State) (q : Port) : Nat :=
  if allTags.countP (s.waitsFor q) = 0 then
    match s.port q with
    | .toSend _ _ => 1
    | _ => 0
  else allTags.countP (s.waitsFor q)

/-! ### The outstanding table -/

/-- No two entries other than FREE have one port, target station, page and offset (R66). -/
def WordsDistinct (s : State) : Prop :=
  ∀ t u a b, s.entry t = some a → s.entry u = some b → a.port = b.port → a.target = b.target →
    a.request.page = b.request.page → a.request.offset = b.request.offset → t = u

/-! ### Ports -/

/-- Out of reset no request waits on the pins of a port whose request place is empty (R41, R59, R61). -/
def PinsServed (s : State) : Prop :=
  ∀ q r, s.inReset = false → s.strobe q = .presented r → s.port q ≠ .idle

/-! ### Holds -/

/-- The laws of the hold table, of what waits on it, and of the grants that touch it. -/
structure HoldLaws (s : State) : Prop where
  /-- no two entries for one word (R121) -/
  unique : ∀ i j a b, s.slot i = some a → s.slot j = some b → a.page = b.page → a.offset = b.offset → i = j
  /-- a stopped timer belongs to a COMMIT under way (R132, R176) -/
  stopped : ∀ i h, s.slot i = some h → h.stopped = true →
    ∃ g, s.grant = .word g ∧ g.orphan = false ∧ g.result.hold = .finish i
  /-- a hold that is to be made is on a word not held, with a slot for it (R121) -/
  toMake : ∀ g page offset holder, s.grant = .word g → g.orphan = false →
    g.result.hold = .make page offset holder → s.holdOn page offset = none ∧ s.emptySlot.isSome = true
  /-- a hold that is to end stands, stopped (R132) -/
  toEnd : ∀ g i, s.grant = .word g → g.orphan = false → g.result.hold = .finish i →
    ∃ h, s.slot i = some h ∧ h.stopped = true
  /-- only the holder's COMMIT writes a held word (R123) -/
  writes : ∀ g i h, s.grant = .word g → s.slot i = some h → g.result.write ≠ none →
    g.result.accessed = some (wordAddress h.page h.offset) → g.result.hold = .finish i
  /-- a bulk step under way is not on a held word (R155, R123) -/
  steps : ∀ g i h, s.grant = .step g → s.slot i = some h → g.address ≠ wordAddress h.page h.offset
  /-- a job under a step does not wait (R148, R155) -/
  stepping : ∀ g j, s.grant = .step g → g.orphan = false → s.bulk = some j → j.slot = none
  /-- a WAITING entry waits behind a hold of another on its word (R138) -/
  waiting : ∀ d i, d ∈ s.deferred → d.state = .waiting i →
    ∃ h, s.slot i = some h ∧ h.page = d.request.page ∧ h.offset = d.request.offset ∧ h.holder ≠ ⟨d.origin, d.port⟩
  /-- the bulk engine waits only on a hold on its next word (R155, R156) -/
  engine : ∀ j i, s.bulk = some j → j.slot = some i →
    ∃ h, s.slot i = some h ∧ h.page = j.page ∧ h.offset = j.next

/-! ### The bulk engine -/

/-- A request that waits at a port for the own bank has passed its acceptance checks (R43, R46). -/
def bankRequestLegal (port : Port) (r : Request) : Bool :=
  match r.command with
  | .bulkStart _ _ count => decide (port = .p) && countFits r.offset count
  | _ => true

/-- The job record is in range: words left, within the page, tallies among the words done, owner P
(R146, R160). -/
def Job.inRange (j : Job) : Prop :=
  1 ≤ j.remaining ∧ j.next.toNat + j.remaining ≤ 8192
    ∧ j.skipped + j.corrected + j.uncorrectable ≤ j.done ∧ j.owner.port = .p

/-- The bulk engine's record is in range, and nothing that waits could start one that is not. -/
structure JobLaws (s : State) : Prop where
  record : ∀ j, s.bulk = some j → j.inRange
  ports : ∀ q r, s.port q = .atBank r → bankRequestLegal q r = true
  deferred : ∀ d ∈ s.deferred, d.request.command.op = .read ∨ d.request.command.op = .write
    ∨ d.request.command.op = .holdRead ∨ d.request.command.op = .commit
  skips : ∀ g, s.grant = .step g → g.skipped = true → g.corrected = false ∧ g.uncorrectable = false
  corrects : ∀ g, s.grant = .step g → g.corrected = true → g.uncorrectable = false
  /-- FIRST_MISMATCH comes with the end of the job alone (R146, R150, R158) -/
  mismatch : ∀ j, s.bulk = some j → s.firstMismatch = none

/-! ### Timers -/

/-- An entry's resend count is in range, and its timer between 1 and the value it was started with: the answer
timeout of the straps, 200 or 800 µs, for answer and quarantine, and 4 µs times the number of the coming resend for
a backoff (R62, R64, R69, R77). -/
def Entry.timed (straps : Straps) (e : Entry) : Prop :=
  e.attempts ≤ 6 ∧
  match e.state with
  | .waitingAnswer => ∃ n, e.timer = some n ∧ 1 ≤ n ∧ n ≤ if straps.long then 800 else 200
  | .waitingResend => e.attempts ≤ 5 ∧ (e.timer = none ∨ ∃ n, e.timer = some n ∧ 1 ≤ n ∧ n ≤ 4 * (e.attempts + 1))
  | .stale => ∃ n, e.timer = some n ∧ 1 ≤ n ∧ n ≤ if straps.long then 800 else 200

/-- Every running timer stands between 1 and the value it was started with (R5, R64, R88, R122). The straps, of which
the answer timeout is one, change in reset alone, where no entry is left (R63). -/
structure TimersInRange (s : State) : Prop extends ClearInReset s where
  probe : ∀ n, s.probeTimer = some n → 1 ≤ n ∧ n ≤ 100
  refresh : ∀ n, s.refreshTimer = some n → 1 ≤ n ∧ n ≤ 10
  runs : s.refreshTimer.isSome = !s.coldReset
  claim : s.refreshClaim = true → s.coldReset = false
  entries : ∀ t e, s.entry t = some e → e.timed s.straps
  holds : ∀ i h, s.slot i = some h → 1 ≤ h.timer ∧ h.timer ≤ 64

end Sys2Proof.Machine
end

