-- ==== Sys2Proof/Certificates/Slice0/Obligations.lean ====
section
/-! DEFINITION. The statements for the provers. -/

open Sys2Proof Sys2Proof.Machine

namespace Sys2Proof.Machine

/-- A frame is received in PROBING or ONLINE and passes the check of R14 (R2, R15). -/
def State.Takes (s : State) (f : Frame) : Prop :=
  s.ringInCarrier = true ∧ s.coldReset = false ∧ s.warmReset = false
    ∧ (s.ringState = .probing ∨ s.ringState = .online) ∧ Frame.checked f = true

/-- The arbiter's choice is the claim `c` of an operation `o`, whose request is `tk` (R91, R98). -/
def State.Serves (s : State) (o : Op) (c : Claim) (tk : Taken) : Prop :=
  s.choice = some c ∧ c.op = some o ∧ c.taken s.own = some tk

/-- The request is well formed and its page lies in the bank (R87). -/
def State.Admits (s : State) (tk : Taken) (r : Request) : Prop :=
  tk.request = some r ∧ r.page.toNat < pageCount s.straps

/-- No slot holds the word of the request. -/
def State.Unheld (s : State) (r : Request) : Prop :=
  ∀ i h, s.slot i = some h → ¬(h.page = r.page ∧ h.offset = r.offset)

/-- Slot `i`, and no other, holds the word of the request, with entry `h`. -/
def State.HeldIn (s : State) (r : Request) (i : Slot) (h : Hold) : Prop :=
  s.slot i = some h ∧ h.page = r.page ∧ h.offset = r.offset
    ∧ ∀ j k, s.slot j = some k → k.page = r.page → k.offset = r.offset → j = i

/-- A grant in ONLINE reserves a place of the transmit queue for the answer to a request from the ring; a local
request needs none, and outside ONLINE nothing is reserved (R24, R97). -/
def State.answerPlace (s : State) (tk : Taken) : Bool :=
  match tk.source with
  | .port _ => false
  | .remote _ _ _ => decide (s.ringState = .online)
  | .replay _ _ _ _ => decide (s.ringState = .online)

/-- The station once claim `c` has the bank for a word operation with this outcome. -/
def State.serving (s : State) (c : Claim) (tk : Taken) (res : WordResult) : State :=
  { s.advance c with grant := .word ⟨tk.source, res, s.answerPlace tk, false⟩ }

/-- The places of the transmit queue that are not free: its frames, and the place that the grant on the bank has
reserved (R22). -/
def State.placesTaken (s : State) : Nat :=
  s.transmit.length +
    match s.grant with
    | .free => 0
    | .refresh => 0
    | .word g => if g.reserved then 1 else 0
    | .step g => if g.reserved then 1 else 0

/-- What ring-out takes once it is free: the oldest pass-through frame, else the oldest frame of the transmit queue if
it may be inserted, which is any in ONLINE, a LOOP in PROBING, none otherwise (R21). -/
def nextSending (st : RingState) (pass own : List Frame) : Sending :=
  if pass ≠ [] then .passThrough
  else if (st = .online ∧ own ≠ []) ∨ (st = .probing ∧ ∃ f ∈ own.head?, Frame.kind f = some .loop) then .transmit
  else .idle

/-- The station with one more frame at the tail of the transmit queue, which ring-out takes if it is idle and the frame
is its choice (R21, R22). -/
def State.withFrame (s : State) (f : Frame) : State :=
  { s with
    transmit := s.transmit ++ [f]
    ringOut := if s.ringOut = .idle then nextSending s.ringState s.passThrough (s.transmit ++ [f]) else s.ringOut }

/-- The station once its probe claim has been taken (R6, R21): a LOOP with the probe serial at the tail of the transmit
queue, the serial in the set of at most 8, the probe serial advanced. -/
def State.withProbe (s : State) : State :=
  State.withFrame
    { s with
      probeClaim := false
      probeSerial := s.probeSerial + 1
      recentProbes :=
        if s.recentProbes.length < 8 then s.recentProbes ++ [s.probeSerial]
        else (s.recentProbes ++ [s.probeSerial]).tail }
    (loopFrame s.own s.probeSerial)

/-- The station once a probe claim has been raised: taken in the same moment if a place is free, else waiting (R6). -/
def State.withProbeClaim (s : State) : State :=
  if s.placesTaken < 6 then s.withProbe else { s with probeClaim := true }

/-- PROGRESS as the three data words of a completion (R59). -/
def progressData (pr : Progress) : List Word :=
  [(if pr.waiting then 2#2 else 1#2) ++ 0#1 ++ pr.next ++ 0#2 ++ pr.remaining,
    0#2 ++ pr.tallies.done ++ 0#2 ++ pr.tallies.skipped,
    0#2 ++ pr.tallies.corrected ++ 0#2 ++ pr.tallies.uncorrectable]

/-- The station once the outcome of a bulk command has reached its requester (R24, R32, R41, R59, R97, R149). A local
one completes on its port, with the three words of PROGRESS or with one of 0, and guard flag 0, and the request that
waits on its pins is accepted. One from the ring gets an answer frame with that PROGRESS or with STATUS alone, which in
ONLINE takes the place that the grant reserved, and is discarded otherwise. -/
def State.bulkAnswered (s : State) (source : Source) (st : Status) (progress : Option Progress) : State :=
  let words : List Word := match progress with
    | some pr => progressData pr
    | none => [0]
  let body : AnswerBody := match progress with
    | some pr => .bulk pr
    | none => .word false 0
  match source with
  | .port q => (s.complete q ⟨.answer st, words, false⟩).acceptWaiting q
  | .remote d q t => if s.ringState = .online then s.withFrame (ansFrame s.own d t q st body) else s
  | .replay k d q t =>
    let u : State := { s with deferred := s.deferred.eraseIdx k }
    if s.ringState = .online then u.withFrame (ansFrame s.own d t q st body) else u

/-- A REQ frame is malformed, by its bits (R27, R30): an unused OP; GUARD_ACT 3 in a WRITE or COMMIT; a WRITE with no
lane; a BULK_START of kind 0, of no word or more words than its page has from OFFSET on, or from a port other than P.
-/
def MalformedRequest (f : Frame) : Prop :=
  f.extractLsb' 120 4 = 0#4 ∨ 8#4 ≤ f.extractLsb' 120 4
    ∨ ((f.extractLsb' 120 4 = 2#4 ∨ f.extractLsb' 120 4 = 4#4) ∧ f.extractLsb' 102 2 = 3#2)
    ∨ (f.extractLsb' 120 4 = 2#4 ∧ f.extractLsb' 96 4 = 0#4)
    ∨ (f.extractLsb' 120 4 = 5#4 ∧ (f.extractLsb' 16 2 = 0#2 ∨ f.extractLsb' 24 14 = 0#14
      ∨ 8192 < (f.extractLsb' 24 14).toNat ∨ 8192 < (f.extractLsb' 72 13).toNat + (f.extractLsb' 24 14).toNat
      ∨ f.extractLsb' 106 2 ≠ 0#2))

/-- What an entry into BROKEN or CONFLICT does to the outstanding table, the ports and the notice logic
(R11, R13, R55, R79, R168). -/
structure RingLeft (s t : State) (into : RingState) : Prop where
  entries : ∀ tag, t.entry tag = (s.entry tag).filter (fun e => e.state == .stale)
  ports : ∀ q, t.port q = if s.lostRequests q = 0 then s.port q else .idle
  completions : ∀ q, portGet t.completions q =
    portGet s.completions q ++ List.replicate (s.lostRequests q) ⟨.ringDown, [0], false⟩
  notices : s.notices.length ≤ 8 →
    t.notices = (s.notices ++ .ringState into :: s.lostWrites).take 8
      ∧ t.lost = (s.lost || decide (8 < (s.notices ++ .ringState into :: s.lostWrites).length))
  attention : t.attention = true

/-- A HOLD item (R176, R178; R172 for the bits of no field). -/
def HoldItem (w : Word) : Option Hold → Prop
  | none => w = 0
  | some h =>
    w.getLsbD 31 = true ∧ w.getLsbD 30 = h.stopped ∧ w.extractLsb' 27 3 = h.holder.station
      ∧ w.extractLsb' 25 2 = h.holder.port.code ∧ w.extractLsb' 18 7 = BitVec.ofNat 7 h.timer
      ∧ w.extractLsb' 13 5 = h.page ∧ w.extractLsb' 0 13 = h.offset

/-- The BULK item (R177, R178; R172 for the bits of no field). The value bits of an absent OWNER_TAG or SLOT are 0 by
the model's choice (log entry 32). -/
def BulkItem (ws : List Word) : Option Job → Prop
  | none => ws = [0, 0, 0, 0, 0]
  | some j =>
    ∃ w0 w1 w3 w4 : Word, ws = [w0, w1, j.pattern, w3, w4]
      ∧ w0.extractLsb' 30 2 = (if j.slot.isSome then 2 else 1) ∧ w0.extractLsb' 28 2 = j.kind.code
      ∧ w0.getLsbD 27 = j.privileged ∧ w0.extractLsb' 24 3 = j.owner.station
      ∧ w0.extractLsb' 22 2 = j.owner.port.code ∧ w0.getLsbD 21 = j.ownerTag.isSome
      ∧ w0.extractLsb' 17 4 = j.ownerTag.getD 0 ∧ w0.getLsbD 16 = j.slot.isSome
      ∧ w0.extractLsb' 13 3 = (match j.slot with | none => 0 | some i => BitVec.ofNat 3 i.val)
      ∧ w0.extractLsb' 5 8 = 0 ∧ w0.extractLsb' 0 5 = j.page
      ∧ w1.extractLsb' 29 3 = 0 ∧ w1.extractLsb' 16 13 = j.next ∧ w1.extractLsb' 14 2 = 0
      ∧ w1.extractLsb' 0 14 = BitVec.ofNat 14 j.remaining
      ∧ w3.extractLsb' 30 2 = 0 ∧ w3.extractLsb' 16 14 = BitVec.ofNat 14 j.done ∧ w3.extractLsb' 14 2 = 0
      ∧ w3.extractLsb' 0 14 = BitVec.ofNat 14 j.skipped
      ∧ w4.extractLsb' 30 2 = 0 ∧ w4.extractLsb' 16 14 = BitVec.ofNat 14 j.corrected ∧ w4.extractLsb' 14 2 = 0
      ∧ w4.extractLsb' 0 14 = BitVec.ofNat 14 j.uncorrectable

/-- The three words of a NOTICE read (R175, R178; R172 for the bits of no field). The value bits of an absent
FIRST_MISMATCH are 0, and the PORT of a BULK_DONE is shown as carried, by the model's choice (log entries 32 and 33).
-/
def NoticeItem (ws : List Word) : Option Notice → Prop
  | none => ws = [0, 0, 0]
  | some (.postedFail port tag target page offset code) =>
    ∃ w0 : Word, ws = [w0, code.number.setWidth 32, 0]
      ∧ w0.extractLsb' 28 4 = 1 ∧ w0.extractLsb' 26 2 = port.code ∧ w0.extractLsb' 22 4 = tag
      ∧ w0.extractLsb' 19 3 = target ∧ w0.extractLsb' 14 5 = page ∧ w0.getLsbD 13 = false
      ∧ w0.extractLsb' 0 13 = offset
  | some (.bulkDone server port kind outcome tallies first) =>
    ∃ w0 w1 w2 : Word, ws = [w0, w1, w2]
      ∧ w0.extractLsb' 28 4 = 2 ∧ w0.extractLsb' 26 2 = port.code ∧ w0.extractLsb' 24 2 = kind.code
      ∧ w0.getLsbD 23 = decide (outcome = .mismatch) ∧ w0.getLsbD 22 = false ∧ w0.extractLsb' 19 3 = server
      ∧ w0.extractLsb' 14 5 = 0 ∧ w0.getLsbD 13 = first.isSome ∧ w0.extractLsb' 0 13 = first.getD 0
      ∧ w1.extractLsb' 30 2 = 0 ∧ w1.extractLsb' 16 14 = tallies.done ∧ w1.extractLsb' 14 2 = 0
      ∧ w1.extractLsb' 0 14 = tallies.skipped
      ∧ w2.extractLsb' 30 2 = 0 ∧ w2.extractLsb' 16 14 = tallies.corrected ∧ w2.extractLsb' 14 2 = 0
      ∧ w2.extractLsb' 0 14 = tallies.uncorrectable
  | some (.ringState st) => ws = [3#4 ++ 0#9 ++ st.code ++ 0#16, 0, 0]
  | some .ringDrop => ws = [0x40000000, 0, 0]

end Sys2Proof.Machine

/-! ### The machine -/

/-- Taking the front command is exec of it on the station with the queue's rest (the model's own convention, log
entries 1 and 27). -/
def Obligations.StepRunsTheFrontCommand : Prop :=
  ∀ (c : Instr) (cs : List Instr) (s : State), step { s with pending := c :: cs } = exec c { s with pending := cs }

/-- With no command waiting, a step is one µs: it always completes, every running timer falls by one, and every timer
that reaches 0 expires. Refresh and probe timers restart and claim; a probe claim places its LOOP if a place of the
transmit queue is free, and none is raised while one waits. A hold ends: the deferred entries that waited on
it are READY, the engine that waited on it runs. An answer timer ends in TIMEOUT, on its port or as a notice, and
quarantine; a backoff in a resend, or in a claim where no place of the transmit queue is left; a quarantine in a FREE
tag. A FREE tag stays so unless a request that waited on the pins of a port is accepted and sent. Nothing else changes
but what those ends of entries bring about (the model's own tick, DESIGN CHOICE, log entry 2). -/
def Obligations.IdleStepIsOneMicrosecond : Prop :=
  ∀ s : State, s.pending = [] →
    let ends (i : Slot) : Bool := (s.slot i).any fun h => !h.stopped && decide (h.timer ≤ 1)
    let timeout : Nat := if s.straps.long then 800 else 200
    let raised : Bool := (s.probeTimer.any fun n => decide (n ≤ 1)) && !s.probeClaim
    let probed : State := if raised then s.withProbeClaim else s
    ∃ t, step s = .next t
    ∧ t.refreshTimer = s.refreshTimer.map (fun n => if n ≤ 1 then 10 else n - 1)
    ∧ t.refreshClaim = (s.refreshClaim || (s.refreshTimer.any fun n => decide (n ≤ 1)))
    ∧ t.probeTimer = s.probeTimer.map (fun n => if n ≤ 1 then 100 else n - 1)
    ∧ t.probeClaim = probed.probeClaim ∧ t.probeSerial = probed.probeSerial ∧ t.recentProbes = probed.recentProbes
    ∧ (∀ i, t.slot i = (s.slot i).bind fun h =>
        if h.stopped then some h else if h.timer ≤ 1 then none else some { h with timer := h.timer - 1 })
    ∧ t.deferred = s.deferred.map (fun d =>
        match d.state with
        | .waiting i => if ends i then { d with state := .ready } else d
        | .ready => d)
    ∧ t.bulk = s.bulk.map (fun j => if j.slot.any ends then { j with slot := none } else j)
    ∧ (∀ u e n, s.entry u = some e → e.timer = some n → 2 ≤ n → t.entry u = some { e with timer := some (n - 1) })
    ∧ (∀ u e, s.entry u = some e → e.timer = none → t.entry u = some e)
    ∧ (∀ u e n, s.entry u = some e → e.timer = some n → n ≤ 1 → e.state = .waitingAnswer →
        t.entry u = some { e with state := .stale, timer := some timeout }
        ∧ (e.posted = false → ⟨.timeout, [0], false⟩ ∈ portGet t.completions e.port
          ∧ ((∀ r, s.strobe e.port ≠ .presented r) → t.port e.port = .idle))
        ∧ (e.posted = true →
          .postedFail e.port u e.target e.request.page e.request.offset .timeout ∈ t.notices ∨ t.lost = true))
    ∧ (∀ u e n, s.entry u = some e → e.timer = some n → n ≤ 1 → e.state = .waitingResend →
        (t.entry u = some { e with state := .waitingAnswer, attempts := e.attempts + 1, timer := some timeout }
          ∧ reqFrame s.own e.target u e.port e.request ∈ t.transmit)
        ∨ (t.entry u = some { e with timer := none } ∧ 6 ≤ t.placesTaken))
    ∧ (∀ u, s.entry u = none ∨ (∃ e n, s.entry u = some e ∧ e.timer = some n ∧ n ≤ 1 ∧ e.state = .stale) →
        t.entry u = none
        ∨ ∃ e r, t.entry u = some e ∧ e.state = .waitingAnswer ∧ e.attempts = 0 ∧ s.strobe e.port = .presented r)
    ∧ ((∀ u e n, s.entry u = some e → e.timer = some n → 2 ≤ n) →
        t.ports = s.ports ∧ t.strobes = s.strobes ∧ t.completions = s.completions
        ∧ t.transmit = probed.transmit ∧ t.ringOut = probed.ringOut ∧ t.notices = s.notices ∧ t.lost = s.lost
        ∧ t.attention = s.attention)
    ∧ probed.transmit <+: t.transmit ∧ s.notices <+: t.notices
    ∧ (∀ q, portGet s.completions q <+: portGet t.completions q)
    ∧ t.mem = s.mem ∧ t.epoch = s.epoch ∧ t.grant = s.grant ∧ t.straps = s.straps ∧ t.coldReset = s.coldReset
    ∧ t.warmReset = s.warmReset ∧ t.ringInCarrier = s.ringInCarrier ∧ t.ringOutCarrier = s.ringOutCarrier
    ∧ t.ringState = s.ringState ∧ t.windows = s.windows ∧ t.inbound = s.inbound ∧ t.passThrough = s.passThrough
    ∧ t.rotation = s.rotation ∧ t.portPointer = s.portPointer ∧ t.firstMismatch = s.firstMismatch ∧ t.pending = []

/-! ### Resets -/

/-- COLD_RESET_ASSERTION (R3, R49, R60, R63, R88, R106, R124, R142, R164, R170): the working state is cleared, the
bank is free, refresh is stopped, and of the bank only the word of a grant cut short may change. A present strobe that
stays raised presents anew. An assertion while cold reset is asserted is no event, and one while warm reset is asserted
acts as always; both are the model's choice (log entries 5 and 12). -/
def Obligations.ColdResetAssertionClearsWorkingState : Prop :=
  ∀ s : State,
    (s.coldReset = true → exec .coldResetAssertion s = .next s)
    ∧ (s.coldReset = false → ∃ m, exec .coldResetAssertion s = .next
        { s with
          coldReset := true, ringOutCarrier := false, ringState := .offline, probeTimer := none, probeClaim := false,
          probeSerial := 0, recentProbes := [], passThrough := [], transmit := [], ringOut := .idle, inbound := [],
          strobes := portMap (fun x => match x with | .accepted r => .presented r | y => y) s.strobes,
          ports := ⟨.idle, .idle, .idle, .idle⟩, completions := ⟨[], [], [], []⟩,
          windows := Vector.replicate 32 ⟨false, 0, 0, false, false⟩, outstanding := Vector.replicate 16 none,
          mem := m, refreshTimer := none, refreshClaim := false, rotation := .remote, portPointer := .p,
          grant := .free, holds := Vector.replicate 6 none, deferred := [], bulk := none,
          firstMismatch := none, notices := [], lost := false, attention := false }
        ∧ ∀ a, grantAddress s.grant ≠ some a → Memory.lookup m a = Memory.lookup s.mem a)

/-- WARM_RESET_ASSERTION (R3, R49, R60, R63, R85, R88, R105, R124, R142, R164, R170): the working state is cleared,
while the bank, the probe serial, the straps, the refresh timer and claim and what holds the bank stay; a grant
loses its reservation and its requester. A present strobe that stays raised presents anew. An assertion while warm
reset is asserted is no event, and one while cold reset is asserted acts as always; both are the model's choice (log
entries 5 and 12). -/
def Obligations.WarmResetAssertionKeepsTheBank : Prop :=
  ∀ s : State,
    (s.warmReset = true → exec .warmResetAssertion s = .next s)
    ∧ (s.warmReset = false → ∃ g, exec .warmResetAssertion s = .next
        { s with
          warmReset := true, ringOutCarrier := false, ringState := .offline, probeTimer := none, probeClaim := false,
          recentProbes := [], passThrough := [], transmit := [], ringOut := .idle, inbound := [],
          strobes := portMap (fun x => match x with | .accepted r => .presented r | y => y) s.strobes,
          ports := ⟨.idle, .idle, .idle, .idle⟩, completions := ⟨[], [], [], []⟩,
          windows := Vector.replicate 32 ⟨false, 0, 0, false, false⟩, outstanding := Vector.replicate 16 none,
          rotation := .remote, portPointer := .p, grant := g, holds := Vector.replicate 6 none, deferred := [],
          bulk := none, firstMismatch := none, notices := [], lost := false, attention := false }
        ∧ (s.grant = .free → g = .free) ∧ (s.grant = .refresh → g = .refresh)
        ∧ (∀ w, s.grant = .word w → g = .word { w with reserved := false, orphan := true })
        ∧ (∀ w, s.grant = .step w → g = .step { w with reserved := false, orphan := true }))

/-- The releases (R4, R5, R6, R61, R85, R88, R105, R106): straps sampled; unless the other reset is still asserted,
ring-out carrier comes on, with ring-in carrier the station enters PROBING and its first probe claim is taken if a
place is free, and the requests of raised strobes are accepted. A cold release starts refresh and leaves the bank
unknown: nothing listed, under the next epoch of free values (log entry 9). A release without its reset is no event,
and the overlap of the two resets is the model's choice (log entries 5 and 12). A whole cold reset with every strap 0,
no ring-in carrier and every strobe low leads to State.reset, but for the waiting commands and the epoch of the
unknown bank (the model's choice of pins, log entries 6 and 9). -/
def Obligations.ResetReleaseStartsTheStation : Prop :=
  ∀ (s : State) (pins : Straps),
    let out (other : Bool) (u : State) : State :=
      if other then u
      else if u.ringInCarrier then
        (State.withProbeClaim
          { u with
            ringOutCarrier := true, ringState := .probing, recentProbes := [], probeTimer := some 100 }).acceptAll
      else State.acceptAll { u with ringOutCarrier := true }
    (s.coldReset = false → exec (.coldResetRelease pins) s = .next s)
    ∧ (s.coldReset = true → exec (.coldResetRelease pins) s = .next (out s.warmReset
        { s with coldReset := false, straps := pins, mem := [], epoch := s.epoch + 1, refreshTimer := some 10 }))
    ∧ (s.warmReset = false → exec (.warmResetRelease pins) s = .next s)
    ∧ (s.warmReset = true → exec (.warmResetRelease pins) s = .next (out s.coldReset
        { s with warmReset := false, straps := pins }))
    ∧ (s.coldReset = false → s.warmReset = false → s.ringInCarrier = false → (∀ q, s.strobe q = .low) →
      ∃ t, exec .coldResetAssertion s = .next t
        ∧ exec (.coldResetRelease ⟨0, 0, false, false⟩) t =
          .next { State.reset with pending := s.pending, epoch := s.epoch + 1 })

/-! ### Carrier and the ring states -/

/-- RETURN_OF_CARRIER (R1, R4, R5, R6, R12): out of reset, OFFLINE and BROKEN enter PROBING, with the probe claim
taken at once if a place of the transmit queue is free; the other states stay. That nothing changes with carrier
already there is the model's choice (log entry 5). -/
def Obligations.ReturnOfCarrierStartsProbing : Prop :=
  ∀ s : State,
    (s.ringInCarrier = true → exec .returnOfCarrier s = .next s)
    ∧ (s.ringInCarrier = false → s.coldReset = false → s.warmReset = false →
        s.ringState = .offline ∨ s.ringState = .broken →
        exec .returnOfCarrier s = .next
          (State.withProbeClaim
            { s with
              ringInCarrier := true, ringState := .probing, recentProbes := [], probeTimer := some 100 }))
    ∧ (s.ringInCarrier = false → s.coldReset = true ∨ s.warmReset = true ∨ s.ringState = .probing
        ∨ s.ringState = .online ∨ s.ringState = .conflict →
        exec .returnOfCarrier s = .next { s with ringInCarrier := true })

/-- LOSS_OF_CARRIER (R10, R11, R55, R79, R80): PROBING and ONLINE enter BROKEN. Both buffers of ring-out are
emptied, the inbound request queue, the bank, the holds, the deferred queue and the bulk engine stay. In OFFLINE,
BROKEN and CONFLICT only the pin changes, and with carrier already absent nothing does (log entry 5). The requests that
wait on the pins of the ports completed are accepted, after the other effects (log entry 13). -/
def Obligations.LossOfCarrierBreaksTheRing : Prop :=
  ∀ s : State,
    (s.ringInCarrier = true → s.ringState = .probing ∨ s.ringState = .online →
      ∃ t, exec .lossOfCarrier s = .next t.acceptAll ∧ RingLeft s t .broken
        ∧ t = { s with
            ringInCarrier := false, ringState := .broken, probeTimer := none, probeClaim := false, passThrough := [],
            transmit := [], ringOut := .idle, ports := t.ports, completions := t.completions,
            outstanding := t.outstanding, notices := t.notices, lost := t.lost, attention := true })
    ∧ (s.ringInCarrier = false ∨ s.ringState = .offline ∨ s.ringState = .broken ∨ s.ringState = .conflict →
      exec .lossOfCarrier s = .next { s with ringInCarrier := false })

/-- LOOP_ARRIVAL of a probe with the own number and an unknown serial (R8, R13, R55, R79, R80): CONFLICT. The
transmit queue is emptied and one of its frames being sent is cut short, while the pass-through buffer goes on. The
requests that wait on the pins of the ports completed are accepted, after the other effects (log entry 13). -/
def Obligations.UnknownSerialEntersConflict : Prop :=
  ∀ (s : State) (f : Frame), s.Takes f → Frame.kind f = some .loop → Frame.origin f = s.own →
    Frame.serial f ∉ s.recentProbes →
    ∃ t, exec (.loopArrival f) s = .next t.acceptAll ∧ RingLeft s t .conflict
      ∧ t = { s with
          ringState := .conflict, probeTimer := none, probeClaim := false, transmit := [],
          ringOut := if s.ringOut ≠ .passThrough ∧ s.passThrough = [] then .idle else .passThrough,
          ports := t.ports, completions := t.completions, outstanding := t.outstanding, notices := t.notices,
          lost := t.lost, attention := true }

/-- LOOP_ARRIVAL of a probe with the own number and a serial of the recent-probe set (R8, R9): PROBING enters
ONLINE with a notice, ONLINE stays. -/
def Obligations.KnownSerialEntersOnline : Prop :=
  ∀ (s : State) (f : Frame), s.Takes f → Frame.kind f = some .loop → Frame.origin f = s.own →
    Frame.serial f ∈ s.recentProbes →
    (s.ringState = .probing → exec (.loopArrival f) s = .next
      (State.placeNotice { s with ringState := .online, probeTimer := none, probeClaim := false }
        (.ringState .online)))
    ∧ (s.ringState = .online → exec (.loopArrival f) s = .next s)

/-- PROBE_TIMER_EXPIRY and PROBE_CLAIM (R6, R7, R21, R22): the timer restarts at 100 µs and, unless a claim waits
already, raises one, which is taken at once if a place is free; a claim that waited is taken by PROBE_CLAIM once a
place is free (the model's own row for it, log entry 20). A claim taken places a LOOP frame, adds its serial to the at
most 8 of the set, and the probe serial advances by one. -/
def Obligations.ProbesAreClaimedAndPlaced : Prop :=
  ∀ s : State,
    (s.probeTimer ≠ none → s.probeClaim = false →
      exec .probeTimerExpiry s = .next (State.withProbeClaim { s with probeTimer := some 100 }))
    ∧ (s.probeTimer ≠ none → s.probeClaim = true → exec .probeTimerExpiry s = .next { s with probeTimer := some 100 })
    ∧ (s.probeClaim = true → s.placesTaken < 6 → exec .probeClaim s = .next s.withProbe)

/-- SENDING_END (R20, R21): the frame leaves its buffer, and ring-out takes the oldest pass-through frame, else the
oldest frame of the transmit queue if it may be inserted: any in ONLINE, a LOOP in PROBING, none otherwise. -/
def Obligations.SendingEndFreesThePlace : Prop :=
  ∀ s : State,
    (s.ringOut = .passThrough → exec .sendingEnd s = .next
      { s with passThrough := s.passThrough.tail, ringOut := nextSending s.ringState s.passThrough.tail s.transmit })
    ∧ (s.ringOut = .transmit → exec .sendingEnd s = .next
      { s with transmit := s.transmit.tail, ringOut := nextSending s.ringState s.passThrough s.transmit.tail })

/-! ### Arriving frames -/

/-- REQ_ARRIVAL for this station while the inbound request queue has room (R15, R17): the frame joins its tail. -/
def Obligations.RequestJoinsInboundQueue : Prop :=
  ∀ (s : State) (f : Frame), s.Takes f → Frame.kind f = some .req → Frame.dest f = s.own → s.inbound.length < 8 →
    exec (.reqArrival f) s = .next { s with inbound := s.inbound ++ [f] }

/-- REQ_ARRIVAL for this station while the inbound request queue is full (R18, R33): a RETRY answer goes to the
pass-through buffer in its place, with DEST and ORIGIN exchanged, TAG and PORT kept, every other bit of bytes 0 to
13 clear and a fresh check sequence; with that buffer full it is dropped with a notice. The request is not kept. It
is the frame the hold logic makes for a RETRY. -/
def Obligations.FullQueueTurnsRequestIntoRetry : Prop :=
  ∀ (s : State) (f : Frame), s.Takes f → Frame.kind f = some .req → Frame.dest f = s.own → 8 ≤ s.inbound.length →
    let body : BitVec 112 :=
      2#4 ++ 8#4 ++ 0#1 ++ Frame.origin f ++ 0#1 ++ Frame.dest f ++ Frame.tag f ++ (Frame.port f).code ++ 0#90
    let retry : Frame := body ++ checkSequence body
    (s.passThrough.length < 3 →
      exec (.reqArrival f) s = .next
        { s with
          passThrough := s.passThrough ++ [retry]
          ringOut := if s.ringOut = .idle then .passThrough else s.ringOut })
    ∧ (3 ≤ s.passThrough.length → exec (.reqArrival f) s = .next (s.placeNotice .ringDrop))
    ∧ retry = ansFrame s.own (Frame.origin f) (Frame.tag f) (Frame.port f) .retry (.word false 0)

/-- REQ_ARRIVAL of an own request that no station took (R72): its entry in WAITING_ANSWER, with the frame's DEST and
PORT, ends with NO_STATION on its port, whose waiting request is then accepted, or as a POSTED_FAIL notice; in every
other case the frame is discarded. -/
def Obligations.UnclaimedRequestEndsWithNoStation : Prop :=
  ∀ (s : State) (f : Frame), s.Takes f → Frame.kind f = some .req → Frame.dest f ≠ s.own → Frame.origin f = s.own →
    (∀ e, s.entry (Frame.tag f) = some e → e.state = .waitingAnswer → e.target = Frame.dest f →
      e.port = Frame.port f →
      (e.posted = false → exec (.reqArrival f) s = .next
        (((s.setEntry (Frame.tag f) none).complete e.port ⟨.noStation, [0], false⟩).acceptWaiting e.port))
      ∧ (e.posted = true → exec (.reqArrival f) s = .next
        ((s.setEntry (Frame.tag f) none).placeNotice
          (.postedFail e.port (Frame.tag f) e.target e.request.page e.request.offset .noStation))))
    ∧ ((∀ e, s.entry (Frame.tag f) = some e →
        e.state ≠ .waitingAnswer ∨ e.target ≠ Frame.dest f ∨ e.port ≠ Frame.port f) →
      exec (.reqArrival f) s = .next s)

/-- ANS_ARRIVAL of a matching answer other than RETRY at an entry in WAITING_ANSWER (R34, R59, R67, R68, R78): the
entry becomes FREE; its port is given the status with data, PROGRESS or neither by the entry's operation, and a
posted write is reported only when it failed. A request that then waits on the pins of the port is accepted. That a
READ or HOLD_READ with another status than OK and CORRECTED completes with data 0 and guard flag 0, whatever the frame
carries, is the model's inference (DEDUCED, log entry 18). -/
def Obligations.MatchingAnswerEndsTheEntry : Prop :=
  ∀ (s : State) (f : Frame) (e : Entry) (st : Status), s.Takes f → Frame.kind f = some .ans → Frame.dest f = s.own →
    s.entry (Frame.tag f) = some e → e.state = .waitingAnswer → e.target = Frame.origin f → e.port = Frame.port f →
    Frame.status f = some st → st ≠ .retry →
    let o := e.request.command.op
    let progress : Prop := (o = .bulkQuery ∧ st = .ok) ∨ (o = .bulkAbort ∧ st = .aborted)
    (e.posted = false → (o = .read ∨ o = .holdRead) → (st = .ok ∨ st = .corrected) →
      exec (.ansArrival f) s = .next
        (((s.setEntry (Frame.tag f) none).complete e.port
          ⟨.answer st, [Frame.data f], Frame.guard f⟩).acceptWaiting e.port))
    ∧ (e.posted = false → progress → ∀ pr, Frame.progress f = some pr →
      exec (.ansArrival f) s = .next
        (((s.setEntry (Frame.tag f) none).complete e.port
          ⟨.answer st, progressData pr, false⟩).acceptWaiting e.port))
    ∧ (e.posted = false → ¬((o = .read ∨ o = .holdRead) ∧ (st = .ok ∨ st = .corrected)) → ¬progress →
      exec (.ansArrival f) s = .next
        (((s.setEntry (Frame.tag f) none).complete e.port ⟨.answer st, [0], false⟩).acceptWaiting e.port))
    ∧ (e.posted = true → ¬progress → (st = .ok ∨ st = .corrected) →
      exec (.ansArrival f) s = .next (s.setEntry (Frame.tag f) none))
    ∧ (e.posted = true → ¬progress → st ≠ .ok → st ≠ .corrected →
      exec (.ansArrival f) s = .next
        ((s.setEntry (Frame.tag f) none).placeNotice
          (.postedFail e.port (Frame.tag f) e.target e.request.page e.request.offset (.answer st))))

/-- ANS_ARRIVAL of the other answers (R34, R67, R69, R70). A matching RETRY at an entry in WAITING_ANSWER backs off
for 4 µs times the number of the coming resend, or ends the entry with RETRY_LIMIT after 6 resends. A late answer
frees its STALE entry and is discarded. An answer to no entry, from another station or for another port, with an
unused status, with PROGRESS of an unused PSTATE, or at an entry in WAITING_RESEND changes nothing. -/
def Obligations.RetriesAndLateAnswers : Prop :=
  ∀ (s : State) (f : Frame), s.Takes f → Frame.kind f = some .ans → Frame.dest f = s.own →
    (∀ e : Entry,
      s.entry (Frame.tag f) = some e → e.state = .waitingAnswer → e.target = Frame.origin f → e.port = Frame.port f →
      Frame.status f = some .retry →
      (e.attempts < 6 → exec (.ansArrival f) s = .next
        (s.setEntry (Frame.tag f) (some { e with state := .waitingResend, timer := some (4 * (e.attempts + 1)) })))
      ∧ (6 ≤ e.attempts → e.posted = false → exec (.ansArrival f) s = .next
        (((s.setEntry (Frame.tag f) none).complete e.port ⟨.retryLimit, [0], false⟩).acceptWaiting e.port))
      ∧ (6 ≤ e.attempts → e.posted = true → exec (.ansArrival f) s = .next
        ((s.setEntry (Frame.tag f) none).placeNotice
          (.postedFail e.port (Frame.tag f) e.target e.request.page e.request.offset .retryLimit))))
    ∧ (∀ e st, s.entry (Frame.tag f) = some e → e.state = .stale → e.target = Frame.origin f → e.port = Frame.port f →
      Frame.status f = some st →
      (¬((e.request.command.op = .bulkQuery ∧ st = .ok) ∨ (e.request.command.op = .bulkAbort ∧ st = .aborted))
        ∨ Frame.progress f ≠ none) →
      exec (.ansArrival f) s = .next (s.setEntry (Frame.tag f) none))
    ∧ (s.entry (Frame.tag f) = none → exec (.ansArrival f) s = .next s)
    ∧ (∀ e, s.entry (Frame.tag f) = some e →
      e.state = .waitingResend ∨ e.target ≠ Frame.origin f ∨ e.port ≠ Frame.port f ∨ Frame.status f = none
        ∨ (Frame.progress f = none
          ∧ ((e.request.command.op = .bulkQuery ∧ Frame.status f = some .ok)
            ∨ (e.request.command.op = .bulkAbort ∧ Frame.status f = some .aborted))) →
      exec (.ansArrival f) s = .next s)

/-- DONE_ARRIVAL (R35, R163, R168, R169): a BULK_DONE notice joins the notice queue, or is lost at a full one, and
attention is asserted; FIRST_MISMATCH is taken as present for a CHECK that ended with MISMATCH alone. A DONE of an
unused kind of job is discarded. -/
def Obligations.DoneFramePlacesANotice : Prop :=
  ∀ (s : State) (f : Frame), s.Takes f → Frame.kind f = some .done → Frame.dest f = s.own →
    (∀ k, Frame.doneKind f = some k →
      let n : Notice := .bulkDone (Frame.origin f) (Frame.port f) k (Frame.outcome f) (Frame.tallies f)
        (if k = .check ∧ Frame.outcome f = .mismatch then some (Frame.firstMismatch f) else none)
      (s.notices.length < 8 →
        exec (.doneArrival f) s = .next { s with notices := s.notices ++ [n], attention := true })
      ∧ (8 ≤ s.notices.length → exec (.doneArrival f) s = .next { s with lost := true, attention := true }))
    ∧ (Frame.doneKind f = none → exec (.doneArrival f) s = .next s)

/-- Frames that are passed on (R15 row 7, R16, R19, R21): a LOOP of another station, a REQ, ANS or DONE with neither
number of this station, and in CONFLICT every frame, joins the pass-through buffer, and ring-out takes it if it is
idle; at a full buffer the frame is dropped with a RING_DROP notice. -/
def Obligations.OtherFramesPassThrough : Prop :=
  ∀ (s : State) (f : Frame) (k : Kind) (c : Instr), s.ringInCarrier = true → s.coldReset = false →
    s.warmReset = false → Frame.checked f = true → Frame.kind f = some k →
    (k = .loop ∧ c = .loopArrival f) ∨ (k = .req ∧ c = .reqArrival f) ∨ (k = .ans ∧ c = .ansArrival f)
      ∨ (k = .done ∧ c = .doneArrival f)
      ∨ ((k = .ans ∨ k = .done ∨ s.ringState = .conflict) ∧ c = .throughFrameArrival f) →
    s.ringState = .conflict
      ∨ ((s.ringState = .probing ∨ s.ringState = .online) ∧ Frame.origin f ≠ s.own
        ∧ (k = .loop ∨ Frame.dest f ≠ s.own)) →
    (s.passThrough.length < 3 → exec c s = .next
      { s with
        passThrough := s.passThrough ++ [f], ringOut := if s.ringOut = .idle then .passThrough else s.ringOut })
    ∧ (3 ≤ s.passThrough.length → exec c s = .next (s.placeNotice .ringDrop))

/-- Frames that are dropped without a trace (R2, R14, R15 row 6): damaged ones, ones that cannot arrive, ones of an
unused kind, and own answers and DONE frames that no station took. Which rows take a frame is the model's choice (log
entry 21). -/
def Obligations.DroppedFramesLeaveNoTrace : Prop :=
  ∀ (s : State) (f : Frame),
    (Frame.checked f = false ∨ s.ringInCarrier = false ∨ s.coldReset = true ∨ s.warmReset = true
      ∨ s.ringState = .offline ∨ s.ringState = .broken →
      (Frame.kind f = some .loop → exec (.loopArrival f) s = .next s)
      ∧ (Frame.kind f = some .req → exec (.reqArrival f) s = .next s)
      ∧ (Frame.kind f = some .ans → exec (.ansArrival f) s = .next s)
      ∧ (Frame.kind f = some .done → exec (.doneArrival f) s = .next s)
      ∧ (Frame.kind f = none ∨ s.ringState = .conflict
          ∨ ((Frame.kind f = some .ans ∨ Frame.kind f = some .done) ∧ Frame.dest f ≠ s.own) →
        exec (.throughFrameArrival f) s = .next s))
    ∧ (Frame.kind f = none → exec (.throughFrameArrival f) s = .next s)
    ∧ (s.ringState = .probing ∨ s.ringState = .online → Frame.kind f = some .ans ∨ Frame.kind f = some .done →
      Frame.dest f ≠ s.own → Frame.origin f = s.own →
      exec (.throughFrameArrival f) s = .next s
      ∧ (Frame.kind f = some .ans → exec (.ansArrival f) s = .next s)
      ∧ (Frame.kind f = some .done → exec (.doneArrival f) s = .next s))

/-! ### Ports -/

/-- ACCEPTANCE of a memory request that a raised strobe presents at an empty request place, out of reset, makes the
five checks in their order (R43 to R46, R108): each refusal is a completion with its code, data 0 and guard flag 0,
and nothing else changes but the strobe, whose request is now accepted. -/
def Obligations.AcceptanceRefusals : Prop :=
  ∀ (s : State) (q : Port) (r : PortRequest),
    (∀ r', s.strobe q ≠ .accepted r') → s.coldReset = false → s.warmReset = false → s.port q = .idle →
    (q = .p → r.control = false) →
    let w := s.windows.get r.window.toFin
    let illegal : Prop :=
      r.op = 0 ∨ 8 ≤ r.op ∨ (q ≠ .p ∧ r.op ≠ 1 ∧ r.op ≠ 2) ∨ (r.op = 2 ∧ r.lanes = 0)
        ∨ ((r.op = 2 ∨ r.op = 4) ∧ r.guardAct = 3)
        ∨ (r.op = 4 ∧ r.lanes = 0 ∧ (r.guardAct = 1 ∨ r.guardAct = 2)) ∨ (r.op = 5 ∧ r.bulkKind = 0)
    let plain : Prop := q ≠ .p ∨ r.privileged = false
    let changes : Prop := r.op = 2 ∨ r.op = 3 ∨ (r.op = 4 ∧ r.lanes ≠ 0) ∨ (r.op = 5 ∧ r.bulkKind ≠ 2)
    let outside : Prop := r.op = 5 ∧ (r.count = 0 ∨ 8192 < r.offset.toNat + r.count.toNat)
    let refused (code : Code) : Prop :=
      exec (.acceptance q (some r)) s = .next ((s.setStrobe q (.accepted r)).complete q ⟨code, [0], false⟩)
    (illegal → refused .badRequest)
    ∧ (¬illegal → w.valid = false → refused .noWindow)
    ∧ (¬illegal → w.valid = true → w.privOnly = true → plain → refused .noAccess)
    ∧ (¬illegal → w.valid = true → ¬(w.privOnly = true ∧ plain) → w.readOnly = true → changes → refused .readOnly)
    ∧ (¬illegal → w.valid = true → ¬(w.privOnly = true ∧ plain) → ¬(w.readOnly = true ∧ changes) → outside →
      refused .badRequest)

/-- The present strobe and the acceptance of what waits (R41, R59, R61). ACCEPTANCE with the strobe low lowers it. A
raising at an occupied request place or in reset waits on the pins, and a strobe that stays raised after its request
was accepted presents none. A request that waits is accepted when the place is empty and no reset is asserted, just as
one that is raised then; else nothing happens. After an outcome at a port, and at events of all ports, the waiting
requests are accepted port by port. The request that the pins make (R28, R40, R43, R45, R108, R110): its fields are
the pins', absent ones are 0. That ACCEPTANCE stands for every change of a port's pins is the model's choice (log
entry 13). -/
def Obligations.PinsGiveTheRequest : Prop :=
  (∀ (s : State) (q : Port) (r : PortRequest),
    exec (.acceptance q none) s = .next (s.setStrobe q .low)
    ∧ (s.coldReset = true ∨ s.warmReset = true ∨ s.port q ≠ .idle → (∀ r', s.strobe q ≠ .accepted r') →
      exec (.acceptance q (some r)) s = .next (s.setStrobe q (.presented r)))
    ∧ (∀ r', s.strobe q = .accepted r' → exec (.acceptance q (some r)) s = .next (s.setStrobe q (.accepted r)))
    ∧ (s.coldReset = true ∨ s.warmReset = true ∨ s.port q ≠ .idle ∨ (∀ r', s.strobe q ≠ .presented r') →
      s.acceptWaiting q = s)
    ∧ (s.coldReset = false → s.warmReset = false → s.port q = .idle → s.strobe q = .presented r →
      exec (.acceptance q (some r)) (s.setStrobe q .low) = .next (s.acceptWaiting q))
    ∧ s.acceptAll = (((s.acceptWaiting .p).acceptWaiting .c1).acceptWaiting .c2).acceptWaiting .c3
    ∧ s.acceptFor (.port q) = s.acceptWaiting q
    ∧ (∀ o t, s.acceptFor (.remote o q t) = s ∧ ∀ k, s.acceptFor (.replay k o q t) = s))
  ∧ ∀ (q : Port) (r : PortRequest) (c : Command), pinsCommand q r = some c →
    c.op.code = r.op
    ∧ (r.op = 1 ∨ r.op = 3 ∨ r.op = 6 ∨ r.op = 7 → c.mask = (0, 0) ∧ c.data = 0 ∧ c.job = (0, 0))
    ∧ (r.op = 2 ∨ (r.op = 4 ∧ r.lanes ≠ 0) → c.mask = (r.guardAct, r.lanes) ∧ c.data = r.data ∧ c.job = (0, 0))
    ∧ (r.op = 4 → r.lanes = 0 → c.mask = (0, 0) ∧ c.data = 0 ∧ c.job = (0, 0))
    ∧ (r.op = 5 → c.mask = (0, 0) ∧ c.data = (if r.bulkKind = 3 then 0 else r.data) ∧ c.job = (r.count, r.bulkKind))
    ∧ pinsPrivileged .p r = r.privileged ∧ pinsPrivileged .c1 r = false ∧ pinsPrivileged .c2 r = false
    ∧ pinsPrivileged .c3 r = false

/-- ACCEPTANCE of a request that a raised strobe presents and that passes the five checks (R50 to R53): to the own
bank in any ring state; to another station with RING_DOWN unless the ring is ONLINE, and there sent at once or waiting
in TO_SEND. -/
def Obligations.AcceptedRequestsAreRouted : Prop :=
  ∀ (s : State) (q : Port) (r : PortRequest) (c : Command), (∀ r', s.strobe q ≠ .accepted r') →
    s.coldReset = false → s.warmReset = false → s.port q = .idle → (q = .p → r.control = false) →
    pinsCommand q r = some c →
    let s1 := s.setStrobe q (.accepted r)
    let w := s.windows.get r.window.toFin
    let request : Request := ⟨c, pinsPrivileged q r, w.page, r.offset⟩
    w.valid = true → ¬(w.privOnly = true ∧ pinsPrivileged q r = false) →
    ¬(w.readOnly = true ∧ changesWord c = true) → rangeFits r.offset c = true →
    (w.target = s.own → exec (.acceptance q (some r)) s = .next (s1.setPort q (.atBank request)))
    ∧ (w.target ≠ s.own → s.ringState ≠ .online →
      exec (.acceptance q (some r)) s = .next (s1.complete q ⟨.ringDown, [0], false⟩))
    ∧ (w.target ≠ s.own → s.ringState = .online → s.sendTag q w.target request = none →
      exec (.acceptance q (some r)) s = .next (s1.setPort q (.toSend w.target request)))
    ∧ (∀ tag, w.target ≠ s.own → s.ringState = .online → s.sendTag q w.target request = some tag →
      exec (.acceptance q (some r)) s = .next (s1.sendRequest q w.target request tag))

/-- SEND of a request in TO_SEND (R53, R54, R56, R65, R28): in ONLINE, with a FREE entry, no entry of the port on the
same word and a free place of the transmit queue, the lowest FREE tag is taken with a fresh answer timer and the REQ
frame joins the queue; a WRITE of a channel port completes with POSTED, and a request that waits on the pins is then
accepted; any other request is in flight. -/
def Obligations.SendTakesTheLowestFreeTag : Prop :=
  ∀ (s : State) (q : Port) (d : Station) (r : Request) (tag : Tag), s.port q = .toSend d r → s.ringState = .online →
    s.entry tag = none → (∀ u, u < tag → s.entry u ≠ none) →
    (∀ u e, s.entry u = some e →
      ¬(e.port = q ∧ e.target = d ∧ e.request.page = r.page ∧ e.request.offset = r.offset)) →
    s.placesTaken < 6 →
    let posted : Bool := decide (q ≠ .p ∧ r.command.op = .write)
    let sent : State :=
      { s with
        outstanding := s.outstanding.set tag.toNat
          (some ⟨.waitingAnswer, q, d, r, posted, 0, some (if s.straps.long then 800 else 200)⟩) tag.isLt
        transmit := s.transmit ++ [reqFrame s.own d tag q r]
        ringOut := if s.ringOut ≠ .idle then s.ringOut else if s.passThrough = [] then .transmit else .passThrough }
    (posted = true →
      exec (.send q) s = .next ((sent.complete q ⟨.posted, [0], false⟩).acceptWaiting q))
    ∧ (posted = false → exec (.send q) s = .next (sent.setPort q (.inFlight d r)))

/-- ACCEPTANCE with control-select (R58, R171 to R178): refused when it is no READ or WRITE, plain, or names no item;
a READ of a WINDOW, HOLD or BULK item returns the item's words and changes nothing else, and every other access waits
for its end. The model's choices are that these reads complete at once (log entry 14), that a WRITE to an item that is
not writable waits for its end to be refused (log entry 15), and that the guard flag of a read is 0 (log entry 31). -/
def Obligations.ControlAccessIsChecked : Prop :=
  ∀ (s : State) (r : PortRequest), (∀ r', s.strobe .p ≠ .accepted r') → s.coldReset = false → s.warmReset = false →
    s.port .p = .idle → r.control = true →
    let s1 := s.setStrobe .p (.accepted r)
    let n := r.offset.toNat
    let item : Prop := n < 32 ∨ n = 0x40 ∨ n = 0x41 ∨ (0x50 ≤ n ∧ n ≤ 0x55) ∨ n = 0x60
    let done (c : Completion) : Prop := exec (.acceptance .p (some r)) s = .next (s1.complete .p c)
    let begun (a : Access) : Prop := exec (.acceptance .p (some r)) s = .next (s1.setPort .p (.control a))
    (r.op ≠ 1 → r.op ≠ 2 → done ⟨.badRequest, [0], false⟩)
    ∧ (r.op = 1 ∨ r.op = 2 → r.privileged = false → done ⟨.noAccess, [0], false⟩)
    ∧ (r.op = 1 ∨ r.op = 2 → r.privileged = true → ¬item → done ⟨.badRequest, [0], false⟩)
    ∧ (r.op = 1 → r.privileged = true → ∀ k : Fin 32, n = k.val →
      ∃ w : Word, done ⟨.answer .ok, [w], false⟩ ∧ w.getLsbD 31 = (s.windows.get k).valid
        ∧ w.extractLsb' 18 13 = 0 ∧ w.getLsbD 17 = (s.windows.get k).privOnly
        ∧ w.getLsbD 16 = (s.windows.get k).readOnly ∧ w.extractLsb' 11 5 = 0
        ∧ w.extractLsb' 8 3 = (s.windows.get k).target ∧ w.extractLsb' 5 3 = 0
        ∧ w.extractLsb' 0 5 = (s.windows.get k).page)
    ∧ (r.op = 1 → r.privileged = true → ∀ i : Slot, n = 0x50 + i.val →
      ∃ w, done ⟨.answer .ok, [w], false⟩ ∧ HoldItem w (s.slot i))
    ∧ (r.op = 1 → r.privileged = true → n = 0x60 →
      ∃ ws, done ⟨.answer .ok, ws, false⟩ ∧ BulkItem ws s.bulk)
    ∧ (r.op = 1 → r.privileged = true → n = 0x40 → begun .statusRead)
    ∧ (r.op = 1 → r.privileged = true → n = 0x41 → begun .noticeRead)
    ∧ (r.op = 2 → r.privileged = true → n < 32 → begun (.windowWrite (BitVec.ofNat 5 n) r.data))
    ∧ (r.op = 2 → r.privileged = true → item → 32 ≤ n → begun .refusedWrite)

/-! ### The outstanding table -/

/-- The timers and the claim of an outstanding entry (R64, R73, R74, R76 to R78). ANSWER_TIMER_EXPIRY: TIMEOUT, on its
port, whose waiting request is then accepted, or as a notice, and quarantine for the answer timeout.
QUARANTINE_EXPIRY: the entry becomes FREE. BACKOFF_TIMER_EXPIRY and RESEND_CLAIM: with a free place of the transmit
queue the saved REQ frame is sent again, one more attempt counts and the answer timer starts afresh; without one the
timer stops and the claim stands. -/
def Obligations.EntryTimersExpire : Prop :=
  ∀ (s : State) (tag : Tag) (e : Entry), s.entry tag = some e →
    let quarantined : State :=
      s.setEntry tag (some { e with state := .stale, timer := some (if s.straps.long then 800 else 200) })
    (e.state = .waitingAnswer → e.posted = false →
      exec (.answerTimerExpiry tag) s =
        .next ((quarantined.complete e.port ⟨.timeout, [0], false⟩).acceptWaiting e.port))
    ∧ (e.state = .waitingAnswer → e.posted = true →
      exec (.answerTimerExpiry tag) s = .next
        (quarantined.placeNotice (.postedFail e.port tag e.target e.request.page e.request.offset .timeout)))
    ∧ (e.state = .stale → exec (.quarantineExpiry tag) s = .next (s.setEntry tag none))
    ∧ (e.state = .waitingResend →
      let resent : State :=
        (s.setEntry tag (some { e with
            state := .waitingAnswer, attempts := e.attempts + 1,
            timer := some (if s.straps.long then 800 else 200) })).withFrame
          (reqFrame s.own e.target tag e.port e.request)
      (s.placesTaken < 6 → e.timer ≠ none → exec (.backoffTimerExpiry tag) s = .next resent)
      ∧ (6 ≤ s.placesTaken → e.timer ≠ none →
        exec (.backoffTimerExpiry tag) s = .next (s.setEntry tag (some { e with timer := none })))
      ∧ (s.placesTaken < 6 → e.timer = none → exec (.resendClaim tag) s = .next resent))

/-! ### Refresh and the bank arbiter -/

/-- REFRESH_TIMER_EXPIRY, REFRESH and REFRESH_END (R88, R89, R91, R92): the timer restarts at 10 µs and one claim
stands; on a free bank the claim is granted before any other; the grant changes nothing but what holds the bank. -/
def Obligations.RefreshRunsFirst : Prop :=
  ∀ s : State,
    (s.refreshTimer ≠ none →
      exec .refreshTimerExpiry s = .next { s with refreshTimer := some 10, refreshClaim := true })
    ∧ (s.grant = .free → s.coldReset = false → s.refreshClaim = true →
      exec .refresh s = .next { s with refreshClaim := false, grant := .refresh })
    ∧ (s.grant = .refresh → exec .refreshEnd s = .next { s with grant := .free })

/-- The order of the arbiter (R91, R92, R95, R106, R139): no choice while the bank is held or cold reset is asserted;
a refresh claim first; then the oldest READY deferred entry, if outside ONLINE or with a free place of the transmit
queue; then the rotation. -/
def Obligations.ChoiceFollowsTheOrder : Prop :=
  ∀ s : State,
    let place : Prop := s.ringState ≠ .online ∨ s.placesTaken < 6
    (s.grant ≠ .free ∨ s.coldReset = true → s.choice = none)
    ∧ (s.grant = .free → s.coldReset = false → s.refreshClaim = true → s.choice = some .refresh)
    ∧ (∀ k d, s.grant = .free → s.coldReset = false → s.refreshClaim = false → place → s.deferred[k]? = some d →
      d.state = .ready → (∀ j e, j < k → s.deferred[j]? = some e → e.state ≠ .ready) →
      s.choice = some (.replay k d))
    ∧ (s.grant = .free → s.coldReset = false → s.refreshClaim = false →
      (∀ d ∈ s.deferred, d.state ≠ .ready) ∨ ¬place → s.choice = s.rotationClaim)

/-- The rotation and its pointers (R17, R93, R94): the class the pointer names first, then the next two in the order
REMOTE, LOCAL, BULK and round; within LOCAL the first port with an eligible claim from the port pointer onward. A
rotation grant moves the rotation pointer to the class after the one granted, a LOCAL grant moves the port pointer
past the port granted, a REMOTE grant removes the head of the inbound request queue; refresh and replays move
nothing. -/
def Obligations.RotationAndPortsTakeTurns : Prop :=
  ∀ (s : State) (f : Frame) (q : Port) (r : Request) (k : Nat) (d : Deferred),
    let first (a b c d : Port) : Prop :=
      s.localClaim = (((s.portClaim a).or (s.portClaim b)).or (s.portClaim c)).or (s.portClaim d)
    (s.rotation = .remote → s.rotationClaim = (s.remoteClaim.or s.localClaim).or s.bulkClaim)
    ∧ (s.rotation = .port → s.rotationClaim = (s.localClaim.or s.bulkClaim).or s.remoteClaim)
    ∧ (s.rotation = .bulk → s.rotationClaim = (s.bulkClaim.or s.remoteClaim).or s.localClaim)
    ∧ (s.portPointer = .p → first .p .c1 .c2 .c3)
    ∧ (s.portPointer = .c1 → first .c1 .c2 .c3 .p)
    ∧ (s.portPointer = .c2 → first .c2 .c3 .p .c1)
    ∧ (s.portPointer = .c3 → first .c3 .p .c1 .c2)
    ∧ s.advance .refresh = s
    ∧ s.advance (.replay k d) = s
    ∧ s.advance (.remote f) = { s with inbound := s.inbound.tail, rotation := .port }
    ∧ s.advance (.port q r) =
      { s with
        rotation := .bulk
        portPointer := match q with | .p => .c1 | .c1 => .c2 | .c2 => .c3 | .c3 => .p }
    ∧ s.advance .bulk = { s with rotation := .remote }

/-- Which claims stand and are eligible (R90, R94, R95, R96, R148): the head of the inbound request queue with an
answer place; of the ports from the pointer onward the first whose claim is not held back; the engine while RUNNING,
with an answer place for each step that may end a job of another station's owner. -/
def Obligations.EligibleClaims : Prop :=
  ∀ s : State,
    let place : Prop := s.ringState ≠ .online ∨ s.placesTaken < 6
    let heldBack (q : Port) (r : Request) : Prop :=
      (r.command.op = .read ∨ r.command.op = .write ∨ r.command.op = .holdRead ∨ r.command.op = .commit)
      ∧ ((∃ i h, s.slot i = some h ∧ h.page = r.page ∧ h.offset = r.offset ∧ h.holder ≠ ⟨s.own, q⟩)
        ∨ (r.command.op = .holdRead ∧ s.Unheld r ∧ ∀ i, s.slot i ≠ none))
    let mayEndElsewhere (j : Job) : Prop := j.owner.station ≠ s.own ∧ (j.kind = .check ∨ j.remaining = 1)
    (∀ f, s.remoteClaim = some (.remote f) ↔ s.inbound.head? = some f ∧ place)
    ∧ (∀ c, s.localClaim = some c → ∃ q r, c = .port q r ∧ s.port q = .atBank r)
    ∧ ((∀ i j a b, s.slot i = some a → s.slot j = some b → a.page = b.page → a.offset = b.offset → i = j) →
      ∀ q r, s.portClaim q = some (.port q r) ↔ s.port q = .atBank r ∧ ¬heldBack q r)
    ∧ (s.bulkClaim = some .bulk ↔ ∃ j, s.bulk = some j ∧ j.slot = none ∧ (mayEndElsewhere j → place))

/-- The checks that come before all else (R30, R84, R87, R149): a malformed frame, or a page at or above the 8, 16 or
32 of the PAGES strap, ends each of the seven operations with OUT_OF_RANGE; nothing is read, held, deferred or
started. A word operation's refusal holds the bank to its end; a bulk command is answered at once. Which operation a
frame asks for is read from its OP; that an unused OP goes with READ is the model's choice (log entry 16). -/
def Obligations.OutOfRangeEndsTheRequest : Prop :=
  (∀ f, (Claim.remote f).op = some (match (f.extractLsb' 120 4).toNat with
    | 2 => .write | 3 => .holdRead | 4 => .commit | 5 => .bulkStart | 6 => .bulkQuery | 7 => .bulkAbort
    | _ => .read))
  ∧ ∀ (s : State) (c : Claim) (tk : Taken),
    (∃ f, c = .remote f ∧ MalformedRequest f)
      ∨ (∀ r, tk.request = some r →
        (if s.straps.pages = 1 then 16 else if s.straps.pages = 2 then 32 else 8) ≤ r.page.toNat) →
    (s.Serves .read c tk → exec .read s = .next (s.serving c tk ⟨.outOfRange, false, 0, none, none, .keep⟩))
    ∧ (s.Serves .write c tk → exec .write s = .next (s.serving c tk ⟨.outOfRange, false, 0, none, none, .keep⟩))
    ∧ (s.Serves .holdRead c tk → exec .holdRead s = .next (s.serving c tk ⟨.outOfRange, false, 0, none, none, .keep⟩))
    ∧ (s.Serves .commit c tk → exec .commit s = .next (s.serving c tk ⟨.outOfRange, false, 0, none, none, .keep⟩))
    ∧ (s.Serves .bulkStart c tk → exec .bulkStart s =
      .next ((s.advance c).bulkAnswered tk.source .outOfRange none))
    ∧ (s.Serves .bulkQuery c tk → exec .bulkQuery s =
      .next ((s.advance c).bulkAnswered tk.source .outOfRange none))
    ∧ (s.Serves .bulkAbort c tk → exec .bulkAbort s =
      .next ((s.advance c).bulkAnswered tk.source .outOfRange none))

/-! ### Word operations -/

/-- READ of a word that no other holder holds, granted and ended (R99, R115, R126): OK or CORRECTED with the data and
guard bit that the check passes on, UNCORRECTABLE with data 0 and guard bit 0, whatever the privilege and GUARD_ON.
The end gives them on the port, or in ONLINE in an answer frame. Neither the grant nor the end changes the bank, so a
wrong bit stays stored and the next READ finds it again. -/
def Obligations.ReadGivesTheCheckedWord : Prop :=
  ∀ (s : State) (c : Claim) (tk : Taken) (r : Request), s.Serves .read c tk → s.Admits tk r →
    (s.Unheld r ∨ ∃ i h, s.HeldIn r i h ∧ h.holder = tk.holder) →
    let a := r.page.toNat * 8192 + r.offset.toNat
    let gives (st : Status) (g : Bool) (d : Word) : Prop :=
      let t := s.serving c tk ⟨st, g, d, some a, none, .keep⟩
      exec .read s = .next t ∧ t.mem = s.mem
        ∧ (∀ q, tk.source = .port q → ∃ u : State, exec .wordOperationEnd t = .next (u.acceptWaiting q) ∧ u.mem = s.mem
          ∧ u.port q = .idle ∧ portGet u.completions q = portGet s.completions q ++ [⟨.answer st, [d], g⟩])
        ∧ (∀ o q tag, tk.source = .remote o q tag ∨ (∃ k, tk.source = .replay k o q tag) → s.ringState = .online →
          ∃ u, exec .wordOperationEnd t = .next u ∧ u.mem = s.mem
            ∧ u.transmit = s.transmit ++ [ansFrame s.own o tag q st (.word g d)])
    (∀ d g, checkWord (s.word a) = .clean d g → gives .ok g d)
    ∧ (∀ d g, checkWord (s.word a) = .single d g → gives .corrected g d)
    ∧ (checkWord (s.word a) = .double → gives .uncorrectable false 0)

/-- The check of a word (R86): clean, single and double by the number of wrong bits among the 40; a single wrong bit
is put right. With three or more, the word is decoded as one of the three results: double, or the stored data and guard
bit as they are, or with one of the 40 bits changed; which of them is free (log entry 8). -/
def Obligations.CheckCorrectsOneBitAndDetectsTwo : Prop :=
  ∀ w : StoredWord,
    let data (wrong : BitVec 40) : Word := w.data ^^^ wrong.extractLsb' 0 32
    let guard (wrong : BitVec 40) : Bool := w.guard ^^ wrong.getLsbD 32
    (w.wrong = 0 → checkWord w = .clean w.data w.guard)
    ∧ (∀ i, i < 40 → w.wrong = 1#40 <<< i → checkWord w = .single w.data w.guard)
    ∧ (∀ i j, i < j → j < 40 → w.wrong = (1#40 <<< i) ||| (1#40 <<< j) → checkWord w = .double)
    ∧ (3 ≤ (List.range 40).countP (fun i => w.wrong.getLsbD i) →
      checkWord w = .double ∨ checkWord w = .clean (data w.wrong) (guard w.wrong)
        ∨ ∃ i, i < 40 ∧ checkWord w = .single (data (w.wrong ^^^ (1#40 <<< i))) (guard (w.wrong ^^^ (1#40 <<< i))))

/-- The privilege test of a WRITE (R111, R100): a plain WRITE with SET or CLEAR on a word not held ends with
PRIV_FAULT without a read, whatever GUARD_ON says and whatever the word holds. -/
def Obligations.PlainWriteMayNotSetOrClear : Prop :=
  ∀ (s : State) (c : Claim) (tk : Taken) (r : Request) (lanes : Lanes) (data : Word) (act : GuardAct),
    s.Serves .write c tk → s.Admits tk r → s.Unheld r → r.command = .write lanes data act → r.privileged = false →
    act = .set ∨ act = .clear →
    exec .write s = .next (s.serving c tk ⟨.privFault, false, 0, none, none, .keep⟩)

/-- The single-pass write, granted and ended (R100, R102): privileged, full mask, SET or CLEAR with GUARD_ON off. The
word takes DATA and the action's guard bit with no wrong bit, whatever it held before; the status is OK. -/
def Obligations.SinglePassWriteReplacesTheWord : Prop :=
  ∀ (s : State) (c : Claim) (tk : Taken) (r : Request) (data : Word) (act : GuardAct),
    s.Serves .write c tk → s.Admits tk r → s.Unheld r → r.command = .write 0xF data act → r.privileged = true →
    s.straps.guardOn = false → act = .set ∨ act = .clear →
    let a := r.page.toNat * 8192 + r.offset.toNat
    exec .write s =
        .next (s.serving c tk ⟨.ok, false, 0, some a, some ⟨data, decide (act = .set), 0⟩, .keep⟩)
      ∧ ∀ t, exec .wordOperationEnd
          (s.serving c tk ⟨.ok, false, 0, some a, some ⟨data, decide (act = .set), 0⟩, .keep⟩) = .next t →
        t.word a = ⟨data, decide (act = .set), 0⟩ ∧ ∀ b, b ≠ a → Memory.lookup t.mem b = Memory.lookup s.mem b

/-- The read-check-merge-write of a WRITE on a word not held (R100, R101, R110, R113): UNCORRECTABLE on a double
result; GUARD_FAULT for a plain WRITE on a guarded word with GUARD_ON; else lane by lane the new or the passed-on
byte, the guard bit by the action, no wrong bit, and OK or CORRECTED by the read. -/
def Obligations.WriteMergesIntoTheWord : Prop :=
  ∀ (s : State) (c : Claim) (tk : Taken) (r : Request) (lanes : Lanes) (data : Word) (act : GuardAct),
    s.Serves .write c tk → s.Admits tk r → s.Unheld r → r.command = .write lanes data act →
    r.privileged = true ∨ act = .keep → s.straps.guardOn = true ∨ lanes ≠ 0xF ∨ act = .keep →
    let a := r.page.toNat * 8192 + r.offset.toNat
    (checkWord (s.word a) = .double →
      exec .write s = .next (s.serving c tk ⟨.uncorrectable, false, 0, some a, none, .keep⟩))
    ∧ (∀ d g st,
      (checkWord (s.word a) = .clean d g ∧ st = .ok) ∨ (checkWord (s.word a) = .single d g ∧ st = .corrected) →
      (s.straps.guardOn = true → r.privileged = false → g = true →
        exec .write s = .next (s.serving c tk ⟨.guardFault, false, 0, some a, none, .keep⟩))
      ∧ (s.straps.guardOn = false ∨ r.privileged = true ∨ g = false →
        ∃ w : StoredWord,
          exec .write s = .next (s.serving c tk ⟨st, false, 0, some a, some w, .keep⟩)
          ∧ (∀ lane : Fin 4, w.data.extractLsb' (8 * lane.val) 8 =
            if lanes.getLsbD lane.val then data.extractLsb' (8 * lane.val) 8 else d.extractLsb' (8 * lane.val) 8)
          ∧ (act = .keep → w.guard = g) ∧ (act = .set → w.guard = true) ∧ (act = .clear → w.guard = false)
          ∧ w.wrong = 0))

/-- No plain request or job changes a guarded word where GUARD_ON is on, and none changes a guard bit anywhere; a
SCRUB changes neither data nor guard bit. To change is meant of the word as the check passes it on, and a word that
reads as uncorrectable passes on nothing (R117). -/
def Obligations.PlainRequestsLeaveGuardsAlone : Prop :=
  ∀ (s : State),
    (∀ o c tk r t g w, s.Serves o c tk → tk.request = some r → r.privileged = false →
      (exec .read s = .next t ∨ exec .write s = .next t ∨ exec .holdRead s = .next t ∨ exec .commit s = .next t) →
      t.grant = .word g → g.result.write = some w →
      ∃ d gd, (checkWord (s.word (r.page.toNat * 8192 + r.offset.toNat)) = .clean d gd
          ∨ checkWord (s.word (r.page.toNat * 8192 + r.offset.toNat)) = .single d gd)
        ∧ g.result.accessed = some (r.page.toNat * 8192 + r.offset.toNat)
        ∧ w.guard = gd ∧ (s.straps.guardOn = true → gd = false))
    ∧ (∀ j t g w, s.bulk = some j → exec .bulkStep s = .next t → t.grant = .step g → g.write = some w →
      g.address = j.page.toNat * 8192 + j.next.toNat
      ∧ (j.privileged = false → s.straps.guardOn = true → checkWord (s.word g.address) ≠ .double)
      ∧ ∀ d gd, checkWord (s.word g.address) = .clean d gd ∨ checkWord (s.word g.address) = .single d gd →
        w.guard = gd
        ∧ (j.kind = .scrub → w.data = d)
        ∧ (j.privileged = false → s.straps.guardOn = true → gd = true → w.data = d))

/-! ### Holds -/

/-- HOLD_READ of a word that nobody holds, with an empty slot (R114, R130): UNCORRECTABLE and GUARD_FAULT make no hold
and give data 0; else the checked word, and a hold is due at the end. -/
def Obligations.HoldReadTakesTheHoldPath : Prop :=
  ∀ (s : State) (c : Claim) (tk : Taken) (r : Request), s.Serves .holdRead c tk → s.Admits tk r → s.Unheld r →
    let a := r.page.toNat * 8192 + r.offset.toNat
    let gives (res : WordResult) : Prop := exec .holdRead s = .next (s.serving c tk res)
    ((∀ i, s.slot i ≠ none) → gives ⟨.retry, false, 0, none, none, .keep⟩)
    ∧ ((∃ i, s.slot i = none) → checkWord (s.word a) = .double → gives ⟨.uncorrectable, false, 0, some a, none, .keep⟩)
    ∧ (∀ d g st, (∃ i, s.slot i = none) →
      (checkWord (s.word a) = .clean d g ∧ st = .ok) ∨ (checkWord (s.word a) = .single d g ∧ st = .corrected) →
      (s.straps.guardOn = true → r.privileged = false → g = true →
        gives ⟨.guardFault, false, 0, some a, none, .keep⟩)
      ∧ (s.straps.guardOn = false ∨ r.privileged = true ∨ g = false →
        gives ⟨st, g, d, some a, none, .make r.page r.offset tk.holder⟩))

/-- WRITE and HOLD_READ by the holder of the word (R126): ALREADY_HELD; the word and the hold stay. -/
def Obligations.HolderMayNotWriteOrHoldAgain : Prop :=
  ∀ (s : State) (c : Claim) (tk : Taken) (r : Request) (i : Slot) (h : Hold), s.Admits tk r → s.HeldIn r i h →
    h.holder = tk.holder →
    (s.Serves .write c tk → exec .write s = .next (s.serving c tk ⟨.alreadyHeld, false, 0, none, none, .keep⟩))
    ∧ (s.Serves .holdRead c tk → exec .holdRead s = .next (s.serving c tk ⟨.alreadyHeld, false, 0, none, none, .keep⟩))

/-- COMMIT (R112, R116, R129, R132, R133): without a hold HOLD_LOST; by the holder its timer stops and the hold ends
with the commit, which is OK for a release, PRIV_FAULT for a plain SET or CLEAR, UNCORRECTABLE, GUARD_FAULT, or
merges and writes as a WRITE does. -/
def Obligations.CommitEndsTheHold : Prop :=
  ∀ (s : State) (c : Claim) (tk : Taken) (r : Request) (lanes : Lanes) (data : Word) (act : GuardAct),
    s.Serves .commit c tk → s.Admits tk r → r.command = .commit lanes data act →
    let a := r.page.toNat * 8192 + r.offset.toNat
    (s.Unheld r → exec .commit s = .next (s.serving c tk ⟨.holdLost, false, 0, none, none, .keep⟩))
    ∧ ∀ i h, s.HeldIn r i h → h.holder = tk.holder →
      let gives (res : WordResult) : Prop :=
        exec .commit s = .next { s.serving c tk res with
          holds := s.holds.set i.val (some { h with stopped := true }) i.isLt }
      (lanes = 0 → gives ⟨.ok, false, 0, none, none, .finish i⟩)
      ∧ (lanes ≠ 0 → r.privileged = false → act = .set ∨ act = .clear →
        gives ⟨.privFault, false, 0, none, none, .finish i⟩)
      ∧ (lanes ≠ 0 → r.privileged = true ∨ act = .keep →
        (checkWord (s.word a) = .double → gives ⟨.uncorrectable, false, 0, some a, none, .finish i⟩)
        ∧ (∀ d g st,
          (checkWord (s.word a) = .clean d g ∧ st = .ok) ∨ (checkWord (s.word a) = .single d g ∧ st = .corrected) →
          (s.straps.guardOn = true → r.privileged = false → g = true →
            gives ⟨.guardFault, false, 0, some a, none, .finish i⟩)
          ∧ (s.straps.guardOn = false ∨ r.privileged = true ∨ g = false →
            ∃ w : StoredWord, gives ⟨st, false, 0, some a, some w, .finish i⟩
              ∧ (∀ lane : Fin 4, w.data.extractLsb' (8 * lane.val) 8 =
                if lanes.getLsbD lane.val then data.extractLsb' (8 * lane.val) 8
                else d.extractLsb' (8 * lane.val) 8)
              ∧ (act = .keep → w.guard = g) ∧ (act = .set → w.guard = true) ∧ (act = .clear → w.guard = false)
              ∧ w.wrong = 0)))

/-- A word held by another (R98, R127, R140): a REMOTE request of any of the four operations joins the tail of the
deferred queue, waiting on that hold, or is answered RETRY at a full queue; a replayed one waits again in its place.
The bank stays free for the next choice but for the RETRY. -/
def Obligations.RequestsWaitBehindAnothersHold : Prop :=
  ∀ (s : State) (o : Op) (c : Claim) (tk : Taken) (r : Request) (i : Slot) (h : Hold) (cmd : Instr),
    (o = .read ∧ cmd = .read) ∨ (o = .write ∧ cmd = .write) ∨ (o = .holdRead ∧ cmd = .holdRead)
      ∨ (o = .commit ∧ cmd = .commit) →
    s.Serves o c tk → s.Admits tk r → s.HeldIn r i h → h.holder ≠ tk.holder →
    (∀ f, c = .remote f →
      (s.deferred.length < 12 → exec cmd s = .next
        { s.advance c with
          deferred := s.deferred ++ [⟨Frame.origin f, Frame.port f, Frame.tag f, r, .waiting i⟩] })
      ∧ (12 ≤ s.deferred.length →
        exec cmd s = .next (s.serving c tk ⟨.retry, false, 0, none, none, .keep⟩)))
    ∧ (∀ k d, c = .replay k d →
      exec cmd s = .next { s with deferred := s.deferred.set k { d with state := .waiting i } })

/-- WORD_OPERATION_END (R24, R32, R59, R97, R103, R105, R140): the word due is written, the bank is free, the hold is
made or ended, and the outcome is a completion on the port or an answer frame. In ONLINE the frame takes the reserved
place, or without one a free place if there is one; else it is discarded. A replayed entry leaves the deferred
queue. A request that waits on the pins of the port is accepted. After a warm reset only the word is written. -/
def Obligations.WordOperationEndHandsOnTheOutcome : Prop :=
  ∀ (s : State) (g : WordGrant), s.grant = .word g →
    let s1 : State :=
      { s with
        grant := .free
        mem := match g.result.write with
          | some w => Memory.write s.mem (g.result.accessed.getD 0) w
          | none => s.mem }
    let s2 : State := s1.applyHold g.result.hold
    let sends (u : State) (d : Station) (q : Port) (t : Tag) : Prop :=
      exec .wordOperationEnd s =
        .next
          (if s.ringState = .online ∧ (g.reserved = true ∨ s.transmit.length < 6) then
            u.withFrame (ansFrame s.own d t q g.result.status (.word g.result.guard g.result.data))
          else u)
    (g.orphan = true → exec .wordOperationEnd s = .next s1)
    ∧ (∀ q, g.orphan = false → g.source = .port q → exec .wordOperationEnd s =
      .next ((s2.complete q ⟨.answer g.result.status, [g.result.data], g.result.guard⟩).acceptWaiting q))
    ∧ (∀ d q t, g.orphan = false → g.source = .remote d q t → sends s2 d q t)
    ∧ (∀ k d q t, g.orphan = false → g.source = .replay k d q t →
      sends { s2 with deferred := s2.deferred.eraseIdx k } d q t)

/-- The words of the bank at the end of a grant (R85, R103): the address of the operation holds what was due, every
other address reads as before. -/
def Obligations.OnlyTheDueWordIsWritten : Prop :=
  ∀ (s t : State) (a : Nat),
    (∀ g, s.grant = .word g → exec .wordOperationEnd s = .next t →
      (∀ w, g.result.write = some w → g.result.accessed = some a → t.word a = w)
      ∧ (g.result.write = none ∨ (∃ b, g.result.accessed = some b ∧ b ≠ a) → t.word a = s.word a))
    ∧ (∀ g, s.grant = .step g → exec .bulkStepEnd s = .next t →
      (∀ w, g.write = some w → g.address = a → t.word a = w)
      ∧ (g.write = none ∨ g.address ≠ a → t.word a = s.word a))

/-- The making and the end of a hold (R121, R122, R136): made in the lowest empty slot with 64 µs running; at its end,
by HOLD_TIMER_EXPIRY or with a commit, the slot is empty, every deferred entry that waited on it is READY in its
place, the engine that waited on it runs again, and nothing else changes. -/
def Obligations.HoldsAreMadeAndEnd : Prop :=
  ∀ (s : State) (i : Slot),
    let ended : State :=
      { s with
        holds := s.holds.set i.val none i.isLt
        deferred := s.deferred.map fun d => if d.state = .waiting i then { d with state := .ready } else d
        bulk := s.bulk.map fun j => if j.slot = some i then { j with slot := none } else j }
    (∀ h, s.slot i = some h → h.stopped = false → exec (.holdTimerExpiry i) s = .next ended)
    ∧ s.applyHold (.finish i) = ended
    ∧ (∀ p o h, s.slot i = none → (∀ j, j < i → s.slot j ≠ none) →
      s.applyHold (.make p o h) = { s with holds := s.holds.set i.val (some ⟨p, o, h, 64, false⟩) i.isLt })
    ∧ s.applyHold .keep = s

/-! ### The bulk engine -/

/-- BULK_START, BULK_QUERY and BULK_ABORT in range (R149 to R152): the engine's answer by its state, and the job
record after it. The outcome is handed on at once: on the port, with PROGRESS as three data words, or in ONLINE in an
answer frame. A request that waits on the pins of the port is accepted. -/
def Obligations.BulkCommandsAreDecidedAtOnce : Prop :=
  ∀ (s : State) (c : Claim) (tk : Taken) (r : Request), s.Admits tk r →
    let tag : Option Tag := match tk.source with
      | .port _ => none
      | .remote _ _ t => some t
      | .replay _ _ _ t => some t
    let out (st : Status) (pr : Option Progress) (b : Option Job) : Host.Outcome State Fault Refusal :=
      .next (State.bulkAnswered
        { s.advance c with bulk := b, firstMismatch := if st = .accepted then none else s.firstMismatch }
        tk.source st pr)
    let progress (j : Job) : Option Progress :=
      some ⟨j.slot.isSome, j.next, BitVec.ofNat 14 j.remaining,
        ⟨BitVec.ofNat 14 j.done, BitVec.ofNat 14 j.skipped, BitVec.ofNat 14 j.corrected,
          BitVec.ofNat 14 j.uncorrectable⟩⟩
    (∀ kind pattern count, s.Serves .bulkStart c tk → r.command = .bulkStart kind pattern count →
      (s.bulk = none → exec .bulkStart s =
        out .accepted none
          (some ⟨tk.holder, tag, kind, r.privileged, r.page, r.offset, count.toNat, pattern, 0, 0, 0, 0, none⟩))
      ∧ (∀ j, s.bulk = some j → exec .bulkStart s = out .busy none (some j)))
    ∧ (s.Serves .bulkQuery c tk → r.command = .bulkQuery →
      (s.bulk = none → exec .bulkQuery s = out .noJob none none)
      ∧ (∀ j, s.bulk = some j → exec .bulkQuery s = out .ok (progress j) (some j)))
    ∧ (s.Serves .bulkAbort c tk → r.command = .bulkAbort →
      (s.bulk = none → exec .bulkAbort s = out .noJob none none)
      ∧ (∀ j, s.bulk = some j → j.owner = tk.holder → exec .bulkAbort s = out .aborted (progress j) none)
      ∧ (∀ j, s.bulk = some j → j.owner ≠ tk.holder → exec .bulkAbort s = out .notOwner none (some j)))

/-- BULK_STEP (R95, R154, R155, R157 to R159): on a word that anyone holds the engine waits on that slot and the bank
stays free; else the step holds the bank with what its kind makes of the word read, and with an answer place in ONLINE
where it may end the job of another station's owner. -/
def Obligations.BulkStepWaitsOrReads : Prop :=
  ∀ (s : State) (j : Job), s.choice = some .bulk → s.bulk = some j →
    let here : Request := ⟨.read, false, j.page, j.next⟩
    let a := j.page.toNat * 8192 + j.next.toNat
    let place : Bool := decide (j.owner.station ≠ s.own ∧ (j.kind = .check ∨ j.remaining = 1) ∧ s.ringState = .online)
    let does (write : Option StoredWord) (skipped corrected uncorrectable mismatch : Bool) : Prop :=
      exec .bulkStep s = .next
        { s with
          rotation := .remote
          grant := .step ⟨a, write, skipped, corrected, uncorrectable, mismatch, place, false⟩ }
    let spares : Prop := s.straps.guardOn = true ∧ j.privileged = false
    (∀ i h, s.HeldIn here i h → exec .bulkStep s = .next
      { s with rotation := .remote, bulk := some { j with slot := some i } })
    ∧ (s.Unheld here →
      (j.kind = .fill → checkWord (s.word a) = .double → spares → does none false false true false)
      ∧ (j.kind = .fill → checkWord (s.word a) = .double → ¬spares →
        does (some ⟨j.pattern, false, 0⟩) false false true false)
      ∧ (j.kind = .scrub → checkWord (s.word a) = .double → does none false false true false)
      ∧ (j.kind = .check → checkWord (s.word a) = .double → does none false false true true)
      ∧ ∀ d g one,
        (checkWord (s.word a) = .clean d g ∧ one = false) ∨ (checkWord (s.word a) = .single d g ∧ one = true) →
        (j.kind = .fill → spares → g = true → does none true false false false)
        ∧ (j.kind = .fill → ¬(spares ∧ g = true) → does (some ⟨j.pattern, g, 0⟩) false one false false)
        ∧ (j.kind = .scrub → does (if one then some ⟨d, g, 0⟩ else none) false one false false)
        ∧ (j.kind = .check → does none false one false (decide (d ≠ j.pattern))))

/-- BULK_STEP_END (R105, R160 to R162, R164): the word due is written and the bank is free; the record moves on by one
word and its tally; the job ends at a mismatch, which sets FIRST_MISMATCH (R158), or with its last word, by a DONE
frame to an owner elsewhere or a notice to the own processor; a job that a reset took away leaves nothing but the
word. -/
def Obligations.BulkStepEndMovesTheJobOn : Prop :=
  ∀ (s : State) (g : StepGrant), s.grant = .step g →
    let s1 : State :=
      { s with
        grant := .free
        mem := match g.write with
          | some w => Memory.write s.mem g.address w
          | none => s.mem }
    (g.orphan = true ∨ s.bulk = none → exec .bulkStepEnd s = .next s1)
    ∧ ∀ j, g.orphan = false → s.bulk = some j →
      let n (b : Bool) : Nat := if b then 1 else 0
      let j1 : Job :=
        { j with
          next := j.next + 1, remaining := j.remaining - 1, done := j.done + 1, skipped := j.skipped + n g.skipped,
          corrected := j.corrected + n g.corrected, uncorrectable := j.uncorrectable + n g.uncorrectable }
      let t : Tallies :=
        ⟨BitVec.ofNat 14 j1.done, BitVec.ofNat 14 j1.skipped, BitVec.ofNat 14 j1.corrected,
          BitVec.ofNat 14 j1.uncorrectable⟩
      let ends (outcome : JobOutcome) (first : Option Offset) : Prop :=
        (j.owner.station = s.own → exec .bulkStepEnd s = .next
          (State.placeNotice { s1 with bulk := none, firstMismatch := first }
            (.bulkDone s.own j.owner.port j.kind outcome t first)))
        ∧ (j.owner.station ≠ s.own → exec .bulkStepEnd s = .next
          (if s.ringState = .online ∧ (g.reserved = true ∨ s.transmit.length < 6) then
            State.withFrame { s1 with bulk := none, firstMismatch := first }
              (doneFrame s.own j.owner j.kind outcome t first)
          else { s1 with bulk := none, firstMismatch := first }))
      (g.mismatch = true → ends .mismatch (some j.next))
      ∧ (g.mismatch = false → j.remaining = 1 → ends .complete none)
      ∧ (g.mismatch = false → 2 ≤ j.remaining → exec .bulkStepEnd s = .next { s1 with bulk := some j1 })

/-- For as long as a job exists, DONE_WORDS plus REMAINING stays what it was, the COUNT of its start, and so do its
owner, kind, privilege, page and pattern (R146, R160). -/
def Obligations.DonePlusRemainingIsTheCount : Prop :=
  ∀ (s t : State) (j k : Job), JobLaws s → Steps s t → s.bulk = some j → t.bulk = some k →
    k.done + k.remaining = j.done + j.remaining ∧ k.owner = j.owner ∧ k.kind = j.kind ∧ k.privileged = j.privileged
      ∧ k.page = j.page ∧ k.pattern = j.pattern ∧ k.ownerTag = j.ownerTag

/-! ### Notices and the control space -/

/-- NOTICE_READ and STATUS_READ (R169, R172, R174, R175, R178): the head notice is returned in three words and leaves
the queue, or the kind EMPTY is returned, and LOST stays; two words of STATUS are returned as it stands, then LOST is
cleared and no notice leaves. The counts of STATUS are written out over tags and slots, the bits of no field are 0,
and the codes are those of R178 and R39. Attention follows both, and a request that waits on the pins of P is
accepted. The guard flag of 0 is the model's choice (log entry 31). -/
def Obligations.NoticeAndStatusReads : Prop :=
  ∀ s : State,
    let entries (st : EntryState) : Nat :=
      (List.finRange 16).countP fun i => (s.outstanding.get i).any fun e => decide (e.state = st)
    (s.port .p = .control .noticeRead →
      ∃ ws, exec .noticeRead s = .next
          ((State.complete
            { s with notices := s.notices.tail, attention := decide (2 ≤ s.notices.length) || s.lost }
            .p ⟨.answer .ok, ws, false⟩).acceptWaiting .p)
        ∧ NoticeItem ws s.notices.head?)
    ∧ (s.port .p = .control .statusRead →
      ∃ w0 w1 : Word,
        exec .statusRead s = .next
          ((State.complete { s with lost := false, attention := decide (s.notices ≠ []) } .p
            ⟨.answer .ok, [w0, w1], false⟩).acceptWaiting .p)
        ∧ w0.extractLsb' 0 3 = s.ringState.code ∧ w0.getLsbD 3 = false ∧ w0.extractLsb' 4 3 = s.straps.station
        ∧ w0.getLsbD 7 = false ∧ w0.extractLsb' 8 2 = (if s.straps.pages = 3 then 0 else s.straps.pages)
        ∧ w0.getLsbD 10 = s.straps.guardOn ∧ w0.getLsbD 11 = s.straps.long
        ∧ w0.extractLsb' 12 2 = (match s.bulk with | none => 0 | some j => if j.slot.isSome then 2 else 1)
        ∧ w0.extractLsb' 14 2 = 0
        ∧ w0.extractLsb' 16 4 = BitVec.ofNat 4 s.notices.length ∧ w0.getLsbD 20 = s.lost ∧ w0.extractLsb' 21 11 = 0
        ∧ w1.extractLsb' 0 5 = BitVec.ofNat 5 (entries .waitingAnswer)
        ∧ w1.extractLsb' 5 5 = BitVec.ofNat 5 (entries .waitingResend)
        ∧ w1.extractLsb' 10 5 = BitVec.ofNat 5 (entries .stale) ∧ w1.getLsbD 15 = false
        ∧ w1.extractLsb' 16 3 = BitVec.ofNat 3 ((List.finRange 6).countP fun i => (s.holds.get i).isSome)
        ∧ w1.getLsbD 19 = false ∧ w1.extractLsb' 20 4 = BitVec.ofNat 4 s.deferred.length
        ∧ w1.extractLsb' 24 8 = 0)
    ∧ [RingState.offline, .probing, .online, .broken, .conflict].map RingState.code = [0, 1, 2, 3, 4]
    ∧ [Port.p, .c1, .c2, .c3].map Port.code = [0, 1, 2, 3]
    ∧ [BulkKind.fill, .check, .scrub].map BulkKind.code = [1, 2, 3]
    ∧ [Code.answer .ok, .answer .corrected, .answer .uncorrectable, .answer .outOfRange, .answer .guardFault,
        .answer .privFault, .answer .alreadyHeld, .answer .holdLost, .answer .retry, .answer .accepted, .answer .busy,
        .answer .noJob, .answer .notOwner, .answer .aborted, .posted, .readOnly, .noAccess, .noWindow, .badRequest,
        .noStation, .timeout, .ringDown, .retryLimit].map Code.number
      = [0, 1, 2, 3, 4, 5, 6, 7, 8, 9, 10, 11, 12, 13, 16, 17, 18, 19, 20, 21, 22, 23, 24]

/-- WINDOW_WRITE and CONTROL_SPACE_WRITE (R48, R171 to R173, R178): all five fields of the entry are replaced, and a
later read returns the bits of the layout; a write to another item is refused and changes nothing. A request that waits
on the pins of P is accepted. The guard flag of 0 of a write done is the model's choice (log entry 31). -/
def Obligations.ControlWritesEnd : Prop :=
  ∀ s : State,
    (∀ n v, s.port .p = .control (.windowWrite n v) →
      let w : Window := ⟨v.getLsbD 31, v.extractLsb' 8 3, v.extractLsb' 0 5, v.getLsbD 16, v.getLsbD 17⟩
      exec .windowWrite s = .next
        ((State.complete { s with windows := s.windows.set n.toNat w n.isLt } .p
          ⟨.answer .ok, [0], false⟩).acceptWaiting .p)
      ∧ windowWord w = v &&& 0x8003071F#32)
    ∧ (s.port .p = .control .refusedWrite →
      exec .controlSpaceWrite s = .next ((s.complete .p ⟨.badRequest, [0], false⟩).acceptWaiting .p))

/-! ### Frames -/

/-- The check sequence (R37, R14). It is what R37 computes, bit by bit from FFFFh with 1021h. A made frame passes the
check, and the same computation over all 16 bytes leaves a remainder of 0. A frame that passes the check fails it after
any damage of one to three bits, and after any damage confined to a burst of 16 bits or fewer. -/
def Obligations.MadeFramesPassTheCheck : Prop :=
  (∀ body : BitVec 112,
    checkSequence body =
        (List.range 112).foldl
          (fun (rem : BitVec 16) i =>
            if (rem.getLsbD 15 ^^ body.getLsbD (111 - i)) then (rem <<< 1) ^^^ 0x1021#16 else rem <<< 1)
          0xFFFF#16
      ∧ Frame.checked (body ++ checkSequence body) = true
      ∧ Frame.body (body ++ checkSequence body) = body
      ∧ crcBits 0xFFFF#16 (sentBits (body ++ checkSequence body)) = 0#16)
  ∧ ∀ f : Frame, Frame.checked f = true →
    (∀ i j k, i < 128 → j < 128 → k < 128 →
      (1#128 <<< i) ^^^ (1#128 <<< j) ^^^ (1#128 <<< k) ≠ 0 →
      Frame.checked (f ^^^ ((1#128 <<< i) ^^^ (1#128 <<< j) ^^^ (1#128 <<< k))) = false)
    ∧ (∀ i j, i < 128 → j < i → Frame.checked (f ^^^ ((1#128 <<< i) ^^^ (1#128 <<< j))) = false)
    ∧ (∀ (burst : BitVec 16) (k : Nat), burst ≠ 0 → k ≤ 112 →
      Frame.checked (f ^^^ (burst.setWidth 128 <<< k)) = false)

/-- A request that the port's checks let through survives its frame (R27 to R30): the serving station reads from the
REQ frame the very request, with its destination, origin, tag and port. Of all frames, the malformed ones alone ask for
nothing, and every other asks for what its bits say, with the fields present for its OP; a COMMIT with no lane is a
release with KEEP, whatever its GUARD_ACT (R28 to R30, R110). -/
def Obligations.RequestFramesRoundTrip : Prop :=
  (∀ f : Frame,
    let op : BitVec 4 := f.extractLsb' 120 4
    let lanes : Lanes := f.extractLsb' 96 4
    let data : Word := f.extractLsb' 40 32
    let act : GuardAct := match (f.extractLsb' 102 2).toNat with
      | 0 => .keep | 1 => .set | _ => .clear
    let kind : BulkKind := match (f.extractLsb' 16 2).toNat with
      | 1 => .fill | 2 => .check | _ => .scrub
    let asks (c : Command) : Prop :=
      Frame.request f = some ⟨c, f.getLsbD 105, f.extractLsb' 88 5, f.extractLsb' 72 13⟩
    (Frame.request f = none ↔ MalformedRequest f)
    ∧ (¬MalformedRequest f →
      (op = 1 → asks .read)
      ∧ (op = 2 → asks (.write lanes data act))
      ∧ (op = 3 → asks .holdRead)
      ∧ (op = 4 → asks (if lanes = 0 then .commit 0 0 .keep else .commit lanes data act))
      ∧ (op = 5 → asks (.bulkStart kind (if kind = .scrub then 0 else data) (f.extractLsb' 24 14)))
      ∧ (op = 6 → asks .bulkQuery)
      ∧ (op = 7 → asks .bulkAbort)))
  ∧ ∀ (own dest : Station) (tag : Tag) (port : Port) (pins : PortRequest) (c : Command) (page : Page),
    pinsCommand port pins = some c → rangeFits pins.offset c = true →
    let r : Request := ⟨c, pinsPrivileged port pins, page, pins.offset⟩
    let f := reqFrame own dest tag port r
    Frame.checked f = true ∧ Frame.kind f = some .req ∧ Frame.dest f = dest ∧ Frame.origin f = own
      ∧ Frame.tag f = tag ∧ Frame.port f = port ∧ Frame.request f = some r

/-- Answers, job ends and probes survive their frames (R27, R31, R32, R34, R35, R36): the originator reads from the
ANS frame the status, the data and guard bit or the PROGRESS, the owner from the DONE frame the kind, outcome, tallies
and first mismatch, each with destination, origin and port, and a probe's station from the LOOP frame its number and
serial. -/
def Obligations.AnswerAndDoneFramesRoundTrip : Prop :=
  (∀ (own dest : Station) (tag : Tag) (port : Port) (st : Status),
    (∀ body, let f := ansFrame own dest tag port st body
      Frame.checked f = true ∧ Frame.kind f = some .ans ∧ Frame.dest f = dest ∧ Frame.origin f = own
        ∧ Frame.tag f = tag ∧ Frame.port f = port ∧ Frame.status f = some st)
    ∧ (∀ g d, Frame.guard (ansFrame own dest tag port st (.word g d)) = g
        ∧ Frame.data (ansFrame own dest tag port st (.word g d)) = d)
    ∧ (∀ pr, Frame.progress (ansFrame own dest tag port st (.bulk pr)) = some pr))
  ∧ (∀ (own : Station) (serial : Serial),
    let f := loopFrame own serial
    Frame.checked f = true ∧ Frame.kind f = some .loop ∧ Frame.origin f = own ∧ Frame.serial f = serial)
  ∧ ∀ (own : Station) (owner : Holder) (kind : BulkKind) (outcome : JobOutcome) (t : Tallies) (first : Option Offset),
    let f := doneFrame own owner kind outcome t first
    Frame.checked f = true ∧ Frame.kind f = some .done ∧ Frame.dest f = owner.station ∧ Frame.origin f = own
      ∧ Frame.port f = owner.port ∧ Frame.doneKind f = some kind ∧ Frame.outcome f = outcome ∧ Frame.tallies f = t
      ∧ (kind = .check → outcome = .mismatch → doneFirstMismatch f kind = some (first.getD 0))

/-! ### Laws that every step keeps -/

/-- No buffer ever holds more than its places, and the bank's list stays in its canonical form (R6, R17, R19, R22,
R137, R168; log entry 28). -/
def Obligations.StepsKeepBuffersAndBank : Prop := Kept QueuesWithinPlaces ∧ Kept MemoryCanonical

/-- Under reset nothing is held or waits, and the attention line is asserted exactly while a notice is held or LOST
is set (R105, R106, R169, R170). -/
def Obligations.StepsKeepAttention : Prop := Kept AttentionFollows

/-- The ring state stays in agreement with resets, carrier, probe logic, what waits for the ring and what ring-out
sends, and the recent-probe set stays the serials just before the probe serial (R1 to R7, R20 to R23, R55, R79, R80).
-/
def Obligations.StepsKeepTheRingInterface : Prop := Kept SendingConsistent ∧ Kept RecentAreLast

/-- No port has two outstanding requests for one word of one station (R53, R66), and out of reset no request waits on
the pins of a port whose request place is empty (R41, R59, R61). -/
def Obligations.StepsKeepWordsDistinct : Prop := Kept WordsDistinct ∧ Kept PinsServed

/-- The laws of the hold table: one hold for a word, only the holder's COMMIT writes a held word, and whatever waits
on a hold waits behind one that stands (R121, R123, R132, R138, R155). -/
def Obligations.StepsKeepTheHoldLaws : Prop := Kept HoldLaws

/-- The job record stays in range, and FIRST_MISMATCH is absent while a job exists (R146, R150, R158, R160). -/
def Obligations.StepsKeepTheJobInRange : Prop := Kept JobLaws

/-- Every running timer stays between 1 and the value it starts with: the answer timeout of the straps for answers and
quarantines, 4 µs times the number of the coming resend for backoffs (R5, R64, R69, R88, R122). -/
def Obligations.StepsKeepTimersInRange : Prop := Kept TimersInRange

/-- The laws hold at State.reset (a clause per law; State.reset's strap and carrier pins are the model's choice, log
entry 6). -/
def Obligations.ResetHasTheLaws : Prop :=
  QueuesWithinPlaces State.reset ∧ AttentionFollows State.reset ∧ MemoryCanonical State.reset
    ∧ RecentAreLast State.reset ∧ SendingConsistent State.reset ∧ WordsDistinct State.reset ∧ PinsServed State.reset
    ∧ HoldLaws State.reset ∧ JobLaws State.reset ∧ TimersInRange State.reset
end

