-- ==== Sys2Proof/Laws/State.lean ====
section
/-! SUPPORT. One lemma for each field and each record update that the operations are made of, true by rfl. -/

namespace Sys2Proof.Machine

/-! ### writeDue -/

@[simp] theorem writeDue_pending (s : State) (a : Nat) (w : Option StoredWord) :
    (State.writeDue s a w).pending =
      s.pending := rfl
@[simp] theorem writeDue_coldReset (s : State) (a : Nat) (w : Option StoredWord) :
    (State.writeDue s a w).coldReset =
      s.coldReset := rfl
@[simp] theorem writeDue_warmReset (s : State) (a : Nat) (w : Option StoredWord) :
    (State.writeDue s a w).warmReset =
      s.warmReset := rfl
@[simp] theorem writeDue_ringInCarrier (s : State) (a : Nat) (w : Option StoredWord) :
    (State.writeDue s a w).ringInCarrier =
      s.ringInCarrier := rfl
@[simp] theorem writeDue_ringOutCarrier (s : State) (a : Nat) (w : Option StoredWord) :
    (State.writeDue s a w).ringOutCarrier =
      s.ringOutCarrier := rfl
@[simp] theorem writeDue_straps (s : State) (a : Nat) (w : Option StoredWord) :
    (State.writeDue s a w).straps =
      s.straps := rfl
@[simp] theorem writeDue_ringState (s : State) (a : Nat) (w : Option StoredWord) :
    (State.writeDue s a w).ringState =
      s.ringState := rfl
@[simp] theorem writeDue_probeTimer (s : State) (a : Nat) (w : Option StoredWord) :
    (State.writeDue s a w).probeTimer =
      s.probeTimer := rfl
@[simp] theorem writeDue_probeClaim (s : State) (a : Nat) (w : Option StoredWord) :
    (State.writeDue s a w).probeClaim =
      s.probeClaim := rfl
@[simp] theorem writeDue_probeSerial (s : State) (a : Nat) (w : Option StoredWord) :
    (State.writeDue s a w).probeSerial =
      s.probeSerial := rfl
@[simp] theorem writeDue_recentProbes (s : State) (a : Nat) (w : Option StoredWord) :
    (State.writeDue s a w).recentProbes =
      s.recentProbes := rfl
@[simp] theorem writeDue_passThrough (s : State) (a : Nat) (w : Option StoredWord) :
    (State.writeDue s a w).passThrough =
      s.passThrough := rfl
@[simp] theorem writeDue_transmit (s : State) (a : Nat) (w : Option StoredWord) :
    (State.writeDue s a w).transmit =
      s.transmit := rfl
@[simp] theorem writeDue_ringOut (s : State) (a : Nat) (w : Option StoredWord) :
    (State.writeDue s a w).ringOut =
      s.ringOut := rfl
@[simp] theorem writeDue_inbound (s : State) (a : Nat) (w : Option StoredWord) :
    (State.writeDue s a w).inbound =
      s.inbound := rfl
@[simp] theorem writeDue_strobes (s : State) (a : Nat) (w : Option StoredWord) :
    (State.writeDue s a w).strobes =
      s.strobes := rfl
@[simp] theorem writeDue_ports (s : State) (a : Nat) (w : Option StoredWord) :
    (State.writeDue s a w).ports =
      s.ports := rfl
@[simp] theorem writeDue_completions (s : State) (a : Nat) (w : Option StoredWord) :
    (State.writeDue s a w).completions =
      s.completions := rfl
@[simp] theorem writeDue_windows (s : State) (a : Nat) (w : Option StoredWord) :
    (State.writeDue s a w).windows =
      s.windows := rfl
@[simp] theorem writeDue_outstanding (s : State) (a : Nat) (w : Option StoredWord) :
    (State.writeDue s a w).outstanding =
      s.outstanding := rfl
@[simp] theorem writeDue_mem (s : State) (a : Nat) (w : Option StoredWord) :
    (State.writeDue s a w).mem =
      match w with | none => s.mem | some w => Memory.write s.mem a w := rfl
@[simp] theorem writeDue_epoch (s : State) (a : Nat) (w : Option StoredWord) :
    (State.writeDue s a w).epoch =
      s.epoch := rfl
@[simp] theorem writeDue_refreshTimer (s : State) (a : Nat) (w : Option StoredWord) :
    (State.writeDue s a w).refreshTimer =
      s.refreshTimer := rfl
@[simp] theorem writeDue_refreshClaim (s : State) (a : Nat) (w : Option StoredWord) :
    (State.writeDue s a w).refreshClaim =
      s.refreshClaim := rfl
@[simp] theorem writeDue_rotation (s : State) (a : Nat) (w : Option StoredWord) :
    (State.writeDue s a w).rotation =
      s.rotation := rfl
@[simp] theorem writeDue_portPointer (s : State) (a : Nat) (w : Option StoredWord) :
    (State.writeDue s a w).portPointer =
      s.portPointer := rfl
@[simp] theorem writeDue_grant (s : State) (a : Nat) (w : Option StoredWord) :
    (State.writeDue s a w).grant =
      s.grant := rfl
@[simp] theorem writeDue_holds (s : State) (a : Nat) (w : Option StoredWord) :
    (State.writeDue s a w).holds =
      s.holds := rfl
@[simp] theorem writeDue_deferred (s : State) (a : Nat) (w : Option StoredWord) :
    (State.writeDue s a w).deferred =
      s.deferred := rfl
@[simp] theorem writeDue_bulk (s : State) (a : Nat) (w : Option StoredWord) :
    (State.writeDue s a w).bulk =
      s.bulk := rfl
@[simp] theorem writeDue_firstMismatch (s : State) (a : Nat) (w : Option StoredWord) :
    (State.writeDue s a w).firstMismatch =
      s.firstMismatch := rfl
@[simp] theorem writeDue_notices (s : State) (a : Nat) (w : Option StoredWord) :
    (State.writeDue s a w).notices =
      s.notices := rfl
@[simp] theorem writeDue_lost (s : State) (a : Nat) (w : Option StoredWord) :
    (State.writeDue s a w).lost =
      s.lost := rfl
@[simp] theorem writeDue_attention (s : State) (a : Nat) (w : Option StoredWord) :
    (State.writeDue s a w).attention =
      s.attention := rfl

/-! ### chooseRingOut -/

@[simp] theorem chooseRingOut_pending (s : State) : (State.chooseRingOut s).pending = s.pending := rfl
@[simp] theorem chooseRingOut_coldReset (s : State) : (State.chooseRingOut s).coldReset = s.coldReset := rfl
@[simp] theorem chooseRingOut_warmReset (s : State) : (State.chooseRingOut s).warmReset = s.warmReset := rfl
@[simp] theorem chooseRingOut_ringInCarrier (s : State) :
    (State.chooseRingOut s).ringInCarrier =
      s.ringInCarrier := rfl
@[simp] theorem chooseRingOut_ringOutCarrier (s : State) :
    (State.chooseRingOut s).ringOutCarrier =
      s.ringOutCarrier := rfl
@[simp] theorem chooseRingOut_straps (s : State) : (State.chooseRingOut s).straps = s.straps := rfl
@[simp] theorem chooseRingOut_ringState (s : State) : (State.chooseRingOut s).ringState = s.ringState := rfl
@[simp] theorem chooseRingOut_probeTimer (s : State) : (State.chooseRingOut s).probeTimer = s.probeTimer := rfl
@[simp] theorem chooseRingOut_probeClaim (s : State) : (State.chooseRingOut s).probeClaim = s.probeClaim := rfl
@[simp] theorem chooseRingOut_probeSerial (s : State) : (State.chooseRingOut s).probeSerial = s.probeSerial := rfl
@[simp] theorem chooseRingOut_recentProbes (s : State) : (State.chooseRingOut s).recentProbes = s.recentProbes := rfl
@[simp] theorem chooseRingOut_passThrough (s : State) : (State.chooseRingOut s).passThrough = s.passThrough := rfl
@[simp] theorem chooseRingOut_transmit (s : State) : (State.chooseRingOut s).transmit = s.transmit := rfl
@[simp] theorem chooseRingOut_ringOut (s : State) :
    (State.chooseRingOut s).ringOut =
      match s.ringOut with | .idle => ringOutChoice s.ringState s.passThrough s.transmit | x => x := rfl
@[simp] theorem chooseRingOut_inbound (s : State) : (State.chooseRingOut s).inbound = s.inbound := rfl
@[simp] theorem chooseRingOut_strobes (s : State) : (State.chooseRingOut s).strobes = s.strobes := rfl
@[simp] theorem chooseRingOut_ports (s : State) : (State.chooseRingOut s).ports = s.ports := rfl
@[simp] theorem chooseRingOut_completions (s : State) : (State.chooseRingOut s).completions = s.completions := rfl
@[simp] theorem chooseRingOut_windows (s : State) : (State.chooseRingOut s).windows = s.windows := rfl
@[simp] theorem chooseRingOut_outstanding (s : State) : (State.chooseRingOut s).outstanding = s.outstanding := rfl
@[simp] theorem chooseRingOut_mem (s : State) : (State.chooseRingOut s).mem = s.mem := rfl
@[simp] theorem chooseRingOut_epoch (s : State) : (State.chooseRingOut s).epoch = s.epoch := rfl
@[simp] theorem chooseRingOut_refreshTimer (s : State) : (State.chooseRingOut s).refreshTimer = s.refreshTimer := rfl
@[simp] theorem chooseRingOut_refreshClaim (s : State) : (State.chooseRingOut s).refreshClaim = s.refreshClaim := rfl
@[simp] theorem chooseRingOut_rotation (s : State) : (State.chooseRingOut s).rotation = s.rotation := rfl
@[simp] theorem chooseRingOut_portPointer (s : State) : (State.chooseRingOut s).portPointer = s.portPointer := rfl
@[simp] theorem chooseRingOut_grant (s : State) : (State.chooseRingOut s).grant = s.grant := rfl
@[simp] theorem chooseRingOut_holds (s : State) : (State.chooseRingOut s).holds = s.holds := rfl
@[simp] theorem chooseRingOut_deferred (s : State) : (State.chooseRingOut s).deferred = s.deferred := rfl
@[simp] theorem chooseRingOut_bulk (s : State) : (State.chooseRingOut s).bulk = s.bulk := rfl
@[simp] theorem chooseRingOut_firstMismatch (s : State) :
    (State.chooseRingOut s).firstMismatch =
      s.firstMismatch := rfl
@[simp] theorem chooseRingOut_notices (s : State) : (State.chooseRingOut s).notices = s.notices := rfl
@[simp] theorem chooseRingOut_lost (s : State) : (State.chooseRingOut s).lost = s.lost := rfl
@[simp] theorem chooseRingOut_attention (s : State) : (State.chooseRingOut s).attention = s.attention := rfl

/-! ### placeTransmit -/

@[simp] theorem placeTransmit_pending (s : State) (f : Frame) : (State.placeTransmit s f).pending = s.pending := rfl
@[simp] theorem placeTransmit_coldReset (s : State) (f : Frame) :
    (State.placeTransmit s f).coldReset =
      s.coldReset := rfl
@[simp] theorem placeTransmit_warmReset (s : State) (f : Frame) :
    (State.placeTransmit s f).warmReset =
      s.warmReset := rfl
@[simp] theorem placeTransmit_ringInCarrier (s : State) (f : Frame) :
    (State.placeTransmit s f).ringInCarrier =
      s.ringInCarrier := rfl
@[simp] theorem placeTransmit_ringOutCarrier (s : State) (f : Frame) :
    (State.placeTransmit s f).ringOutCarrier =
      s.ringOutCarrier := rfl
@[simp] theorem placeTransmit_straps (s : State) (f : Frame) : (State.placeTransmit s f).straps = s.straps := rfl
@[simp] theorem placeTransmit_ringState (s : State) (f : Frame) :
    (State.placeTransmit s f).ringState =
      s.ringState := rfl
@[simp] theorem placeTransmit_probeTimer (s : State) (f : Frame) :
    (State.placeTransmit s f).probeTimer =
      s.probeTimer := rfl
@[simp] theorem placeTransmit_probeClaim (s : State) (f : Frame) :
    (State.placeTransmit s f).probeClaim =
      s.probeClaim := rfl
@[simp] theorem placeTransmit_probeSerial (s : State) (f : Frame) :
    (State.placeTransmit s f).probeSerial =
      s.probeSerial := rfl
@[simp] theorem placeTransmit_recentProbes (s : State) (f : Frame) :
    (State.placeTransmit s f).recentProbes =
      s.recentProbes := rfl
@[simp] theorem placeTransmit_passThrough (s : State) (f : Frame) :
    (State.placeTransmit s f).passThrough =
      s.passThrough := rfl
@[simp] theorem placeTransmit_transmit (s : State) (f : Frame) :
    (State.placeTransmit s f).transmit =
      s.transmit ++ [f] := rfl
@[simp] theorem placeTransmit_ringOut (s : State) (f : Frame) :
    (State.placeTransmit s f).ringOut =
      match s.ringOut with | .idle => ringOutChoice s.ringState s.passThrough (s.transmit ++ [f]) | x => x := rfl
@[simp] theorem placeTransmit_inbound (s : State) (f : Frame) : (State.placeTransmit s f).inbound = s.inbound := rfl
@[simp] theorem placeTransmit_strobes (s : State) (f : Frame) : (State.placeTransmit s f).strobes = s.strobes := rfl
@[simp] theorem placeTransmit_ports (s : State) (f : Frame) : (State.placeTransmit s f).ports = s.ports := rfl
@[simp] theorem placeTransmit_completions (s : State) (f : Frame) :
    (State.placeTransmit s f).completions =
      s.completions := rfl
@[simp] theorem placeTransmit_windows (s : State) (f : Frame) : (State.placeTransmit s f).windows = s.windows := rfl
@[simp] theorem placeTransmit_outstanding (s : State) (f : Frame) :
    (State.placeTransmit s f).outstanding =
      s.outstanding := rfl
@[simp] theorem placeTransmit_mem (s : State) (f : Frame) : (State.placeTransmit s f).mem = s.mem := rfl
@[simp] theorem placeTransmit_epoch (s : State) (f : Frame) : (State.placeTransmit s f).epoch = s.epoch := rfl
@[simp] theorem placeTransmit_refreshTimer (s : State) (f : Frame) :
    (State.placeTransmit s f).refreshTimer =
      s.refreshTimer := rfl
@[simp] theorem placeTransmit_refreshClaim (s : State) (f : Frame) :
    (State.placeTransmit s f).refreshClaim =
      s.refreshClaim := rfl
@[simp] theorem placeTransmit_rotation (s : State) (f : Frame) :
    (State.placeTransmit s f).rotation =
      s.rotation := rfl
@[simp] theorem placeTransmit_portPointer (s : State) (f : Frame) :
    (State.placeTransmit s f).portPointer =
      s.portPointer := rfl
@[simp] theorem placeTransmit_grant (s : State) (f : Frame) : (State.placeTransmit s f).grant = s.grant := rfl
@[simp] theorem placeTransmit_holds (s : State) (f : Frame) : (State.placeTransmit s f).holds = s.holds := rfl
@[simp] theorem placeTransmit_deferred (s : State) (f : Frame) :
    (State.placeTransmit s f).deferred =
      s.deferred := rfl
@[simp] theorem placeTransmit_bulk (s : State) (f : Frame) : (State.placeTransmit s f).bulk = s.bulk := rfl
@[simp] theorem placeTransmit_firstMismatch (s : State) (f : Frame) :
    (State.placeTransmit s f).firstMismatch =
      s.firstMismatch := rfl
@[simp] theorem placeTransmit_notices (s : State) (f : Frame) : (State.placeTransmit s f).notices = s.notices := rfl
@[simp] theorem placeTransmit_lost (s : State) (f : Frame) : (State.placeTransmit s f).lost = s.lost := rfl
@[simp] theorem placeTransmit_attention (s : State) (f : Frame) :
    (State.placeTransmit s f).attention =
      s.attention := rfl

/-! ### placeNotice -/

@[simp] theorem placeNotice_pending (s : State) (n : Notice) : (State.placeNotice s n).pending = s.pending := rfl
@[simp] theorem placeNotice_coldReset (s : State) (n : Notice) :
    (State.placeNotice s n).coldReset =
      s.coldReset := rfl
@[simp] theorem placeNotice_warmReset (s : State) (n : Notice) :
    (State.placeNotice s n).warmReset =
      s.warmReset := rfl
@[simp] theorem placeNotice_ringInCarrier (s : State) (n : Notice) :
    (State.placeNotice s n).ringInCarrier =
      s.ringInCarrier := rfl
@[simp] theorem placeNotice_ringOutCarrier (s : State) (n : Notice) :
    (State.placeNotice s n).ringOutCarrier =
      s.ringOutCarrier := rfl
@[simp] theorem placeNotice_straps (s : State) (n : Notice) : (State.placeNotice s n).straps = s.straps := rfl
@[simp] theorem placeNotice_ringState (s : State) (n : Notice) :
    (State.placeNotice s n).ringState =
      s.ringState := rfl
@[simp] theorem placeNotice_probeTimer (s : State) (n : Notice) :
    (State.placeNotice s n).probeTimer =
      s.probeTimer := rfl
@[simp] theorem placeNotice_probeClaim (s : State) (n : Notice) :
    (State.placeNotice s n).probeClaim =
      s.probeClaim := rfl
@[simp] theorem placeNotice_probeSerial (s : State) (n : Notice) :
    (State.placeNotice s n).probeSerial =
      s.probeSerial := rfl
@[simp] theorem placeNotice_recentProbes (s : State) (n : Notice) :
    (State.placeNotice s n).recentProbes =
      s.recentProbes := rfl
@[simp] theorem placeNotice_passThrough (s : State) (n : Notice) :
    (State.placeNotice s n).passThrough =
      s.passThrough := rfl
@[simp] theorem placeNotice_transmit (s : State) (n : Notice) : (State.placeNotice s n).transmit = s.transmit := rfl
@[simp] theorem placeNotice_ringOut (s : State) (n : Notice) : (State.placeNotice s n).ringOut = s.ringOut := rfl
@[simp] theorem placeNotice_inbound (s : State) (n : Notice) : (State.placeNotice s n).inbound = s.inbound := rfl
@[simp] theorem placeNotice_strobes (s : State) (n : Notice) : (State.placeNotice s n).strobes = s.strobes := rfl
@[simp] theorem placeNotice_ports (s : State) (n : Notice) : (State.placeNotice s n).ports = s.ports := rfl
@[simp] theorem placeNotice_completions (s : State) (n : Notice) :
    (State.placeNotice s n).completions =
      s.completions := rfl
@[simp] theorem placeNotice_windows (s : State) (n : Notice) : (State.placeNotice s n).windows = s.windows := rfl
@[simp] theorem placeNotice_outstanding (s : State) (n : Notice) :
    (State.placeNotice s n).outstanding =
      s.outstanding := rfl
@[simp] theorem placeNotice_mem (s : State) (n : Notice) : (State.placeNotice s n).mem = s.mem := rfl
@[simp] theorem placeNotice_epoch (s : State) (n : Notice) : (State.placeNotice s n).epoch = s.epoch := rfl
@[simp] theorem placeNotice_refreshTimer (s : State) (n : Notice) :
    (State.placeNotice s n).refreshTimer =
      s.refreshTimer := rfl
@[simp] theorem placeNotice_refreshClaim (s : State) (n : Notice) :
    (State.placeNotice s n).refreshClaim =
      s.refreshClaim := rfl
@[simp] theorem placeNotice_rotation (s : State) (n : Notice) : (State.placeNotice s n).rotation = s.rotation := rfl
@[simp] theorem placeNotice_portPointer (s : State) (n : Notice) :
    (State.placeNotice s n).portPointer =
      s.portPointer := rfl
@[simp] theorem placeNotice_grant (s : State) (n : Notice) : (State.placeNotice s n).grant = s.grant := rfl
@[simp] theorem placeNotice_holds (s : State) (n : Notice) : (State.placeNotice s n).holds = s.holds := rfl
@[simp] theorem placeNotice_deferred (s : State) (n : Notice) : (State.placeNotice s n).deferred = s.deferred := rfl
@[simp] theorem placeNotice_bulk (s : State) (n : Notice) : (State.placeNotice s n).bulk = s.bulk := rfl
@[simp] theorem placeNotice_firstMismatch (s : State) (n : Notice) :
    (State.placeNotice s n).firstMismatch =
      s.firstMismatch := rfl
@[simp] theorem placeNotice_notices (s : State) (n : Notice) :
    (State.placeNotice s n).notices =
      if s.notices.length < Config.noticePlaces then s.notices ++ [n] else s.notices := rfl
@[simp] theorem placeNotice_lost (s : State) (n : Notice) :
    (State.placeNotice s n).lost =
      if s.notices.length < Config.noticePlaces then s.lost else true := rfl
@[simp] theorem placeNotice_attention (s : State) (n : Notice) : (State.placeNotice s n).attention = true := rfl

/-! ### setPort -/

@[simp] theorem setPort_pending (s : State) (q : Port) (st : PortState) :
    (State.setPort s q st).pending =
      s.pending := rfl
@[simp] theorem setPort_coldReset (s : State) (q : Port) (st : PortState) :
    (State.setPort s q st).coldReset =
      s.coldReset := rfl
@[simp] theorem setPort_warmReset (s : State) (q : Port) (st : PortState) :
    (State.setPort s q st).warmReset =
      s.warmReset := rfl
@[simp] theorem setPort_ringInCarrier (s : State) (q : Port) (st : PortState) :
    (State.setPort s q st).ringInCarrier =
      s.ringInCarrier := rfl
@[simp] theorem setPort_ringOutCarrier (s : State) (q : Port) (st : PortState) :
    (State.setPort s q st).ringOutCarrier =
      s.ringOutCarrier := rfl
@[simp] theorem setPort_straps (s : State) (q : Port) (st : PortState) :
    (State.setPort s q st).straps =
      s.straps := rfl
@[simp] theorem setPort_ringState (s : State) (q : Port) (st : PortState) :
    (State.setPort s q st).ringState =
      s.ringState := rfl
@[simp] theorem setPort_probeTimer (s : State) (q : Port) (st : PortState) :
    (State.setPort s q st).probeTimer =
      s.probeTimer := rfl
@[simp] theorem setPort_probeClaim (s : State) (q : Port) (st : PortState) :
    (State.setPort s q st).probeClaim =
      s.probeClaim := rfl
@[simp] theorem setPort_probeSerial (s : State) (q : Port) (st : PortState) :
    (State.setPort s q st).probeSerial =
      s.probeSerial := rfl
@[simp] theorem setPort_recentProbes (s : State) (q : Port) (st : PortState) :
    (State.setPort s q st).recentProbes =
      s.recentProbes := rfl
@[simp] theorem setPort_passThrough (s : State) (q : Port) (st : PortState) :
    (State.setPort s q st).passThrough =
      s.passThrough := rfl
@[simp] theorem setPort_transmit (s : State) (q : Port) (st : PortState) :
    (State.setPort s q st).transmit =
      s.transmit := rfl
@[simp] theorem setPort_ringOut (s : State) (q : Port) (st : PortState) :
    (State.setPort s q st).ringOut =
      s.ringOut := rfl
@[simp] theorem setPort_inbound (s : State) (q : Port) (st : PortState) :
    (State.setPort s q st).inbound =
      s.inbound := rfl
@[simp] theorem setPort_strobes (s : State) (q : Port) (st : PortState) :
    (State.setPort s q st).strobes =
      s.strobes := rfl
@[simp] theorem setPort_ports (s : State) (q : Port) (st : PortState) :
    (State.setPort s q st).ports =
      portSet s.ports q st := rfl
@[simp] theorem setPort_completions (s : State) (q : Port) (st : PortState) :
    (State.setPort s q st).completions =
      s.completions := rfl
@[simp] theorem setPort_windows (s : State) (q : Port) (st : PortState) :
    (State.setPort s q st).windows =
      s.windows := rfl
@[simp] theorem setPort_outstanding (s : State) (q : Port) (st : PortState) :
    (State.setPort s q st).outstanding =
      s.outstanding := rfl
@[simp] theorem setPort_mem (s : State) (q : Port) (st : PortState) : (State.setPort s q st).mem = s.mem := rfl
@[simp] theorem setPort_epoch (s : State) (q : Port) (st : PortState) : (State.setPort s q st).epoch = s.epoch := rfl
@[simp] theorem setPort_refreshTimer (s : State) (q : Port) (st : PortState) :
    (State.setPort s q st).refreshTimer =
      s.refreshTimer := rfl
@[simp] theorem setPort_refreshClaim (s : State) (q : Port) (st : PortState) :
    (State.setPort s q st).refreshClaim =
      s.refreshClaim := rfl
@[simp] theorem setPort_rotation (s : State) (q : Port) (st : PortState) :
    (State.setPort s q st).rotation =
      s.rotation := rfl
@[simp] theorem setPort_portPointer (s : State) (q : Port) (st : PortState) :
    (State.setPort s q st).portPointer =
      s.portPointer := rfl
@[simp] theorem setPort_grant (s : State) (q : Port) (st : PortState) : (State.setPort s q st).grant = s.grant := rfl
@[simp] theorem setPort_holds (s : State) (q : Port) (st : PortState) : (State.setPort s q st).holds = s.holds := rfl
@[simp] theorem setPort_deferred (s : State) (q : Port) (st : PortState) :
    (State.setPort s q st).deferred =
      s.deferred := rfl
@[simp] theorem setPort_bulk (s : State) (q : Port) (st : PortState) : (State.setPort s q st).bulk = s.bulk := rfl
@[simp] theorem setPort_firstMismatch (s : State) (q : Port) (st : PortState) :
    (State.setPort s q st).firstMismatch =
      s.firstMismatch := rfl
@[simp] theorem setPort_notices (s : State) (q : Port) (st : PortState) :
    (State.setPort s q st).notices =
      s.notices := rfl
@[simp] theorem setPort_lost (s : State) (q : Port) (st : PortState) : (State.setPort s q st).lost = s.lost := rfl
@[simp] theorem setPort_attention (s : State) (q : Port) (st : PortState) :
    (State.setPort s q st).attention =
      s.attention := rfl

/-! ### setStrobe -/

@[simp] theorem setStrobe_pending (s : State) (q : Port) (x : Strobe) :
    (State.setStrobe s q x).pending =
      s.pending := rfl
@[simp] theorem setStrobe_coldReset (s : State) (q : Port) (x : Strobe) :
    (State.setStrobe s q x).coldReset =
      s.coldReset := rfl
@[simp] theorem setStrobe_warmReset (s : State) (q : Port) (x : Strobe) :
    (State.setStrobe s q x).warmReset =
      s.warmReset := rfl
@[simp] theorem setStrobe_ringInCarrier (s : State) (q : Port) (x : Strobe) :
    (State.setStrobe s q x).ringInCarrier =
      s.ringInCarrier := rfl
@[simp] theorem setStrobe_ringOutCarrier (s : State) (q : Port) (x : Strobe) :
    (State.setStrobe s q x).ringOutCarrier =
      s.ringOutCarrier := rfl
@[simp] theorem setStrobe_straps (s : State) (q : Port) (x : Strobe) :
    (State.setStrobe s q x).straps =
      s.straps := rfl
@[simp] theorem setStrobe_ringState (s : State) (q : Port) (x : Strobe) :
    (State.setStrobe s q x).ringState =
      s.ringState := rfl
@[simp] theorem setStrobe_probeTimer (s : State) (q : Port) (x : Strobe) :
    (State.setStrobe s q x).probeTimer =
      s.probeTimer := rfl
@[simp] theorem setStrobe_probeClaim (s : State) (q : Port) (x : Strobe) :
    (State.setStrobe s q x).probeClaim =
      s.probeClaim := rfl
@[simp] theorem setStrobe_probeSerial (s : State) (q : Port) (x : Strobe) :
    (State.setStrobe s q x).probeSerial =
      s.probeSerial := rfl
@[simp] theorem setStrobe_recentProbes (s : State) (q : Port) (x : Strobe) :
    (State.setStrobe s q x).recentProbes =
      s.recentProbes := rfl
@[simp] theorem setStrobe_passThrough (s : State) (q : Port) (x : Strobe) :
    (State.setStrobe s q x).passThrough =
      s.passThrough := rfl
@[simp] theorem setStrobe_transmit (s : State) (q : Port) (x : Strobe) :
    (State.setStrobe s q x).transmit =
      s.transmit := rfl
@[simp] theorem setStrobe_ringOut (s : State) (q : Port) (x : Strobe) :
    (State.setStrobe s q x).ringOut =
      s.ringOut := rfl
@[simp] theorem setStrobe_inbound (s : State) (q : Port) (x : Strobe) :
    (State.setStrobe s q x).inbound =
      s.inbound := rfl
@[simp] theorem setStrobe_strobes (s : State) (q : Port) (x : Strobe) :
    (State.setStrobe s q x).strobes =
      portSet s.strobes q x := rfl
@[simp] theorem setStrobe_ports (s : State) (q : Port) (x : Strobe) : (State.setStrobe s q x).ports = s.ports := rfl
@[simp] theorem setStrobe_completions (s : State) (q : Port) (x : Strobe) :
    (State.setStrobe s q x).completions =
      s.completions := rfl
@[simp] theorem setStrobe_windows (s : State) (q : Port) (x : Strobe) :
    (State.setStrobe s q x).windows =
      s.windows := rfl
@[simp] theorem setStrobe_outstanding (s : State) (q : Port) (x : Strobe) :
    (State.setStrobe s q x).outstanding =
      s.outstanding := rfl
@[simp] theorem setStrobe_mem (s : State) (q : Port) (x : Strobe) : (State.setStrobe s q x).mem = s.mem := rfl
@[simp] theorem setStrobe_epoch (s : State) (q : Port) (x : Strobe) : (State.setStrobe s q x).epoch = s.epoch := rfl
@[simp] theorem setStrobe_refreshTimer (s : State) (q : Port) (x : Strobe) :
    (State.setStrobe s q x).refreshTimer =
      s.refreshTimer := rfl
@[simp] theorem setStrobe_refreshClaim (s : State) (q : Port) (x : Strobe) :
    (State.setStrobe s q x).refreshClaim =
      s.refreshClaim := rfl
@[simp] theorem setStrobe_rotation (s : State) (q : Port) (x : Strobe) :
    (State.setStrobe s q x).rotation =
      s.rotation := rfl
@[simp] theorem setStrobe_portPointer (s : State) (q : Port) (x : Strobe) :
    (State.setStrobe s q x).portPointer =
      s.portPointer := rfl
@[simp] theorem setStrobe_grant (s : State) (q : Port) (x : Strobe) : (State.setStrobe s q x).grant = s.grant := rfl
@[simp] theorem setStrobe_holds (s : State) (q : Port) (x : Strobe) : (State.setStrobe s q x).holds = s.holds := rfl
@[simp] theorem setStrobe_deferred (s : State) (q : Port) (x : Strobe) :
    (State.setStrobe s q x).deferred =
      s.deferred := rfl
@[simp] theorem setStrobe_bulk (s : State) (q : Port) (x : Strobe) : (State.setStrobe s q x).bulk = s.bulk := rfl
@[simp] theorem setStrobe_firstMismatch (s : State) (q : Port) (x : Strobe) :
    (State.setStrobe s q x).firstMismatch =
      s.firstMismatch := rfl
@[simp] theorem setStrobe_notices (s : State) (q : Port) (x : Strobe) :
    (State.setStrobe s q x).notices =
      s.notices := rfl
@[simp] theorem setStrobe_lost (s : State) (q : Port) (x : Strobe) : (State.setStrobe s q x).lost = s.lost := rfl
@[simp] theorem setStrobe_attention (s : State) (q : Port) (x : Strobe) :
    (State.setStrobe s q x).attention =
      s.attention := rfl

/-! ### complete -/

@[simp] theorem complete_pending (s : State) (q : Port) (c : Completion) :
    (State.complete s q c).pending =
      s.pending := rfl
@[simp] theorem complete_coldReset (s : State) (q : Port) (c : Completion) :
    (State.complete s q c).coldReset =
      s.coldReset := rfl
@[simp] theorem complete_warmReset (s : State) (q : Port) (c : Completion) :
    (State.complete s q c).warmReset =
      s.warmReset := rfl
@[simp] theorem complete_ringInCarrier (s : State) (q : Port) (c : Completion) :
    (State.complete s q c).ringInCarrier =
      s.ringInCarrier := rfl
@[simp] theorem complete_ringOutCarrier (s : State) (q : Port) (c : Completion) :
    (State.complete s q c).ringOutCarrier =
      s.ringOutCarrier := rfl
@[simp] theorem complete_straps (s : State) (q : Port) (c : Completion) :
    (State.complete s q c).straps =
      s.straps := rfl
@[simp] theorem complete_ringState (s : State) (q : Port) (c : Completion) :
    (State.complete s q c).ringState =
      s.ringState := rfl
@[simp] theorem complete_probeTimer (s : State) (q : Port) (c : Completion) :
    (State.complete s q c).probeTimer =
      s.probeTimer := rfl
@[simp] theorem complete_probeClaim (s : State) (q : Port) (c : Completion) :
    (State.complete s q c).probeClaim =
      s.probeClaim := rfl
@[simp] theorem complete_probeSerial (s : State) (q : Port) (c : Completion) :
    (State.complete s q c).probeSerial =
      s.probeSerial := rfl
@[simp] theorem complete_recentProbes (s : State) (q : Port) (c : Completion) :
    (State.complete s q c).recentProbes =
      s.recentProbes := rfl
@[simp] theorem complete_passThrough (s : State) (q : Port) (c : Completion) :
    (State.complete s q c).passThrough =
      s.passThrough := rfl
@[simp] theorem complete_transmit (s : State) (q : Port) (c : Completion) :
    (State.complete s q c).transmit =
      s.transmit := rfl
@[simp] theorem complete_ringOut (s : State) (q : Port) (c : Completion) :
    (State.complete s q c).ringOut =
      s.ringOut := rfl
@[simp] theorem complete_inbound (s : State) (q : Port) (c : Completion) :
    (State.complete s q c).inbound =
      s.inbound := rfl
@[simp] theorem complete_strobes (s : State) (q : Port) (c : Completion) :
    (State.complete s q c).strobes =
      s.strobes := rfl
@[simp] theorem complete_ports (s : State) (q : Port) (c : Completion) :
    (State.complete s q c).ports =
      portSet s.ports q .idle := rfl
@[simp] theorem complete_completions (s : State) (q : Port) (c : Completion) :
    (State.complete s q c).completions =
      portSet s.completions q (portGet s.completions q ++ [c]) := rfl
@[simp] theorem complete_windows (s : State) (q : Port) (c : Completion) :
    (State.complete s q c).windows =
      s.windows := rfl
@[simp] theorem complete_outstanding (s : State) (q : Port) (c : Completion) :
    (State.complete s q c).outstanding =
      s.outstanding := rfl
@[simp] theorem complete_mem (s : State) (q : Port) (c : Completion) : (State.complete s q c).mem = s.mem := rfl
@[simp] theorem complete_epoch (s : State) (q : Port) (c : Completion) : (State.complete s q c).epoch = s.epoch := rfl
@[simp] theorem complete_refreshTimer (s : State) (q : Port) (c : Completion) :
    (State.complete s q c).refreshTimer =
      s.refreshTimer := rfl
@[simp] theorem complete_refreshClaim (s : State) (q : Port) (c : Completion) :
    (State.complete s q c).refreshClaim =
      s.refreshClaim := rfl
@[simp] theorem complete_rotation (s : State) (q : Port) (c : Completion) :
    (State.complete s q c).rotation =
      s.rotation := rfl
@[simp] theorem complete_portPointer (s : State) (q : Port) (c : Completion) :
    (State.complete s q c).portPointer =
      s.portPointer := rfl
@[simp] theorem complete_grant (s : State) (q : Port) (c : Completion) : (State.complete s q c).grant = s.grant := rfl
@[simp] theorem complete_holds (s : State) (q : Port) (c : Completion) : (State.complete s q c).holds = s.holds := rfl
@[simp] theorem complete_deferred (s : State) (q : Port) (c : Completion) :
    (State.complete s q c).deferred =
      s.deferred := rfl
@[simp] theorem complete_bulk (s : State) (q : Port) (c : Completion) : (State.complete s q c).bulk = s.bulk := rfl
@[simp] theorem complete_firstMismatch (s : State) (q : Port) (c : Completion) :
    (State.complete s q c).firstMismatch =
      s.firstMismatch := rfl
@[simp] theorem complete_notices (s : State) (q : Port) (c : Completion) :
    (State.complete s q c).notices =
      s.notices := rfl
@[simp] theorem complete_lost (s : State) (q : Port) (c : Completion) : (State.complete s q c).lost = s.lost := rfl
@[simp] theorem complete_attention (s : State) (q : Port) (c : Completion) :
    (State.complete s q c).attention =
      s.attention := rfl

/-! ### setEntry -/

@[simp] theorem setEntry_pending (s : State) (t : Tag) (e : Option Entry) :
    (State.setEntry s t e).pending =
      s.pending := rfl
@[simp] theorem setEntry_coldReset (s : State) (t : Tag) (e : Option Entry) :
    (State.setEntry s t e).coldReset =
      s.coldReset := rfl
@[simp] theorem setEntry_warmReset (s : State) (t : Tag) (e : Option Entry) :
    (State.setEntry s t e).warmReset =
      s.warmReset := rfl
@[simp] theorem setEntry_ringInCarrier (s : State) (t : Tag) (e : Option Entry) :
    (State.setEntry s t e).ringInCarrier =
      s.ringInCarrier := rfl
@[simp] theorem setEntry_ringOutCarrier (s : State) (t : Tag) (e : Option Entry) :
    (State.setEntry s t e).ringOutCarrier =
      s.ringOutCarrier := rfl
@[simp] theorem setEntry_straps (s : State) (t : Tag) (e : Option Entry) :
    (State.setEntry s t e).straps =
      s.straps := rfl
@[simp] theorem setEntry_ringState (s : State) (t : Tag) (e : Option Entry) :
    (State.setEntry s t e).ringState =
      s.ringState := rfl
@[simp] theorem setEntry_probeTimer (s : State) (t : Tag) (e : Option Entry) :
    (State.setEntry s t e).probeTimer =
      s.probeTimer := rfl
@[simp] theorem setEntry_probeClaim (s : State) (t : Tag) (e : Option Entry) :
    (State.setEntry s t e).probeClaim =
      s.probeClaim := rfl
@[simp] theorem setEntry_probeSerial (s : State) (t : Tag) (e : Option Entry) :
    (State.setEntry s t e).probeSerial =
      s.probeSerial := rfl
@[simp] theorem setEntry_recentProbes (s : State) (t : Tag) (e : Option Entry) :
    (State.setEntry s t e).recentProbes =
      s.recentProbes := rfl
@[simp] theorem setEntry_passThrough (s : State) (t : Tag) (e : Option Entry) :
    (State.setEntry s t e).passThrough =
      s.passThrough := rfl
@[simp] theorem setEntry_transmit (s : State) (t : Tag) (e : Option Entry) :
    (State.setEntry s t e).transmit =
      s.transmit := rfl
@[simp] theorem setEntry_ringOut (s : State) (t : Tag) (e : Option Entry) :
    (State.setEntry s t e).ringOut =
      s.ringOut := rfl
@[simp] theorem setEntry_inbound (s : State) (t : Tag) (e : Option Entry) :
    (State.setEntry s t e).inbound =
      s.inbound := rfl
@[simp] theorem setEntry_strobes (s : State) (t : Tag) (e : Option Entry) :
    (State.setEntry s t e).strobes =
      s.strobes := rfl
@[simp] theorem setEntry_ports (s : State) (t : Tag) (e : Option Entry) :
    (State.setEntry s t e).ports =
      s.ports := rfl
@[simp] theorem setEntry_completions (s : State) (t : Tag) (e : Option Entry) :
    (State.setEntry s t e).completions =
      s.completions := rfl
@[simp] theorem setEntry_windows (s : State) (t : Tag) (e : Option Entry) :
    (State.setEntry s t e).windows =
      s.windows := rfl
@[simp] theorem setEntry_outstanding (s : State) (t : Tag) (e : Option Entry) :
    (State.setEntry s t e).outstanding =
      s.outstanding.set t.toNat e t.isLt := rfl
@[simp] theorem setEntry_mem (s : State) (t : Tag) (e : Option Entry) : (State.setEntry s t e).mem = s.mem := rfl
@[simp] theorem setEntry_epoch (s : State) (t : Tag) (e : Option Entry) :
    (State.setEntry s t e).epoch =
      s.epoch := rfl
@[simp] theorem setEntry_refreshTimer (s : State) (t : Tag) (e : Option Entry) :
    (State.setEntry s t e).refreshTimer =
      s.refreshTimer := rfl
@[simp] theorem setEntry_refreshClaim (s : State) (t : Tag) (e : Option Entry) :
    (State.setEntry s t e).refreshClaim =
      s.refreshClaim := rfl
@[simp] theorem setEntry_rotation (s : State) (t : Tag) (e : Option Entry) :
    (State.setEntry s t e).rotation =
      s.rotation := rfl
@[simp] theorem setEntry_portPointer (s : State) (t : Tag) (e : Option Entry) :
    (State.setEntry s t e).portPointer =
      s.portPointer := rfl
@[simp] theorem setEntry_grant (s : State) (t : Tag) (e : Option Entry) :
    (State.setEntry s t e).grant =
      s.grant := rfl
@[simp] theorem setEntry_holds (s : State) (t : Tag) (e : Option Entry) :
    (State.setEntry s t e).holds =
      s.holds := rfl
@[simp] theorem setEntry_deferred (s : State) (t : Tag) (e : Option Entry) :
    (State.setEntry s t e).deferred =
      s.deferred := rfl
@[simp] theorem setEntry_bulk (s : State) (t : Tag) (e : Option Entry) : (State.setEntry s t e).bulk = s.bulk := rfl
@[simp] theorem setEntry_firstMismatch (s : State) (t : Tag) (e : Option Entry) :
    (State.setEntry s t e).firstMismatch =
      s.firstMismatch := rfl
@[simp] theorem setEntry_notices (s : State) (t : Tag) (e : Option Entry) :
    (State.setEntry s t e).notices =
      s.notices := rfl
@[simp] theorem setEntry_lost (s : State) (t : Tag) (e : Option Entry) : (State.setEntry s t e).lost = s.lost := rfl
@[simp] theorem setEntry_attention (s : State) (t : Tag) (e : Option Entry) :
    (State.setEntry s t e).attention =
      s.attention := rfl

/-! ### setSlot -/

@[simp] theorem setSlot_pending (s : State) (i : Slot) (h : Option Hold) :
    (State.setSlot s i h).pending =
      s.pending := rfl
@[simp] theorem setSlot_coldReset (s : State) (i : Slot) (h : Option Hold) :
    (State.setSlot s i h).coldReset =
      s.coldReset := rfl
@[simp] theorem setSlot_warmReset (s : State) (i : Slot) (h : Option Hold) :
    (State.setSlot s i h).warmReset =
      s.warmReset := rfl
@[simp] theorem setSlot_ringInCarrier (s : State) (i : Slot) (h : Option Hold) :
    (State.setSlot s i h).ringInCarrier =
      s.ringInCarrier := rfl
@[simp] theorem setSlot_ringOutCarrier (s : State) (i : Slot) (h : Option Hold) :
    (State.setSlot s i h).ringOutCarrier =
      s.ringOutCarrier := rfl
@[simp] theorem setSlot_straps (s : State) (i : Slot) (h : Option Hold) :
    (State.setSlot s i h).straps =
      s.straps := rfl
@[simp] theorem setSlot_ringState (s : State) (i : Slot) (h : Option Hold) :
    (State.setSlot s i h).ringState =
      s.ringState := rfl
@[simp] theorem setSlot_probeTimer (s : State) (i : Slot) (h : Option Hold) :
    (State.setSlot s i h).probeTimer =
      s.probeTimer := rfl
@[simp] theorem setSlot_probeClaim (s : State) (i : Slot) (h : Option Hold) :
    (State.setSlot s i h).probeClaim =
      s.probeClaim := rfl
@[simp] theorem setSlot_probeSerial (s : State) (i : Slot) (h : Option Hold) :
    (State.setSlot s i h).probeSerial =
      s.probeSerial := rfl
@[simp] theorem setSlot_recentProbes (s : State) (i : Slot) (h : Option Hold) :
    (State.setSlot s i h).recentProbes =
      s.recentProbes := rfl
@[simp] theorem setSlot_passThrough (s : State) (i : Slot) (h : Option Hold) :
    (State.setSlot s i h).passThrough =
      s.passThrough := rfl
@[simp] theorem setSlot_transmit (s : State) (i : Slot) (h : Option Hold) :
    (State.setSlot s i h).transmit =
      s.transmit := rfl
@[simp] theorem setSlot_ringOut (s : State) (i : Slot) (h : Option Hold) :
    (State.setSlot s i h).ringOut =
      s.ringOut := rfl
@[simp] theorem setSlot_inbound (s : State) (i : Slot) (h : Option Hold) :
    (State.setSlot s i h).inbound =
      s.inbound := rfl
@[simp] theorem setSlot_strobes (s : State) (i : Slot) (h : Option Hold) :
    (State.setSlot s i h).strobes =
      s.strobes := rfl
@[simp] theorem setSlot_ports (s : State) (i : Slot) (h : Option Hold) : (State.setSlot s i h).ports = s.ports := rfl
@[simp] theorem setSlot_completions (s : State) (i : Slot) (h : Option Hold) :
    (State.setSlot s i h).completions =
      s.completions := rfl
@[simp] theorem setSlot_windows (s : State) (i : Slot) (h : Option Hold) :
    (State.setSlot s i h).windows =
      s.windows := rfl
@[simp] theorem setSlot_outstanding (s : State) (i : Slot) (h : Option Hold) :
    (State.setSlot s i h).outstanding =
      s.outstanding := rfl
@[simp] theorem setSlot_mem (s : State) (i : Slot) (h : Option Hold) : (State.setSlot s i h).mem = s.mem := rfl
@[simp] theorem setSlot_epoch (s : State) (i : Slot) (h : Option Hold) : (State.setSlot s i h).epoch = s.epoch := rfl
@[simp] theorem setSlot_refreshTimer (s : State) (i : Slot) (h : Option Hold) :
    (State.setSlot s i h).refreshTimer =
      s.refreshTimer := rfl
@[simp] theorem setSlot_refreshClaim (s : State) (i : Slot) (h : Option Hold) :
    (State.setSlot s i h).refreshClaim =
      s.refreshClaim := rfl
@[simp] theorem setSlot_rotation (s : State) (i : Slot) (h : Option Hold) :
    (State.setSlot s i h).rotation =
      s.rotation := rfl
@[simp] theorem setSlot_portPointer (s : State) (i : Slot) (h : Option Hold) :
    (State.setSlot s i h).portPointer =
      s.portPointer := rfl
@[simp] theorem setSlot_grant (s : State) (i : Slot) (h : Option Hold) : (State.setSlot s i h).grant = s.grant := rfl
@[simp] theorem setSlot_holds (s : State) (i : Slot) (h : Option Hold) :
    (State.setSlot s i h).holds =
      s.holds.set i.val h i.isLt := rfl
@[simp] theorem setSlot_deferred (s : State) (i : Slot) (h : Option Hold) :
    (State.setSlot s i h).deferred =
      s.deferred := rfl
@[simp] theorem setSlot_bulk (s : State) (i : Slot) (h : Option Hold) : (State.setSlot s i h).bulk = s.bulk := rfl
@[simp] theorem setSlot_firstMismatch (s : State) (i : Slot) (h : Option Hold) :
    (State.setSlot s i h).firstMismatch =
      s.firstMismatch := rfl
@[simp] theorem setSlot_notices (s : State) (i : Slot) (h : Option Hold) :
    (State.setSlot s i h).notices =
      s.notices := rfl
@[simp] theorem setSlot_lost (s : State) (i : Slot) (h : Option Hold) : (State.setSlot s i h).lost = s.lost := rfl
@[simp] theorem setSlot_attention (s : State) (i : Slot) (h : Option Hold) :
    (State.setSlot s i h).attention =
      s.attention := rfl

/-! ### endHold -/

@[simp] theorem endHold_pending (s : State) (i : Slot) : (State.endHold s i).pending = s.pending := rfl
@[simp] theorem endHold_coldReset (s : State) (i : Slot) : (State.endHold s i).coldReset = s.coldReset := rfl
@[simp] theorem endHold_warmReset (s : State) (i : Slot) : (State.endHold s i).warmReset = s.warmReset := rfl
@[simp] theorem endHold_ringInCarrier (s : State) (i : Slot) :
    (State.endHold s i).ringInCarrier =
      s.ringInCarrier := rfl
@[simp] theorem endHold_ringOutCarrier (s : State) (i : Slot) :
    (State.endHold s i).ringOutCarrier =
      s.ringOutCarrier := rfl
@[simp] theorem endHold_straps (s : State) (i : Slot) : (State.endHold s i).straps = s.straps := rfl
@[simp] theorem endHold_ringState (s : State) (i : Slot) : (State.endHold s i).ringState = s.ringState := rfl
@[simp] theorem endHold_probeTimer (s : State) (i : Slot) : (State.endHold s i).probeTimer = s.probeTimer := rfl
@[simp] theorem endHold_probeClaim (s : State) (i : Slot) : (State.endHold s i).probeClaim = s.probeClaim := rfl
@[simp] theorem endHold_probeSerial (s : State) (i : Slot) : (State.endHold s i).probeSerial = s.probeSerial := rfl
@[simp] theorem endHold_recentProbes (s : State) (i : Slot) : (State.endHold s i).recentProbes = s.recentProbes := rfl
@[simp] theorem endHold_passThrough (s : State) (i : Slot) : (State.endHold s i).passThrough = s.passThrough := rfl
@[simp] theorem endHold_transmit (s : State) (i : Slot) : (State.endHold s i).transmit = s.transmit := rfl
@[simp] theorem endHold_ringOut (s : State) (i : Slot) : (State.endHold s i).ringOut = s.ringOut := rfl
@[simp] theorem endHold_inbound (s : State) (i : Slot) : (State.endHold s i).inbound = s.inbound := rfl
@[simp] theorem endHold_strobes (s : State) (i : Slot) : (State.endHold s i).strobes = s.strobes := rfl
@[simp] theorem endHold_ports (s : State) (i : Slot) : (State.endHold s i).ports = s.ports := rfl
@[simp] theorem endHold_completions (s : State) (i : Slot) : (State.endHold s i).completions = s.completions := rfl
@[simp] theorem endHold_windows (s : State) (i : Slot) : (State.endHold s i).windows = s.windows := rfl
@[simp] theorem endHold_outstanding (s : State) (i : Slot) : (State.endHold s i).outstanding = s.outstanding := rfl
@[simp] theorem endHold_mem (s : State) (i : Slot) : (State.endHold s i).mem = s.mem := rfl
@[simp] theorem endHold_epoch (s : State) (i : Slot) : (State.endHold s i).epoch = s.epoch := rfl
@[simp] theorem endHold_refreshTimer (s : State) (i : Slot) : (State.endHold s i).refreshTimer = s.refreshTimer := rfl
@[simp] theorem endHold_refreshClaim (s : State) (i : Slot) : (State.endHold s i).refreshClaim = s.refreshClaim := rfl
@[simp] theorem endHold_rotation (s : State) (i : Slot) : (State.endHold s i).rotation = s.rotation := rfl
@[simp] theorem endHold_portPointer (s : State) (i : Slot) : (State.endHold s i).portPointer = s.portPointer := rfl
@[simp] theorem endHold_grant (s : State) (i : Slot) : (State.endHold s i).grant = s.grant := rfl
@[simp] theorem endHold_holds (s : State) (i : Slot) :
    (State.endHold s i).holds =
      s.holds.set i.val none i.isLt := rfl
@[simp] theorem endHold_deferred (s : State) (i : Slot) :
    (State.endHold s i).deferred =
      s.deferred.map (readied i) := rfl
@[simp] theorem endHold_bulk (s : State) (i : Slot) : (State.endHold s i).bulk = engineTold i s.bulk := rfl
@[simp] theorem endHold_firstMismatch (s : State) (i : Slot) :
    (State.endHold s i).firstMismatch =
      s.firstMismatch := rfl
@[simp] theorem endHold_notices (s : State) (i : Slot) : (State.endHold s i).notices = s.notices := rfl
@[simp] theorem endHold_lost (s : State) (i : Slot) : (State.endHold s i).lost = s.lost := rfl
@[simp] theorem endHold_attention (s : State) (i : Slot) : (State.endHold s i).attention = s.attention := rfl

/-! ### stopHold -/

@[simp] theorem stopHold_pending (s : State) (i : Slot) : (State.stopHold s i).pending = s.pending := rfl
@[simp] theorem stopHold_coldReset (s : State) (i : Slot) : (State.stopHold s i).coldReset = s.coldReset := rfl
@[simp] theorem stopHold_warmReset (s : State) (i : Slot) : (State.stopHold s i).warmReset = s.warmReset := rfl
@[simp] theorem stopHold_ringInCarrier (s : State) (i : Slot) :
    (State.stopHold s i).ringInCarrier =
      s.ringInCarrier := rfl
@[simp] theorem stopHold_ringOutCarrier (s : State) (i : Slot) :
    (State.stopHold s i).ringOutCarrier =
      s.ringOutCarrier := rfl
@[simp] theorem stopHold_straps (s : State) (i : Slot) : (State.stopHold s i).straps = s.straps := rfl
@[simp] theorem stopHold_ringState (s : State) (i : Slot) : (State.stopHold s i).ringState = s.ringState := rfl
@[simp] theorem stopHold_probeTimer (s : State) (i : Slot) : (State.stopHold s i).probeTimer = s.probeTimer := rfl
@[simp] theorem stopHold_probeClaim (s : State) (i : Slot) : (State.stopHold s i).probeClaim = s.probeClaim := rfl
@[simp] theorem stopHold_probeSerial (s : State) (i : Slot) : (State.stopHold s i).probeSerial = s.probeSerial := rfl
@[simp] theorem stopHold_recentProbes (s : State) (i : Slot) :
    (State.stopHold s i).recentProbes =
      s.recentProbes := rfl
@[simp] theorem stopHold_passThrough (s : State) (i : Slot) : (State.stopHold s i).passThrough = s.passThrough := rfl
@[simp] theorem stopHold_transmit (s : State) (i : Slot) : (State.stopHold s i).transmit = s.transmit := rfl
@[simp] theorem stopHold_ringOut (s : State) (i : Slot) : (State.stopHold s i).ringOut = s.ringOut := rfl
@[simp] theorem stopHold_inbound (s : State) (i : Slot) : (State.stopHold s i).inbound = s.inbound := rfl
@[simp] theorem stopHold_strobes (s : State) (i : Slot) : (State.stopHold s i).strobes = s.strobes := rfl
@[simp] theorem stopHold_ports (s : State) (i : Slot) : (State.stopHold s i).ports = s.ports := rfl
@[simp] theorem stopHold_completions (s : State) (i : Slot) : (State.stopHold s i).completions = s.completions := rfl
@[simp] theorem stopHold_windows (s : State) (i : Slot) : (State.stopHold s i).windows = s.windows := rfl
@[simp] theorem stopHold_outstanding (s : State) (i : Slot) : (State.stopHold s i).outstanding = s.outstanding := rfl
@[simp] theorem stopHold_mem (s : State) (i : Slot) : (State.stopHold s i).mem = s.mem := rfl
@[simp] theorem stopHold_epoch (s : State) (i : Slot) : (State.stopHold s i).epoch = s.epoch := rfl
@[simp] theorem stopHold_refreshTimer (s : State) (i : Slot) :
    (State.stopHold s i).refreshTimer =
      s.refreshTimer := rfl
@[simp] theorem stopHold_refreshClaim (s : State) (i : Slot) :
    (State.stopHold s i).refreshClaim =
      s.refreshClaim := rfl
@[simp] theorem stopHold_rotation (s : State) (i : Slot) : (State.stopHold s i).rotation = s.rotation := rfl
@[simp] theorem stopHold_portPointer (s : State) (i : Slot) : (State.stopHold s i).portPointer = s.portPointer := rfl
@[simp] theorem stopHold_grant (s : State) (i : Slot) : (State.stopHold s i).grant = s.grant := rfl
@[simp] theorem stopHold_holds (s : State) (i : Slot) :
    (State.stopHold s i).holds =
      s.holds.set i.val ((s.slot i).map fun h => { h with stopped := true }) i.isLt := rfl
@[simp] theorem stopHold_deferred (s : State) (i : Slot) : (State.stopHold s i).deferred = s.deferred := rfl
@[simp] theorem stopHold_bulk (s : State) (i : Slot) : (State.stopHold s i).bulk = s.bulk := rfl
@[simp] theorem stopHold_firstMismatch (s : State) (i : Slot) :
    (State.stopHold s i).firstMismatch =
      s.firstMismatch := rfl
@[simp] theorem stopHold_notices (s : State) (i : Slot) : (State.stopHold s i).notices = s.notices := rfl
@[simp] theorem stopHold_lost (s : State) (i : Slot) : (State.stopHold s i).lost = s.lost := rfl
@[simp] theorem stopHold_attention (s : State) (i : Slot) : (State.stopHold s i).attention = s.attention := rfl

/-! ### beginWord -/

@[simp] theorem beginWord_pending (s : State) (src : Source) (res : WordResult) :
    (State.beginWord s src res).pending =
      s.pending := rfl
@[simp] theorem beginWord_coldReset (s : State) (src : Source) (res : WordResult) :
    (State.beginWord s src res).coldReset =
      s.coldReset := rfl
@[simp] theorem beginWord_warmReset (s : State) (src : Source) (res : WordResult) :
    (State.beginWord s src res).warmReset =
      s.warmReset := rfl
@[simp] theorem beginWord_ringInCarrier (s : State) (src : Source) (res : WordResult) :
    (State.beginWord s src res).ringInCarrier =
      s.ringInCarrier := rfl
@[simp] theorem beginWord_ringOutCarrier (s : State) (src : Source) (res : WordResult) :
    (State.beginWord s src res).ringOutCarrier =
      s.ringOutCarrier := rfl
@[simp] theorem beginWord_straps (s : State) (src : Source) (res : WordResult) :
    (State.beginWord s src res).straps =
      s.straps := rfl
@[simp] theorem beginWord_ringState (s : State) (src : Source) (res : WordResult) :
    (State.beginWord s src res).ringState =
      s.ringState := rfl
@[simp] theorem beginWord_probeTimer (s : State) (src : Source) (res : WordResult) :
    (State.beginWord s src res).probeTimer =
      s.probeTimer := rfl
@[simp] theorem beginWord_probeClaim (s : State) (src : Source) (res : WordResult) :
    (State.beginWord s src res).probeClaim =
      s.probeClaim := rfl
@[simp] theorem beginWord_probeSerial (s : State) (src : Source) (res : WordResult) :
    (State.beginWord s src res).probeSerial =
      s.probeSerial := rfl
@[simp] theorem beginWord_recentProbes (s : State) (src : Source) (res : WordResult) :
    (State.beginWord s src res).recentProbes =
      s.recentProbes := rfl
@[simp] theorem beginWord_passThrough (s : State) (src : Source) (res : WordResult) :
    (State.beginWord s src res).passThrough =
      s.passThrough := rfl
@[simp] theorem beginWord_transmit (s : State) (src : Source) (res : WordResult) :
    (State.beginWord s src res).transmit =
      s.transmit := rfl
@[simp] theorem beginWord_ringOut (s : State) (src : Source) (res : WordResult) :
    (State.beginWord s src res).ringOut =
      s.ringOut := rfl
@[simp] theorem beginWord_inbound (s : State) (src : Source) (res : WordResult) :
    (State.beginWord s src res).inbound =
      s.inbound := rfl
@[simp] theorem beginWord_strobes (s : State) (src : Source) (res : WordResult) :
    (State.beginWord s src res).strobes =
      s.strobes := rfl
@[simp] theorem beginWord_ports (s : State) (src : Source) (res : WordResult) :
    (State.beginWord s src res).ports =
      s.ports := rfl
@[simp] theorem beginWord_completions (s : State) (src : Source) (res : WordResult) :
    (State.beginWord s src res).completions =
      s.completions := rfl
@[simp] theorem beginWord_windows (s : State) (src : Source) (res : WordResult) :
    (State.beginWord s src res).windows =
      s.windows := rfl
@[simp] theorem beginWord_outstanding (s : State) (src : Source) (res : WordResult) :
    (State.beginWord s src res).outstanding =
      s.outstanding := rfl
@[simp] theorem beginWord_mem (s : State) (src : Source) (res : WordResult) :
    (State.beginWord s src res).mem =
      s.mem := rfl
@[simp] theorem beginWord_epoch (s : State) (src : Source) (res : WordResult) :
    (State.beginWord s src res).epoch =
      s.epoch := rfl
@[simp] theorem beginWord_refreshTimer (s : State) (src : Source) (res : WordResult) :
    (State.beginWord s src res).refreshTimer =
      s.refreshTimer := rfl
@[simp] theorem beginWord_refreshClaim (s : State) (src : Source) (res : WordResult) :
    (State.beginWord s src res).refreshClaim =
      s.refreshClaim := rfl
@[simp] theorem beginWord_rotation (s : State) (src : Source) (res : WordResult) :
    (State.beginWord s src res).rotation =
      s.rotation := rfl
@[simp] theorem beginWord_portPointer (s : State) (src : Source) (res : WordResult) :
    (State.beginWord s src res).portPointer =
      s.portPointer := rfl
@[simp] theorem beginWord_grant (s : State) (src : Source) (res : WordResult) :
    (State.beginWord s src res).grant =
      .word ⟨src, res, s.reserves src, false⟩ := rfl
@[simp] theorem beginWord_holds (s : State) (src : Source) (res : WordResult) :
    (State.beginWord s src res).holds =
      s.holds := rfl
@[simp] theorem beginWord_deferred (s : State) (src : Source) (res : WordResult) :
    (State.beginWord s src res).deferred =
      s.deferred := rfl
@[simp] theorem beginWord_bulk (s : State) (src : Source) (res : WordResult) :
    (State.beginWord s src res).bulk =
      s.bulk := rfl
@[simp] theorem beginWord_firstMismatch (s : State) (src : Source) (res : WordResult) :
    (State.beginWord s src res).firstMismatch =
      s.firstMismatch := rfl
@[simp] theorem beginWord_notices (s : State) (src : Source) (res : WordResult) :
    (State.beginWord s src res).notices =
      s.notices := rfl
@[simp] theorem beginWord_lost (s : State) (src : Source) (res : WordResult) :
    (State.beginWord s src res).lost =
      s.lost := rfl
@[simp] theorem beginWord_attention (s : State) (src : Source) (res : WordResult) :
    (State.beginWord s src res).attention =
      s.attention := rfl

/-! ### beginProbing -/

@[simp] theorem beginProbing_pending (s : State) : (State.beginProbing s).pending = s.pending := rfl
@[simp] theorem beginProbing_coldReset (s : State) : (State.beginProbing s).coldReset = s.coldReset := rfl
@[simp] theorem beginProbing_warmReset (s : State) : (State.beginProbing s).warmReset = s.warmReset := rfl
@[simp] theorem beginProbing_ringInCarrier (s : State) : (State.beginProbing s).ringInCarrier = s.ringInCarrier := rfl
@[simp] theorem beginProbing_ringOutCarrier (s : State) :
    (State.beginProbing s).ringOutCarrier =
      s.ringOutCarrier := rfl
@[simp] theorem beginProbing_straps (s : State) : (State.beginProbing s).straps = s.straps := rfl
@[simp] theorem beginProbing_ringState (s : State) : (State.beginProbing s).ringState = .probing := rfl
@[simp] theorem beginProbing_probeTimer (s : State) :
    (State.beginProbing s).probeTimer =
      some Config.probePeriod := rfl
@[simp] theorem beginProbing_probeClaim (s : State) : (State.beginProbing s).probeClaim = true := rfl
@[simp] theorem beginProbing_probeSerial (s : State) : (State.beginProbing s).probeSerial = s.probeSerial := rfl
@[simp] theorem beginProbing_recentProbes (s : State) : (State.beginProbing s).recentProbes = [] := rfl
@[simp] theorem beginProbing_passThrough (s : State) : (State.beginProbing s).passThrough = s.passThrough := rfl
@[simp] theorem beginProbing_transmit (s : State) : (State.beginProbing s).transmit = s.transmit := rfl
@[simp] theorem beginProbing_ringOut (s : State) : (State.beginProbing s).ringOut = s.ringOut := rfl
@[simp] theorem beginProbing_inbound (s : State) : (State.beginProbing s).inbound = s.inbound := rfl
@[simp] theorem beginProbing_strobes (s : State) : (State.beginProbing s).strobes = s.strobes := rfl
@[simp] theorem beginProbing_ports (s : State) : (State.beginProbing s).ports = s.ports := rfl
@[simp] theorem beginProbing_completions (s : State) : (State.beginProbing s).completions = s.completions := rfl
@[simp] theorem beginProbing_windows (s : State) : (State.beginProbing s).windows = s.windows := rfl
@[simp] theorem beginProbing_outstanding (s : State) : (State.beginProbing s).outstanding = s.outstanding := rfl
@[simp] theorem beginProbing_mem (s : State) : (State.beginProbing s).mem = s.mem := rfl
@[simp] theorem beginProbing_epoch (s : State) : (State.beginProbing s).epoch = s.epoch := rfl
@[simp] theorem beginProbing_refreshTimer (s : State) : (State.beginProbing s).refreshTimer = s.refreshTimer := rfl
@[simp] theorem beginProbing_refreshClaim (s : State) : (State.beginProbing s).refreshClaim = s.refreshClaim := rfl
@[simp] theorem beginProbing_rotation (s : State) : (State.beginProbing s).rotation = s.rotation := rfl
@[simp] theorem beginProbing_portPointer (s : State) : (State.beginProbing s).portPointer = s.portPointer := rfl
@[simp] theorem beginProbing_grant (s : State) : (State.beginProbing s).grant = s.grant := rfl
@[simp] theorem beginProbing_holds (s : State) : (State.beginProbing s).holds = s.holds := rfl
@[simp] theorem beginProbing_deferred (s : State) : (State.beginProbing s).deferred = s.deferred := rfl
@[simp] theorem beginProbing_bulk (s : State) : (State.beginProbing s).bulk = s.bulk := rfl
@[simp] theorem beginProbing_firstMismatch (s : State) : (State.beginProbing s).firstMismatch = s.firstMismatch := rfl
@[simp] theorem beginProbing_notices (s : State) : (State.beginProbing s).notices = s.notices := rfl
@[simp] theorem beginProbing_lost (s : State) : (State.beginProbing s).lost = s.lost := rfl
@[simp] theorem beginProbing_attention (s : State) : (State.beginProbing s).attention = s.attention := rfl

/-! ### countTimers -/

@[simp] theorem countTimers_pending (s : State) : (State.countTimers s).pending = s.pending := rfl
@[simp] theorem countTimers_coldReset (s : State) : (State.countTimers s).coldReset = s.coldReset := rfl
@[simp] theorem countTimers_warmReset (s : State) : (State.countTimers s).warmReset = s.warmReset := rfl
@[simp] theorem countTimers_ringInCarrier (s : State) : (State.countTimers s).ringInCarrier = s.ringInCarrier := rfl
@[simp] theorem countTimers_ringOutCarrier (s : State) :
    (State.countTimers s).ringOutCarrier =
      s.ringOutCarrier := rfl
@[simp] theorem countTimers_straps (s : State) : (State.countTimers s).straps = s.straps := rfl
@[simp] theorem countTimers_ringState (s : State) : (State.countTimers s).ringState = s.ringState := rfl
@[simp] theorem countTimers_probeTimer (s : State) : (State.countTimers s).probeTimer = countDown s.probeTimer := rfl
@[simp] theorem countTimers_probeClaim (s : State) : (State.countTimers s).probeClaim = s.probeClaim := rfl
@[simp] theorem countTimers_probeSerial (s : State) : (State.countTimers s).probeSerial = s.probeSerial := rfl
@[simp] theorem countTimers_recentProbes (s : State) : (State.countTimers s).recentProbes = s.recentProbes := rfl
@[simp] theorem countTimers_passThrough (s : State) : (State.countTimers s).passThrough = s.passThrough := rfl
@[simp] theorem countTimers_transmit (s : State) : (State.countTimers s).transmit = s.transmit := rfl
@[simp] theorem countTimers_ringOut (s : State) : (State.countTimers s).ringOut = s.ringOut := rfl
@[simp] theorem countTimers_inbound (s : State) : (State.countTimers s).inbound = s.inbound := rfl
@[simp] theorem countTimers_strobes (s : State) : (State.countTimers s).strobes = s.strobes := rfl
@[simp] theorem countTimers_ports (s : State) : (State.countTimers s).ports = s.ports := rfl
@[simp] theorem countTimers_completions (s : State) : (State.countTimers s).completions = s.completions := rfl
@[simp] theorem countTimers_windows (s : State) : (State.countTimers s).windows = s.windows := rfl
@[simp] theorem countTimers_outstanding (s : State) :
    (State.countTimers s).outstanding =
      s.outstanding.map (fun e => e.map countEntry) := rfl
@[simp] theorem countTimers_mem (s : State) : (State.countTimers s).mem = s.mem := rfl
@[simp] theorem countTimers_epoch (s : State) : (State.countTimers s).epoch = s.epoch := rfl
@[simp] theorem countTimers_refreshTimer (s : State) :
    (State.countTimers s).refreshTimer =
      countDown s.refreshTimer := rfl
@[simp] theorem countTimers_refreshClaim (s : State) : (State.countTimers s).refreshClaim = s.refreshClaim := rfl
@[simp] theorem countTimers_rotation (s : State) : (State.countTimers s).rotation = s.rotation := rfl
@[simp] theorem countTimers_portPointer (s : State) : (State.countTimers s).portPointer = s.portPointer := rfl
@[simp] theorem countTimers_grant (s : State) : (State.countTimers s).grant = s.grant := rfl
@[simp] theorem countTimers_holds (s : State) :
    (State.countTimers s).holds =
      s.holds.map (fun h => h.map countHold) := rfl
@[simp] theorem countTimers_deferred (s : State) : (State.countTimers s).deferred = s.deferred := rfl
@[simp] theorem countTimers_bulk (s : State) : (State.countTimers s).bulk = s.bulk := rfl
@[simp] theorem countTimers_firstMismatch (s : State) : (State.countTimers s).firstMismatch = s.firstMismatch := rfl
@[simp] theorem countTimers_notices (s : State) : (State.countTimers s).notices = s.notices := rfl
@[simp] theorem countTimers_lost (s : State) : (State.countTimers s).lost = s.lost := rfl
@[simp] theorem countTimers_attention (s : State) : (State.countTimers s).attention = s.attention := rfl

/-! ### clearWorking -/

@[simp] theorem clearWorking_pending (s : State) : (State.clearWorking s).pending = s.pending := rfl
@[simp] theorem clearWorking_coldReset (s : State) : (State.clearWorking s).coldReset = s.coldReset := rfl
@[simp] theorem clearWorking_warmReset (s : State) : (State.clearWorking s).warmReset = s.warmReset := rfl
@[simp] theorem clearWorking_ringInCarrier (s : State) : (State.clearWorking s).ringInCarrier = s.ringInCarrier := rfl
@[simp] theorem clearWorking_ringOutCarrier (s : State) : (State.clearWorking s).ringOutCarrier = false := rfl
@[simp] theorem clearWorking_straps (s : State) : (State.clearWorking s).straps = s.straps := rfl
@[simp] theorem clearWorking_ringState (s : State) : (State.clearWorking s).ringState = .offline := rfl
@[simp] theorem clearWorking_probeTimer (s : State) : (State.clearWorking s).probeTimer = none := rfl
@[simp] theorem clearWorking_probeClaim (s : State) : (State.clearWorking s).probeClaim = false := rfl
@[simp] theorem clearWorking_probeSerial (s : State) : (State.clearWorking s).probeSerial = s.probeSerial := rfl
@[simp] theorem clearWorking_recentProbes (s : State) : (State.clearWorking s).recentProbes = [] := rfl
@[simp] theorem clearWorking_passThrough (s : State) : (State.clearWorking s).passThrough = [] := rfl
@[simp] theorem clearWorking_transmit (s : State) : (State.clearWorking s).transmit = [] := rfl
@[simp] theorem clearWorking_ringOut (s : State) : (State.clearWorking s).ringOut = .idle := rfl
@[simp] theorem clearWorking_inbound (s : State) : (State.clearWorking s).inbound = [] := rfl
@[simp] theorem clearWorking_strobes (s : State) :
    (State.clearWorking s).strobes =
      portMap Strobe.again s.strobes := rfl
@[simp] theorem clearWorking_ports (s : State) : (State.clearWorking s).ports = ⟨.idle, .idle, .idle, .idle⟩ := rfl
@[simp] theorem clearWorking_completions (s : State) : (State.clearWorking s).completions = ⟨[], [], [], []⟩ := rfl
@[simp] theorem clearWorking_windows (s : State) :
    (State.clearWorking s).windows =
      Vector.replicate 32 Window.empty := rfl
@[simp] theorem clearWorking_outstanding (s : State) :
    (State.clearWorking s).outstanding =
      Vector.replicate 16 none := rfl
@[simp] theorem clearWorking_mem (s : State) : (State.clearWorking s).mem = s.mem := rfl
@[simp] theorem clearWorking_epoch (s : State) : (State.clearWorking s).epoch = s.epoch := rfl
@[simp] theorem clearWorking_refreshTimer (s : State) : (State.clearWorking s).refreshTimer = s.refreshTimer := rfl
@[simp] theorem clearWorking_refreshClaim (s : State) : (State.clearWorking s).refreshClaim = s.refreshClaim := rfl
@[simp] theorem clearWorking_rotation (s : State) : (State.clearWorking s).rotation = .remote := rfl
@[simp] theorem clearWorking_portPointer (s : State) : (State.clearWorking s).portPointer = .p := rfl
@[simp] theorem clearWorking_grant (s : State) : (State.clearWorking s).grant = s.grant := rfl
@[simp] theorem clearWorking_holds (s : State) : (State.clearWorking s).holds = Vector.replicate 6 none := rfl
@[simp] theorem clearWorking_deferred (s : State) : (State.clearWorking s).deferred = [] := rfl
@[simp] theorem clearWorking_bulk (s : State) : (State.clearWorking s).bulk = none := rfl
@[simp] theorem clearWorking_firstMismatch (s : State) : (State.clearWorking s).firstMismatch = none := rfl
@[simp] theorem clearWorking_notices (s : State) : (State.clearWorking s).notices = [] := rfl
@[simp] theorem clearWorking_lost (s : State) : (State.clearWorking s).lost = false := rfl
@[simp] theorem clearWorking_attention (s : State) : (State.clearWorking s).attention = false := rfl

end Sys2Proof.Machine
end

