-- ==== Sys2Proof/Laws/Tables.lean ====
section
/-! SUPPORT. Reading back what was set: ports, entries, slots, the bank. -/

namespace Sys2Proof.Machine

/-! ### Ports -/

@[simp] theorem portGet_set_self {α : Type} (x : PerPort α) (q : Port) (v : α) : portGet (portSet x q v) q = v := by
  cases q <;> rfl

theorem portGet_set_ne {α : Type} (x : PerPort α) {q r : Port} (v : α) (h : r ≠ q) :
    portGet (portSet x q v) r = portGet x r := by
  cases q <;> cases r <;> first | rfl | exact absurd rfl h

theorem portGet_set {α : Type} (x : PerPort α) (q r : Port) (v : α) :
    portGet (portSet x q v) r = if r = q then v else portGet x r := by
  cases q <;> cases r <;> rfl

/-- A state with other ports, read at one of them. -/
theorem port_of_ports {s t : State} (h : t.ports = s.ports) (q : Port) : t.port q = s.port q := by
  simp [State.port, h]

theorem port_setPort (s : State) (q r : Port) (st : PortState) :
    (s.setPort q st).port r = if r = q then st else s.port r := by
  simp [State.port, portGet_set]

theorem port_complete (s : State) (q r : Port) (c : Completion) :
    (s.complete q c).port r = if r = q then .idle else s.port r := by
  simp [State.port, portGet_set]

theorem mem_portsFrom (a b : Port) : b ∈ portsFrom a := by cases a <;> cases b <;> decide

/-! ### Outstanding entries -/

theorem mem_allTags (t : Tag) : t ∈ allTags := by revert t; decide

theorem entry_of_outstanding {s t : State} (h : t.outstanding = s.outstanding) (u : Tag) : t.entry u = s.entry u := by
  simp [State.entry, h]

theorem entry_setEntry (s : State) (t u : Tag) (e : Option Entry) :
    (s.setEntry t e).entry u = if u = t then e else s.entry u := by
  simp only [State.entry, setEntry_outstanding, Vector.get_eq_getElem, Vector.getElem_set]
  by_cases h : u = t
  · subst h; simp
  · have : t.toNat ≠ u.toNat := fun e => h (BitVec.eq_of_toNat_eq e.symm)
    simp [h, this]

theorem entry_replicate (s : State) (h : s.outstanding = Vector.replicate 16 none) (u : Tag) : s.entry u = none := by
  simp [State.entry, h]

/-! ### Slots -/

theorem mem_allSlots (i : Slot) : i ∈ allSlots := by revert i; decide

theorem slot_of_holds {s t : State} (h : t.holds = s.holds) (i : Slot) : t.slot i = s.slot i := by
  simp [State.slot, h]

theorem slot_set (s t : State) (i j : Slot) (h : Option Hold) (e : t.holds = s.holds.set i.val h i.isLt) :
    t.slot j = if j = i then h else s.slot j := by
  simp only [State.slot, e, Vector.get_eq_getElem, Vector.getElem_set]
  by_cases k : j = i
  · subst k; simp
  · have : i.val ≠ j.val := fun e => k (Fin.ext e.symm)
    simp [k, this]

theorem slot_setSlot (s : State) (i j : Slot) (h : Option Hold) :
    (s.setSlot i h).slot j = if j = i then h else s.slot j := slot_set s _ i j h rfl

theorem slot_endHold (s : State) (i j : Slot) : (s.endHold i).slot j = if j = i then none else s.slot j :=
  slot_set s _ i j none rfl

theorem slot_stopHold (s : State) (i j : Slot) :
    (s.stopHold i).slot j =
      if j = i then (s.slot i).map (fun h => { h with stopped := true }) else s.slot j :=
  slot_set s _ i j _ rfl

theorem slot_replicate (s : State) (h : s.holds = Vector.replicate 6 none) (i : Slot) : s.slot i = none := by
  simp [State.slot, h]

/-- The hold on a word is one of its slots, and is on that word. -/
theorem holdOn_some {s : State} {page : Page} {offset : Offset} {i : Slot} {h : Hold}
    (e : s.holdOn page offset = some (i, h)) : s.slot i = some h ∧ h.page = page ∧ h.offset = offset := by
  obtain ⟨j, _, hj⟩ := List.exists_of_findSome?_eq_some e
  cases hs : s.slot j with
  | none => simp [hs] at hj
  | some k =>
    simp only [hs] at hj
    split at hj
    · rename_i hc
      simp only [Option.some.injEq, Prod.mk.injEq] at hj
      obtain ⟨rfl, rfl⟩ := hj
      simp only [Bool.and_eq_true, decide_eq_true_eq] at hc
      exact ⟨hs, hc.1, hc.2⟩
    · exact absurd hj (by simp)

/-- No slot holds a word that is not held. -/
theorem holdOn_none {s : State} {page : Page} {offset : Offset} :
    s.holdOn page offset = none ↔ ∀ i h, s.slot i = some h → ¬(h.page = page ∧ h.offset = offset) := by
  simp only [State.holdOn, List.findSome?_eq_none_iff]
  constructor
  · intro e i h hs
    have := e i (mem_allSlots i)
    simp only [hs] at this
    split at this
    · exact absurd this (by simp)
    · rename_i hc
      simpa using hc
  · intro e i _
    cases hs : s.slot i with
    | none => rfl
    | some h => simp [e i h hs]

/-- The lowest empty slot is empty. -/
theorem emptySlot_some {s : State} {i : Slot} (h : s.emptySlot = some i) : s.slot i = none := by
  have := List.find?_some h
  simpa using this

/-- Two states with the same slots find the same holds. -/
theorem holdOn_of_holds {s t : State} (h : t.holds = s.holds) (page : Page) (offset : Offset) :
    t.holdOn page offset = s.holdOn page offset := by
  simp [State.holdOn, State.slot, h]

/-! ### The bank -/

/-- A word read back after a word was stored. -/
theorem lookup_write (m : Memory) (a b : Nat) (w : StoredWord) :
    Memory.lookup (Memory.write m a w) b = if b = a then some w else Memory.lookup m b := by
  induction m with
  | nil => simp [Memory.write, Memory.lookup, eq_comm]
  | cons x m ih =>
    obtain ⟨c, v⟩ := x
    simp only [Memory.write]
    split
    · simp only [Memory.lookup]
      by_cases h : b = a
      · simp [h]
      · simp [h, Ne.symm h]
    · split
      · rename_i _ h
        subst h
        simp only [Memory.lookup]
        by_cases h : b = a
        · simp [h]
        · simp [h, Ne.symm h]
      · rename_i h1 h2
        simp only [Memory.lookup, ih]
        by_cases h : c = b
        · subst h; simp [Ne.symm h2]
        · simp [h]

/-- Every address of a canonical list is above a bound below its first one. -/
theorem wf_cons (a : Nat) (w : StoredWord) (m : Memory) :
    Memory.wf ((a, w) :: m) = true ↔ (∀ x ∈ m.head?, a < x.1) ∧ Memory.wf m = true := by
  cases m with
  | nil => simp [Memory.wf]
  | cons x m => simp [Memory.wf]

/-- Storing a word keeps the canonical form. -/
theorem wf_write (m : Memory) (a : Nat) (w : StoredWord) (h : Memory.wf m = true) :
    Memory.wf (Memory.write m a w) = true := by
  induction m with
  | nil => rfl
  | cons x m ih =>
    obtain ⟨b, v⟩ := x
    rw [wf_cons] at h
    simp only [Memory.write]
    split
    · rename_i hlt
      simp only [Memory.wf, hlt, decide_true, Bool.true_and]
      exact (wf_cons _ _ _).2 h
    · split
      · rename_i _ he
        subst he
        exact (wf_cons _ _ _).2 h
      · rename_i h1 h2
        rw [wf_cons]
        refine ⟨?_, ih h.2⟩
        cases m with
        | nil => simp [Memory.write]; omega
        | cons y m =>
          obtain ⟨c, u⟩ := y
          have hc : b < c := by simpa using h.1
          simp only [Memory.write]
          split
          · simp; omega
          · split
            · simp; omega
            · simp [hc]

/-- Reset's bank is in the canonical form. -/
theorem wf_reset : Memory.wf State.reset.mem = true := rfl

/-- The bank after the end of a grant, word by word. -/
theorem lookup_writeDue (s : State) (a b : Nat) (w : Option StoredWord) :
    Memory.lookup (s.writeDue a w).mem b =
      if b = a then w.or (Memory.lookup s.mem a) else Memory.lookup s.mem b := by
  cases w with
  | none => by_cases h : b = a <;> simp [h]
  | some w => simp [lookup_write]

/-- The end of a grant keeps the canonical form. -/
theorem wf_writeDue (s : State) (a : Nat) (w : Option StoredWord) (h : Memory.wf s.mem = true) :
    Memory.wf (s.writeDue a w).mem = true := by
  cases w with
  | none => exact h
  | some w => exact wf_write _ _ _ h

/-- A cold reset that cuts a grant short keeps the canonical form. -/
theorem wf_cutShort (s : State) (h : Memory.wf s.mem = true) : Memory.wf s.cutShort = true := by
  unfold State.cutShort
  split
  · exact h
  · exact wf_write _ _ _ h

/-- Two words of the bank have one address only if they are one word. -/
theorem wordAddress_injective {p q : Page} {a b : Offset} (h : wordAddress p a = wordAddress q b) : p = q ∧ a = b := by
  have ha := a.isLt
  have hb := b.isLt
  simp only [wordAddress, Config.pageWords] at h
  constructor
  · apply BitVec.eq_of_toNat_eq; omega
  · apply BitVec.eq_of_toNat_eq; omega

end Sys2Proof.Machine
end

