-- ==== Sys2Proof/Laws/Ops.lean ====
section
/-! SUPPORT. For each operation that meanings share, what it leaves as it was. -/

namespace Sys2Proof.Machine

/-- A part of the state that no step of a fold touches is left by the fold. -/
theorem foldl_keeps {σ α β : Type} (f : σ → α → σ) (part : σ → β) (h : ∀ s a, part (f s a) = part s) (l : List α)
    (s : σ) : part (l.foldl f s) = part s := by
  induction l generalizing s with
  | nil => rfl
  | cons a l ih => rw [List.foldl_cons, ih, h]

/-- A law that each step of a fold keeps holds after the fold. -/
theorem foldl_law {σ α : Type} (f : σ → α → σ) (law : σ → Prop) (h : ∀ s a, law s → law (f s a)) (l : List α)
    (s : σ) (hs : law s) : law (l.foldl f s) := by
  induction l generalizing s with
  | nil => exact hs
  | cons a l ih => exact ih _ (h s a hs)

/-- A frame handed to the transmit queue changes the queue and ring-out alone (R24). -/
@[simp] theorem handFrame_keeps (s : State) (f : Frame) (r : Bool) :
    (State.handFrame s f r).pending = s.pending
    ∧ (State.handFrame s f r).coldReset = s.coldReset
    ∧ (State.handFrame s f r).warmReset = s.warmReset
    ∧ (State.handFrame s f r).ringInCarrier = s.ringInCarrier
    ∧ (State.handFrame s f r).ringOutCarrier = s.ringOutCarrier
    ∧ (State.handFrame s f r).straps = s.straps
    ∧ (State.handFrame s f r).ringState = s.ringState
    ∧ (State.handFrame s f r).probeTimer = s.probeTimer
    ∧ (State.handFrame s f r).probeClaim = s.probeClaim
    ∧ (State.handFrame s f r).probeSerial = s.probeSerial
    ∧ (State.handFrame s f r).recentProbes = s.recentProbes
    ∧ (State.handFrame s f r).passThrough = s.passThrough
    ∧ (State.handFrame s f r).inbound = s.inbound
    ∧ (State.handFrame s f r).strobes = s.strobes
    ∧ (State.handFrame s f r).ports = s.ports
    ∧ (State.handFrame s f r).completions = s.completions
    ∧ (State.handFrame s f r).windows = s.windows
    ∧ (State.handFrame s f r).outstanding = s.outstanding
    ∧ (State.handFrame s f r).mem = s.mem
    ∧ (State.handFrame s f r).epoch = s.epoch
    ∧ (State.handFrame s f r).refreshTimer = s.refreshTimer
    ∧ (State.handFrame s f r).refreshClaim = s.refreshClaim
    ∧ (State.handFrame s f r).rotation = s.rotation
    ∧ (State.handFrame s f r).portPointer = s.portPointer
    ∧ (State.handFrame s f r).grant = s.grant
    ∧ (State.handFrame s f r).holds = s.holds
    ∧ (State.handFrame s f r).deferred = s.deferred
    ∧ (State.handFrame s f r).bulk = s.bulk
    ∧ (State.handFrame s f r).firstMismatch = s.firstMismatch
    ∧ (State.handFrame s f r).notices = s.notices
    ∧ (State.handFrame s f r).lost = s.lost
    ∧ (State.handFrame s f r).attention = s.attention := by
  unfold State.handFrame
  repeat' split
  all_goals simp

/-- A forwarded frame changes the buffer and ring-out, or drops with a notice (R19). -/
@[simp] theorem placePass_keeps (s : State) (f : Frame) :
    (State.placePass s f).pending = s.pending
    ∧ (State.placePass s f).coldReset = s.coldReset
    ∧ (State.placePass s f).warmReset = s.warmReset
    ∧ (State.placePass s f).ringInCarrier = s.ringInCarrier
    ∧ (State.placePass s f).ringOutCarrier = s.ringOutCarrier
    ∧ (State.placePass s f).straps = s.straps
    ∧ (State.placePass s f).ringState = s.ringState
    ∧ (State.placePass s f).probeTimer = s.probeTimer
    ∧ (State.placePass s f).probeClaim = s.probeClaim
    ∧ (State.placePass s f).probeSerial = s.probeSerial
    ∧ (State.placePass s f).recentProbes = s.recentProbes
    ∧ (State.placePass s f).transmit = s.transmit
    ∧ (State.placePass s f).inbound = s.inbound
    ∧ (State.placePass s f).strobes = s.strobes
    ∧ (State.placePass s f).ports = s.ports
    ∧ (State.placePass s f).completions = s.completions
    ∧ (State.placePass s f).windows = s.windows
    ∧ (State.placePass s f).outstanding = s.outstanding
    ∧ (State.placePass s f).mem = s.mem
    ∧ (State.placePass s f).epoch = s.epoch
    ∧ (State.placePass s f).refreshTimer = s.refreshTimer
    ∧ (State.placePass s f).refreshClaim = s.refreshClaim
    ∧ (State.placePass s f).rotation = s.rotation
    ∧ (State.placePass s f).portPointer = s.portPointer
    ∧ (State.placePass s f).grant = s.grant
    ∧ (State.placePass s f).holds = s.holds
    ∧ (State.placePass s f).deferred = s.deferred
    ∧ (State.placePass s f).bulk = s.bulk
    ∧ (State.placePass s f).firstMismatch = s.firstMismatch := by
  unfold State.placePass
  repeat' split
  all_goals simp

/-- The end of an entry is a completion or a notice (R68, R78). -/
@[simp] theorem reportEnd_keeps (s : State) (t : Tag) (e : Entry) (c : Completion) :
    (State.reportEnd s t e c).pending = s.pending
    ∧ (State.reportEnd s t e c).coldReset = s.coldReset
    ∧ (State.reportEnd s t e c).warmReset = s.warmReset
    ∧ (State.reportEnd s t e c).ringInCarrier = s.ringInCarrier
    ∧ (State.reportEnd s t e c).ringOutCarrier = s.ringOutCarrier
    ∧ (State.reportEnd s t e c).straps = s.straps
    ∧ (State.reportEnd s t e c).ringState = s.ringState
    ∧ (State.reportEnd s t e c).probeTimer = s.probeTimer
    ∧ (State.reportEnd s t e c).probeClaim = s.probeClaim
    ∧ (State.reportEnd s t e c).probeSerial = s.probeSerial
    ∧ (State.reportEnd s t e c).recentProbes = s.recentProbes
    ∧ (State.reportEnd s t e c).passThrough = s.passThrough
    ∧ (State.reportEnd s t e c).transmit = s.transmit
    ∧ (State.reportEnd s t e c).ringOut = s.ringOut
    ∧ (State.reportEnd s t e c).inbound = s.inbound
    ∧ (State.reportEnd s t e c).strobes = s.strobes
    ∧ (State.reportEnd s t e c).windows = s.windows
    ∧ (State.reportEnd s t e c).outstanding = s.outstanding
    ∧ (State.reportEnd s t e c).mem = s.mem
    ∧ (State.reportEnd s t e c).epoch = s.epoch
    ∧ (State.reportEnd s t e c).refreshTimer = s.refreshTimer
    ∧ (State.reportEnd s t e c).refreshClaim = s.refreshClaim
    ∧ (State.reportEnd s t e c).rotation = s.rotation
    ∧ (State.reportEnd s t e c).portPointer = s.portPointer
    ∧ (State.reportEnd s t e c).grant = s.grant
    ∧ (State.reportEnd s t e c).holds = s.holds
    ∧ (State.reportEnd s t e c).deferred = s.deferred
    ∧ (State.reportEnd s t e c).bulk = s.bulk
    ∧ (State.reportEnd s t e c).firstMismatch = s.firstMismatch := by
  unfold State.reportEnd
  repeat' split
  all_goals simp

/-- An ended entry changes the table, its port and the notices (R68). -/
@[simp] theorem endEntry_keeps (s : State) (t : Tag) (e : Entry) (c : Completion) :
    (State.endEntry s t e c).pending = s.pending
    ∧ (State.endEntry s t e c).coldReset = s.coldReset
    ∧ (State.endEntry s t e c).warmReset = s.warmReset
    ∧ (State.endEntry s t e c).ringInCarrier = s.ringInCarrier
    ∧ (State.endEntry s t e c).ringOutCarrier = s.ringOutCarrier
    ∧ (State.endEntry s t e c).straps = s.straps
    ∧ (State.endEntry s t e c).ringState = s.ringState
    ∧ (State.endEntry s t e c).probeTimer = s.probeTimer
    ∧ (State.endEntry s t e c).probeClaim = s.probeClaim
    ∧ (State.endEntry s t e c).probeSerial = s.probeSerial
    ∧ (State.endEntry s t e c).recentProbes = s.recentProbes
    ∧ (State.endEntry s t e c).passThrough = s.passThrough
    ∧ (State.endEntry s t e c).transmit = s.transmit
    ∧ (State.endEntry s t e c).ringOut = s.ringOut
    ∧ (State.endEntry s t e c).inbound = s.inbound
    ∧ (State.endEntry s t e c).strobes = s.strobes
    ∧ (State.endEntry s t e c).windows = s.windows
    ∧ (State.endEntry s t e c).mem = s.mem
    ∧ (State.endEntry s t e c).epoch = s.epoch
    ∧ (State.endEntry s t e c).refreshTimer = s.refreshTimer
    ∧ (State.endEntry s t e c).refreshClaim = s.refreshClaim
    ∧ (State.endEntry s t e c).rotation = s.rotation
    ∧ (State.endEntry s t e c).portPointer = s.portPointer
    ∧ (State.endEntry s t e c).grant = s.grant
    ∧ (State.endEntry s t e c).holds = s.holds
    ∧ (State.endEntry s t e c).deferred = s.deferred
    ∧ (State.endEntry s t e c).bulk = s.bulk
    ∧ (State.endEntry s t e c).firstMismatch = s.firstMismatch := by
  unfold State.endEntry
  simp

/-- One entry at an exit from ONLINE (R79). -/
@[simp] theorem endIfWaiting_keeps (s : State) (t : Tag) :
    (State.endIfWaiting s t).pending = s.pending
    ∧ (State.endIfWaiting s t).coldReset = s.coldReset
    ∧ (State.endIfWaiting s t).warmReset = s.warmReset
    ∧ (State.endIfWaiting s t).ringInCarrier = s.ringInCarrier
    ∧ (State.endIfWaiting s t).ringOutCarrier = s.ringOutCarrier
    ∧ (State.endIfWaiting s t).straps = s.straps
    ∧ (State.endIfWaiting s t).ringState = s.ringState
    ∧ (State.endIfWaiting s t).probeTimer = s.probeTimer
    ∧ (State.endIfWaiting s t).probeClaim = s.probeClaim
    ∧ (State.endIfWaiting s t).probeSerial = s.probeSerial
    ∧ (State.endIfWaiting s t).recentProbes = s.recentProbes
    ∧ (State.endIfWaiting s t).passThrough = s.passThrough
    ∧ (State.endIfWaiting s t).transmit = s.transmit
    ∧ (State.endIfWaiting s t).ringOut = s.ringOut
    ∧ (State.endIfWaiting s t).inbound = s.inbound
    ∧ (State.endIfWaiting s t).strobes = s.strobes
    ∧ (State.endIfWaiting s t).windows = s.windows
    ∧ (State.endIfWaiting s t).mem = s.mem
    ∧ (State.endIfWaiting s t).epoch = s.epoch
    ∧ (State.endIfWaiting s t).refreshTimer = s.refreshTimer
    ∧ (State.endIfWaiting s t).refreshClaim = s.refreshClaim
    ∧ (State.endIfWaiting s t).rotation = s.rotation
    ∧ (State.endIfWaiting s t).portPointer = s.portPointer
    ∧ (State.endIfWaiting s t).grant = s.grant
    ∧ (State.endIfWaiting s t).holds = s.holds
    ∧ (State.endIfWaiting s t).deferred = s.deferred
    ∧ (State.endIfWaiting s t).bulk = s.bulk
    ∧ (State.endIfWaiting s t).firstMismatch = s.firstMismatch := by
  unfold State.endIfWaiting
  repeat' split
  all_goals simp

/-- One port at an exit from ONLINE (R55). -/
@[simp] theorem endToSend_keeps (s : State) (q : Port) :
    (State.endToSend s q).pending = s.pending
    ∧ (State.endToSend s q).coldReset = s.coldReset
    ∧ (State.endToSend s q).warmReset = s.warmReset
    ∧ (State.endToSend s q).ringInCarrier = s.ringInCarrier
    ∧ (State.endToSend s q).ringOutCarrier = s.ringOutCarrier
    ∧ (State.endToSend s q).straps = s.straps
    ∧ (State.endToSend s q).ringState = s.ringState
    ∧ (State.endToSend s q).probeTimer = s.probeTimer
    ∧ (State.endToSend s q).probeClaim = s.probeClaim
    ∧ (State.endToSend s q).probeSerial = s.probeSerial
    ∧ (State.endToSend s q).recentProbes = s.recentProbes
    ∧ (State.endToSend s q).passThrough = s.passThrough
    ∧ (State.endToSend s q).transmit = s.transmit
    ∧ (State.endToSend s q).ringOut = s.ringOut
    ∧ (State.endToSend s q).inbound = s.inbound
    ∧ (State.endToSend s q).strobes = s.strobes
    ∧ (State.endToSend s q).windows = s.windows
    ∧ (State.endToSend s q).outstanding = s.outstanding
    ∧ (State.endToSend s q).mem = s.mem
    ∧ (State.endToSend s q).epoch = s.epoch
    ∧ (State.endToSend s q).refreshTimer = s.refreshTimer
    ∧ (State.endToSend s q).refreshClaim = s.refreshClaim
    ∧ (State.endToSend s q).rotation = s.rotation
    ∧ (State.endToSend s q).portPointer = s.portPointer
    ∧ (State.endToSend s q).grant = s.grant
    ∧ (State.endToSend s q).holds = s.holds
    ∧ (State.endToSend s q).deferred = s.deferred
    ∧ (State.endToSend s q).bulk = s.bulk
    ∧ (State.endToSend s q).firstMismatch = s.firstMismatch
    ∧ (State.endToSend s q).notices = s.notices
    ∧ (State.endToSend s q).lost = s.lost
    ∧ (State.endToSend s q).attention = s.attention := by
  unfold State.endToSend
  repeat' split
  all_goals simp

/-- An exit from ONLINE ends entries and completes ports (R79, R55). -/
@[simp] theorem ringDown_keeps (s : State) :
    (State.ringDown s).pending = s.pending
    ∧ (State.ringDown s).coldReset = s.coldReset
    ∧ (State.ringDown s).warmReset = s.warmReset
    ∧ (State.ringDown s).ringInCarrier = s.ringInCarrier
    ∧ (State.ringDown s).ringOutCarrier = s.ringOutCarrier
    ∧ (State.ringDown s).straps = s.straps
    ∧ (State.ringDown s).ringState = s.ringState
    ∧ (State.ringDown s).probeTimer = s.probeTimer
    ∧ (State.ringDown s).probeClaim = s.probeClaim
    ∧ (State.ringDown s).probeSerial = s.probeSerial
    ∧ (State.ringDown s).recentProbes = s.recentProbes
    ∧ (State.ringDown s).passThrough = s.passThrough
    ∧ (State.ringDown s).transmit = s.transmit
    ∧ (State.ringDown s).ringOut = s.ringOut
    ∧ (State.ringDown s).inbound = s.inbound
    ∧ (State.ringDown s).strobes = s.strobes
    ∧ (State.ringDown s).windows = s.windows
    ∧ (State.ringDown s).mem = s.mem
    ∧ (State.ringDown s).epoch = s.epoch
    ∧ (State.ringDown s).refreshTimer = s.refreshTimer
    ∧ (State.ringDown s).refreshClaim = s.refreshClaim
    ∧ (State.ringDown s).rotation = s.rotation
    ∧ (State.ringDown s).portPointer = s.portPointer
    ∧ (State.ringDown s).grant = s.grant
    ∧ (State.ringDown s).holds = s.holds
    ∧ (State.ringDown s).deferred = s.deferred
    ∧ (State.ringDown s).bulk = s.bulk
    ∧ (State.ringDown s).firstMismatch = s.firstMismatch := 
  ⟨(foldl_keeps State.endToSend State.pending (by simp) _ _).trans (foldl_keeps State.endIfWaiting State.pending (by simp) _ _),
   (foldl_keeps State.endToSend State.coldReset (by simp) _ _).trans (foldl_keeps State.endIfWaiting State.coldReset (by simp) _ _),
   (foldl_keeps State.endToSend State.warmReset (by simp) _ _).trans (foldl_keeps State.endIfWaiting State.warmReset (by simp) _ _),
   (foldl_keeps State.endToSend State.ringInCarrier (by simp) _ _).trans (foldl_keeps State.endIfWaiting State.ringInCarrier (by simp) _ _),
   (foldl_keeps State.endToSend State.ringOutCarrier (by simp) _ _).trans (foldl_keeps State.endIfWaiting State.ringOutCarrier (by simp) _ _),
   (foldl_keeps State.endToSend State.straps (by simp) _ _).trans (foldl_keeps State.endIfWaiting State.straps (by simp) _ _),
   (foldl_keeps State.endToSend State.ringState (by simp) _ _).trans (foldl_keeps State.endIfWaiting State.ringState (by simp) _ _),
   (foldl_keeps State.endToSend State.probeTimer (by simp) _ _).trans (foldl_keeps State.endIfWaiting State.probeTimer (by simp) _ _),
   (foldl_keeps State.endToSend State.probeClaim (by simp) _ _).trans (foldl_keeps State.endIfWaiting State.probeClaim (by simp) _ _),
   (foldl_keeps State.endToSend State.probeSerial (by simp) _ _).trans (foldl_keeps State.endIfWaiting State.probeSerial (by simp) _ _),
   (foldl_keeps State.endToSend State.recentProbes (by simp) _ _).trans (foldl_keeps State.endIfWaiting State.recentProbes (by simp) _ _),
   (foldl_keeps State.endToSend State.passThrough (by simp) _ _).trans (foldl_keeps State.endIfWaiting State.passThrough (by simp) _ _),
   (foldl_keeps State.endToSend State.transmit (by simp) _ _).trans (foldl_keeps State.endIfWaiting State.transmit (by simp) _ _),
   (foldl_keeps State.endToSend State.ringOut (by simp) _ _).trans (foldl_keeps State.endIfWaiting State.ringOut (by simp) _ _),
   (foldl_keeps State.endToSend State.inbound (by simp) _ _).trans (foldl_keeps State.endIfWaiting State.inbound (by simp) _ _),
   (foldl_keeps State.endToSend State.strobes (by simp) _ _).trans (foldl_keeps State.endIfWaiting State.strobes (by simp) _ _),
   (foldl_keeps State.endToSend State.windows (by simp) _ _).trans (foldl_keeps State.endIfWaiting State.windows (by simp) _ _),
   (foldl_keeps State.endToSend State.mem (by simp) _ _).trans (foldl_keeps State.endIfWaiting State.mem (by simp) _ _),
   (foldl_keeps State.endToSend State.epoch (by simp) _ _).trans (foldl_keeps State.endIfWaiting State.epoch (by simp) _ _),
   (foldl_keeps State.endToSend State.refreshTimer (by simp) _ _).trans (foldl_keeps State.endIfWaiting State.refreshTimer (by simp) _ _),
   (foldl_keeps State.endToSend State.refreshClaim (by simp) _ _).trans (foldl_keeps State.endIfWaiting State.refreshClaim (by simp) _ _),
   (foldl_keeps State.endToSend State.rotation (by simp) _ _).trans (foldl_keeps State.endIfWaiting State.rotation (by simp) _ _),
   (foldl_keeps State.endToSend State.portPointer (by simp) _ _).trans (foldl_keeps State.endIfWaiting State.portPointer (by simp) _ _),
   (foldl_keeps State.endToSend State.grant (by simp) _ _).trans (foldl_keeps State.endIfWaiting State.grant (by simp) _ _),
   (foldl_keeps State.endToSend State.holds (by simp) _ _).trans (foldl_keeps State.endIfWaiting State.holds (by simp) _ _),
   (foldl_keeps State.endToSend State.deferred (by simp) _ _).trans (foldl_keeps State.endIfWaiting State.deferred (by simp) _ _),
   (foldl_keeps State.endToSend State.bulk (by simp) _ _).trans (foldl_keeps State.endIfWaiting State.bulk (by simp) _ _),
   (foldl_keeps State.endToSend State.firstMismatch (by simp) _ _).trans (foldl_keeps State.endIfWaiting State.firstMismatch (by simp) _ _)⟩

/-- A resend changes its entry and the transmit queue (R76). -/
@[simp] theorem resend_keeps (s : State) (t : Tag) (e : Entry) :
    (State.resend s t e).pending = s.pending
    ∧ (State.resend s t e).coldReset = s.coldReset
    ∧ (State.resend s t e).warmReset = s.warmReset
    ∧ (State.resend s t e).ringInCarrier = s.ringInCarrier
    ∧ (State.resend s t e).ringOutCarrier = s.ringOutCarrier
    ∧ (State.resend s t e).straps = s.straps
    ∧ (State.resend s t e).ringState = s.ringState
    ∧ (State.resend s t e).probeTimer = s.probeTimer
    ∧ (State.resend s t e).probeClaim = s.probeClaim
    ∧ (State.resend s t e).probeSerial = s.probeSerial
    ∧ (State.resend s t e).recentProbes = s.recentProbes
    ∧ (State.resend s t e).passThrough = s.passThrough
    ∧ (State.resend s t e).inbound = s.inbound
    ∧ (State.resend s t e).strobes = s.strobes
    ∧ (State.resend s t e).ports = s.ports
    ∧ (State.resend s t e).completions = s.completions
    ∧ (State.resend s t e).windows = s.windows
    ∧ (State.resend s t e).mem = s.mem
    ∧ (State.resend s t e).epoch = s.epoch
    ∧ (State.resend s t e).refreshTimer = s.refreshTimer
    ∧ (State.resend s t e).refreshClaim = s.refreshClaim
    ∧ (State.resend s t e).rotation = s.rotation
    ∧ (State.resend s t e).portPointer = s.portPointer
    ∧ (State.resend s t e).grant = s.grant
    ∧ (State.resend s t e).holds = s.holds
    ∧ (State.resend s t e).deferred = s.deferred
    ∧ (State.resend s t e).bulk = s.bulk
    ∧ (State.resend s t e).firstMismatch = s.firstMismatch
    ∧ (State.resend s t e).notices = s.notices
    ∧ (State.resend s t e).lost = s.lost
    ∧ (State.resend s t e).attention = s.attention := by
  unfold State.resend
  simp

/-- A send changes its entry, the transmit queue and its port (R53, R65). -/
@[simp] theorem sendRequest_keeps (s : State) (q : Port) (d : Station) (r : Request) (t : Tag) :
    (State.sendRequest s q d r t).pending = s.pending
    ∧ (State.sendRequest s q d r t).coldReset = s.coldReset
    ∧ (State.sendRequest s q d r t).warmReset = s.warmReset
    ∧ (State.sendRequest s q d r t).ringInCarrier = s.ringInCarrier
    ∧ (State.sendRequest s q d r t).ringOutCarrier = s.ringOutCarrier
    ∧ (State.sendRequest s q d r t).straps = s.straps
    ∧ (State.sendRequest s q d r t).ringState = s.ringState
    ∧ (State.sendRequest s q d r t).probeTimer = s.probeTimer
    ∧ (State.sendRequest s q d r t).probeClaim = s.probeClaim
    ∧ (State.sendRequest s q d r t).probeSerial = s.probeSerial
    ∧ (State.sendRequest s q d r t).recentProbes = s.recentProbes
    ∧ (State.sendRequest s q d r t).passThrough = s.passThrough
    ∧ (State.sendRequest s q d r t).inbound = s.inbound
    ∧ (State.sendRequest s q d r t).strobes = s.strobes
    ∧ (State.sendRequest s q d r t).windows = s.windows
    ∧ (State.sendRequest s q d r t).mem = s.mem
    ∧ (State.sendRequest s q d r t).epoch = s.epoch
    ∧ (State.sendRequest s q d r t).refreshTimer = s.refreshTimer
    ∧ (State.sendRequest s q d r t).refreshClaim = s.refreshClaim
    ∧ (State.sendRequest s q d r t).rotation = s.rotation
    ∧ (State.sendRequest s q d r t).portPointer = s.portPointer
    ∧ (State.sendRequest s q d r t).grant = s.grant
    ∧ (State.sendRequest s q d r t).holds = s.holds
    ∧ (State.sendRequest s q d r t).deferred = s.deferred
    ∧ (State.sendRequest s q d r t).bulk = s.bulk
    ∧ (State.sendRequest s q d r t).firstMismatch = s.firstMismatch
    ∧ (State.sendRequest s q d r t).notices = s.notices
    ∧ (State.sendRequest s q d r t).lost = s.lost
    ∧ (State.sendRequest s q d r t).attention = s.attention := by
  simp only [State.sendRequest]
  split <;> simp

/-- What the routing of an accepted request may change (R50 to R53). -/
@[simp] theorem route_keeps (s : State) (q : Port) (d : Station) (r : Request) :
    (State.route s q d r).pending = s.pending
    ∧ (State.route s q d r).coldReset = s.coldReset
    ∧ (State.route s q d r).warmReset = s.warmReset
    ∧ (State.route s q d r).ringInCarrier = s.ringInCarrier
    ∧ (State.route s q d r).ringOutCarrier = s.ringOutCarrier
    ∧ (State.route s q d r).straps = s.straps
    ∧ (State.route s q d r).ringState = s.ringState
    ∧ (State.route s q d r).probeTimer = s.probeTimer
    ∧ (State.route s q d r).probeClaim = s.probeClaim
    ∧ (State.route s q d r).probeSerial = s.probeSerial
    ∧ (State.route s q d r).recentProbes = s.recentProbes
    ∧ (State.route s q d r).passThrough = s.passThrough
    ∧ (State.route s q d r).inbound = s.inbound
    ∧ (State.route s q d r).strobes = s.strobes
    ∧ (State.route s q d r).windows = s.windows
    ∧ (State.route s q d r).mem = s.mem
    ∧ (State.route s q d r).epoch = s.epoch
    ∧ (State.route s q d r).refreshTimer = s.refreshTimer
    ∧ (State.route s q d r).refreshClaim = s.refreshClaim
    ∧ (State.route s q d r).rotation = s.rotation
    ∧ (State.route s q d r).portPointer = s.portPointer
    ∧ (State.route s q d r).grant = s.grant
    ∧ (State.route s q d r).holds = s.holds
    ∧ (State.route s q d r).deferred = s.deferred
    ∧ (State.route s q d r).bulk = s.bulk
    ∧ (State.route s q d r).firstMismatch = s.firstMismatch
    ∧ (State.route s q d r).notices = s.notices
    ∧ (State.route s q d r).lost = s.lost
    ∧ (State.route s q d r).attention = s.attention := by
  unfold State.route State.refuse
  repeat' split
  all_goals simp

/-- What an acceptance may change: its port, or with a send the table and the transmit queue (R43 to R53). -/
@[simp] theorem acceptMemory_keeps (s : State) (q : Port) (r : PortRequest) :
    (State.acceptMemory s q r).pending = s.pending
    ∧ (State.acceptMemory s q r).coldReset = s.coldReset
    ∧ (State.acceptMemory s q r).warmReset = s.warmReset
    ∧ (State.acceptMemory s q r).ringInCarrier = s.ringInCarrier
    ∧ (State.acceptMemory s q r).ringOutCarrier = s.ringOutCarrier
    ∧ (State.acceptMemory s q r).straps = s.straps
    ∧ (State.acceptMemory s q r).ringState = s.ringState
    ∧ (State.acceptMemory s q r).probeTimer = s.probeTimer
    ∧ (State.acceptMemory s q r).probeClaim = s.probeClaim
    ∧ (State.acceptMemory s q r).probeSerial = s.probeSerial
    ∧ (State.acceptMemory s q r).recentProbes = s.recentProbes
    ∧ (State.acceptMemory s q r).passThrough = s.passThrough
    ∧ (State.acceptMemory s q r).inbound = s.inbound
    ∧ (State.acceptMemory s q r).strobes = s.strobes
    ∧ (State.acceptMemory s q r).windows = s.windows
    ∧ (State.acceptMemory s q r).mem = s.mem
    ∧ (State.acceptMemory s q r).epoch = s.epoch
    ∧ (State.acceptMemory s q r).refreshTimer = s.refreshTimer
    ∧ (State.acceptMemory s q r).refreshClaim = s.refreshClaim
    ∧ (State.acceptMemory s q r).rotation = s.rotation
    ∧ (State.acceptMemory s q r).portPointer = s.portPointer
    ∧ (State.acceptMemory s q r).grant = s.grant
    ∧ (State.acceptMemory s q r).holds = s.holds
    ∧ (State.acceptMemory s q r).deferred = s.deferred
    ∧ (State.acceptMemory s q r).bulk = s.bulk
    ∧ (State.acceptMemory s q r).firstMismatch = s.firstMismatch
    ∧ (State.acceptMemory s q r).notices = s.notices
    ∧ (State.acceptMemory s q r).lost = s.lost
    ∧ (State.acceptMemory s q r).attention = s.attention := by
  unfold State.acceptMemory State.refuse
  split
  · simp
  simp only
  split
  · simp
  split
  · simp
  split
  · simp
  split
  · simp
  · simp

/-- What the acceptance of a control-space access may change (R171). -/
@[simp] theorem acceptControl_keeps (s : State) (r : PortRequest) :
    (State.acceptControl s r).pending = s.pending
    ∧ (State.acceptControl s r).coldReset = s.coldReset
    ∧ (State.acceptControl s r).warmReset = s.warmReset
    ∧ (State.acceptControl s r).ringInCarrier = s.ringInCarrier
    ∧ (State.acceptControl s r).ringOutCarrier = s.ringOutCarrier
    ∧ (State.acceptControl s r).straps = s.straps
    ∧ (State.acceptControl s r).ringState = s.ringState
    ∧ (State.acceptControl s r).probeTimer = s.probeTimer
    ∧ (State.acceptControl s r).probeClaim = s.probeClaim
    ∧ (State.acceptControl s r).probeSerial = s.probeSerial
    ∧ (State.acceptControl s r).recentProbes = s.recentProbes
    ∧ (State.acceptControl s r).passThrough = s.passThrough
    ∧ (State.acceptControl s r).transmit = s.transmit
    ∧ (State.acceptControl s r).ringOut = s.ringOut
    ∧ (State.acceptControl s r).inbound = s.inbound
    ∧ (State.acceptControl s r).strobes = s.strobes
    ∧ (State.acceptControl s r).windows = s.windows
    ∧ (State.acceptControl s r).outstanding = s.outstanding
    ∧ (State.acceptControl s r).mem = s.mem
    ∧ (State.acceptControl s r).epoch = s.epoch
    ∧ (State.acceptControl s r).refreshTimer = s.refreshTimer
    ∧ (State.acceptControl s r).refreshClaim = s.refreshClaim
    ∧ (State.acceptControl s r).rotation = s.rotation
    ∧ (State.acceptControl s r).portPointer = s.portPointer
    ∧ (State.acceptControl s r).grant = s.grant
    ∧ (State.acceptControl s r).holds = s.holds
    ∧ (State.acceptControl s r).deferred = s.deferred
    ∧ (State.acceptControl s r).bulk = s.bulk
    ∧ (State.acceptControl s r).firstMismatch = s.firstMismatch
    ∧ (State.acceptControl s r).notices = s.notices
    ∧ (State.acceptControl s r).lost = s.lost
    ∧ (State.acceptControl s r).attention = s.attention := by
  unfold State.acceptControl State.refuse State.controlRead State.controlWrite
  simp only
  repeat' split
  all_goals simp

/-- What an acceptance may change, with its strobe (R41). -/
@[simp] theorem accept_keeps (s : State) (q : Port) (r : PortRequest) :
    (State.accept s q r).pending = s.pending
    ∧ (State.accept s q r).coldReset = s.coldReset
    ∧ (State.accept s q r).warmReset = s.warmReset
    ∧ (State.accept s q r).ringInCarrier = s.ringInCarrier
    ∧ (State.accept s q r).ringOutCarrier = s.ringOutCarrier
    ∧ (State.accept s q r).straps = s.straps
    ∧ (State.accept s q r).ringState = s.ringState
    ∧ (State.accept s q r).probeTimer = s.probeTimer
    ∧ (State.accept s q r).probeClaim = s.probeClaim
    ∧ (State.accept s q r).probeSerial = s.probeSerial
    ∧ (State.accept s q r).recentProbes = s.recentProbes
    ∧ (State.accept s q r).passThrough = s.passThrough
    ∧ (State.accept s q r).inbound = s.inbound
    ∧ (State.accept s q r).windows = s.windows
    ∧ (State.accept s q r).mem = s.mem
    ∧ (State.accept s q r).epoch = s.epoch
    ∧ (State.accept s q r).refreshTimer = s.refreshTimer
    ∧ (State.accept s q r).refreshClaim = s.refreshClaim
    ∧ (State.accept s q r).rotation = s.rotation
    ∧ (State.accept s q r).portPointer = s.portPointer
    ∧ (State.accept s q r).grant = s.grant
    ∧ (State.accept s q r).holds = s.holds
    ∧ (State.accept s q r).deferred = s.deferred
    ∧ (State.accept s q r).bulk = s.bulk
    ∧ (State.accept s q r).firstMismatch = s.firstMismatch
    ∧ (State.accept s q r).notices = s.notices
    ∧ (State.accept s q r).lost = s.lost
    ∧ (State.accept s q r).attention = s.attention := by
  simp only [State.accept]
  split <;> simp

/-- What the acceptance of a waiting request may change (R41). -/
@[simp] theorem acceptWaiting_keeps (s : State) (q : Port) :
    (State.acceptWaiting s q).pending = s.pending
    ∧ (State.acceptWaiting s q).coldReset = s.coldReset
    ∧ (State.acceptWaiting s q).warmReset = s.warmReset
    ∧ (State.acceptWaiting s q).ringInCarrier = s.ringInCarrier
    ∧ (State.acceptWaiting s q).ringOutCarrier = s.ringOutCarrier
    ∧ (State.acceptWaiting s q).straps = s.straps
    ∧ (State.acceptWaiting s q).ringState = s.ringState
    ∧ (State.acceptWaiting s q).probeTimer = s.probeTimer
    ∧ (State.acceptWaiting s q).probeClaim = s.probeClaim
    ∧ (State.acceptWaiting s q).probeSerial = s.probeSerial
    ∧ (State.acceptWaiting s q).recentProbes = s.recentProbes
    ∧ (State.acceptWaiting s q).passThrough = s.passThrough
    ∧ (State.acceptWaiting s q).inbound = s.inbound
    ∧ (State.acceptWaiting s q).windows = s.windows
    ∧ (State.acceptWaiting s q).mem = s.mem
    ∧ (State.acceptWaiting s q).epoch = s.epoch
    ∧ (State.acceptWaiting s q).refreshTimer = s.refreshTimer
    ∧ (State.acceptWaiting s q).refreshClaim = s.refreshClaim
    ∧ (State.acceptWaiting s q).rotation = s.rotation
    ∧ (State.acceptWaiting s q).portPointer = s.portPointer
    ∧ (State.acceptWaiting s q).grant = s.grant
    ∧ (State.acceptWaiting s q).holds = s.holds
    ∧ (State.acceptWaiting s q).deferred = s.deferred
    ∧ (State.acceptWaiting s q).bulk = s.bulk
    ∧ (State.acceptWaiting s q).firstMismatch = s.firstMismatch
    ∧ (State.acceptWaiting s q).notices = s.notices
    ∧ (State.acceptWaiting s q).lost = s.lost
    ∧ (State.acceptWaiting s q).attention = s.attention := by
  unfold State.acceptWaiting
  repeat' split
  all_goals simp

/-- What the acceptances of waiting requests may change (R41). -/
@[simp] theorem acceptAll_keeps (s : State) :
    (State.acceptAll s).pending = s.pending
    ∧ (State.acceptAll s).coldReset = s.coldReset
    ∧ (State.acceptAll s).warmReset = s.warmReset
    ∧ (State.acceptAll s).ringInCarrier = s.ringInCarrier
    ∧ (State.acceptAll s).ringOutCarrier = s.ringOutCarrier
    ∧ (State.acceptAll s).straps = s.straps
    ∧ (State.acceptAll s).ringState = s.ringState
    ∧ (State.acceptAll s).probeTimer = s.probeTimer
    ∧ (State.acceptAll s).probeClaim = s.probeClaim
    ∧ (State.acceptAll s).probeSerial = s.probeSerial
    ∧ (State.acceptAll s).recentProbes = s.recentProbes
    ∧ (State.acceptAll s).passThrough = s.passThrough
    ∧ (State.acceptAll s).inbound = s.inbound
    ∧ (State.acceptAll s).windows = s.windows
    ∧ (State.acceptAll s).mem = s.mem
    ∧ (State.acceptAll s).epoch = s.epoch
    ∧ (State.acceptAll s).refreshTimer = s.refreshTimer
    ∧ (State.acceptAll s).refreshClaim = s.refreshClaim
    ∧ (State.acceptAll s).rotation = s.rotation
    ∧ (State.acceptAll s).portPointer = s.portPointer
    ∧ (State.acceptAll s).grant = s.grant
    ∧ (State.acceptAll s).holds = s.holds
    ∧ (State.acceptAll s).deferred = s.deferred
    ∧ (State.acceptAll s).bulk = s.bulk
    ∧ (State.acceptAll s).firstMismatch = s.firstMismatch
    ∧ (State.acceptAll s).notices = s.notices
    ∧ (State.acceptAll s).lost = s.lost
    ∧ (State.acceptAll s).attention = s.attention := 
  ⟨foldl_keeps State.acceptWaiting State.pending (by simp) _ _,
   foldl_keeps State.acceptWaiting State.coldReset (by simp) _ _,
   foldl_keeps State.acceptWaiting State.warmReset (by simp) _ _,
   foldl_keeps State.acceptWaiting State.ringInCarrier (by simp) _ _,
   foldl_keeps State.acceptWaiting State.ringOutCarrier (by simp) _ _,
   foldl_keeps State.acceptWaiting State.straps (by simp) _ _,
   foldl_keeps State.acceptWaiting State.ringState (by simp) _ _,
   foldl_keeps State.acceptWaiting State.probeTimer (by simp) _ _,
   foldl_keeps State.acceptWaiting State.probeClaim (by simp) _ _,
   foldl_keeps State.acceptWaiting State.probeSerial (by simp) _ _,
   foldl_keeps State.acceptWaiting State.recentProbes (by simp) _ _,
   foldl_keeps State.acceptWaiting State.passThrough (by simp) _ _,
   foldl_keeps State.acceptWaiting State.inbound (by simp) _ _,
   foldl_keeps State.acceptWaiting State.windows (by simp) _ _,
   foldl_keeps State.acceptWaiting State.mem (by simp) _ _,
   foldl_keeps State.acceptWaiting State.epoch (by simp) _ _,
   foldl_keeps State.acceptWaiting State.refreshTimer (by simp) _ _,
   foldl_keeps State.acceptWaiting State.refreshClaim (by simp) _ _,
   foldl_keeps State.acceptWaiting State.rotation (by simp) _ _,
   foldl_keeps State.acceptWaiting State.portPointer (by simp) _ _,
   foldl_keeps State.acceptWaiting State.grant (by simp) _ _,
   foldl_keeps State.acceptWaiting State.holds (by simp) _ _,
   foldl_keeps State.acceptWaiting State.deferred (by simp) _ _,
   foldl_keeps State.acceptWaiting State.bulk (by simp) _ _,
   foldl_keeps State.acceptWaiting State.firstMismatch (by simp) _ _,
   foldl_keeps State.acceptWaiting State.notices (by simp) _ _,
   foldl_keeps State.acceptWaiting State.lost (by simp) _ _,
   foldl_keeps State.acceptWaiting State.attention (by simp) _ _⟩

/-- A hold made changes the hold table alone (R121). -/
@[simp] theorem makeHold_keeps (s : State) (p : Page) (o : Offset) (h : Holder) :
    (State.makeHold s p o h).pending = s.pending
    ∧ (State.makeHold s p o h).coldReset = s.coldReset
    ∧ (State.makeHold s p o h).warmReset = s.warmReset
    ∧ (State.makeHold s p o h).ringInCarrier = s.ringInCarrier
    ∧ (State.makeHold s p o h).ringOutCarrier = s.ringOutCarrier
    ∧ (State.makeHold s p o h).straps = s.straps
    ∧ (State.makeHold s p o h).ringState = s.ringState
    ∧ (State.makeHold s p o h).probeTimer = s.probeTimer
    ∧ (State.makeHold s p o h).probeClaim = s.probeClaim
    ∧ (State.makeHold s p o h).probeSerial = s.probeSerial
    ∧ (State.makeHold s p o h).recentProbes = s.recentProbes
    ∧ (State.makeHold s p o h).passThrough = s.passThrough
    ∧ (State.makeHold s p o h).transmit = s.transmit
    ∧ (State.makeHold s p o h).ringOut = s.ringOut
    ∧ (State.makeHold s p o h).inbound = s.inbound
    ∧ (State.makeHold s p o h).strobes = s.strobes
    ∧ (State.makeHold s p o h).ports = s.ports
    ∧ (State.makeHold s p o h).completions = s.completions
    ∧ (State.makeHold s p o h).windows = s.windows
    ∧ (State.makeHold s p o h).outstanding = s.outstanding
    ∧ (State.makeHold s p o h).mem = s.mem
    ∧ (State.makeHold s p o h).epoch = s.epoch
    ∧ (State.makeHold s p o h).refreshTimer = s.refreshTimer
    ∧ (State.makeHold s p o h).refreshClaim = s.refreshClaim
    ∧ (State.makeHold s p o h).rotation = s.rotation
    ∧ (State.makeHold s p o h).portPointer = s.portPointer
    ∧ (State.makeHold s p o h).grant = s.grant
    ∧ (State.makeHold s p o h).deferred = s.deferred
    ∧ (State.makeHold s p o h).bulk = s.bulk
    ∧ (State.makeHold s p o h).firstMismatch = s.firstMismatch
    ∧ (State.makeHold s p o h).notices = s.notices
    ∧ (State.makeHold s p o h).lost = s.lost
    ∧ (State.makeHold s p o h).attention = s.attention := by
  unfold State.makeHold
  repeat' split
  all_goals simp

/-- What the end of a word operation does to the hold logic (R121, R136). -/
@[simp] theorem applyHold_keeps (s : State) (e : HoldEffect) :
    (State.applyHold s e).pending = s.pending
    ∧ (State.applyHold s e).coldReset = s.coldReset
    ∧ (State.applyHold s e).warmReset = s.warmReset
    ∧ (State.applyHold s e).ringInCarrier = s.ringInCarrier
    ∧ (State.applyHold s e).ringOutCarrier = s.ringOutCarrier
    ∧ (State.applyHold s e).straps = s.straps
    ∧ (State.applyHold s e).ringState = s.ringState
    ∧ (State.applyHold s e).probeTimer = s.probeTimer
    ∧ (State.applyHold s e).probeClaim = s.probeClaim
    ∧ (State.applyHold s e).probeSerial = s.probeSerial
    ∧ (State.applyHold s e).recentProbes = s.recentProbes
    ∧ (State.applyHold s e).passThrough = s.passThrough
    ∧ (State.applyHold s e).transmit = s.transmit
    ∧ (State.applyHold s e).ringOut = s.ringOut
    ∧ (State.applyHold s e).inbound = s.inbound
    ∧ (State.applyHold s e).strobes = s.strobes
    ∧ (State.applyHold s e).ports = s.ports
    ∧ (State.applyHold s e).completions = s.completions
    ∧ (State.applyHold s e).windows = s.windows
    ∧ (State.applyHold s e).outstanding = s.outstanding
    ∧ (State.applyHold s e).mem = s.mem
    ∧ (State.applyHold s e).epoch = s.epoch
    ∧ (State.applyHold s e).refreshTimer = s.refreshTimer
    ∧ (State.applyHold s e).refreshClaim = s.refreshClaim
    ∧ (State.applyHold s e).rotation = s.rotation
    ∧ (State.applyHold s e).portPointer = s.portPointer
    ∧ (State.applyHold s e).grant = s.grant
    ∧ (State.applyHold s e).firstMismatch = s.firstMismatch
    ∧ (State.applyHold s e).notices = s.notices
    ∧ (State.applyHold s e).lost = s.lost
    ∧ (State.applyHold s e).attention = s.attention := by
  unfold State.applyHold
  repeat' split
  all_goals simp

/-- An outcome handed on changes a port, or the transmit queue and the deferred queue (R103, R140). -/
@[simp] theorem deliver_keeps (s : State) (src : Source) (st : Status) (b : AnswerBody) (r : Bool) :
    (State.deliver s src st b r).pending = s.pending
    ∧ (State.deliver s src st b r).coldReset = s.coldReset
    ∧ (State.deliver s src st b r).warmReset = s.warmReset
    ∧ (State.deliver s src st b r).ringInCarrier = s.ringInCarrier
    ∧ (State.deliver s src st b r).ringOutCarrier = s.ringOutCarrier
    ∧ (State.deliver s src st b r).straps = s.straps
    ∧ (State.deliver s src st b r).ringState = s.ringState
    ∧ (State.deliver s src st b r).probeTimer = s.probeTimer
    ∧ (State.deliver s src st b r).probeClaim = s.probeClaim
    ∧ (State.deliver s src st b r).probeSerial = s.probeSerial
    ∧ (State.deliver s src st b r).recentProbes = s.recentProbes
    ∧ (State.deliver s src st b r).passThrough = s.passThrough
    ∧ (State.deliver s src st b r).inbound = s.inbound
    ∧ (State.deliver s src st b r).strobes = s.strobes
    ∧ (State.deliver s src st b r).windows = s.windows
    ∧ (State.deliver s src st b r).outstanding = s.outstanding
    ∧ (State.deliver s src st b r).mem = s.mem
    ∧ (State.deliver s src st b r).epoch = s.epoch
    ∧ (State.deliver s src st b r).refreshTimer = s.refreshTimer
    ∧ (State.deliver s src st b r).refreshClaim = s.refreshClaim
    ∧ (State.deliver s src st b r).rotation = s.rotation
    ∧ (State.deliver s src st b r).portPointer = s.portPointer
    ∧ (State.deliver s src st b r).grant = s.grant
    ∧ (State.deliver s src st b r).holds = s.holds
    ∧ (State.deliver s src st b r).bulk = s.bulk
    ∧ (State.deliver s src st b r).firstMismatch = s.firstMismatch
    ∧ (State.deliver s src st b r).notices = s.notices
    ∧ (State.deliver s src st b r).lost = s.lost
    ∧ (State.deliver s src st b r).attention = s.attention := by
  unfold State.deliver
  repeat' split
  all_goals simp

/-- Entry into ONLINE (R9). -/
@[simp] theorem enterOnline_keeps (s : State) :
    (State.enterOnline s).pending = s.pending
    ∧ (State.enterOnline s).coldReset = s.coldReset
    ∧ (State.enterOnline s).warmReset = s.warmReset
    ∧ (State.enterOnline s).ringInCarrier = s.ringInCarrier
    ∧ (State.enterOnline s).ringOutCarrier = s.ringOutCarrier
    ∧ (State.enterOnline s).straps = s.straps
    ∧ (State.enterOnline s).probeSerial = s.probeSerial
    ∧ (State.enterOnline s).recentProbes = s.recentProbes
    ∧ (State.enterOnline s).passThrough = s.passThrough
    ∧ (State.enterOnline s).transmit = s.transmit
    ∧ (State.enterOnline s).ringOut = s.ringOut
    ∧ (State.enterOnline s).inbound = s.inbound
    ∧ (State.enterOnline s).strobes = s.strobes
    ∧ (State.enterOnline s).ports = s.ports
    ∧ (State.enterOnline s).completions = s.completions
    ∧ (State.enterOnline s).windows = s.windows
    ∧ (State.enterOnline s).outstanding = s.outstanding
    ∧ (State.enterOnline s).mem = s.mem
    ∧ (State.enterOnline s).epoch = s.epoch
    ∧ (State.enterOnline s).refreshTimer = s.refreshTimer
    ∧ (State.enterOnline s).refreshClaim = s.refreshClaim
    ∧ (State.enterOnline s).rotation = s.rotation
    ∧ (State.enterOnline s).portPointer = s.portPointer
    ∧ (State.enterOnline s).grant = s.grant
    ∧ (State.enterOnline s).holds = s.holds
    ∧ (State.enterOnline s).deferred = s.deferred
    ∧ (State.enterOnline s).bulk = s.bulk
    ∧ (State.enterOnline s).firstMismatch = s.firstMismatch := by
  unfold State.enterOnline
  simp

/-- Entry into BROKEN (R11). -/
@[simp] theorem enterBroken_keeps (s : State) :
    (State.enterBroken s).pending = s.pending
    ∧ (State.enterBroken s).coldReset = s.coldReset
    ∧ (State.enterBroken s).warmReset = s.warmReset
    ∧ (State.enterBroken s).ringInCarrier = s.ringInCarrier
    ∧ (State.enterBroken s).ringOutCarrier = s.ringOutCarrier
    ∧ (State.enterBroken s).straps = s.straps
    ∧ (State.enterBroken s).probeSerial = s.probeSerial
    ∧ (State.enterBroken s).recentProbes = s.recentProbes
    ∧ (State.enterBroken s).inbound = s.inbound
    ∧ (State.enterBroken s).strobes = s.strobes
    ∧ (State.enterBroken s).windows = s.windows
    ∧ (State.enterBroken s).mem = s.mem
    ∧ (State.enterBroken s).epoch = s.epoch
    ∧ (State.enterBroken s).refreshTimer = s.refreshTimer
    ∧ (State.enterBroken s).refreshClaim = s.refreshClaim
    ∧ (State.enterBroken s).rotation = s.rotation
    ∧ (State.enterBroken s).portPointer = s.portPointer
    ∧ (State.enterBroken s).grant = s.grant
    ∧ (State.enterBroken s).holds = s.holds
    ∧ (State.enterBroken s).deferred = s.deferred
    ∧ (State.enterBroken s).bulk = s.bulk
    ∧ (State.enterBroken s).firstMismatch = s.firstMismatch := by
  unfold State.enterBroken
  simp

/-- Entry into CONFLICT (R13). -/
@[simp] theorem enterConflict_keeps (s : State) :
    (State.enterConflict s).pending = s.pending
    ∧ (State.enterConflict s).coldReset = s.coldReset
    ∧ (State.enterConflict s).warmReset = s.warmReset
    ∧ (State.enterConflict s).ringInCarrier = s.ringInCarrier
    ∧ (State.enterConflict s).ringOutCarrier = s.ringOutCarrier
    ∧ (State.enterConflict s).straps = s.straps
    ∧ (State.enterConflict s).probeSerial = s.probeSerial
    ∧ (State.enterConflict s).recentProbes = s.recentProbes
    ∧ (State.enterConflict s).passThrough = s.passThrough
    ∧ (State.enterConflict s).inbound = s.inbound
    ∧ (State.enterConflict s).strobes = s.strobes
    ∧ (State.enterConflict s).windows = s.windows
    ∧ (State.enterConflict s).mem = s.mem
    ∧ (State.enterConflict s).epoch = s.epoch
    ∧ (State.enterConflict s).refreshTimer = s.refreshTimer
    ∧ (State.enterConflict s).refreshClaim = s.refreshClaim
    ∧ (State.enterConflict s).rotation = s.rotation
    ∧ (State.enterConflict s).portPointer = s.portPointer
    ∧ (State.enterConflict s).grant = s.grant
    ∧ (State.enterConflict s).holds = s.holds
    ∧ (State.enterConflict s).deferred = s.deferred
    ∧ (State.enterConflict s).bulk = s.bulk
    ∧ (State.enterConflict s).firstMismatch = s.firstMismatch := by
  unfold State.enterConflict
  simp

/-- A grant moves the inbound queue and the pointers alone (R17, R93, R94). -/
@[simp] theorem advance_keeps (s : State) (c : Claim) :
    (State.advance s c).pending = s.pending
    ∧ (State.advance s c).coldReset = s.coldReset
    ∧ (State.advance s c).warmReset = s.warmReset
    ∧ (State.advance s c).ringInCarrier = s.ringInCarrier
    ∧ (State.advance s c).ringOutCarrier = s.ringOutCarrier
    ∧ (State.advance s c).straps = s.straps
    ∧ (State.advance s c).ringState = s.ringState
    ∧ (State.advance s c).probeTimer = s.probeTimer
    ∧ (State.advance s c).probeClaim = s.probeClaim
    ∧ (State.advance s c).probeSerial = s.probeSerial
    ∧ (State.advance s c).recentProbes = s.recentProbes
    ∧ (State.advance s c).passThrough = s.passThrough
    ∧ (State.advance s c).transmit = s.transmit
    ∧ (State.advance s c).ringOut = s.ringOut
    ∧ (State.advance s c).strobes = s.strobes
    ∧ (State.advance s c).ports = s.ports
    ∧ (State.advance s c).completions = s.completions
    ∧ (State.advance s c).windows = s.windows
    ∧ (State.advance s c).outstanding = s.outstanding
    ∧ (State.advance s c).mem = s.mem
    ∧ (State.advance s c).epoch = s.epoch
    ∧ (State.advance s c).refreshTimer = s.refreshTimer
    ∧ (State.advance s c).refreshClaim = s.refreshClaim
    ∧ (State.advance s c).grant = s.grant
    ∧ (State.advance s c).holds = s.holds
    ∧ (State.advance s c).deferred = s.deferred
    ∧ (State.advance s c).bulk = s.bulk
    ∧ (State.advance s c).firstMismatch = s.firstMismatch
    ∧ (State.advance s c).notices = s.notices
    ∧ (State.advance s c).lost = s.lost
    ∧ (State.advance s c).attention = s.attention := by
  unfold State.advance
  repeat' split
  all_goals simp

/-- Only a COMMIT's grant stops a hold timer (R132). -/
@[simp] theorem stopFor_keeps (s : State) (i : Slot) (c : Command) :
    (State.stopFor s i c).pending = s.pending
    ∧ (State.stopFor s i c).coldReset = s.coldReset
    ∧ (State.stopFor s i c).warmReset = s.warmReset
    ∧ (State.stopFor s i c).ringInCarrier = s.ringInCarrier
    ∧ (State.stopFor s i c).ringOutCarrier = s.ringOutCarrier
    ∧ (State.stopFor s i c).straps = s.straps
    ∧ (State.stopFor s i c).ringState = s.ringState
    ∧ (State.stopFor s i c).probeTimer = s.probeTimer
    ∧ (State.stopFor s i c).probeClaim = s.probeClaim
    ∧ (State.stopFor s i c).probeSerial = s.probeSerial
    ∧ (State.stopFor s i c).recentProbes = s.recentProbes
    ∧ (State.stopFor s i c).passThrough = s.passThrough
    ∧ (State.stopFor s i c).transmit = s.transmit
    ∧ (State.stopFor s i c).ringOut = s.ringOut
    ∧ (State.stopFor s i c).inbound = s.inbound
    ∧ (State.stopFor s i c).strobes = s.strobes
    ∧ (State.stopFor s i c).ports = s.ports
    ∧ (State.stopFor s i c).completions = s.completions
    ∧ (State.stopFor s i c).windows = s.windows
    ∧ (State.stopFor s i c).outstanding = s.outstanding
    ∧ (State.stopFor s i c).mem = s.mem
    ∧ (State.stopFor s i c).epoch = s.epoch
    ∧ (State.stopFor s i c).refreshTimer = s.refreshTimer
    ∧ (State.stopFor s i c).refreshClaim = s.refreshClaim
    ∧ (State.stopFor s i c).rotation = s.rotation
    ∧ (State.stopFor s i c).portPointer = s.portPointer
    ∧ (State.stopFor s i c).grant = s.grant
    ∧ (State.stopFor s i c).deferred = s.deferred
    ∧ (State.stopFor s i c).bulk = s.bulk
    ∧ (State.stopFor s i c).firstMismatch = s.firstMismatch
    ∧ (State.stopFor s i c).notices = s.notices
    ∧ (State.stopFor s i c).lost = s.lost
    ∧ (State.stopFor s i c).attention = s.attention := by
  unfold State.stopFor
  repeat' split
  all_goals simp

/-- A request that meets another's hold (R127, R140). -/
@[simp] theorem meetHold_keeps (s : State) (t : Taken) (r : Request) (i : Slot) :
    (State.meetHold s t r i).pending = s.pending
    ∧ (State.meetHold s t r i).coldReset = s.coldReset
    ∧ (State.meetHold s t r i).warmReset = s.warmReset
    ∧ (State.meetHold s t r i).ringInCarrier = s.ringInCarrier
    ∧ (State.meetHold s t r i).ringOutCarrier = s.ringOutCarrier
    ∧ (State.meetHold s t r i).straps = s.straps
    ∧ (State.meetHold s t r i).ringState = s.ringState
    ∧ (State.meetHold s t r i).probeTimer = s.probeTimer
    ∧ (State.meetHold s t r i).probeClaim = s.probeClaim
    ∧ (State.meetHold s t r i).probeSerial = s.probeSerial
    ∧ (State.meetHold s t r i).recentProbes = s.recentProbes
    ∧ (State.meetHold s t r i).passThrough = s.passThrough
    ∧ (State.meetHold s t r i).transmit = s.transmit
    ∧ (State.meetHold s t r i).ringOut = s.ringOut
    ∧ (State.meetHold s t r i).inbound = s.inbound
    ∧ (State.meetHold s t r i).strobes = s.strobes
    ∧ (State.meetHold s t r i).ports = s.ports
    ∧ (State.meetHold s t r i).completions = s.completions
    ∧ (State.meetHold s t r i).windows = s.windows
    ∧ (State.meetHold s t r i).outstanding = s.outstanding
    ∧ (State.meetHold s t r i).mem = s.mem
    ∧ (State.meetHold s t r i).epoch = s.epoch
    ∧ (State.meetHold s t r i).refreshTimer = s.refreshTimer
    ∧ (State.meetHold s t r i).refreshClaim = s.refreshClaim
    ∧ (State.meetHold s t r i).rotation = s.rotation
    ∧ (State.meetHold s t r i).portPointer = s.portPointer
    ∧ (State.meetHold s t r i).holds = s.holds
    ∧ (State.meetHold s t r i).bulk = s.bulk
    ∧ (State.meetHold s t r i).firstMismatch = s.firstMismatch
    ∧ (State.meetHold s t r i).notices = s.notices
    ∧ (State.meetHold s t r i).lost = s.lost
    ∧ (State.meetHold s t r i).attention = s.attention := by
  unfold State.meetHold
  repeat' split
  all_goals simp

/-- The grant of a word request changes the grant, the deferred queue and the hold table alone (R98). -/
@[simp] theorem grantWord_keeps (s : State) (t : Taken) :
    (State.grantWord s t).pending = s.pending
    ∧ (State.grantWord s t).coldReset = s.coldReset
    ∧ (State.grantWord s t).warmReset = s.warmReset
    ∧ (State.grantWord s t).ringInCarrier = s.ringInCarrier
    ∧ (State.grantWord s t).ringOutCarrier = s.ringOutCarrier
    ∧ (State.grantWord s t).straps = s.straps
    ∧ (State.grantWord s t).ringState = s.ringState
    ∧ (State.grantWord s t).probeTimer = s.probeTimer
    ∧ (State.grantWord s t).probeClaim = s.probeClaim
    ∧ (State.grantWord s t).probeSerial = s.probeSerial
    ∧ (State.grantWord s t).recentProbes = s.recentProbes
    ∧ (State.grantWord s t).passThrough = s.passThrough
    ∧ (State.grantWord s t).transmit = s.transmit
    ∧ (State.grantWord s t).ringOut = s.ringOut
    ∧ (State.grantWord s t).inbound = s.inbound
    ∧ (State.grantWord s t).strobes = s.strobes
    ∧ (State.grantWord s t).ports = s.ports
    ∧ (State.grantWord s t).completions = s.completions
    ∧ (State.grantWord s t).windows = s.windows
    ∧ (State.grantWord s t).outstanding = s.outstanding
    ∧ (State.grantWord s t).mem = s.mem
    ∧ (State.grantWord s t).epoch = s.epoch
    ∧ (State.grantWord s t).refreshTimer = s.refreshTimer
    ∧ (State.grantWord s t).refreshClaim = s.refreshClaim
    ∧ (State.grantWord s t).rotation = s.rotation
    ∧ (State.grantWord s t).portPointer = s.portPointer
    ∧ (State.grantWord s t).bulk = s.bulk
    ∧ (State.grantWord s t).firstMismatch = s.firstMismatch
    ∧ (State.grantWord s t).notices = s.notices
    ∧ (State.grantWord s t).lost = s.lost
    ∧ (State.grantWord s t).attention = s.attention := by
  unfold State.grantWord
  repeat' split
  all_goals simp

/-- A hand-over changes the engine and hands its outcome on (R149). -/
@[simp] theorem handOver_keeps (s : State) (t : Taken) :
    (State.handOver s t).pending = s.pending
    ∧ (State.handOver s t).coldReset = s.coldReset
    ∧ (State.handOver s t).warmReset = s.warmReset
    ∧ (State.handOver s t).ringInCarrier = s.ringInCarrier
    ∧ (State.handOver s t).ringOutCarrier = s.ringOutCarrier
    ∧ (State.handOver s t).straps = s.straps
    ∧ (State.handOver s t).ringState = s.ringState
    ∧ (State.handOver s t).probeTimer = s.probeTimer
    ∧ (State.handOver s t).probeClaim = s.probeClaim
    ∧ (State.handOver s t).probeSerial = s.probeSerial
    ∧ (State.handOver s t).recentProbes = s.recentProbes
    ∧ (State.handOver s t).passThrough = s.passThrough
    ∧ (State.handOver s t).inbound = s.inbound
    ∧ (State.handOver s t).strobes = s.strobes
    ∧ (State.handOver s t).windows = s.windows
    ∧ (State.handOver s t).outstanding = s.outstanding
    ∧ (State.handOver s t).mem = s.mem
    ∧ (State.handOver s t).epoch = s.epoch
    ∧ (State.handOver s t).refreshTimer = s.refreshTimer
    ∧ (State.handOver s t).refreshClaim = s.refreshClaim
    ∧ (State.handOver s t).rotation = s.rotation
    ∧ (State.handOver s t).portPointer = s.portPointer
    ∧ (State.handOver s t).grant = s.grant
    ∧ (State.handOver s t).holds = s.holds
    ∧ (State.handOver s t).notices = s.notices
    ∧ (State.handOver s t).lost = s.lost
    ∧ (State.handOver s t).attention = s.attention := by
  simp only [State.handOver]
  split <;> simp

/-- The end of a word operation, after its write (R103). -/
@[simp] theorem endWord_keeps (s : State) (g : WordGrant) :
    (State.endWord s g).pending = s.pending
    ∧ (State.endWord s g).coldReset = s.coldReset
    ∧ (State.endWord s g).warmReset = s.warmReset
    ∧ (State.endWord s g).ringInCarrier = s.ringInCarrier
    ∧ (State.endWord s g).ringOutCarrier = s.ringOutCarrier
    ∧ (State.endWord s g).straps = s.straps
    ∧ (State.endWord s g).ringState = s.ringState
    ∧ (State.endWord s g).probeTimer = s.probeTimer
    ∧ (State.endWord s g).probeClaim = s.probeClaim
    ∧ (State.endWord s g).probeSerial = s.probeSerial
    ∧ (State.endWord s g).recentProbes = s.recentProbes
    ∧ (State.endWord s g).passThrough = s.passThrough
    ∧ (State.endWord s g).inbound = s.inbound
    ∧ (State.endWord s g).strobes = s.strobes
    ∧ (State.endWord s g).windows = s.windows
    ∧ (State.endWord s g).outstanding = s.outstanding
    ∧ (State.endWord s g).mem = s.mem
    ∧ (State.endWord s g).epoch = s.epoch
    ∧ (State.endWord s g).refreshTimer = s.refreshTimer
    ∧ (State.endWord s g).refreshClaim = s.refreshClaim
    ∧ (State.endWord s g).rotation = s.rotation
    ∧ (State.endWord s g).portPointer = s.portPointer
    ∧ (State.endWord s g).grant = s.grant
    ∧ (State.endWord s g).firstMismatch = s.firstMismatch
    ∧ (State.endWord s g).notices = s.notices
    ∧ (State.endWord s g).lost = s.lost
    ∧ (State.endWord s g).attention = s.attention := by
  unfold State.endWord
  simp

/-- A probe placed (R6). -/
@[simp] theorem placeProbe_keeps (s : State) :
    (State.placeProbe s).pending = s.pending
    ∧ (State.placeProbe s).coldReset = s.coldReset
    ∧ (State.placeProbe s).warmReset = s.warmReset
    ∧ (State.placeProbe s).ringInCarrier = s.ringInCarrier
    ∧ (State.placeProbe s).ringOutCarrier = s.ringOutCarrier
    ∧ (State.placeProbe s).straps = s.straps
    ∧ (State.placeProbe s).ringState = s.ringState
    ∧ (State.placeProbe s).probeTimer = s.probeTimer
    ∧ (State.placeProbe s).passThrough = s.passThrough
    ∧ (State.placeProbe s).inbound = s.inbound
    ∧ (State.placeProbe s).strobes = s.strobes
    ∧ (State.placeProbe s).ports = s.ports
    ∧ (State.placeProbe s).completions = s.completions
    ∧ (State.placeProbe s).windows = s.windows
    ∧ (State.placeProbe s).outstanding = s.outstanding
    ∧ (State.placeProbe s).mem = s.mem
    ∧ (State.placeProbe s).epoch = s.epoch
    ∧ (State.placeProbe s).refreshTimer = s.refreshTimer
    ∧ (State.placeProbe s).refreshClaim = s.refreshClaim
    ∧ (State.placeProbe s).rotation = s.rotation
    ∧ (State.placeProbe s).portPointer = s.portPointer
    ∧ (State.placeProbe s).grant = s.grant
    ∧ (State.placeProbe s).holds = s.holds
    ∧ (State.placeProbe s).deferred = s.deferred
    ∧ (State.placeProbe s).bulk = s.bulk
    ∧ (State.placeProbe s).firstMismatch = s.firstMismatch
    ∧ (State.placeProbe s).notices = s.notices
    ∧ (State.placeProbe s).lost = s.lost
    ∧ (State.placeProbe s).attention = s.attention := by
  unfold State.placeProbe
  simp

/-- A probe claim just raised places a probe at most (R6). -/
@[simp] theorem takeClaim_keeps (s : State) :
    (State.takeClaim s).pending = s.pending
    ∧ (State.takeClaim s).coldReset = s.coldReset
    ∧ (State.takeClaim s).warmReset = s.warmReset
    ∧ (State.takeClaim s).ringInCarrier = s.ringInCarrier
    ∧ (State.takeClaim s).ringOutCarrier = s.ringOutCarrier
    ∧ (State.takeClaim s).straps = s.straps
    ∧ (State.takeClaim s).ringState = s.ringState
    ∧ (State.takeClaim s).probeTimer = s.probeTimer
    ∧ (State.takeClaim s).passThrough = s.passThrough
    ∧ (State.takeClaim s).inbound = s.inbound
    ∧ (State.takeClaim s).strobes = s.strobes
    ∧ (State.takeClaim s).ports = s.ports
    ∧ (State.takeClaim s).completions = s.completions
    ∧ (State.takeClaim s).windows = s.windows
    ∧ (State.takeClaim s).outstanding = s.outstanding
    ∧ (State.takeClaim s).mem = s.mem
    ∧ (State.takeClaim s).epoch = s.epoch
    ∧ (State.takeClaim s).refreshTimer = s.refreshTimer
    ∧ (State.takeClaim s).refreshClaim = s.refreshClaim
    ∧ (State.takeClaim s).rotation = s.rotation
    ∧ (State.takeClaim s).portPointer = s.portPointer
    ∧ (State.takeClaim s).grant = s.grant
    ∧ (State.takeClaim s).holds = s.holds
    ∧ (State.takeClaim s).deferred = s.deferred
    ∧ (State.takeClaim s).bulk = s.bulk
    ∧ (State.takeClaim s).firstMismatch = s.firstMismatch
    ∧ (State.takeClaim s).notices = s.notices
    ∧ (State.takeClaim s).lost = s.lost
    ∧ (State.takeClaim s).attention = s.attention := by
  unfold State.takeClaim
  repeat' split
  all_goals simp

/-- Entry into PROBING (R5). -/
@[simp] theorem enterProbing_keeps (s : State) :
    (State.enterProbing s).pending = s.pending
    ∧ (State.enterProbing s).coldReset = s.coldReset
    ∧ (State.enterProbing s).warmReset = s.warmReset
    ∧ (State.enterProbing s).ringInCarrier = s.ringInCarrier
    ∧ (State.enterProbing s).ringOutCarrier = s.ringOutCarrier
    ∧ (State.enterProbing s).straps = s.straps
    ∧ (State.enterProbing s).passThrough = s.passThrough
    ∧ (State.enterProbing s).inbound = s.inbound
    ∧ (State.enterProbing s).strobes = s.strobes
    ∧ (State.enterProbing s).ports = s.ports
    ∧ (State.enterProbing s).completions = s.completions
    ∧ (State.enterProbing s).windows = s.windows
    ∧ (State.enterProbing s).outstanding = s.outstanding
    ∧ (State.enterProbing s).mem = s.mem
    ∧ (State.enterProbing s).epoch = s.epoch
    ∧ (State.enterProbing s).refreshTimer = s.refreshTimer
    ∧ (State.enterProbing s).refreshClaim = s.refreshClaim
    ∧ (State.enterProbing s).rotation = s.rotation
    ∧ (State.enterProbing s).portPointer = s.portPointer
    ∧ (State.enterProbing s).grant = s.grant
    ∧ (State.enterProbing s).holds = s.holds
    ∧ (State.enterProbing s).deferred = s.deferred
    ∧ (State.enterProbing s).bulk = s.bulk
    ∧ (State.enterProbing s).firstMismatch = s.firstMismatch
    ∧ (State.enterProbing s).notices = s.notices
    ∧ (State.enterProbing s).lost = s.lost
    ∧ (State.enterProbing s).attention = s.attention := by
  unfold State.enterProbing
  simp

/-- The release of a reset, but for the pins it samples (R4). -/
@[simp] theorem leaveReset_keeps (s : State) :
    (State.leaveReset s).pending = s.pending
    ∧ (State.leaveReset s).coldReset = s.coldReset
    ∧ (State.leaveReset s).warmReset = s.warmReset
    ∧ (State.leaveReset s).ringInCarrier = s.ringInCarrier
    ∧ (State.leaveReset s).straps = s.straps
    ∧ (State.leaveReset s).passThrough = s.passThrough
    ∧ (State.leaveReset s).inbound = s.inbound
    ∧ (State.leaveReset s).strobes = s.strobes
    ∧ (State.leaveReset s).ports = s.ports
    ∧ (State.leaveReset s).completions = s.completions
    ∧ (State.leaveReset s).windows = s.windows
    ∧ (State.leaveReset s).outstanding = s.outstanding
    ∧ (State.leaveReset s).mem = s.mem
    ∧ (State.leaveReset s).epoch = s.epoch
    ∧ (State.leaveReset s).refreshTimer = s.refreshTimer
    ∧ (State.leaveReset s).refreshClaim = s.refreshClaim
    ∧ (State.leaveReset s).rotation = s.rotation
    ∧ (State.leaveReset s).portPointer = s.portPointer
    ∧ (State.leaveReset s).grant = s.grant
    ∧ (State.leaveReset s).holds = s.holds
    ∧ (State.leaveReset s).deferred = s.deferred
    ∧ (State.leaveReset s).bulk = s.bulk
    ∧ (State.leaveReset s).firstMismatch = s.firstMismatch
    ∧ (State.leaveReset s).notices = s.notices
    ∧ (State.leaveReset s).lost = s.lost
    ∧ (State.leaveReset s).attention = s.attention := by
  unfold State.leaveReset
  repeat' split
  all_goals simp

/-- The end of a job (R161, R162). -/
@[simp] theorem endJob_keeps (s : State) (j : Job) (o : JobOutcome) (f : Option Offset) (r : Bool) :
    (State.endJob s j o f r).pending = s.pending
    ∧ (State.endJob s j o f r).coldReset = s.coldReset
    ∧ (State.endJob s j o f r).warmReset = s.warmReset
    ∧ (State.endJob s j o f r).ringInCarrier = s.ringInCarrier
    ∧ (State.endJob s j o f r).ringOutCarrier = s.ringOutCarrier
    ∧ (State.endJob s j o f r).straps = s.straps
    ∧ (State.endJob s j o f r).ringState = s.ringState
    ∧ (State.endJob s j o f r).probeTimer = s.probeTimer
    ∧ (State.endJob s j o f r).probeClaim = s.probeClaim
    ∧ (State.endJob s j o f r).probeSerial = s.probeSerial
    ∧ (State.endJob s j o f r).recentProbes = s.recentProbes
    ∧ (State.endJob s j o f r).passThrough = s.passThrough
    ∧ (State.endJob s j o f r).inbound = s.inbound
    ∧ (State.endJob s j o f r).strobes = s.strobes
    ∧ (State.endJob s j o f r).ports = s.ports
    ∧ (State.endJob s j o f r).completions = s.completions
    ∧ (State.endJob s j o f r).windows = s.windows
    ∧ (State.endJob s j o f r).outstanding = s.outstanding
    ∧ (State.endJob s j o f r).mem = s.mem
    ∧ (State.endJob s j o f r).epoch = s.epoch
    ∧ (State.endJob s j o f r).refreshTimer = s.refreshTimer
    ∧ (State.endJob s j o f r).refreshClaim = s.refreshClaim
    ∧ (State.endJob s j o f r).rotation = s.rotation
    ∧ (State.endJob s j o f r).portPointer = s.portPointer
    ∧ (State.endJob s j o f r).grant = s.grant
    ∧ (State.endJob s j o f r).holds = s.holds
    ∧ (State.endJob s j o f r).deferred = s.deferred := by
  unfold State.endJob
  repeat' split
  all_goals simp

/-- The end of a bulk step, after its write (R160). -/
@[simp] theorem endStep_keeps (s : State) (j : Job) (g : StepGrant) :
    (State.endStep s j g).pending = s.pending
    ∧ (State.endStep s j g).coldReset = s.coldReset
    ∧ (State.endStep s j g).warmReset = s.warmReset
    ∧ (State.endStep s j g).ringInCarrier = s.ringInCarrier
    ∧ (State.endStep s j g).ringOutCarrier = s.ringOutCarrier
    ∧ (State.endStep s j g).straps = s.straps
    ∧ (State.endStep s j g).ringState = s.ringState
    ∧ (State.endStep s j g).probeTimer = s.probeTimer
    ∧ (State.endStep s j g).probeClaim = s.probeClaim
    ∧ (State.endStep s j g).probeSerial = s.probeSerial
    ∧ (State.endStep s j g).recentProbes = s.recentProbes
    ∧ (State.endStep s j g).passThrough = s.passThrough
    ∧ (State.endStep s j g).inbound = s.inbound
    ∧ (State.endStep s j g).strobes = s.strobes
    ∧ (State.endStep s j g).ports = s.ports
    ∧ (State.endStep s j g).completions = s.completions
    ∧ (State.endStep s j g).windows = s.windows
    ∧ (State.endStep s j g).outstanding = s.outstanding
    ∧ (State.endStep s j g).mem = s.mem
    ∧ (State.endStep s j g).epoch = s.epoch
    ∧ (State.endStep s j g).refreshTimer = s.refreshTimer
    ∧ (State.endStep s j g).refreshClaim = s.refreshClaim
    ∧ (State.endStep s j g).rotation = s.rotation
    ∧ (State.endStep s j g).portPointer = s.portPointer
    ∧ (State.endStep s j g).grant = s.grant
    ∧ (State.endStep s j g).holds = s.holds
    ∧ (State.endStep s j g).deferred = s.deferred := by
  unfold State.endStep
  repeat' split
  all_goals simp

end Sys2Proof.Machine
end

