-- ==== Sys2Proof/Laws/Arbiter.lean ====
section
/-! SUPPORT. What the arbiter's choice says of the state, and what a grant and a hand-over come to. -/

namespace Sys2Proof.Machine

/-- The claim stands in the state and is eligible (R90, R95, R96). -/
def State.Stands (s : State) : Claim → Prop
  | .refresh => s.refreshClaim = true
  | .replay k d => s.deferred[k]? = some d ∧ d.state = .ready ∧ s.placeForAnswer = true
  | .remote f => s.inbound.head? = some f ∧ s.placeForAnswer = true
  | .port q r => s.port q = .atBank r ∧ s.portEligible q r = true
  | .bulk => ∃ j, s.bulk = some j ∧ j.slot = none ∧ (stepNeedsPlace s.own j = true → s.placeForAnswer = true)

theorem oldestReady_some {l : List Deferred} {n k : Nat} {d : Deferred} (h : oldestReady l n = some (k, d)) :
    n ≤ k ∧ l[k - n]? = some d ∧ d.state = .ready := by
  induction l generalizing n with
  | nil => simp [oldestReady] at h
  | cons x l ih =>
    simp only [oldestReady] at h
    split at h
    · rename_i hx
      simp only [Option.some.injEq, Prod.mk.injEq] at h
      obtain ⟨rfl, rfl⟩ := h
      simp [hx]
    · obtain ⟨h1, h2, h3⟩ := ih h
      refine ⟨by omega, ?_, h3⟩
      have : k - n = (k - (n + 1)) + 1 := by omega
      rw [this, List.getElem?_cons_succ]
      exact h2

theorem replayClaim_some {s : State} {c : Claim} (h : s.replayClaim = some c) :
    ∃ k d, c = .replay k d ∧ s.Stands c := by
  unfold State.replayClaim at h
  split at h
  · rename_i hp
    simp only [Option.map_eq_some_iff] at h
    obtain ⟨⟨k, d⟩, hk, rfl⟩ := h
    obtain ⟨_, h2, h3⟩ := oldestReady_some hk
    exact ⟨k, d, rfl, by simpa using h2, h3, hp⟩
  · exact absurd h (by simp)

theorem remoteClaim_some {s : State} {c : Claim} (h : s.remoteClaim = some c) : ∃ f, c = .remote f ∧ s.Stands c := by
  unfold State.remoteClaim at h
  split at h
  · exact absurd h (by simp)
  · rename_i f fs hf
    split at h
    · rename_i hp
      cases h
      exact ⟨f, rfl, by simp [hf], hp⟩
    · exact absurd h (by simp)

theorem localClaim_some {s : State} {c : Claim} (h : s.localClaim = some c) :
    ∃ q r, c = .port q r ∧ s.Stands c := by
  obtain ⟨q, _, hq⟩ := List.exists_of_findSome?_eq_some h
  unfold State.portClaim at hq
  split at hq
  · rename_i r hr
    split at hq
    · rename_i he
      cases hq
      exact ⟨q, r, rfl, hr, he⟩
    · exact absurd hq (by simp)
  · exact absurd hq (by simp)

theorem bulkClaim_some {s : State} {c : Claim} (h : s.bulkClaim = some c) : c = .bulk ∧ s.Stands c := by
  unfold State.bulkClaim at h
  split at h
  · exact absurd h (by simp)
  · rename_i j hj
    split at h
    · rename_i hc
      cases h
      simp only [Bool.and_eq_true, Bool.or_eq_true, Bool.not_eq_true', Option.isNone_iff_eq_none] at hc
      refine ⟨rfl, j, hj, hc.1, fun hn => ?_⟩
      rcases hc.2 with h | h
      · simp [hn] at h
      · exact h
    · exact absurd h (by simp)

/-- The rotation grants a claim of one of its three classes (R93). -/
theorem rotationClaim_some {s : State} {c : Claim} (h : s.rotationClaim = some c) :
    s.remoteClaim = some c ∨ s.localClaim = some c ∨ s.bulkClaim = some c := by
  unfold State.rotationClaim at h
  split at h <;> simp only [Option.or_eq_some_iff] at h <;> tauto

theorem rotationClaim_stands {s : State} {c : Claim} (h : s.rotationClaim = some c) : s.Stands c := by
  rcases rotationClaim_some h with h | h | h
  · obtain ⟨_, _, hs⟩ := remoteClaim_some h
    exact hs
  · obtain ⟨_, _, _, hs⟩ := localClaim_some h
    exact hs
  · exact (bulkClaim_some h).2

/-- A choice is made of a standing, eligible claim, with the bank free and no cold reset (R91, R106). -/
theorem choice_some {s : State} {c : Claim} (h : s.choice = some c) :
    s.grant = .free ∧ s.coldReset = false ∧ s.Stands c := by
  unfold State.choice at h
  split at h
  · rename_i hg
    split at h
    · exact absurd h (by simp)
    · rename_i hc
      refine ⟨hg, by simpa using hc, ?_⟩
      split at h
      · rename_i hr
        cases h
        exact hr
      · rw [Option.or_eq_some_iff] at h
        rcases h with h | ⟨_, h⟩
        · obtain ⟨_, _, _, hs⟩ := replayClaim_some h
          exact hs
        · exact rotationClaim_stands h
  · exact absurd h (by simp)

/-- A grant of a word operation: the claim chosen, and the request taken (R98). -/
theorem grantOf_next {o : Op} {s t : State} :
    grantOf o s = .next t ↔
      ∃ c tk, s.choice = some c ∧ c.op = some o ∧ c.taken s.own = some tk ∧ t = (s.advance c).grantWord tk := by
  unfold grantOf State.takeRequestOf
  constructor
  · intro h
    cases hc : s.choice with
    | none => simp [hc] at h
    | some c =>
      simp only [hc] at h
      by_cases ho : c.op = some o
      · simp only [ho, if_true] at h
        cases ht : c.taken s.own with
        | none => simp [ht] at h
        | some tk =>
          simp only [ht] at h
          cases h
          exact ⟨c, tk, rfl, ho, ht, rfl⟩
      · simp [ho] at h
  · rintro ⟨c, tk, hc, ho, ht, rfl⟩
    simp [hc, ho, ht]

/-- A hand-over: the claim chosen, and the request taken (R98, R149). -/
theorem handOverOf_next {o : Op} {s t : State} :
    handOverOf o s = .next t ↔
      ∃ c tk, s.choice = some c ∧ c.op = some o ∧ c.taken s.own = some tk
        ∧ t = ((s.advance c).handOver tk).acceptFor tk.source := by
  unfold handOverOf State.takeRequestOf
  constructor
  · intro h
    cases hc : s.choice with
    | none => simp [hc] at h
    | some c =>
      simp only [hc] at h
      by_cases ho : c.op = some o
      · simp only [ho, if_true] at h
        cases ht : c.taken s.own with
        | none => simp [ht] at h
        | some tk =>
          simp only [ht] at h
          cases h
          exact ⟨c, tk, rfl, ho, ht, rfl⟩
      · simp [ho] at h
  · rintro ⟨c, tk, hc, ho, ht, rfl⟩
    simp [hc, ho, ht]

/-- The command of a REQ frame has the frame's operation. -/
theorem command_op {f : Frame} {c : Command} (h : Frame.command f = some c) : c.op = frameOp f := by
  unfold Frame.command at h
  unfold frameOp
  split at h
  · exact absurd h (by simp)
  · rename_i ho; cases h; simp [ho, Command.op]
  · rename_i ho
    split at h
    · exact absurd h (by simp)
    · split at h
      · exact absurd h (by simp)
      · cases h; simp [ho, Command.op]
  · rename_i ho; cases h; simp [ho, Command.op]
  · rename_i ho
    rw [Option.map_eq_some_iff] at h
    obtain ⟨a, _, rfl⟩ := h
    simp only [ho, Option.getD_some, mkCommit]
    split <;> rfl
  · rename_i ho
    split at h
    · exact absurd h (by simp)
    · split at h
      · cases h; simp [ho, Command.op, mkBulkStart]
      · exact absurd h (by simp)
  · rename_i ho; cases h; simp [ho, Command.op]
  · rename_i ho; cases h; simp [ho, Command.op]

/-- A request taken has the operation of its claim, unless it is malformed. -/
theorem taken_op {own : Station} {c : Claim} {tk : Taken} {r : Request} {o : Op} (h : c.taken own = some tk)
    (ho : c.op = some o) (hr : tk.request = some r) : r.command.op = o := by
  cases c with
  | refresh => simp [Claim.taken] at h
  | bulk => simp [Claim.taken] at h
  | replay k d =>
    simp only [Claim.taken, Option.some.injEq] at h
    subst h
    cases hr
    simpa [Claim.op] using ho
  | remote f =>
    simp only [Claim.taken, Option.some.injEq] at h
    subst h
    simp only [Claim.op, Option.some.injEq] at ho
    simp only [Frame.request, Option.map_eq_some_iff] at hr
    obtain ⟨c, hc, rfl⟩ := hr
    rw [← ho]
    exact command_op hc
  | port q q' =>
    simp only [Claim.taken, Option.some.injEq] at h
    subst h
    cases hr
    simpa [Claim.op] using ho

/-- A request in range is the request taken. -/
theorem inRange_some {s : State} {tk : Taken} {r : Request} (h : s.inRange tk = some r) :
    tk.request = some r ∧ r.page.toNat < pageCount s.straps := by
  unfold State.inRange at h
  split at h
  · exact absurd h (by simp)
  · rename_i q hq
    split at h
    · rename_i hp
      cases h
      exact ⟨hq, hp⟩
    · exact absurd h (by simp)

end Sys2Proof.Machine
end

