-- ==== Sys2Proof/Laws/Step.lean ====
section
/-! SUPPORT. What one step is made of, and the induction from commands to steps and runs. -/

namespace Sys2Proof.Machine

/-- A law that every command keeps holds after several commands. -/
theorem execAll_law {law : State → Prop} (he : ∀ c s t, law s → exec c s = .next t → law t) {l : List Instr}
    {s t : State} (hs : law s) (h : execAll l s = .next t) : law t := by
  induction l generalizing s with
  | nil => cases h; exact hs
  | cons c l ih =>
    simp only [execAll] at h
    cases hc : exec c s with
    | next u => rw [hc] at h; exact ih (he c s u hs hc) h
    | fault r => rw [hc] at h; cases h
    | refused r => rw [hc] at h; cases h

/-- A law is kept by every step if it says nothing of the queue and every command and the count of the timers
keep it. -/
theorem kept_of {law : State → Prop} (hq : ∀ s q, law s → law { s with pending := q })
    (he : ∀ c s t, law s → exec c s = .next t → law t) (hc : ∀ s, law s → law s.countTimers) : Kept law := by
  intro s t hs h
  unfold Steps step at h
  split at h
  · exact execAll_law he (hc s hs) h
  · exact he _ _ _ (hq _ _ hs) h

/-- A kept law holds in every state reached from one that has it. -/
theorem kept_reaches {law : State → Prop} (hk : Kept law) {s t : State} (hs : law s) (h : Reaches s t) : law t := by
  induction h with
  | refl => exact hs
  | tail _ hu ih => exact hk _ _ ih hu

/-- Counting the timers leaves an entry but for its timer. -/
theorem entry_countTimers (s : State) (t : Tag) : s.countTimers.entry t = (s.entry t).map countEntry := by
  simp [State.entry, Vector.get_eq_getElem]

/-- Counting the timers leaves a hold but for its timer. -/
theorem slot_countTimers (s : State) (i : Slot) : s.countTimers.slot i = (s.slot i).map countHold := by
  simp [State.slot, Vector.get_eq_getElem]

end Sys2Proof.Machine
end

