-- ==== Sys2Proof/Laws/Effect.lean ====
section
/-! SUPPORT. What a command can do, said once: every next state comes about by some of the effects below, one after
another. -/

namespace Sys2Proof.Machine

/-- The release of a reset before its probe claim is taken (R4, R5). -/
def State.leftReset (s : State) : State :=
  if s.inReset then s
  else if s.ringInCarrier then State.beginProbing { s with ringOutCarrier := true }
  else { s with ringOutCarrier := true }

/-- What the release of a reset leaves as it was. -/
@[simp] theorem leftReset_keeps (s : State) :
    (State.leftReset s).pending = s.pending
    ∧ (State.leftReset s).coldReset = s.coldReset
    ∧ (State.leftReset s).warmReset = s.warmReset
    ∧ (State.leftReset s).ringInCarrier = s.ringInCarrier
    ∧ (State.leftReset s).straps = s.straps
    ∧ (State.leftReset s).probeSerial = s.probeSerial
    ∧ (State.leftReset s).passThrough = s.passThrough
    ∧ (State.leftReset s).transmit = s.transmit
    ∧ (State.leftReset s).ringOut = s.ringOut
    ∧ (State.leftReset s).inbound = s.inbound
    ∧ (State.leftReset s).strobes = s.strobes
    ∧ (State.leftReset s).ports = s.ports
    ∧ (State.leftReset s).completions = s.completions
    ∧ (State.leftReset s).windows = s.windows
    ∧ (State.leftReset s).outstanding = s.outstanding
    ∧ (State.leftReset s).mem = s.mem
    ∧ (State.leftReset s).epoch = s.epoch
    ∧ (State.leftReset s).refreshTimer = s.refreshTimer
    ∧ (State.leftReset s).refreshClaim = s.refreshClaim
    ∧ (State.leftReset s).rotation = s.rotation
    ∧ (State.leftReset s).portPointer = s.portPointer
    ∧ (State.leftReset s).grant = s.grant
    ∧ (State.leftReset s).holds = s.holds
    ∧ (State.leftReset s).deferred = s.deferred
    ∧ (State.leftReset s).bulk = s.bulk
    ∧ (State.leftReset s).firstMismatch = s.firstMismatch
    ∧ (State.leftReset s).notices = s.notices
    ∧ (State.leftReset s).lost = s.lost
    ∧ (State.leftReset s).attention = s.attention := by
  unfold State.leftReset
  repeat' split
  all_goals simp

/-- The effects that commands are made of. -/
inductive Effect (s : State) : State → Prop
  | same : Effect s s
  | coldAsserted : s.coldReset = false →
      Effect s { s.clearWorking with
        coldReset := true, probeSerial := 0, mem := s.cutShort, refreshTimer := none, refreshClaim := false,
        grant := .free }
  | coldReleased (pins : Straps) : s.coldReset = true →
      Effect s (State.leftReset { s with
        coldReset := false, straps := pins, mem := [], epoch := s.epoch + 1,
        refreshTimer := some Config.refreshPeriod })
  | warmAsserted : s.warmReset = false →
      Effect s { s.clearWorking with warmReset := true, grant := orphaned s.grant }
  | warmReleased (pins : Straps) : s.warmReset = true →
      Effect s (State.leftReset { s with warmReset := false, straps := pins })
  | carrierLost : s.ringInCarrier = true → s.ringState ≠ .probing → s.ringState ≠ .online →
      Effect s { s with ringInCarrier := false }
  | broken : s.ringInCarrier = true → s.ringState = .probing ∨ s.ringState = .online →
      Effect s (State.enterBroken { s with ringInCarrier := false })
  | carrierBack : s.ringInCarrier = false → (s.inReset = true ∨ (s.ringState ≠ .offline ∧ s.ringState ≠ .broken)) →
      Effect s { s with ringInCarrier := true }
  | probing : s.ringInCarrier = false → s.inReset = false → s.ringState = .offline ∨ s.ringState = .broken →
      Effect s (State.beginProbing { s with ringInCarrier := true })
  | online : s.receives = true → s.ringState = .probing → Effect s s.enterOnline
  | conflict : s.receives = true → s.ringState = .probing ∨ s.ringState = .online → Effect s s.enterConflict
  | passed (f : Frame) : s.receives = true → Effect s (s.placePass f)
  | queued (f : Frame) : s.receives = true → s.inbound.length < Config.inboundPlaces → Frame.kind f = some .req →
      Effect s { s with inbound := s.inbound ++ [f] }
  | ended (t : Tag) (e : Entry) (c : Completion) : s.receives = true → s.entry t = some e →
      e.state = .waitingAnswer → Effect s (s.endEntry t e c)
  | backsOff (t : Tag) (e : Entry) : s.receives = true → s.entry t = some e → e.state = .waitingAnswer →
      e.attempts < Config.resendLimit →
      Effect s (s.setEntry t (some { e with state := .waitingResend, timer := some (4 * (e.attempts + 1)) }))
  | freed (t : Tag) (e : Entry) : s.entry t = some e → e.state = .stale → Effect s (s.setEntry t none)
  | noticed (n : Notice) : s.receives = true → Effect s (s.placeNotice n)
  | probeExpires (n : Nat) : s.probeTimer = some n →
      Effect s { s with probeTimer := some Config.probePeriod, probeClaim := true }
  | probes : s.probeClaim = true → s.freePlace = true → Effect s s.placeProbe
  | sentOn : s.ringOut = .passThrough →
      Effect s (State.chooseRingOut { s with ringOut := .idle, passThrough := s.passThrough.drop 1 })
  | sentOwn : s.ringOut = .transmit →
      Effect s (State.chooseRingOut { s with ringOut := .idle, transmit := s.transmit.drop 1 })
  | strobed (q : Port) (x : Strobe) :
      (s.inReset = true → (∃ r, x = .accepted r) → ∃ r, s.strobe q = .accepted r) → Effect s (s.setStrobe q x)
  | answered (q : Port) (c : Completion) : s.inReset = false → s.port q = .idle → Effect s (s.complete q c)
  | toBank (q : Port) (r : Request) : s.inReset = false → s.port q = .idle → bankRequestLegal q r = true →
      Effect s (s.setPort q (.atBank r))
  | toSend (q : Port) (d : Station) (r : Request) : s.inReset = false → s.port q = .idle → s.ringState = .online →
      Effect s (s.setPort q (.toSend d r))
  | sent (q : Port) (d : Station) (r : Request) (t : Tag) :
      s.port q = .idle ∨ s.port q = .toSend d r → s.ringState = .online → s.sendTag q d r = some t →
      Effect s (s.sendRequest q d r t)
  | control (a : Access) : s.inReset = false → s.port .p = .idle → Effect s (s.setPort .p (.control a))
  | timedOut (t : Tag) (e : Entry) : s.entry t = some e → e.state = .waitingAnswer →
      Effect s (State.reportEnd
        (s.setEntry t (some { e with state := .stale, timer := some (answerTimeout s.straps) }))
        t e (plainCompletion .timeout))
  | resent (t : Tag) (e : Entry) : s.entry t = some e → e.state = .waitingResend → s.freePlace = true →
      Effect s (s.resend t e)
  | claimsResend (t : Tag) (e : Entry) : s.entry t = some e → e.state = .waitingResend →
      Effect s (s.setEntry t (some { e with timer := none }))
  | refreshExpires (n : Nat) : s.refreshTimer = some n →
      Effect s { s with refreshTimer := some Config.refreshPeriod, refreshClaim := true }
  | refreshes : s.choice = some .refresh → Effect s { s with refreshClaim := false, grant := .refresh }
  | refreshed : s.grant = .refresh → Effect s { s with grant := .free }
  | wordGranted (c : Claim) (tk : Taken) (o : Op) : s.choice = some c → c.op = some o → isWordOp o = true →
      c.taken s.own = some tk → Effect s ((s.advance c).grantWord tk)
  | handedOver (c : Claim) (tk : Taken) (o : Op) : s.choice = some c → c.op = some o → isWordOp o = false →
      c.taken s.own = some tk → Effect s ((s.advance c).handOver tk)
  | wordEnded (g : WordGrant) : s.grant = .word g → g.orphan = false →
      Effect s (State.endWord
        (State.writeDue { s with grant := .free } (g.result.accessed.getD 0) g.result.write) g)
  | wordOrphanEnded (g : WordGrant) : s.grant = .word g → g.orphan = true →
      Effect s (State.writeDue { s with grant := .free } (g.result.accessed.getD 0) g.result.write)
  | holdExpired (i : Slot) (h : Hold) : s.slot i = some h → h.stopped = false → Effect s (s.endHold i)
  | stepWaits (j : Job) (i : Slot) (h : Hold) : s.choice = some .bulk → s.bulk = some j →
      s.holdOn j.page j.next = some (i, h) →
      Effect s { s.advance .bulk with bulk := some { j with slot := some i } }
  | stepGranted (j : Job) : s.choice = some .bulk → s.bulk = some j → s.holdOn j.page j.next = none →
      Effect s { s.advance .bulk with grant := .step (jobStep s j (s.stepReserves j)) }
  | stepEnded (g : StepGrant) (j : Job) : s.grant = .step g → g.orphan = false → s.bulk = some j →
      Effect s (State.endStep (State.writeDue { s with grant := .free } g.address g.write) j g)
  | stepOrphanEnded (g : StepGrant) : s.grant = .step g → (g.orphan = true ∨ s.bulk = none) →
      Effect s (State.writeDue { s with grant := .free } g.address g.write)
  | noticeRead : s.port .p = .control .noticeRead →
      Effect s (State.complete
        { s with notices := s.notices.drop 1, attention := attentionLevel (s.notices.drop 1) s.lost }
        .p (okCompletion (noticeReadWords s.notices)))
  | statusRead : s.port .p = .control .statusRead →
      Effect s (State.complete { s with lost := false, attention := attentionLevel s.notices false }
        .p (okCompletion (statusWords s)))
  | windowWritten (n : BitVec 5) (v : Word) : s.port .p = .control (.windowWrite n v) →
      Effect s (State.complete { s with windows := s.windows.set n.toNat (windowOfWord v) n.isLt }
        .p (okCompletion [0]))
  | controlRefused : s.port .p = .control .refusedWrite →
      Effect s (s.complete .p (plainCompletion .badRequest))

/-- Several effects, one after another. -/
def Effects : State → State → Prop := Relation.ReflTransGen Effect

theorem Effects.refl (s : State) : Effects s s := Relation.ReflTransGen.refl

theorem Effects.of {s t : State} (h : Effect s t) : Effects s t := Relation.ReflTransGen.single h

theorem Effects.trans {s t u : State} (h : Effects s t) (k : Effects t u) : Effects s u :=
  Relation.ReflTransGen.trans h k

theorem Effects.tail {s t u : State} (h : Effects s t) (k : Effect t u) : Effects s u :=
  Relation.ReflTransGen.tail h k

/-- A law that every effect keeps is kept by several. -/
theorem Effects.law {law : State → Prop} (he : ∀ s t, law s → Effect s t → law t) {s t : State} (hs : law s)
    (h : Effects s t) : law t := by
  induction h with
  | refl => exact hs
  | tail _ k ih => exact he _ _ ih k

/-! ### Probing -/

/-- A probe claim just raised is taken at most. -/
theorem effects_takeClaim {s u : State} (h : Effect s u) (hc : u.probeClaim = true) : Effects s u.takeClaim := by
  unfold State.takeClaim
  split
  · rename_i hf; exact (Effects.of h).tail (.probes hc hf)
  · exact .of h

theorem effects_leaveReset {s u : State} (h : Effect s u.leftReset) : Effects s u.leaveReset := by
  unfold State.leftReset at h
  unfold State.leaveReset
  split
  · rename_i hr; rw [if_pos hr] at h; exact .of h
  rename_i hr
  rw [if_neg hr] at h
  split <;> rename_i hc
  · rw [if_pos hc] at h; exact effects_takeClaim h rfl
  · rw [if_neg hc] at h; exact .of h

/-! ### Acceptance -/

/-- Pins that pass the first check ask the own bank for nothing illegal (R43). -/
theorem pinsCommand_legal {q : Port} {r : PortRequest} {c : Command} (h : pinsCommand q r = some c)
    (hf : rangeFits r.offset c = true) (b : Bool) (pg : Page) : bankRequestLegal q ⟨c, b, pg, r.offset⟩ = true := by
  unfold pinsCommand at h
  repeat' split at h
  all_goals first
    | contradiction
    | (cases h; unfold mkCommit; split <;> rfl)
    | (cases h; simp_all [bankRequestLegal, mkBulkStart, rangeFits])

/-- A request without control-select at an empty request place. -/
theorem effect_acceptMemory (s : State) (q : Port) (r : PortRequest) (hn : s.inReset = false) (hi : s.port q = .idle) :
    Effect s (s.acceptMemory q r) := by
  unfold State.acceptMemory State.refuse
  split
  · exact .answered q _ hn hi
  rename_i c hc
  simp only
  split
  · exact .answered q _ hn hi
  split
  · exact .answered q _ hn hi
  split
  · exact .answered q _ hn hi
  split
  · exact .answered q _ hn hi
  rename_i hf
  unfold State.route
  split
  · exact .toBank q _ hn hi (pinsCommand_legal hc (by simpa using hf) _ _)
  split
  · rename_i ho
    split
    · rename_i t ht; exact .sent q _ _ t (.inl hi) ho ht
    · exact .toSend q _ _ hn hi ho
  · exact .answered q _ hn hi

/-- A request with control-select at an empty request place. -/
theorem effect_acceptControl (s : State) (r : PortRequest) (hn : s.inReset = false) (hi : s.port .p = .idle) :
    Effect s (s.acceptControl r) := by
  unfold State.acceptControl State.refuse
  simp only
  split
  · split
    · split
      · exact .answered .p _ hn hi
      · rename_i it _
        split
        · cases it <;> simp only [State.controlRead] <;> first | exact .answered .p _ hn hi | exact .control _ hn hi
        · cases it <;> simp only [State.controlWrite] <;> exact .control _ hn hi
    · exact .answered .p _ hn hi
  · exact .answered .p _ hn hi

theorem effects_accept (s : State) (q : Port) (r : PortRequest) (hn : s.inReset = false) (hi : s.port q = .idle) :
    Effects s (s.accept q r) := by
  have h1 : Effects s (s.setStrobe q (.accepted r)) := .of (.strobed q _ (fun h => absurd h (by simp [hn])))
  have hi1 : (s.setStrobe q (.accepted r)).port q = .idle := hi
  simp only [State.accept]
  split
  · rename_i hp
    have hq : q = .p := by
      unfold pinsControl at hp
      simp_all
    subst hq
    exact h1.tail (effect_acceptControl _ r hn hi1)
  · exact h1.tail (effect_acceptMemory _ q r hn hi1)

theorem effects_acceptWaiting (s : State) (q : Port) : Effects s (s.acceptWaiting q) := by
  unfold State.acceptWaiting
  split
  · rename_i r _
    split
    · exact .refl s
    · rename_i hc
      exact effects_accept s q r (by simp_all) (by simp_all)
  · exact .refl s

theorem effects_acceptAll (s : State) : Effects s s.acceptAll := by
  unfold State.acceptAll
  generalize portsFrom .p = l
  induction l generalizing s with
  | nil => exact .refl s
  | cons q l ih => exact (effects_acceptWaiting s q).trans (ih _)

theorem effects_acceptFor (s : State) (src : Source) : Effects s (s.acceptFor src) := by
  cases src with
  | port q => exact effects_acceptWaiting s q
  | remote _ _ _ => exact .refl s
  | replay _ _ _ _ => exact .refl s

/-- An entry's end told to its master, after the entry's own effect. -/
theorem effects_tellEnd {s u : State} {t : Tag} {e : Entry} {c : Completion} (h : Effect s (u.reportEnd t e c)) :
    Effects s (u.tellEnd t e c) := by
  unfold State.tellEnd
  split
  · exact .of h
  · exact (Effects.of h).trans (effects_acceptWaiting _ _)

theorem effects_endAccess {s u : State} {c : Completion} (h : Effect s (u.complete .p c)) :
    Effects s (u.endAccess c) := (Effects.of h).trans (effects_acceptWaiting _ _)

/-! ### Arriving frames -/

/-- An arriving frame. -/
theorem effects_arrive (s : State) (f : Frame) : Effects s (s.arrive f) := by
  unfold State.arrive
  split
  swap
  · exact .refl s
  rename_i hr
  have hr : s.receives = true := (Bool.and_eq_true _ _ ▸ hr).1
  split
  · exact .refl s
  rename_i k hk
  split
  · exact .of (.passed f hr)
  rename_i hc
  have hs : s.ringState = .probing ∨ s.ringState = .online := by
    unfold State.receives at hr
    cases h : s.ringState <;> simp_all
  unfold State.classify
  split
  · unfold State.takeProbe
    split
    · split
      · rename_i h; exact .of (.online hr h)
      · exact .refl s
    · exact (Effects.of (.conflict hr hs)).trans (effects_acceptAll _)
  split
  · rename_i h
    unfold State.takeRequest
    split
    · rename_i hl; exact .of (.queued f hr hl (by rw [hk]; simp_all))
    · exact .of (.passed _ hr)
  split
  · unfold State.takeUnclaimed
    split
    · exact .refl s
    · rename_i e he
      split
      · rename_i h
        exact effects_tellEnd (.ended _ e _ hr he (by simp_all))
      · exact .refl s
  split
  · unfold State.takeAnswer
    split
    · exact .refl s
    rename_i e he
    split
    · exact .refl s
    split
    · rename_i hw
      split
      · unfold State.takeRetry
        split
        · rename_i ha; exact .of (.backsOff _ e hr he hw ha)
        · exact effects_tellEnd (.ended _ e _ hr he hw)
      · exact effects_tellEnd (.ended _ e _ hr he hw)
    · exact .refl s
    · rename_i hw; exact .of (.freed _ e he hw)
  split
  · unfold State.takeDone
    split
    · exact .refl s
    · exact .of (.noticed _ hr)
  split
  · exact .refl s
  · exact .of (.passed f hr)

theorem effects_arriveAs {k : Kind} {f : Frame} {s t : State} (h : arriveAs k f s = .next t) : Effects s t := by
  unfold arriveAs at h
  split at h
  · cases h; exact effects_arrive s f
  · cases h

/-! ### Commands -/

theorem effects_grantOf {o : Op} {s t : State} (ho : isWordOp o = true) (h : grantOf o s = .next t) : Effects s t := by
  obtain ⟨c, tk, hc, hop, ht, rfl⟩ := grantOf_next.1 h
  exact .of (.wordGranted c tk o hc hop ho ht)

theorem effects_handOverOf {o : Op} {s t : State} (ho : isWordOp o = false) (h : handOverOf o s = .next t) :
    Effects s t := by
  obtain ⟨c, tk, hc, hop, ht, rfl⟩ := handOverOf_next.1 h
  exact (Effects.of (.handedOver c tk o hc hop ho ht)).trans (effects_acceptFor _ _)

/-- Every next state of a command comes about by effects. -/
theorem effects_of_exec {c : Instr} {s t : State} (h : exec c s = .next t) : Effects s t := by
  cases c with
  | coldResetAssertion =>
    cases h
    split
    · exact .refl _
    · rename_i hc; exact .of (.coldAsserted (by simpa using hc))
  | coldResetRelease pins =>
    cases h
    split
    · rename_i hc; exact (effects_leaveReset (.coldReleased pins hc)).trans (effects_acceptAll _)
    · exact .refl _
  | warmResetAssertion =>
    cases h
    split
    · exact .refl _
    · rename_i hc; exact .of (.warmAsserted (by simpa using hc))
  | warmResetRelease pins =>
    cases h
    split
    · rename_i hc; exact (effects_leaveReset (.warmReleased pins hc)).trans (effects_acceptAll _)
    · exact .refl _
  | lossOfCarrier =>
    cases h
    split
    · rename_i hc
      split <;> rename_i hs
      · exact (Effects.of (.broken hc (.inl hs))).trans (effects_acceptAll _)
      · exact (Effects.of (.broken hc (.inr hs))).trans (effects_acceptAll _)
      all_goals exact .of (.carrierLost hc (by simp [hs]) (by simp [hs]))
    · exact .refl _
  | returnOfCarrier =>
    cases h
    split
    · exact .refl _
    rename_i hc
    have hc : s.ringInCarrier = false := by simpa using hc
    split
    · rename_i hr; exact .of (.carrierBack hc (.inl hr))
    rename_i hr
    have hr : s.inReset = false := by simpa using hr
    split <;> rename_i hs
    · exact effects_takeClaim (.probing hc hr (.inl hs)) rfl
    · exact effects_takeClaim (.probing hc hr (.inr hs)) rfl
    all_goals exact .of (.carrierBack hc (.inr ⟨by simp [hs], by simp [hs]⟩))
  | loopArrival f => exact effects_arriveAs h
  | reqArrival f => exact effects_arriveAs h
  | ansArrival f => exact effects_arriveAs h
  | doneArrival f => exact effects_arriveAs h
  | throughFrameArrival f =>
    simp only [exec, execThroughFrameArrival] at h
    split at h
    · cases h; exact effects_arrive s f
    · cases h
  | probeTimerExpiry =>
    simp only [exec, execProbeTimerExpiry] at h
    split at h
    · cases h
    · rename_i n hn
      cases h
      split
      · rename_i hc
        have := Effect.probeExpires n hn
        rw [← hc] at this
        exact .of this
      · exact effects_takeClaim (.probeExpires n hn) rfl
  | probeClaim =>
    simp only [exec, execProbeClaim] at h
    repeat' split at h
    all_goals cases h
    rename_i h1 h2
    exact .of (.probes h1 h2)
  | sendingEnd =>
    simp only [exec, execSendingEnd] at h
    split at h <;> rename_i hs <;> cases h
    · exact .of (.sentOn hs)
    · exact .of (.sentOwn hs)
  | acceptance q pins =>
    cases h
    cases pins with
    | none => exact .of (.strobed q .low (fun _ h => absurd h (by simp)))
    | some r =>
      refine (Effects.of (.strobed q _ fun _ hx => ?_)).trans (effects_acceptWaiting _ _)
      obtain ⟨r', hr⟩ := hx
      cases hs : s.strobe q with
      | accepted r0 => exact ⟨r0, rfl⟩
      | low => rw [hs] at hr; cases hr
      | presented r0 => rw [hs] at hr; cases hr
  | send q =>
    simp only [exec, execSend] at h
    split at h
    · rename_i d r hp
      split at h
      · rename_i ho
        split at h
        · rename_i t ht; cases h; exact (Effects.of (.sent q d r t (.inr hp) ho ht)).trans (effects_acceptWaiting _ _)
        · cases h
      · cases h
    · cases h
  | answerTimerExpiry tag =>
    simp only [exec, execAnswerTimerExpiry] at h
    split at h
    · cases h
    · rename_i e he
      split at h
      · rename_i hw; cases h; exact effects_tellEnd (.timedOut tag e he hw)
      · cases h
  | backoffTimerExpiry tag =>
    simp only [exec, execBackoffTimerExpiry] at h
    split at h
    · cases h
    · rename_i e he
      split at h
      · rename_i hw
        have hw : e.state = .waitingResend := by simp_all
        cases h
        split
        · rename_i hf; exact .of (.resent tag e he hw hf)
        · exact .of (.claimsResend tag e he hw)
      · cases h
  | resendClaim tag =>
    simp only [exec, execResendClaim] at h
    split at h
    · cases h
    · rename_i e he
      split at h
      · rename_i hw
        have hw : e.state = .waitingResend := by simp_all
        split at h
        · rename_i hf; cases h; exact .of (.resent tag e he hw hf)
        · cases h
      · cases h
  | quarantineExpiry tag =>
    simp only [exec, execQuarantineExpiry] at h
    split at h
    · cases h
    · rename_i e he
      split at h
      · rename_i hw; cases h; exact .of (.freed tag e he hw)
      · cases h
  | refreshTimerExpiry =>
    simp only [exec, execRefreshTimerExpiry] at h
    split at h
    · cases h
    · rename_i n hn; cases h; exact .of (.refreshExpires n hn)
  | refresh =>
    simp only [exec, execRefresh] at h
    split at h
    · rename_i hc; cases h; exact .of (.refreshes hc)
    · cases h
  | refreshEnd =>
    simp only [exec, execRefreshEnd] at h
    split at h
    · rename_i hg; cases h; exact .of (.refreshed hg)
    · cases h
  | read => exact effects_grantOf rfl h
  | write => exact effects_grantOf rfl h
  | holdRead => exact effects_grantOf rfl h
  | commit => exact effects_grantOf rfl h
  | bulkStart => exact effects_handOverOf rfl h
  | bulkQuery => exact effects_handOverOf rfl h
  | bulkAbort => exact effects_handOverOf rfl h
  | wordOperationEnd =>
    simp only [exec, execWordOperationEnd] at h
    split at h
    · rename_i g hg
      cases h
      split
      · rename_i ho; exact .of (.wordOrphanEnded g hg ho)
      · rename_i ho; exact (Effects.of (.wordEnded g hg (by simpa using ho))).trans (effects_acceptFor _ _)
    · cases h
  | holdTimerExpiry i =>
    simp only [exec, execHoldTimerExpiry] at h
    split at h
    · cases h
    · rename_i k hk
      split at h
      · cases h
      · rename_i hs; cases h; exact .of (.holdExpired i k hk (by simpa using hs))
  | bulkStep =>
    simp only [exec, execBulkStep] at h
    split at h
    · rename_i j hc hj
      split at h
      · rename_i i k hk; cases h; exact .of (.stepWaits j i k hc hj hk)
      · rename_i hk; cases h; exact .of (.stepGranted j hc hj hk)
    · cases h
  | bulkStepEnd =>
    simp only [exec, execBulkStepEnd] at h
    split at h
    · rename_i g hg
      split at h
      · rename_i j hj
        cases h
        split
        · rename_i ho; exact .of (.stepOrphanEnded g hg (.inl ho))
        · rename_i ho; exact .of (.stepEnded g j hg (by simpa using ho) hj)
      · rename_i hj; cases h; exact .of (.stepOrphanEnded g hg (.inr hj))
    · cases h
  | noticeRead =>
    simp only [exec, execNoticeRead] at h
    split at h
    · rename_i hp; cases h; exact effects_endAccess (.noticeRead hp)
    · cases h
  | statusRead =>
    simp only [exec, execStatusRead] at h
    split at h
    · rename_i hp; cases h; exact effects_endAccess (.statusRead hp)
    · cases h
  | windowWrite =>
    simp only [exec, execWindowWrite] at h
    split at h
    · rename_i n v hp; cases h; exact effects_endAccess (.windowWritten n v hp)
    · cases h
  | controlSpaceWrite =>
    simp only [exec, execControlSpaceWrite] at h
    split at h
    · rename_i hp; cases h; exact effects_endAccess (.controlRefused hp)
    · cases h

/-- A law is kept by every step if it says nothing of the queue and every effect and the count of the timers
keep it. -/
theorem kept_effect {law : State → Prop} (hq : ∀ s q, law s → law { s with pending := q })
    (he : ∀ s t, law s → Effect s t → law t) (hc : ∀ s, law s → law s.countTimers) : Kept law :=
  kept_of hq (fun _ _ _ hs h => (effects_of_exec h).law he hs) hc

end Sys2Proof.Machine
end

