-- ==== Sys2Proof/Laws/Ports.lean ====
section
/-! SUPPORT. The request pins: what raising a strobe and accepting what waits on it can do, said once. -/

namespace Sys2Proof.Machine

/-! ### Reading the pins -/

@[simp] theorem portGet_map {α : Type} (f : α → α) (x : PerPort α) (q : Port) :
    portGet (portMap f x) q = f (portGet x q) := by
  cases q <;> rfl

theorem strobe_of_strobes {s t : State} (h : t.strobes = s.strobes) (q : Port) : t.strobe q = s.strobe q := by
  unfold State.strobe; rw [h]

theorem strobe_setStrobe (s : State) (q r : Port) (x : Strobe) :
    (s.setStrobe q x).strobe r = if r = q then x else s.strobe r := portGet_set s.strobes q r x

theorem inReset_of {s t : State} (h : t.coldReset = s.coldReset) (k : t.warmReset = s.warmReset) :
    t.inReset = s.inReset := by unfold State.inReset; rw [h, k]

/-! ### When nothing is accepted -/

/-- Nothing is accepted where no request waits, at an occupied request place, or in reset (R41, R61). -/
theorem acceptWaiting_stays {s : State} {q : Port}
    (h : s.inReset = true ∨ s.port q ≠ .idle ∨ ∀ r, s.strobe q ≠ .presented r) : s.acceptWaiting q = s := by
  unfold State.acceptWaiting
  split
  · rename_i r hr
    rw [if_pos]
    rcases h with h | h | h
    · simp [h]
    · simp [h]
    · exact absurd hr (h r)
  · rfl

/-- A waiting request is accepted at an empty request place out of reset (R41). -/
theorem acceptWaiting_takes {s : State} {q : Port} {r : PortRequest} (hn : s.inReset = false) (hi : s.port q = .idle)
    (hp : s.strobe q = .presented r) : s.acceptWaiting q = s.accept q r := by
  unfold State.acceptWaiting
  rw [hp]
  simp [hn, hi]

/-- The four ports in their order (R94). -/
theorem acceptAll_eq (s : State) :
    s.acceptAll = (((s.acceptWaiting .p).acceptWaiting .c1).acceptWaiting .c2).acceptWaiting .c3 := rfl

/-- No acceptance in reset (R61). -/
theorem acceptAll_inReset {s : State} (h : s.inReset = true) : s.acceptAll = s := by
  rw [acceptAll_eq]
  repeat rw [acceptWaiting_stays (.inl h)]

/-- No acceptance where no strobe is raised. -/
theorem acceptAll_low {s : State} (h : ∀ q r, s.strobe q ≠ .presented r) : s.acceptAll = s := by
  rw [acceptAll_eq]
  repeat rw [acceptWaiting_stays (.inr (.inr (h _)))]

/-! ### What an acceptance can do -/

/-- A request is sent: its port alone changes, and its strobe stays. -/
theorem sendRequest_port (s : State) {q o : Port} (d : Station) (r : Request) (t : Tag) (h : o ≠ q) :
    (s.sendRequest q d r t).port o = s.port o := by
  simp only [State.sendRequest]
  split
  · rw [port_complete, if_neg h]; rfl
  · rw [port_setPort, if_neg h]; rfl

/-- An acceptance leaves the other ports' request places alone. -/
theorem accept_port (s : State) {q o : Port} (r : PortRequest) (h : o ≠ q) : (s.accept q r).port o = s.port o := by
  have hs : ∀ x, (s.setStrobe q x).port o = s.port o := fun _ => rfl
  simp only [State.accept]
  split
  · rename_i hc
    have hq : q = .p := by unfold pinsControl at hc; simp_all
    subst hq
    unfold State.acceptControl State.refuse
    simp only
    repeat' split
    all_goals first
      | (rw [port_complete, if_neg h]; rfl)
      | (rename_i it _ _
         cases it <;> simp only [State.controlRead, State.controlWrite] <;>
           first | (rw [port_complete, if_neg h]; rfl) | (rw [port_setPort, if_neg h]; rfl))
  · unfold State.acceptMemory State.route State.refuse
    simp only
    repeat' split
    all_goals first
      | (rw [port_complete, if_neg h]; rfl)
      | (rw [port_setPort, if_neg h]; rfl)
      | (rw [sendRequest_port _ _ _ _ h]; rfl)

/-- After an acceptance the strobe of the port carries an accepted request; the others stay (R41). -/
theorem accept_strobe (s : State) (q o : Port) (r : PortRequest) :
    (s.accept q r).strobe o = if o = q then .accepted r else s.strobe o := by
  rw [← strobe_setStrobe]
  apply strobe_of_strobes
  simp only [State.accept]
  split <;> simp

/-- The other ports do not see an acceptance. -/
theorem acceptWaiting_port (s : State) {q o : Port} (h : o ≠ q) : (s.acceptWaiting q).port o = s.port o := by
  unfold State.acceptWaiting
  repeat' split
  · rfl
  · exact accept_port s _ h
  · rfl

theorem acceptWaiting_strobe (s : State) {q o : Port} (h : o ≠ q) : (s.acceptWaiting q).strobe o = s.strobe o := by
  unfold State.acceptWaiting
  repeat' split
  · rfl
  · rw [accept_strobe, if_neg h]
  · rfl

/-- After its turn no request waits at an empty request place of the port, out of reset (R41). -/
theorem acceptWaiting_served (s : State) (q : Port) (r : PortRequest) (hn : s.inReset = false)
    (hp : (s.acceptWaiting q).strobe q = .presented r) : (s.acceptWaiting q).port q ≠ .idle := by
  by_cases hw : ∃ r', s.strobe q = .presented r'
  · obtain ⟨r', hr⟩ := hw
    by_cases hi : s.port q = .idle
    · rw [acceptWaiting_takes hn hi hr, accept_strobe, if_pos rfl] at hp
      cases hp
    · rwa [acceptWaiting_stays (.inr (.inl hi))]
  · rw [acceptWaiting_stays (.inr (.inr fun r' hr => hw ⟨r', hr⟩))] at hp
    exact absurd ⟨r, hp⟩ hw

end Sys2Proof.Machine
end

