-- ==== Sys2Proof/Laws/Ring.lean ====
section
/-! SUPPORT. Fields of made frames, and what an exit from ONLINE does to entries, ports and notices. -/

namespace Sys2Proof.Machine

/-! ### Made frames -/

/-- A field of bytes 0 to 13 of a made frame lies in its body. -/
theorem field_sealed (body : BitVec 112) (byte lsb len : Nat) (h : byte ≤ 13) :
    Frame.field (Frame.sealed body) byte lsb len = body.extractLsb' (8 * (13 - byte) + lsb) len := by
  unfold Frame.sealed Frame.field
  ext i hi
  simp only [BitVec.getElem_extractLsb', BitVec.getLsbD_append]
  have h1 : ¬ (8 * (15 - byte) + lsb + i < 16) := by omega
  have h2 : 8 * (15 - byte) + lsb + i - 16 = 8 * (13 - byte) + lsb + i := by omega
  simp [h1, h2]

/-- A made frame has its body. -/
theorem body_sealed (body : BitVec 112) : Frame.body (Frame.sealed body) = body := by
  unfold Frame.sealed Frame.body
  ext i hi
  simp only [BitVec.getElem_extractLsb', BitVec.getLsbD_append]
  have h1 : ¬ (16 + i < 16) := by omega
  simp [h1, BitVec.getLsbD_eq_getElem hi]

/-- A made frame passes the check of R14. -/
theorem checked_sealed (body : BitVec 112) : Frame.checked (Frame.sealed body) = true := by
  have h : (Frame.sealed body).extractLsb' 0 16 = checkSequence body := by
    unfold Frame.sealed
    ext i hi
    simp only [BitVec.getElem_extractLsb', BitVec.getLsbD_append]
    simp [hi]
  simp [Frame.checked, body_sealed, h]

/-- A probe is a LOOP frame. -/
theorem kind_loopFrame (own : Station) (serial : Serial) : Frame.kind (loopFrame own serial) = some .loop := by
  have : Frame.field (loopFrame own serial) 0 4 4 = 4#4 := by
    unfold loopFrame
    rw [field_sealed _ _ _ _ (by omega)]
    ext i hi
    simp only [BitVec.getElem_extractLsb', BitVec.getLsbD_append]
    interval_cases i <;> simp
  unfold Frame.kind
  rw [this]
  decide

/-! ### The exit from ONLINE -/

/-- One entry after one step of the exit. -/
theorem endIfWaiting_entry (s : State) (a t : Tag) :
    (s.endIfWaiting a).entry t =
      if t = a then (s.entry t).filter (fun e => e.state == .stale) else s.entry t := by
  unfold State.endIfWaiting
  cases hs : s.entry a with
  | none =>
    by_cases ha : t = a
    · subst ha; simp [hs]
    · simp [ha]
  | some e =>
    by_cases hst : e.state = .stale
    · by_cases ha : t = a
      · subst ha; simp [hs, hst, Option.filter]
      · simp [ha, hst]
    · simp only [hst, if_false]
      unfold State.endEntry
      rw [entry_of_outstanding (s := s.setEntry a none) (by simp), entry_setEntry]
      by_cases ha : t = a
      · subst ha; simp [hs, hst, Option.filter]
      · simp [ha]

/-- The entries after the exit: STALE ones alone (R79, R80). -/
theorem ringDown_entry (s : State) (t : Tag) :
    s.ringDown.entry t = (s.entry t).filter (fun e => e.state == .stale) := by
  have h1 : s.ringDown.outstanding = (allTags.foldl State.endIfWaiting s).outstanding := by
    unfold State.ringDown
    exact foldl_keeps _ State.outstanding (by simp) _ _
  rw [entry_of_outstanding h1]
  have key : ∀ (l : List Tag) (s : State), (l.foldl State.endIfWaiting s).entry t =
      if t ∈ l then (s.entry t).filter (fun e => e.state == .stale) else s.entry t := by
    intro l
    induction l with
    | nil => intro s; rfl
    | cons a l ih =>
      intro s
      rw [List.foldl_cons, ih, endIfWaiting_entry]
      by_cases ha : t = a
      · subst ha; simp [Option.filter_filter]
      · simp [ha]
  rw [key]
  simp [mem_allTags]

/-- A port was given RING_DOWN `n` times. -/
def toldDown (s t : State) (q : Port) (n : Nat) : Prop :=
  portGet t.completions q = portGet s.completions q ++ List.replicate n ⟨.ringDown, [0], false⟩
    ∧ t.port q = if n = 0 then s.port q else .idle

theorem toldDown_none (s : State) (q : Port) : toldDown s s q 0 := by simp [toldDown]

theorem toldDown_complete (s : State) (q : Port) : toldDown s (s.complete q (plainCompletion .ringDown)) q 1 := by
  simp [toldDown, port_complete, plainCompletion]

theorem toldDown_other (s : State) {q r : Port} (c : Completion) (h : r ≠ q) : toldDown s (s.complete q c) r 0 := by
  simp [toldDown, port_complete, h, portGet_set_ne]

theorem toldDown_trans {s t u : State} {q : Port} {n m : Nat} (h : toldDown s t q n) (k : toldDown t u q m) :
    toldDown s u q (n + m) := by
  refine ⟨by rw [k.1, h.1, List.append_assoc, List.replicate_append_replicate], ?_⟩
  rw [k.2, h.2]
  by_cases hm : m = 0
  · subst hm; simp
  · simp [hm]

/-- One entry's end seen from a port. -/
theorem endIfWaiting_port (s : State) (a : Tag) (q : Port) :
    toldDown s (s.endIfWaiting a) q (if s.waitsFor q a then 1 else 0) := by
  unfold State.endIfWaiting State.waitsFor
  cases s.entry a with
  | none => exact toldDown_none s q
  | some e =>
    by_cases hst : e.state = .stale
    · simpa [hst] using toldDown_none s q
    · simp only [hst, if_false, State.endEntry, State.reportEnd]
      by_cases hp : e.posted = true
      · simp [hp, plainCompletion, toldDown, State.port]
      · by_cases hq : e.port = q
        · subst hq
          have h : toldDown s _ e.port 1 := toldDown_complete (s.setEntry a none) e.port
          simpa [hst, hp] using h
        · have h : toldDown s _ q 0 := toldDown_other (s.setEntry a none) (plainCompletion .ringDown) (Ne.symm hq)
          simpa [hst, hp, hq] using h

/-- All the entries' ends seen from one port. -/
theorem endAll_port (q : Port) (l : List Tag) (hl : l.Nodup) (s : State) :
    toldDown s (l.foldl State.endIfWaiting s) q (l.countP (s.waitsFor q)) := by
  induction l generalizing s with
  | nil => exact toldDown_none s q
  | cons a l ih =>
    rw [List.nodup_cons] at hl
    have same : l.countP ((s.endIfWaiting a).waitsFor q) = l.countP (s.waitsFor q) := by
      refine List.countP_congr fun t ht => ?_
      have : t ≠ a := fun e => hl.1 (e ▸ ht)
      simp [State.waitsFor, endIfWaiting_entry, this]
    have h := toldDown_trans (endIfWaiting_port s a q) (ih hl.2 (s.endIfWaiting a))
    rw [same] at h
    rw [List.foldl_cons, List.countP_cons, Nat.add_comm]
    exact h

/-- A request in TO_SEND, counted. -/
def toSendCount : PortState → Nat
  | .toSend _ _ => 1
  | _ => 0

theorem endToSend_port (s : State) (a q : Port) :
    toldDown s (s.endToSend a) q (if q = a then toSendCount (s.port q) else 0) := by
  unfold State.endToSend
  split
  · rename_i d r hp
    by_cases hq : q = a
    · subst hq
      simpa [hp, toSendCount] using toldDown_complete s q
    · simpa [hq] using toldDown_other s (plainCompletion .ringDown) hq
  · rename_i hn
    by_cases hq : q = a
    · subst hq
      have : toSendCount (s.port q) = 0 := by
        unfold toSendCount
        split
        · rename_i d r hp; exact absurd hp (hn d r)
        · rfl
      simpa [this] using toldDown_none s q
    · simpa [hq] using toldDown_none s q

/-- The waiting ports' ends seen from one port. -/
theorem endPorts_port (q : Port) (l : List Port) (hl : l.Nodup) (s : State) :
    toldDown s (l.foldl State.endToSend s) q (if q ∈ l then toSendCount (s.port q) else 0) := by
  induction l generalizing s with
  | nil => exact toldDown_none s q
  | cons a l ih =>
    rw [List.nodup_cons] at hl
    have h1 := endToSend_port s a q
    have h := toldDown_trans h1 (ih hl.2 (s.endToSend a))
    rw [List.foldl_cons]
    by_cases hq : q = a
    · subst hq
      simpa [hl.1] using h
    · have hp : (s.endToSend a).port q = s.port q := by simpa [hq] using h1.2
      simpa [hq, hp] using h

/-- The ports after the exit (R55, R79). -/
theorem ringDown_ports (s : State) (q : Port) : toldDown s s.ringDown q (s.lostRequests q) := by
  unfold State.ringDown
  have h1 := endAll_port q allTags (by decide) s
  have h2 := endPorts_port q (portsFrom .p) (by decide) (allTags.foldl State.endIfWaiting s)
  have h := toldDown_trans h1 h2
  rw [if_pos (mem_portsFrom _ _), h1.2] at h
  unfold State.lostRequests
  by_cases hc : allTags.countP (s.waitsFor q) = 0
  · rw [if_pos hc]
    rw [if_pos hc, hc, Nat.zero_add] at h
    exact h
  · rw [if_neg hc]
    rw [if_neg hc] at h
    exact h

/-- The notice queue, LOST and attention after several notices. -/
theorem placeNotices (l : List Notice) (s : State) (h : s.notices.length ≤ 8) :
    (l.foldl State.placeNotice s).notices = (s.notices ++ l).take 8
      ∧ (l.foldl State.placeNotice s).lost = (s.lost || decide (8 < (s.notices ++ l).length)) := by
  induction l generalizing s with
  | nil =>
    simp only [List.foldl_nil, List.append_nil, List.take_of_length_le h, true_and]
    simp [Nat.not_lt.2 h]
  | cons n l ih =>
    rw [List.foldl_cons]
    by_cases hn : s.notices.length < 8
    · have hs : (s.placeNotice n).notices = s.notices ++ [n] := by simp [Config.noticePlaces, hn]
      have hl : (s.placeNotice n).lost = s.lost := by simp [Config.noticePlaces, hn]
      obtain ⟨h1, h2⟩ := ih (s.placeNotice n) (by rw [hs]; simp; omega)
      rw [h1, h2, hs, hl]
      simp
    · have h8 : s.notices.length = 8 := by omega
      have hs : (s.placeNotice n).notices = s.notices := by simp [Config.noticePlaces, h8]
      have hl : (s.placeNotice n).lost = true := by simp [Config.noticePlaces, h8]
      obtain ⟨h1, h2⟩ := ih (s.placeNotice n) (by rw [hs]; omega)
      rw [h1, h2, hs, hl]
      have e1 : ∀ m : List Notice, (s.notices ++ m).take 8 = s.notices := by
        intro m
        rw [List.take_append_of_le_length (by omega), List.take_of_length_le (by omega)]
      simp [e1, h8]

/-- Placed notices depend on the notice logic alone. -/
theorem placeNotices_congr (l : List Notice) (u v : State) (h1 : u.notices = v.notices) (h2 : u.lost = v.lost) :
    (l.foldl State.placeNotice u).notices = (l.foldl State.placeNotice v).notices
      ∧ (l.foldl State.placeNotice u).lost = (l.foldl State.placeNotice v).lost := by
  induction l generalizing u v with
  | nil => exact ⟨h1, h2⟩
  | cons n l ih => exact ih _ _ (by simp [h1]) (by simp [h1, h2])

/-- The notice that the end of one entry places (R79). -/
def lostWrite (s : State) (t : Tag) : Option Notice :=
  match s.entry t with
  | some e =>
    if e.state ≠ .stale ∧ e.posted = true then
      some (.postedFail e.port t e.target e.request.page e.request.offset .ringDown)
    else none
  | none => none

/-- One entry's end seen from the notice logic. -/
theorem endIfWaiting_notices (s : State) (a : Tag) :
    (s.endIfWaiting a).notices = ((lostWrite s a).toList.foldl State.placeNotice s).notices
      ∧ (s.endIfWaiting a).lost = ((lostWrite s a).toList.foldl State.placeNotice s).lost := by
  unfold State.endIfWaiting lostWrite
  cases s.entry a with
  | none => exact ⟨rfl, rfl⟩
  | some e =>
    by_cases hst : e.state = .stale
    · simp [hst]
    · cases hp : e.posted
      · simp [hst, hp, State.endEntry, State.reportEnd, plainCompletion]
      · by_cases hn : s.notices.length < Config.noticePlaces <;>
          simp [hst, hp, hn, State.endEntry, State.reportEnd, plainCompletion]

/-- All the entries' ends seen from the notice logic. -/
theorem endAll_notices (s : State) (l : List Tag) (hl : l.Nodup) (u : State) (hu : ∀ t ∈ l, u.entry t = s.entry t) :
    (l.foldl State.endIfWaiting u).notices = ((l.filterMap (lostWrite s)).foldl State.placeNotice u).notices
      ∧ (l.foldl State.endIfWaiting u).lost = ((l.filterMap (lostWrite s)).foldl State.placeNotice u).lost := by
  induction l generalizing u with
  | nil => exact ⟨rfl, rfl⟩
  | cons a l ih =>
    rw [List.nodup_cons] at hl
    obtain ⟨h1, h2⟩ := ih hl.2 (u.endIfWaiting a) (fun t ht => by
      have : t ≠ a := fun e => hl.1 (e ▸ ht)
      rw [endIfWaiting_entry, if_neg this]
      exact hu t (by simp [ht]))
    obtain ⟨n1, n2⟩ := endIfWaiting_notices u a
    obtain ⟨c1, c2⟩ := placeNotices_congr (l.filterMap (lostWrite s)) _ _ n1 n2
    have ha : lostWrite u a = lostWrite s a := by simp [lostWrite, hu a (by simp)]
    rw [List.foldl_cons, h1, h2, c1, c2, ha, List.filterMap_cons]
    cases lostWrite s a <;> exact ⟨rfl, rfl⟩

/-- The notices of the exit (R79, R168). -/
theorem ringDown_notices (s : State) (h : s.notices.length ≤ 8) :
    s.ringDown.notices = (s.notices ++ s.lostWrites).take 8
      ∧ s.ringDown.lost = (s.lost || decide (8 < (s.notices ++ s.lostWrites).length)) := by
  have e1 : s.ringDown.notices = (allTags.foldl State.endIfWaiting s).notices := by
    unfold State.ringDown
    exact foldl_keeps _ State.notices (by simp) _ _
  have e2 : s.ringDown.lost = (allTags.foldl State.endIfWaiting s).lost := by
    unfold State.ringDown
    exact foldl_keeps _ State.lost (by simp) _ _
  obtain ⟨k1, k2⟩ := endAll_notices s allTags (by decide) s (fun _ _ => rfl)
  rw [e1, e2, k1, k2]
  exact placeNotices _ s h

end Sys2Proof.Machine
end

