-- ==== Sys2Proof/WellFormed.lean ====
section
/-! DEFINITION. The well-formed commands: the ones the pins and links can bring. -/

namespace Sys2Proof

/-- The pins a port has: a channel port has no bulk kind, count, privilege or control-select pins (R40),
so a command carries them as 0. -/
def PortRequest.wellFormed (port : Port) (r : PortRequest) : Bool :=
  match port with
  | .p => true
  | _ => r.bulkKind == 0 && r.count == 0 && !r.privileged && !r.control

/-- A frame whose KIND is the row's. -/
def Frame.isKind (k : Kind) (f : Frame) : Bool := Frame.kind f == some k

/-- An arrival row brings a frame of its kind; an acceptance brings pins its port has. -/
def Instr.wellFormed : Instr → Bool
  | .loopArrival f => Frame.isKind .loop f
  | .reqArrival f => Frame.isKind .req f
  | .ansArrival f => Frame.isKind .ans f
  | .doneArrival f => Frame.isKind .done f
  | .acceptance port pins => pins.all (PortRequest.wellFormed port)
  | .coldResetAssertion | .coldResetRelease _ | .warmResetAssertion | .warmResetRelease _
  | .lossOfCarrier | .returnOfCarrier | .probeTimerExpiry | .probeClaim | .sendingEnd | .send _
  | .answerTimerExpiry _ | .backoffTimerExpiry _ | .resendClaim _ | .quarantineExpiry _
  | .refreshTimerExpiry | .refresh | .refreshEnd | .read | .write | .holdRead | .commit
  | .bulkStart | .bulkQuery | .bulkAbort | .wordOperationEnd | .holdTimerExpiry _ | .bulkStep
  | .bulkStepEnd | .noticeRead | .statusRead | .windowWrite | .controlSpaceWrite
  | .throughFrameArrival _ => true

end Sys2Proof
end

