-- ==== Sys2Proof/Tests/Slice0.lean ====
section
/-! SUPPORT. The model's own tests: the well-formedness smoke tests, frames written out byte by byte, single steps, and
for each statement with hypotheses a state and operands that meet them. -/

namespace Sys2Proof.Tests

open Sys2Proof.Machine

set_option Elab.async false

/-! ### Small stations and frames -/

/-- Request pins with nothing on them. -/
def noPins : PortRequest := ⟨0, 0, 0, 0, 0, 0, 0, 0, false, false⟩

/-- The words of the tests: clean, one wrong bit and guarded, two wrong bits, guarded, and the last word of page 7. -/
def bank : Memory :=
  [(0, ⟨7, false, 0⟩), (1, ⟨7, true, 1⟩), (2, ⟨7, false, 3⟩), (3, ⟨7, true, 0⟩), (8191, ⟨8, false, 1⟩),
    (65535, ⟨9, false, 0⟩)]

/-- Station 1 in ONLINE with GUARD_ON and that bank. -/
def online : State :=
  { State.reset with ringInCarrier := true, ringState := .online, straps := ⟨1, 0, true, false⟩, mem := bank }

/-- The same station in another ring state. -/
def ringIn (st : RingState) : State := { online with ringState := st, ringInCarrier := decide (st ≠ .broken) }

/-- A port in a state of its own. -/
def withPort (s : State) (q : Port) (st : PortState) : State := { s with ports := portSet s.ports q st }

/-- One request waits for the own bank. -/
def asks (q : Port) (r : Request) : State := withPort online q (.atBank r)

/-- A port's strobe raised with these pins. -/
def presents (s : State) (q : Port) (r : PortRequest) : State := s.setStrobe q (.presented r)

/-- A request on page 0. -/
def at0 (c : Command) (privileged : Bool) (offset : Offset) : Request := ⟨c, privileged, 0, offset⟩

/-- What a port's request is when it is taken for service. -/
def takenFrom (q : Port) (r : Request) : Taken := ⟨.port q, ⟨1, q⟩, some r⟩

/-- One hold on page 0, in the last slot. -/
def held (s : State) (offset : Offset) (holder : Holder) : State :=
  { s with holds := s.holds.set 5 (some ⟨0, offset, holder, 64, false⟩) }

/-- The transmit queue full of probes. -/
def fullTransmit (s : State) : State := { s with transmit := List.replicate 6 (loopFrame 1 0) }

/-- Six holds on words of page 1. -/
def allHeld (s : State) : State :=
  { s with
    holds :=
      (((((s.holds.set 0 (some ⟨1, 0, ⟨2, .p⟩, 64, false⟩)).set 1 (some ⟨1, 1, ⟨2, .p⟩, 64, false⟩)).set 2
        (some ⟨1, 2, ⟨2, .p⟩, 64, false⟩)).set 3 (some ⟨1, 3, ⟨2, .p⟩, 64, false⟩)).set 4
          (some ⟨1, 4, ⟨2, .p⟩, 64, false⟩)).set 5 (some ⟨1, 5, ⟨2, .p⟩, 64, false⟩) }

/-- The READ of station 2, port P, tag 15 for page 0. -/
def readFrame (offset : Offset) : Frame := reqFrame 2 1 15 .p (at0 .read true offset)

/-- An outstanding READ of C1 at station 2, under tag 15. -/
def waitingEntry (st : EntryState) (attempts : Nat) (posted : Bool) (timer : Option Nat) : Entry where
  state := st
  port := .c1
  target := 2
  request := at0 (if posted then .write 15 1 .keep else .read) false 0
  posted := posted
  attempts := attempts
  timer := timer

/-- ONLINE with one outstanding entry, under tag 15. -/
def awaiting (e : Entry) : State :=
  { online with
    outstanding := online.outstanding.set 15 (some e)
    ports := if e.posted then online.ports else portSet online.ports .c1 (.inFlight 2 e.request) }

/-- The answer of station 2 to that entry. -/
def answerOf (st : Status) : Frame := ansFrame 2 1 15 .c1 st (.word true 5)

/-- A job of a processor. -/
def job (kind : BulkKind) (owner : Station) (offset : Offset) (remaining : Nat) (privileged : Bool) : Job :=
  ⟨⟨owner, .p⟩, none, kind, privileged, 0, offset, remaining, 7, 0, 0, 0, 0, none⟩

/-- ONLINE with a job, and the engine first in the rotation. -/
def working (j : Job) : State := { online with bulk := some j, rotation := .bulk }

/-- The step of a job, on word 0, that holds the bank. -/
def stepGrant (mismatch orphan : Bool) : StepGrant := ⟨0, none, false, false, false, mismatch, false, orphan⟩

/-- The answer of a step, if it is a next state. -/
def after (x : Host.Outcome State Fault Refusal) : Option State :=
  match x with
  | .next t => some t
  | _ => none

/-- No slot holds the word, as a computation. -/
theorem unheld_of {s : State} {r : Request}
    (h : ∀ i, (s.slot i).any (fun k => k.page == r.page && k.offset == r.offset) = false) : s.Unheld r := by
  intro i k hk hw
  have hi := h i
  rw [hk] at hi
  simp [hw.1, hw.2] at hi

/-- Slot 5 alone holds the word, as a computation. -/
theorem heldIn_of {s : State} {r : Request} {k : Hold} (hk : s.slot 5 = some k)
    (hw : k.page = r.page ∧ k.offset = r.offset)
    (h : ∀ i, i ≠ 5 → (s.slot i).any (fun k => k.page == r.page && k.offset == r.offset) = false) :
    s.HeldIn r 5 k := by
  refine ⟨hk, hw.1, hw.2, fun i j hj hp ho => ?_⟩
  by_contra hi
  have := h i hi
  rw [hj] at this
  simp [hp, ho] at this

/-! ### Well-formed commands -/

theorem test_wellFormed_loopArrival_refuses_req : Instr.wellFormed (.loopArrival (readFrame 0)) = false := by
  decide +kernel

theorem test_wellFormed_reqArrival_refuses_loop : Instr.wellFormed (.reqArrival (loopFrame 1 0)) = false := by
  decide +kernel

theorem test_wellFormed_ansArrival_refuses_unused_kind : Instr.wellFormed (.ansArrival 0) = false := by decide +kernel

theorem test_wellFormed_doneArrival_refuses_ans : Instr.wellFormed (.doneArrival (answerOf .ok)) = false := by
  decide +kernel

theorem test_wellFormed_channel_has_no_bulk_kind :
    Instr.wellFormed (.acceptance .c1 (some { noPins with bulkKind := 3 })) = false := by decide

theorem test_wellFormed_channel_has_no_count :
    Instr.wellFormed (.acceptance .c2 (some { noPins with count := 8192 })) = false := by decide

theorem test_wellFormed_channel_has_no_privilege :
    Instr.wellFormed (.acceptance .c3 (some { noPins with privileged := true })) = false := by decide

theorem test_wellFormed_channel_has_no_control :
    Instr.wellFormed (.acceptance .c1 (some { noPins with control := true })) = false := by decide

theorem test_wellFormed_accepts :
    Instr.wellFormed (.acceptance .p
          (some { noPins with control := true, privileged := true, count := 1, bulkKind := 1 })) = true
      ∧ Instr.wellFormed (.acceptance .c3 (some { noPins with op := 1, window := 31, offset := 8191 })) = true
      ∧ Instr.wellFormed (.acceptance .c1 none) = true
      ∧ Instr.wellFormed (.reqArrival (readFrame 8191)) = true := by decide +kernel

/-! ### Frames written out from the layouts of chapter 2 -/

/-- KIND 4, ORIGIN 1, SERIAL 2 (R27, R36, R37). -/
theorem test_frame_loop : loopFrame 1 2 = 0x40010002000000000000000000006705 := by decide +kernel

/-- A WRITE from station 1, port C3, tag 15 to lanes 0 and 3 of 31:8191 of station 2 (R27, R28). -/
theorem test_frame_write :
    reqFrame 1 2 15 .c3 ⟨.write 9 0xDEADBEEF .keep, false, 31, 8191⟩ = 0x1221FC091F1FFFDEADBEEF0000004323 := by
  decide +kernel

/-- A FILL of all of page 4 of station 7 from port P of station 1, tag 3 (R27, R28). -/
theorem test_frame_fill :
    reqFrame 1 7 3 .p ⟨.bulkStart .fill 1 8192, true, 4, 0⟩ = 0x1571320004000000000001200001DF4A := by
  decide +kernel

/-- The answer CORRECTED of station 2 to C3 of station 1 (R27, R31). -/
theorem test_frame_answer :
    ansFrame 2 1 15 .c3 .corrected (.word true 0x80000001) = 0x2112FD000000008000000100000035E3 := by decide +kernel

/-- A frame with one bit turned fails its check (R14). -/
theorem test_frame_damaged : Frame.checked (loopFrame 1 2 ^^^ 1) = false := by decide +kernel

/-! ### Single steps -/

/-- A tick takes one µs off the timers, and the refresh timer that reaches 0 raises its claim (R88). -/
theorem test_step_tick :
    (after (step { held State.reset 3 ⟨2, .p⟩ with refreshTimer := some 1 })).map
        (fun t => (t.refreshTimer, t.refreshClaim, (t.slot 5).map Hold.timer)) =
      some (some 10, true, some 63) := by decide +kernel

/-- A hold that ends at a tick: what waited on it is READY, and the engine runs (R136). -/
theorem test_step_tick_ends_a_hold :
    (after (step
      { State.reset with
        holds := State.reset.holds.set 5 (some ⟨0, 0, ⟨2, .p⟩, 1, false⟩)
        deferred := [⟨3, .p, 0, at0 .read true 0, .waiting 5⟩]
        bulk := some { job .fill 1 0 1 true with slot := some 5 } })).map
        (fun t => (t.slot 5, t.deferred.map Deferred.state, t.bulk.bind Job.slot)) =
      some (none, [.ready], none) := by decide +kernel

/-- The command at the front runs and leaves the queue; the probe of the entry into PROBING is placed and being sent
within the same step (R5, R6, R21). -/
theorem test_step_front :
    let u := after (step { State.reset with pending := [.returnOfCarrier, .refresh] })
    u.map (fun t => (t.pending, t.ringState, t.probeTimer, t.probeClaim)) = some ([.refresh], .probing, some 100, false)
      ∧ u.map (fun t => (t.transmit, t.ringOut, t.recentProbes)) = some ([loopFrame 0 0], .transmit, [0]) := by
  decide +kernel

/-- A tick at which the probe timer expires places a probe (R7). -/
theorem test_step_tick_probes :
    (after (step { ringIn .probing with probeTimer := some 1, probeSerial := 255, recentProbes := [254] })).map
        (fun t => (t.probeTimer, t.probeClaim, t.probeSerial, t.recentProbes, t.transmit)) =
      some (some 100, false, 0, [254, 255], [loopFrame 1 255]) := by decide +kernel

/-- At a full transmit queue the claim waits, for the end of a sending and PROBE_CLAIM (R6, R7). -/
theorem test_step_probe_waits :
    let u := after (exec .probeTimerExpiry
      { fullTransmit (ringIn .probing) with probeTimer := some 1, ringOut := .transmit })
    u.map (fun t => (t.probeClaim, t.transmit.length)) = some (true, 6)
      ∧ ((u.bind fun t => after (exec .sendingEnd t)).bind fun t => after (exec .probeClaim t)).map
          (fun t => (t.probeClaim, t.transmit.length, t.recentProbes)) = some (false, 6, [0]) := by decide +kernel

/-- A READ of a word with one wrong bit: CORRECTED, with the data and the guard bit (R86, R99). -/
theorem test_step_read :
    ((after (exec .read (asks .p (at0 .read true 1)))).bind fun t => after (exec .wordOperationEnd t)).map
        (fun u => (portGet u.completions .p, u.port .p)) =
      some ([⟨.answer .corrected, [7], true⟩], .idle) := by decide +kernel

/-- A plain WRITE to a guarded word with GUARD_ON writes nothing (R113). -/
theorem test_step_guarded_write :
    ((after (exec .write (asks .c1 (at0 (.write 15 1 .keep) false 3)))).bind fun t =>
        after (exec .wordOperationEnd t)).map (fun u => (portGet u.completions .c1, u.mem)) =
      some ([⟨.answer .guardFault, [0], false⟩], bank) := by decide +kernel

/-- A HOLD_READ makes a hold in slot 0 with 64 µs (R121, R122, R130). -/
theorem test_step_hold_read :
    ((after (exec .holdRead (asks .p (at0 .holdRead true 0)))).bind fun t => after (exec .wordOperationEnd t)).map
        (fun u => u.slot 0) = some (some ⟨0, 0, ⟨1, .p⟩, 64, false⟩) := by decide +kernel

/-- A COMMIT to lane 0 merges and ends the hold (R132, R133). -/
theorem test_step_commit :
    ((after (exec .commit (held (asks .p (at0 (.commit 1 0x1FF .keep) true 0)) 0 ⟨1, .p⟩))).bind fun t =>
        after (exec .wordOperationEnd t)).map (fun u => (u.slot 5, u.word 0)) =
      some (none, ⟨255, false, 0⟩) := by decide +kernel

/-- A single remaining CHECK step on a word that differs ends the job with a notice (R158, R162). -/
theorem test_step_check_mismatch :
    ((after (exec .bulkStep (working (job .check 1 8191 1 true)))).bind fun t => after (exec .bulkStepEnd t)).map
        (fun u => (u.bulk, u.notices)) =
      some (none, [.bulkDone 1 .p .check .mismatch ⟨1, 0, 1, 0⟩ (some 8191)]) := by decide +kernel

/-- A request that waits on the pins is accepted as the one before it completes, here to be refused (R41, R59). -/
theorem test_step_waiting_request :
    ((after (exec .read (presents (asks .p (at0 .read true 1)) .p { noPins with op := 1 }))).bind fun t =>
        after (exec .wordOperationEnd t)).map (fun u => (portGet u.completions .p, u.strobe .p)) =
      some ([⟨.answer .corrected, [7], true⟩, ⟨.noWindow, [0], false⟩], .accepted { noPins with op := 1 }) := by
  decide +kernel

/-- A strobe still raised after its request was accepted presents no other, and one lowered and raised does (R41). -/
theorem test_step_strobe_once :
    ((after (exec (.acceptance .c1 (some noPins)) online)).bind fun t =>
        after (exec (.acceptance .c1 (some noPins)) t)).map (fun u => (portGet u.completions .c1).length) = some 1
      ∧ (((after (exec (.acceptance .c1 (some noPins)) online)).bind fun t =>
          after (exec (.acceptance .c1 none) t)).bind fun u => after (exec (.acceptance .c1 (some noPins)) u)).map
          (fun v => (portGet v.completions .c1).length) = some 2 := by decide +kernel

/-- The request of a strobe raised in reset is accepted at the release (R61). -/
theorem test_step_release_accepts :
    ((after (exec .warmResetAssertion online)).bind fun t => (after (exec (.acceptance .c3 (some noPins)) t)).bind fun u =>
        after (exec (.warmResetRelease ⟨1, 0, true, false⟩) u)).map
        (fun v => (portGet v.completions .c3, v.strobe .c3)) =
      some ([⟨.badRequest, [0], false⟩], .accepted noPins) := by decide +kernel

/-- A word with three wrong bits gives one of the three results, a result with its stored bits or one of them changed
(R86). -/
theorem test_three_wrong_bits : checkWord ⟨0, false, 7⟩ = misread ⟨0, false, 7⟩ := rfl

/-- An internal event that cannot happen stops by name (log entry 4). -/
theorem test_step_stops :
    exec .read online = .fault .notTheChoice ∧ exec .sendingEnd online = .fault .nothingUnderWay := ⟨rfl, rfl⟩

/-- The table spells no command. -/
theorem test_no_table_words : decodeTableWord 32 5 = none ∧ State.withFetchWord online 32 5 = online := ⟨rfl, rfl⟩

/-! ### The hypotheses of the statements are met

One theorem for each statement with hypotheses, named after it: for each of its clauses a state and operands that meet
the clause's hypotheses together. -/

theorem test_met_IdleStepIsOneMicrosecond :
    (∀ x ∈ [(EntryState.waitingAnswer, some 2), (.waitingAnswer, some 1), (.waitingAnswer, some 0),
        (.waitingResend, some 1), (.waitingResend, none), (.stale, some 1)],
      ∀ posted,
        let e := waitingEntry x.1 0 posted x.2
        (awaiting e).pending = [] ∧ (awaiting e).entry 15 = some e ∧ e.timer = x.2 ∧ e.state = x.1)
      ∧ (∀ r, (awaiting (waitingEntry .waitingAnswer 0 false (some 1))).strobe .c1 ≠ .presented r)
      ∧ (∀ u, online.entry u = none) ∧ online.pending = []
      ∧ State.probeTimer { ringIn .probing with probeTimer := some 1 } = some 1 ∧ (ringIn .probing).probeClaim = false
      ∧ (fullTransmit (ringIn .probing)).placesTaken = 6 :=
  ⟨by decide +kernel, fun _ h => (by cases h), by decide +kernel, by decide +kernel⟩

theorem test_met_ColdResetAssertionClearsWorkingState :
    State.coldReset { online with coldReset := true } = true ∧ online.coldReset = false
      ∧ grantAddress online.grant ≠ some 65535 := by decide +kernel

theorem test_met_WarmResetAssertionKeepsTheBank :
    State.warmReset { online with warmReset := true } = true
      ∧ State.warmReset { online with grant := .refresh } = false
      ∧ State.grant { online with grant := .step (stepGrant false false) } = .step (stepGrant false false)
      ∧ State.grant { online with grant := .word ⟨.port .p, refusal .ok .keep, false, false⟩ } =
        .word ⟨.port .p, refusal .ok .keep, false, false⟩ := by decide +kernel

theorem test_met_ResetReleaseStartsTheStation :
    State.coldReset { State.reset with coldReset := true } = true
      ∧ State.warmReset { State.reset with warmReset := true } = true
      ∧ (online.coldReset = false ∧ online.warmReset = false)
      ∧ (State.reset.coldReset = false ∧ State.reset.warmReset = false ∧ State.reset.ringInCarrier = false
        ∧ ∀ q, State.reset.strobe q = .low) := by
  refine ⟨by decide +kernel, by decide +kernel, by decide +kernel, rfl, rfl, rfl, fun q => by cases q <;> rfl⟩

theorem test_met_ReturnOfCarrierStartsProbing :
    online.ringInCarrier = true
      ∧ ((ringIn .broken).ringInCarrier = false ∧ (ringIn .broken).coldReset = false
        ∧ (ringIn .broken).warmReset = false ∧ (ringIn .broken).ringState = .broken)
      ∧ (State.ringInCarrier { State.reset with warmReset := true } = false
        ∧ State.warmReset { State.reset with warmReset := true } = true)
      ∧ (State.ringInCarrier { online with ringInCarrier := false, ringState := .conflict } = false) := by
  decide +kernel

theorem test_met_LossOfCarrierBreaksTheRing :
    (online.ringInCarrier = true ∧ online.ringState = .online)
      ∧ ((ringIn .probing).ringInCarrier = true ∧ (ringIn .probing).ringState = .probing)
      ∧ (ringIn .conflict).ringState = .conflict := by decide +kernel

theorem test_met_UnknownSerialEntersConflict :
    let f := loopFrame 1 255
    online.Takes f ∧ Frame.kind f = some .loop ∧ Frame.origin f = online.own ∧ Frame.serial f ∉ online.recentProbes := by
  unfold State.Takes; decide +kernel

theorem test_met_KnownSerialEntersOnline :
    let f := loopFrame 1 255
    (∀ st, (st = .probing ∨ st = .online) → State.Takes { ringIn st with recentProbes := [254, 255] } f)
      ∧ Frame.kind f = some .loop ∧ Frame.origin f = online.own ∧ Frame.serial f ∈ [254, (255 : Serial)] := by
  refine ⟨?_, by decide +kernel⟩
  rintro st (rfl | rfl) <;> (unfold State.Takes; decide +kernel)

theorem test_met_ProbesAreClaimedAndPlaced :
    let s : State :=
      { ringIn .probing with
        probeTimer := some 1, probeClaim := true, transmit := List.replicate 4 (loopFrame 1 0)
        grant := .word ⟨.remote 2 .p 0, refusal .ok .keep, true, false⟩ }
    s.probeTimer ≠ none ∧ s.probeClaim = true ∧ s.placesTaken = 5
      ∧ State.probeClaim { s with probeClaim := false } = false := by decide +kernel

theorem test_met_SendingEndFreesThePlace :
    State.ringOut { online with ringOut := .passThrough, passThrough := [answerOf .ok] } = .passThrough
      ∧ State.ringOut { online with ringOut := .transmit, transmit := [readFrame 0] } = .transmit := by decide +kernel

theorem test_met_RequestJoinsInboundQueue :
    let s : State := { online with inbound := List.replicate 7 (readFrame 0) }
    s.Takes (readFrame 8191) ∧ Frame.kind (readFrame 8191) = some .req ∧ Frame.dest (readFrame 8191) = s.own
      ∧ s.inbound.length < 8 := by unfold State.Takes; decide +kernel

theorem test_met_FullQueueTurnsRequestIntoRetry :
    let s : State := { online with inbound := List.replicate 8 (readFrame 0) }
    s.Takes (readFrame 8191) ∧ Frame.kind (readFrame 8191) = some .req ∧ Frame.dest (readFrame 8191) = s.own
      ∧ 8 ≤ s.inbound.length ∧ s.passThrough.length < 3
      ∧ 3 ≤ (State.passThrough { s with passThrough := List.replicate 3 (loopFrame 2 0) }).length := by
  unfold State.Takes; decide +kernel

theorem test_met_UnclaimedRequestEndsWithNoStation :
    let f := reqFrame 1 2 15 .c1 (at0 .read false 0)
    (∀ posted, (awaiting (waitingEntry .waitingAnswer 6 posted (some 200))).Takes f)
      ∧ Frame.kind f = some .req ∧ Frame.dest f ≠ 1 ∧ Frame.origin f = 1
      ∧ (∀ posted, (awaiting (waitingEntry .waitingAnswer 6 posted (some 200))).entry (Frame.tag f) =
        some (waitingEntry .waitingAnswer 6 posted (some 200)))
      ∧ (2 : Station) = Frame.dest f ∧ Port.c1 = Frame.port f ∧ online.Takes f ∧ online.entry (Frame.tag f) = none := by
  unfold State.Takes; decide +kernel

theorem test_met_MatchingAnswerEndsTheEntry :
    (∀ st, (∀ posted, (awaiting (waitingEntry .waitingAnswer 0 posted (some 1))).Takes (answerOf st)
        ∧ (awaiting (waitingEntry .waitingAnswer 0 posted (some 1))).entry (Frame.tag (answerOf st)) =
          some (waitingEntry .waitingAnswer 0 posted (some 1)))
        ∧ Frame.kind (answerOf st) = some .ans ∧ Frame.dest (answerOf st) = 1 ∧ Frame.origin (answerOf st) = 2
        ∧ Frame.port (answerOf st) = .c1 ∧ Frame.status (answerOf st) = some st)
      ∧ (let e : Entry := { waitingEntry .waitingAnswer 0 false (some 1) with request := at0 .bulkQuery true 0 }
        let f := ansFrame 2 1 15 .c1 .ok (.bulk ⟨true, 8191, 1, ⟨8191, 1, 2, 3⟩⟩)
        (awaiting e).Takes f ∧ (awaiting e).entry (Frame.tag f) = some e ∧ Frame.kind f = some .ans
          ∧ Frame.dest f = 1 ∧ e.target = Frame.origin f ∧ e.port = Frame.port f ∧ Frame.status f = some .ok
          ∧ Frame.progress f = some ⟨true, 8191, 1, ⟨8191, 1, 2, 3⟩⟩) := by
  unfold State.Takes
  refine ⟨fun st => ?_, by decide +kernel⟩
  cases st <;> decide +kernel

theorem test_met_RetriesAndLateAnswers :
    let f := answerOf .retry
    Frame.kind f = some .ans ∧ Frame.dest f = 1 ∧ Frame.origin f = 2 ∧ Frame.port f = .c1
      ∧ Frame.status f = some .retry
      ∧ (∀ posted, (awaiting (waitingEntry .waitingAnswer 5 posted (some 1))).Takes f
        ∧ (awaiting (waitingEntry .waitingAnswer 6 posted (some 1))).Takes f
        ∧ (awaiting (waitingEntry .waitingAnswer 5 posted (some 1))).entry (Frame.tag f) =
          some (waitingEntry .waitingAnswer 5 posted (some 1))
        ∧ (awaiting (waitingEntry .waitingAnswer 6 posted (some 1))).entry (Frame.tag f) =
          some (waitingEntry .waitingAnswer 6 posted (some 1)))
      ∧ ((awaiting (waitingEntry .stale 0 false (some 1))).Takes f
        ∧ (awaiting (waitingEntry .stale 0 false (some 1))).entry (Frame.tag f) =
          some (waitingEntry .stale 0 false (some 1)))
      ∧ ((awaiting (waitingEntry .waitingResend 1 false none)).Takes f
        ∧ (awaiting (waitingEntry .waitingResend 1 false none)).entry (Frame.tag f) =
          some (waitingEntry .waitingResend 1 false none))
      ∧ online.Takes f ∧ online.entry (Frame.tag f) = none := by
  unfold State.Takes; decide +kernel

theorem test_met_DoneFramePlacesANotice :
    let f := doneFrame 2 ⟨1, .p⟩ .check .mismatch ⟨8192, 0, 0, 0⟩ (some 8191)
    online.Takes f ∧ Frame.kind f = some .done ∧ Frame.dest f = online.own ∧ Frame.doneKind f = some .check
      ∧ online.notices.length < 8 ∧ 8 ≤ (State.notices { online with notices := List.replicate 8 .ringDrop }).length
      ∧ (let g := Frame.sealed (3#4 ++ 0#4 ++ 0#1 ++ (1 : Station) ++ 0#1 ++ (2 : Station) ++ 0#96)
        online.Takes g ∧ Frame.kind g = some .done ∧ Frame.dest g = online.own ∧ Frame.doneKind g = none) := by
  unfold State.Takes; decide +kernel

theorem test_met_OtherFramesPassThrough :
    (online.ringInCarrier = true ∧ online.coldReset = false ∧ online.warmReset = false ∧ online.ringState = .online)
      ∧ ((ringIn .conflict).ringInCarrier = true ∧ (ringIn .conflict).ringState = .conflict)
      ∧ (∀ x ∈ [(loopFrame 2 0, Kind.loop), (reqFrame 2 7 0 .p (at0 .read true 0), .req),
          (ansFrame 2 7 0 .p .ok (.word false 0), .ans), (doneFrame 2 ⟨7, .p⟩ .fill .complete ⟨1, 0, 0, 0⟩ none, .done)],
        Frame.checked x.1 = true ∧ Frame.kind x.1 = some x.2 ∧ Frame.origin x.1 ≠ online.own
          ∧ (x.2 = .loop ∨ Frame.dest x.1 ≠ online.own))
      ∧ online.passThrough.length < 3
      ∧ 3 ≤ (State.passThrough { online with passThrough := List.replicate 3 (loopFrame 2 0) }).length := by
  decide +kernel

theorem test_met_DroppedFramesLeaveNoTrace :
    ((ringIn .conflict).ringState = .conflict ∧ Frame.checked 0 = false)
      ∧ (Frame.checked (ansFrame 3 2 0 .p .ok (.word false 0) ^^^ 1) = false
        ∧ Frame.kind (ansFrame 3 2 0 .p .ok (.word false 0) ^^^ 1) = some .ans
        ∧ Frame.dest (ansFrame 3 2 0 .p .ok (.word false 0) ^^^ 1) ≠ online.own)
      ∧ (Frame.checked (loopFrame 2 0 ^^^ 1) = false ∧ Frame.kind (loopFrame 2 0 ^^^ 1) = some .loop)
      ∧ (ringIn .broken).ringState = .broken ∧ Frame.kind (readFrame 0) = some .req
      ∧ Frame.kind (answerOf .ok) = some .ans
      ∧ Frame.kind (doneFrame 2 ⟨1, .p⟩ .fill .complete ⟨1, 0, 0, 0⟩ none) = some .done
      ∧ Frame.kind 0 = none ∧ online.ringState = .online
      ∧ (∀ x ∈ [(ansFrame 1 7 0 .p .ok (.word false 0), Kind.ans),
          (doneFrame 1 ⟨7, .p⟩ .fill .complete ⟨1, 0, 0, 0⟩ none, .done)],
        Frame.kind x.1 = some x.2 ∧ Frame.dest x.1 ≠ online.own ∧ Frame.origin x.1 = online.own) := by decide +kernel

/-- Window 31: valid, own station, page 7, both restrictions. -/
def guardedWindow (readOnly privOnly : Bool) : State :=
  { online with windows := online.windows.set 31 ⟨true, 1, 7, readOnly, privOnly⟩ }

/-- The WRITE of a port at the last word of window 31. -/
def writePins : PortRequest := { noPins with op := 2, window := 31, offset := 8191, lanes := 8, data := 1 }

/-- A FILL of that word and one more. -/
def fillPins (count : Count) : PortRequest :=
  { noPins with op := 5, window := 31, offset := 8191, bulkKind := 1, count := count, privileged := true }

/-- No strobe of these stations is raised still after its request was accepted. -/
theorem no_strobe_accepted :
    (∀ q r, online.strobe q ≠ .accepted r) ∧ (∀ a b q r, (guardedWindow a b).strobe q ≠ .accepted r)
      ∧ ∀ q o r, (presents online q o).strobe q ≠ .accepted r := by
  refine ⟨fun q r h => ?_, fun a b q r h => ?_, fun q o r h => ?_⟩ <;> (cases q <;> cases h)

theorem test_met_AcceptanceRefusals :
    (online.coldReset = false ∧ online.warmReset = false ∧ online.port .c3 = .idle ∧ online.port .p = .idle)
      ∧ (noPins.op = 0 ∧ noPins.control = false)
      ∧ ((online.windows.get writePins.window.toFin).valid = false ∧ pinsCommand .c3 writePins ≠ none)
      ∧ (let w := (guardedWindow true true).windows.get writePins.window.toFin
        w.valid = true ∧ w.privOnly = true ∧ writePins.privileged = false)
      ∧ (let w := (guardedWindow true false).windows.get writePins.window.toFin
        w.valid = true ∧ ¬(w.privOnly = true ∧ (Port.c3 ≠ .p ∨ writePins.privileged = false)) ∧ w.readOnly = true
          ∧ writePins.op = 2)
      ∧ (let w := (guardedWindow false false).windows.get (fillPins 2).window.toFin
        w.valid = true ∧ ¬(w.privOnly = true) ∧ ¬(w.readOnly = true) ∧ (fillPins 2).op = 5
          ∧ 8192 < (fillPins 2).offset.toNat + (fillPins 2).count.toNat ∧ (fillPins 0).count = 0) := by
  decide +kernel

theorem test_met_PinsGiveTheRequest :
    ((asks .c3 (at0 .read false 0)).port .c3 ≠ .idle ∧ (asks .c3 (at0 .read false 0)).strobe .c3 = .low)
      ∧ State.warmReset { presents online .c3 writePins with warmReset := true } = true
      ∧ (online.setStrobe .c3 (.accepted noPins)).strobe .c3 = .accepted noPins
      ∧ ((presents online .c3 writePins).coldReset = false ∧ (presents online .c3 writePins).warmReset = false
        ∧ (presents online .c3 writePins).port .c3 = .idle
        ∧ (presents online .c3 writePins).strobe .c3 = .presented writePins)
      ∧ pinsCommand .c3 writePins = some (.write 8 1 .keep) ∧ pinsCommand .p (fillPins 1) = some (.bulkStart .fill 0 1)
      ∧ pinsCommand .p { noPins with op := 4 } = some (.commit 0 0 .keep)
      ∧ pinsCommand .p { noPins with op := 4, lanes := 1, guardAct := 2, data := 5 } = some (.commit 1 5 .clear)
      ∧ pinsCommand .p { noPins with op := 7 } = some .bulkAbort := by decide +kernel

theorem test_met_AcceptedRequestsAreRouted :
    let s := guardedWindow false false
    let elsewhere (st : RingState) : State :=
      { ringIn st with windows := online.windows.set 31 ⟨true, 2, 7, false, false⟩ }
    let w := s.windows.get writePins.window.toFin
    let r : Request := ⟨.write 8 1 .keep, false, 7, 8191⟩
    s.coldReset = false ∧ s.warmReset = false ∧ s.port .c3 = .idle ∧ pinsCommand .c3 writePins = some r.command
      ∧ w.valid = true ∧ ¬(w.privOnly = true ∧ pinsPrivileged .c3 writePins = false)
      ∧ ¬(w.readOnly = true ∧ changesWord r.command = true) ∧ rangeFits writePins.offset r.command = true
      ∧ w.target = s.own
      ∧ ((elsewhere .online).windows.get writePins.window.toFin).target ≠ s.own
      ∧ (elsewhere .probing).ringState ≠ .online ∧ (elsewhere .online).ringState = .online
      ∧ (elsewhere .online).sendTag .c3 2 r = some 0 ∧ (fullTransmit (elsewhere .online)).sendTag .c3 2 r = none := by
  decide +kernel

theorem test_met_SendTakesTheLowestFreeTag :
    let r := at0 .read false 8191
    let s : State := { withPort online .c1 (.toSend 2 r) with transmit := List.replicate 5 (loopFrame 1 0) }
    s.port .c1 = .toSend 2 r ∧ s.ringState = .online ∧ s.entry 0 = none ∧ (∀ u, u < (0 : Tag) → s.entry u ≠ none)
      ∧ (∀ u, s.entry u = none) ∧ s.placesTaken < 6
      ∧ (withPort online .c1 (.toSend 2 (at0 (.write 15 1 .keep) false 0))).port .c1 =
        .toSend 2 (at0 (.write 15 1 .keep) false 0) := by decide +kernel

/-- A privileged control-space access. -/
def controlPins (op : BitVec 4) (offset : Offset) : PortRequest :=
  { noPins with op := op, offset := offset, privileged := true, control := true }

theorem test_met_ControlAccessIsChecked :
    (online.coldReset = false ∧ online.warmReset = false ∧ online.port .p = .idle)
      ∧ (∀ k : Fin 32, (controlPins 1 (BitVec.ofNat 13 k.val)).offset.toNat = k.val)
      ∧ (∀ i : Slot, (controlPins 1 (BitVec.ofNat 13 (0x50 + i.val))).offset.toNat = 0x50 + i.val)
      ∧ (∀ o ∈ [0, 31, 0x40, 0x41, 0x50, 0x51, 0x52, 0x53, 0x54, 0x55, 0x60], ∀ op ∈ [1, 2],
        (controlPins op o).control = true ∧ (controlPins op o).op = op ∧ (controlPins op o).privileged = true
          ∧ (o.toNat < 32 ∨ o.toNat = 0x40 ∨ o.toNat = 0x41 ∨ (0x50 ≤ o.toNat ∧ o.toNat ≤ 0x55) ∨ o.toNat = 0x60))
      ∧ (∀ o ∈ [32, 0x3F, 0x42, 0x4F, 0x56, 0x5F, 0x61, 8191],
        (controlPins 2 o).offset = o
          ∧ ¬(o.toNat < 32 ∨ o.toNat = 0x40 ∨ o.toNat = 0x41 ∨ (0x50 ≤ o.toNat ∧ o.toNat ≤ 0x55) ∨ o.toNat = 0x60))
      ∧ ((controlPins 3 0).op ≠ 1 ∧ (controlPins 3 0).op ≠ 2)
      ∧ (PortRequest.op { controlPins 2 0 with privileged := false } = 2
        ∧ PortRequest.control { controlPins 2 0 with privileged := false } = true) := by
  refine ⟨by decide +kernel, by decide +kernel, by decide +kernel, by decide +kernel, by decide +kernel,
    by decide +kernel, by decide +kernel⟩

theorem test_met_EntryTimersExpire :
    (∀ posted, (awaiting (waitingEntry .waitingAnswer 6 posted (some 0))).entry 15 =
        some (waitingEntry .waitingAnswer 6 posted (some 0)))
      ∧ (awaiting (waitingEntry .stale 0 false (some 0))).entry 15 = some (waitingEntry .stale 0 false (some 0))
      ∧ (∀ timer, timer = some 0 ∨ timer = none →
        (awaiting (waitingEntry .waitingResend 5 false timer)).entry 15 = some (waitingEntry .waitingResend 5 false timer))
      ∧ (let s := awaiting (waitingEntry .waitingResend 5 false none)
        s.placesTaken < 6 ∧ 6 ≤ (fullTransmit s).placesTaken) := by
  refine ⟨by decide +kernel, by decide +kernel, ?_, by decide +kernel⟩
  rintro timer (rfl | rfl) <;> decide +kernel

theorem test_met_RefreshRunsFirst :
    State.reset.refreshTimer ≠ none
      ∧ (let s : State := { online with refreshClaim := true }
        s.grant = .free ∧ s.coldReset = false ∧ s.refreshClaim = true)
      ∧ State.grant { online with grant := .refresh } = .refresh := by decide +kernel

theorem test_met_ChoiceFollowsTheOrder :
    let d (st : DeferredState) : Deferred := ⟨2, .p, 15, at0 .read true 0, st⟩
    let s : State := { online with deferred := [d (.waiting 5), d .ready] }
    State.grant { online with grant := .refresh } ≠ .free
      ∧ (s.grant = .free ∧ s.coldReset = false ∧ s.refreshClaim = false
        ∧ s.placesTaken < 6)
      ∧ (s.deferred[1]? = some (d .ready) ∧ (d .ready).state = .ready ∧ s.deferred[0]? = some (d (.waiting 5))
        ∧ (d (.waiting 5)).state ≠ .ready)
      ∧ (∀ e ∈ online.deferred, e.state ≠ .ready)
      ∧ ¬((fullTransmit s).ringState ≠ .online ∨ (fullTransmit s).transmit.length < 6) := by decide +kernel

theorem test_met_RotationAndPortsTakeTurns :
    online.rotation = .remote ∧ State.rotation { online with rotation := .port } = .port
      ∧ (working (job .fill 1 0 1 true)).rotation = .bulk ∧ online.portPointer = .p
      ∧ State.portPointer { online with portPointer := .c3 } = .c3 := by decide +kernel

theorem test_met_EligibleClaims :
    (State.remoteClaim { online with inbound := [readFrame 0] } = some (.remote (readFrame 0)))
      ∧ (asks .p (at0 .read true 0)).localClaim = some (.port .p (at0 .read true 0))
      ∧ (working (job .check 2 0 2 true)).bulkClaim = some .bulk
      ∧ (fullTransmit (working (job .check 2 0 2 true))).bulkClaim = none
      ∧ (fullTransmit (working (job .fill 2 0 2 true))).bulkClaim = some .bulk
      ∧ (∀ i j : Slot, online.slot i = none ∧ online.slot j = none)
      ∧ (held (asks .p (at0 .read true 0)) 0 ⟨2, .p⟩).portClaim .p = none
      ∧ (allHeld (asks .p (at0 .holdRead true 0))).portClaim .p = none := by decide +kernel

/-- Port P alone asks for an operation on a page that is just outside the bank of 8 pages. -/
def asksOutside (c : Command) : State := asks .p ⟨c, true, 8, 0⟩

/-- A REQ frame of station 2, tag 15, to station 1 by its bits, for page 0 with DATA 7; its check sequence is left 0. -/
def rawRequest (op : BitVec 4) (port act : BitVec 2) (lanes : Lanes) (offset : Offset) (count : Count)
    (kind : BitVec 2) : Frame :=
  1#4 ++ op ++ 0#1 ++ 1#3 ++ 0#1 ++ 2#3 ++ 15#4 ++ port ++ 0#2 ++ act ++ 0#2 ++ lanes ++ 0#11 ++ offset ++ 7#32
    ++ 0#2 ++ count ++ 0#6 ++ kind ++ 0#16

/-- A malformed frame for each clause of R30, with the operation by which it is granted. -/
def malformedFrames : List (Op × Frame) :=
  [(.read, rawRequest 0 0 0 0 0 0 0), (.read, rawRequest 8 0 0 0 0 0 0), (.write, rawRequest 2 0 3 15 0 0 0),
    (.commit, rawRequest 4 0 3 0 0 0 0), (.write, rawRequest 2 0 1 0 0 0 0),
    (.bulkStart, rawRequest 5 0 0 0 0 1 0), (.bulkStart, rawRequest 5 0 0 0 0 0 1),
    (.bulkStart, rawRequest 5 0 0 0 0 8193 1), (.bulkStart, rawRequest 5 0 0 0 8191 2 2),
    (.bulkStart, rawRequest 5 1 0 0 0 1 3)]

theorem test_met_malformed_frames :
    (∀ x ∈ malformedFrames, MalformedRequest x.2) ∧ ∀ x ∈ malformedFrames,
      State.Serves { online with inbound := [x.2] } x.1 (.remote x.2)
        ⟨.remote 2 (Frame.port x.2) 15, ⟨2, Frame.port x.2⟩, none⟩ := by
  unfold MalformedRequest State.Serves
  exact ⟨by decide +kernel, by decide +kernel⟩

/-- Frames that are not malformed, at the bounds of R30, and a release that carries SET (R110). -/
theorem test_frames_at_the_bounds :
    Frame.request (rawRequest 5 0 0 0 8191 1 2) = some ⟨.bulkStart .check 7 1, false, 0, 8191⟩
      ∧ Frame.request (rawRequest 5 0 0 0 0 8192 3) = some ⟨.bulkStart .scrub 0 8192, false, 0, 0⟩
      ∧ Frame.request (rawRequest 2 3 2 8 5 0 0) = some ⟨.write 8 7 .clear, false, 0, 5⟩
      ∧ Frame.request (rawRequest 4 0 1 0 5 0 0) = some ⟨.commit 0 0 .keep, false, 0, 5⟩ := by decide +kernel

theorem test_met_OutOfRangeEndsTheRequest :
    ∀ x ∈ [(Op.read, Command.read), (.write, .write 15 0 .keep), (.holdRead, .holdRead),
        (.commit, .commit 15 0 .keep), (.bulkStart, .bulkStart .fill 0 8192), (.bulkQuery, .bulkQuery),
        (.bulkAbort, .bulkAbort)],
      (asksOutside x.2).Serves x.1 (.port .p ⟨x.2, true, 8, 0⟩) (takenFrom .p ⟨x.2, true, 8, 0⟩)
        ∧ (8 : Nat) ≤ (8 : Page).toNat ∧ (asksOutside x.2).straps.pages = 0 := by
  unfold State.Serves; decide +kernel

/-- The request of a port is the arbiter's choice and lies in the bank. -/
abbrev Granted (s : State) (o : Op) (q : Port) (r : Request) : Prop :=
  (s.choice = some (.port q r) ∧ (Claim.port q r).op = some o ∧ (Claim.port q r).taken s.own = some (takenFrom q r))
    ∧ (takenFrom q r).request = some r ∧ r.page.toNat < pageCount s.straps

theorem test_met_ReadGivesTheCheckedWord :
    (∀ x ∈ [((0 : Offset), CheckResult.clean 7 false), (1, .single 7 true), (2, .double), (8191, .single 8 false)],
        Granted (asks .p (at0 .read true x.1)) .read .p (at0 .read true x.1)
          ∧ checkWord ((asks .p (at0 .read true x.1)).word x.1.toNat) = x.2)
      ∧ Granted (asks .c3 ⟨.read, false, 7, 8191⟩) .read .c3 ⟨.read, false, 7, 8191⟩
      ∧ (asks .c3 ⟨.read, false, 7, 8191⟩).Unheld ⟨.read, false, 7, 8191⟩
      ∧ Granted (held (asks .p (at0 .read true 0)) 0 ⟨1, .p⟩) .read .p (at0 .read true 0)
      ∧ (held (asks .p (at0 .read true 0)) 0 ⟨1, .p⟩).HeldIn (at0 .read true 0) 5 ⟨0, 0, ⟨1, .p⟩, 64, false⟩ := by
  refine ⟨by decide +kernel, by decide +kernel, unheld_of (by decide +kernel), by decide +kernel,
    heldIn_of (by decide +kernel) (by decide +kernel) (by decide +kernel)⟩

theorem test_met_ReadGivesTheCheckedWord_remote :
    let s : State := { online with inbound := [readFrame 1] }
    s.Serves .read (.remote (readFrame 1)) ⟨.remote 2 .p 15, ⟨2, .p⟩, some (at0 .read true 1)⟩
      ∧ s.ringState = .online ∧ checkWord (s.word 1) = .single 7 true := by
  unfold State.Serves; decide +kernel

theorem test_met_CheckCorrectsOneBitAndDetectsTwo :
    (39 < 40 ∧ (⟨0, false, 1#40 <<< 39⟩ : StoredWord).wrong = 1#40 <<< 39)
      ∧ (38 < 39 ∧ (⟨0, false, 3#40 <<< 38⟩ : StoredWord).wrong = (1#40 <<< 38) ||| (1#40 <<< 39))
      ∧ 3 ≤ (List.range 40).countP (fun i => (⟨0, false, 7#40 <<< 37⟩ : StoredWord).wrong.getLsbD i) := by
  decide +kernel

theorem test_met_PlainWriteMayNotSetOrClear :
    ∀ act ∈ [GuardAct.set, .clear],
      Granted (asks .c3 (at0 (.write 15 1 act) false 0)) .write .c3 (at0 (.write 15 1 act) false 0)
        ∧ (asks .c3 (at0 (.write 15 1 act) false 0)).Unheld (at0 (.write 15 1 act) false 0) := by
  intro act _
  refine ⟨?_, unheld_of ?_⟩ <;> (cases act <;> decide +kernel)

theorem test_met_SinglePassWriteReplacesTheWord :
    ∀ act ∈ [GuardAct.set, .clear],
      let r := at0 (.write 0xF 1 act) true 8191
      let s : State := { asks .p r with straps := ⟨1, 0, false, false⟩ }
      Granted s .write .p r ∧ s.Unheld r ∧ r.privileged = true ∧ s.straps.guardOn = false := by
  intro act _
  refine ⟨?_, unheld_of ?_, rfl, rfl⟩ <;> (cases act <;> decide +kernel)

theorem test_met_WriteMergesIntoTheWord :
    (∀ x ∈ [((0 : Offset), CheckResult.clean 7 false), (2, .double), (3, .clean 7 true), (8191, .single 8 false)],
        let r := at0 (.write 15 1 .keep) false x.1
        Granted (asks .c1 r) .write .c1 r ∧ checkWord ((asks .c1 r).word x.1.toNat) = x.2
          ∧ (asks .c1 r).straps.guardOn = true)
      ∧ (let r := at0 (.write 8 1 .set) true 3
        Granted (asks .p r) .write .p r ∧ (asks .p r).Unheld r) := by
  refine ⟨by decide +kernel, by decide +kernel, unheld_of (by decide +kernel)⟩

theorem test_met_PlainRequestsLeaveGuardsAlone :
    (Granted (asks .c1 (at0 (.write 15 1 .keep) false 8191)) .write .c1 (at0 (.write 15 1 .keep) false 8191)
        ∧ ((after (exec .write (asks .c1 (at0 (.write 15 1 .keep) false 8191)))).map fun t => decide (t.grant =
          .word ⟨.port .c1, ⟨.corrected, false, 0, some 8191, some ⟨1, false, 0⟩, .keep⟩, false, false⟩)) = some true)
      ∧ ((after (exec .bulkStep (working (job .fill 1 0 1 false)))).map fun t =>
        decide (t.grant = .step ⟨0, some ⟨7, false, 0⟩, false, false, false, false, false, false⟩)) = some true
      ∧ ((after (exec .bulkStep (working (job .scrub 1 1 1 false)))).map fun t =>
        decide (t.grant = .step ⟨1, some ⟨7, true, 0⟩, false, true, false, false, false, false⟩)) = some true := by
  decide +kernel

theorem test_met_HoldReadTakesTheHoldPath :
    (∀ x ∈ [((0 : Offset), CheckResult.clean 7 false), (2, .double), (3, .clean 7 true), (8191, .single 8 false)],
        let r := at0 .holdRead false x.1
        Granted (asks .p r) .holdRead .p r ∧ checkWord ((asks .p r).word x.1.toNat) = x.2
          ∧ (asks .p r).slot 5 = none)
      ∧ (let r := at0 .holdRead true 0
        let f := reqFrame 2 1 15 .p r
        let s : State := { allHeld online with inbound := [f] }
        s.Serves .holdRead (.remote f) ⟨.remote 2 .p 15, ⟨2, .p⟩, some r⟩ ∧ s.Unheld r ∧ ∀ i, s.slot i ≠ none) := by
  refine ⟨by decide +kernel, by unfold State.Serves; decide +kernel, unheld_of (by decide +kernel), by decide +kernel⟩

theorem test_met_HolderMayNotWriteOrHoldAgain :
    (let r := at0 (.write 15 1 .keep) true 0
      let s := held (asks .p r) 0 ⟨1, .p⟩
      Granted s .write .p r ∧ s.HeldIn r 5 ⟨0, 0, ⟨1, .p⟩, 64, false⟩ ∧ (takenFrom .p r).holder = ⟨1, .p⟩)
      ∧ (let r := at0 .holdRead true 0
        Granted (held (asks .p r) 0 ⟨1, .p⟩) .holdRead .p r) := by
  refine ⟨⟨by decide +kernel, heldIn_of (by decide +kernel) (by decide +kernel) (by decide +kernel), rfl⟩,
    by decide +kernel⟩

theorem test_met_CommitEndsTheHold :
    (Granted (asks .p (at0 (.commit 15 1 .keep) false 0)) .commit .p (at0 (.commit 15 1 .keep) false 0)
        ∧ (asks .p (at0 (.commit 15 1 .keep) false 0)).Unheld (at0 (.commit 15 1 .keep) false 0))
      ∧ (∀ x ∈ [(at0 (.commit 0 0 .keep) false 0), (at0 (.commit 1 1 .set) false 0), (at0 (.commit 1 1 .clear) true 2),
          (at0 (.commit 8 1 .keep) false 3), (at0 (.commit 15 1 .keep) false 8191)],
        let s := held (asks .p x) x.offset ⟨1, .p⟩
        Granted s .commit .p x ∧ s.HeldIn x 5 ⟨0, x.offset, ⟨1, .p⟩, 64, false⟩ ∧ (takenFrom .p x).holder = ⟨1, .p⟩)
      ∧ checkWord (online.word 2) = .double ∧ checkWord (online.word 3) = .clean 7 true
      ∧ checkWord (online.word 8191) = .single 8 false := by
  refine ⟨⟨by decide +kernel, unheld_of (by decide +kernel)⟩, fun x hx => ⟨?_, heldIn_of ?_ ?_ ?_, rfl⟩,
    by decide +kernel⟩ <;> (fin_cases hx <;> decide +kernel)

theorem test_met_RequestsWaitBehindAnothersHold :
    let d : Deferred := ⟨2, .p, 15, at0 .read true 0, .waiting 5⟩
    let s : State := { held online 0 ⟨1, .p⟩ with inbound := [readFrame 0] }
    let tk : Taken := ⟨.remote 2 .p 15, ⟨2, .p⟩, some (at0 .read true 0)⟩
    let u : State := { held online 0 ⟨1, .p⟩ with deferred := [{ d with state := .ready }] }
    (s.Serves .read (.remote (readFrame 0)) tk ∧ s.HeldIn (at0 .read true 0) 5 ⟨0, 0, ⟨1, .p⟩, 64, false⟩
        ∧ (⟨1, .p⟩ : Holder) ≠ tk.holder ∧ s.deferred.length < 12
        ∧ 12 ≤ (State.deferred { s with deferred := List.replicate 12 d }).length)
      ∧ u.Serves .read (.replay 0 { d with state := .ready })
        ⟨.replay 0 2 .p 15, ⟨2, .p⟩, some (at0 .read true 0)⟩ := by
  refine ⟨⟨by unfold State.Serves; decide +kernel,
    heldIn_of (by decide +kernel) (by decide +kernel) (by decide +kernel), by decide, by decide, by decide⟩,
    by unfold State.Serves; decide +kernel⟩

/-- A word operation that holds the bank and writes the last word of page 7. -/
def endingWord (src : Source) (reserved orphan : Bool) : WordGrant :=
  ⟨src, ⟨.ok, false, 0, some 65535, some ⟨1, false, 0⟩, .keep⟩, reserved, orphan⟩

theorem test_met_WordOperationEndHandsOnTheOutcome :
    (∀ g ∈ [endingWord (.port .c3) false false, endingWord (.remote 2 .p 15) true false,
        endingWord (.replay 0 2 .p 15) false false, endingWord (.port .c3) false true],
        State.grant { online with grant := .word g } = .word g)
      ∧ (endingWord (.port .c3) false true).orphan = true ∧ (endingWord (.port .c3) false false).orphan = false
      ∧ (endingWord (.remote 2 .p 15) true false).source = .remote 2 .p 15
      ∧ (endingWord (.replay 0 2 .p 15) false false).source = .replay 0 2 .p 15 := by decide +kernel

theorem test_met_OnlyTheDueWordIsWritten :
    ((after (exec .wordOperationEnd { online with grant := .word (endingWord (.port .c3) false false) })).isSome = true
        ∧ (endingWord (.port .c3) false false).result.write = some ⟨1, false, 0⟩
        ∧ (endingWord (.port .c3) false false).result.accessed = some 65535)
      ∧ ((after (exec .bulkStepEnd { online with grant := .step (stepGrant false true) })).isSome = true
        ∧ (stepGrant false true).write = none) := by decide +kernel

theorem test_met_HoldsAreMadeAndEnd :
    ((held online 8191 ⟨2, .p⟩).slot 5 = some ⟨0, 8191, ⟨2, .p⟩, 64, false⟩)
      ∧ (online.slot 0 = none ∧ ∀ j : Slot, j < 0 → online.slot j ≠ none) := by decide +kernel

/-- A BULK_QUERY of the own processor completes with the three words of PROGRESS (R59, R151). -/
theorem test_step_local_query :
    (after (exec .bulkQuery
      { asks .p (at0 .bulkQuery true 0) with bulk := some (job .fill 1 8190 2 true), rotation := .port })).map
        (fun t => (portGet t.completions .p, t.port .p)) =
      some ([⟨.answer .ok, progressData ⟨false, 8190, 2, ⟨0, 0, 0, 0⟩⟩, false⟩], .idle) := by decide +kernel

/-- One of station 2 is answered with an ANS frame that carries PROGRESS (R32, R151). -/
theorem test_step_remote_query :
    (after (exec .bulkQuery
      { online with inbound := [rawRequest 6 0 0 0 0 0 0], bulk := some (job .fill 1 8190 2 true) })).map
        (fun t => (t.inbound, t.transmit, t.ringOut)) =
      some ([], [ansFrame 1 2 15 .p .ok (.bulk ⟨false, 8190, 2, ⟨0, 0, 0, 0⟩⟩)], .transmit) := by decide +kernel

theorem test_met_BulkCommandsAreDecidedAtOnce :
    (∀ x ∈ [(Op.bulkStart, rawRequest 5 0 0 0 0 8192 1), (.bulkQuery, rawRequest 6 0 0 0 0 0 0),
        (.bulkAbort, rawRequest 7 0 0 0 0 0 0)],
        (State.choice { online with inbound := [x.2] } = some (.remote x.2) ∧ (Claim.remote x.2).op = some x.1)
          ∧ (Frame.request x.2).isSome = true ∧ Frame.page x.2 = 0)
      ∧ (∀ x ∈ [(Op.bulkStart, Command.bulkStart .fill 7 8192), (.bulkQuery, .bulkQuery), (.bulkAbort, .bulkAbort)],
        Granted (asks .p (at0 x.2 true 0)) x.1 .p (at0 x.2 true 0)
          ∧ Granted { asks .p (at0 x.2 true 0) with bulk := some (job .fill 2 8191 1 true), rotation := .port } x.1 .p
            (at0 x.2 true 0))
      ∧ (job .fill 1 0 1 true).owner = (takenFrom .p (at0 .bulkAbort true 0)).holder
      ∧ (job .fill 2 0 1 true).owner ≠ (takenFrom .p (at0 .bulkAbort true 0)).holder := by decide +kernel

theorem test_met_BulkStepWaitsOrReads :
    (∀ x ∈ [job .fill 1 0 1 false, job .fill 1 1 1 false, job .fill 1 2 1 false, job .fill 1 2 1 true,
        job .scrub 1 1 1 false, job .scrub 1 2 1 false, job .check 1 2 1 false, job .check 2 8191 1 false],
        (working x).choice = some .bulk ∧ (working x).bulk = some x)
      ∧ (working (job .fill 1 0 1 false)).Unheld ⟨.read, false, 0, 0⟩
      ∧ (checkWord (online.word 0) = .clean 7 false ∧ checkWord (online.word 1) = .single 7 true
        ∧ checkWord (online.word 2) = .double)
      ∧ (held (working (job .fill 1 0 1 false)) 0 ⟨2, .p⟩).choice = some .bulk
      ∧ (held (working (job .fill 1 0 1 false)) 0 ⟨2, .p⟩).HeldIn ⟨.read, false, 0, 0⟩ 5 ⟨0, 0, ⟨2, .p⟩, 64, false⟩ := by
  refine ⟨by decide +kernel, unheld_of (by decide +kernel), by decide +kernel, by decide +kernel,
    heldIn_of (by decide +kernel) (by decide +kernel) (by decide +kernel)⟩

theorem test_met_BulkStepEndMovesTheJobOn :
    (∀ x ∈ [(stepGrant true false, job .check 1 8191 1 true), (stepGrant false false, job .fill 2 8191 1 true),
        (stepGrant false false, job .fill 1 8190 2 true)],
        let s : State := { working x.2 with grant := .step x.1 }
        s.grant = .step x.1 ∧ s.bulk = some x.2 ∧ x.1.orphan = false)
      ∧ (stepGrant true false).mismatch = true
      ∧ ((stepGrant false false).mismatch = false ∧ (job .fill 2 8191 1 true).remaining = 1
        ∧ 2 ≤ (job .fill 1 8190 2 true).remaining)
      ∧ (stepGrant false true).orphan = true := by decide +kernel

theorem test_met_NoticeAndStatusReads :
    (withPort online .p (.control .noticeRead)).port .p = .control .noticeRead
      ∧ (withPort online .p (.control .statusRead)).port .p = .control .statusRead := by decide +kernel

theorem test_met_ControlWritesEnd :
    (withPort online .p (.control (.windowWrite 31 0xFFFFFFFF))).port .p = .control (.windowWrite 31 0xFFFFFFFF)
      ∧ (withPort online .p (.control .refusedWrite)).port .p = .control .refusedWrite := by decide +kernel

theorem test_met_MadeFramesPassTheCheck :
    Frame.checked (loopFrame 1 2) = true
      ∧ ((0 < 128 ∧ 1 < 128 ∧ 127 < 128) ∧ (1#128 <<< 0) ^^^ (1#128 <<< 1) ^^^ (1#128 <<< 127) ≠ 0)
      ∧ (1#128 <<< 5) ^^^ (1#128 <<< 5) ^^^ (1#128 <<< 127) ≠ 0 ∧ (127 < 128 ∧ 0 < 127)
      ∧ ((0x8001 : BitVec 16) ≠ 0 ∧ 112 ≤ 112) := by decide +kernel

theorem test_met_RequestFramesRoundTrip :
    (∀ op ∈ [1, 2, 3, 4, 6, 7], ¬MalformedRequest (rawRequest op 0 0 15 0 0 0))
      ∧ ¬MalformedRequest (rawRequest 5 0 3 0 8191 1 3) ∧ ¬MalformedRequest (rawRequest 5 0 0 0 0 8192 1)
      ∧ pinsCommand .p { fillPins 8192 with offset := 0 } = some (.bulkStart .fill 0 8192)
      ∧ rangeFits 0 (.bulkStart .fill 0 8192) = true
      ∧ pinsCommand .c3 writePins = some (.write 8 1 .keep) ∧ rangeFits 8191 (.write 8 1 .keep) = true := by
  refine ⟨?_, ?_, ?_, by decide +kernel⟩ <;> (unfold MalformedRequest; decide +kernel)

/-! #### The laws hold in a state that is not the reset state, and steps leave it -/

/-- A station with a hold of station 2, a request that waits behind it, the bulk engine that waits on it, an
outstanding entry, and a request that waits on the pins of its port. -/
def busy : State :=
  { held (awaiting (waitingEntry .waitingAnswer 0 false (some 200))) 0 ⟨2, .p⟩ with
    deferred := [⟨3, .p, 0, at0 .read true 0, .waiting 5⟩]
    bulk := some { job .fill 1 0 1 true with slot := some 5 }
    strobes := portSet online.strobes .c1 (.presented noPins)
    pending := [.holdTimerExpiry 5] }

theorem test_busy_steps : ∃ t j k, Steps busy t ∧ busy.bulk = some j ∧ t.bulk = some k := by
  have h : (after (step busy)).any (fun t => t.bulk.isSome) = true := by decide +kernel
  unfold Steps
  cases hs : step busy with
  | next t =>
    rw [hs] at h
    exact ⟨t, _, _, rfl, rfl, (Option.some_get h).symm⟩
  | fault x => rw [hs] at h; cases h
  | refused x => rw [hs] at h; cases h

theorem busy_entries : ∀ t : Tag, t ≠ 15 → busy.entry t = none := by decide +kernel

theorem busy_slots : ∀ i : Slot, i ≠ 5 → busy.slot i = none := by decide +kernel

theorem busy_entry {t : Tag} {e : Entry} (h : busy.entry t = some e) :
    t = 15 ∧ e = waitingEntry .waitingAnswer 0 false (some 200) := by
  by_cases ht : t = 15
  · subst ht
    rw [show busy.entry 15 = some (waitingEntry .waitingAnswer 0 false (some 200)) by decide +kernel] at h
    exact ⟨rfl, (Option.some.inj h).symm⟩
  · rw [busy_entries t ht] at h; cases h

theorem busy_slot {i : Slot} {h : Hold} (hi : busy.slot i = some h) : i = 5 ∧ h = ⟨0, 0, ⟨2, .p⟩, 64, false⟩ := by
  by_cases ht : i = 5
  · subst ht
    rw [show busy.slot 5 = some ⟨0, 0, ⟨2, .p⟩, 64, false⟩ by decide +kernel] at hi
    exact ⟨rfl, (Option.some.inj hi).symm⟩
  · rw [busy_slots i ht] at hi; cases hi

theorem test_met_StepsKeepBuffersAndBank : QueuesWithinPlaces busy ∧ MemoryCanonical busy := by
  refine ⟨⟨?_, ?_, ?_, ?_, ?_, ?_⟩, ?_⟩
  case refine_7 => unfold MemoryCanonical; decide +kernel
  all_goals decide +kernel

theorem busy_clear : ClearInReset busy := by
  refine ⟨?_, ?_, ?_⟩
  all_goals exact fun h => absurd h (by decide +kernel)

theorem test_met_StepsKeepAttention : AttentionFollows busy :=
  ⟨busy_clear, by decide +kernel, fun h => absurd h (by decide +kernel)⟩

theorem busy_waits : WaitsOnlyOnline busy where
  outCarrier := by decide +kernel
  reset := by decide +kernel
  offline := by decide +kernel
  broken := by decide +kernel
  joined := by decide +kernel
  timer := by decide +kernel
  claim := by decide +kernel
  ports _ _ _ _ := by decide +kernel
  entries _ _ _ _ := by decide +kernel

theorem test_met_StepsKeepTheRingInterface : SendingConsistent busy ∧ RecentAreLast busy :=
  ⟨⟨busy_waits, by decide +kernel, by decide +kernel, by decide +kernel, by decide +kernel, by decide +kernel⟩,
    fun k hk => absurd hk (Nat.not_lt_zero k)⟩

theorem test_met_StepsKeepWordsDistinct : WordsDistinct busy ∧ PinsServed busy := by
  refine ⟨fun t u a b ha hb _ _ _ _ => ?_, fun q r _ h => ?_⟩
  · rw [(busy_entry ha).1, (busy_entry hb).1]
  · cases q
    case c1 => decide +kernel
    all_goals cases h

theorem test_met_StepsKeepTheHoldLaws : HoldLaws busy where
  unique i j a b ha hb _ _ := by rw [(busy_slot ha).1, (busy_slot hb).1]
  stopped i h hi hs := by rw [(busy_slot hi).2] at hs; cases hs
  toMake _ _ _ _ h := by cases h
  toEnd _ _ h := by cases h
  writes _ _ _ h := by cases h
  steps _ _ _ h := by cases h
  stepping _ _ h := by cases h
  waiting d i hd hs := by
    have hd : d = ⟨3, .p, 0, at0 .read true 0, .waiting 5⟩ := List.mem_singleton.mp hd
    subst hd
    cases hs
    exact ⟨⟨0, 0, ⟨2, .p⟩, 64, false⟩, by decide +kernel⟩
  engine j i hj hs := by
    cases hj
    cases hs
    exact ⟨⟨0, 0, ⟨2, .p⟩, 64, false⟩, by decide +kernel⟩

theorem test_met_StepsKeepTheJobInRange : JobLaws busy where
  record j hj := by cases hj; unfold Job.inRange; decide +kernel
  ports q r h := by cases q <;> cases h
  deferred d hd := by
    have hd : d = ⟨3, .p, 0, at0 .read true 0, .waiting 5⟩ := List.mem_singleton.mp hd
    subst hd
    exact .inl rfl
  skips _ h := by cases h
  corrects _ h := by cases h
  mismatch _ _ := rfl

theorem test_met_StepsKeepTimersInRange : TimersInRange busy where
  toClearInReset := busy_clear
  probe _ h := by cases h
  refresh _ h := by cases h; decide
  runs := by decide +kernel
  claim h := by cases h
  entries t e h := by
    rw [(busy_entry h).2]
    exact ⟨by decide, 200, rfl, by decide, by decide +kernel⟩
  holds i h hi := by rw [(busy_slot hi).2]; decide

theorem test_met_DonePlusRemainingIsTheCount :
    JobLaws busy ∧ ∃ t j k, Steps busy t ∧ busy.bulk = some j ∧ t.bulk = some k :=
  ⟨test_met_StepsKeepTheJobInRange, test_busy_steps⟩

end Sys2Proof.Tests
end

section
/-! PROOF. Requests and answers of the ring: what an arriving REQ frame does at the station (R14 to R19, R33). -/

namespace Sys2Proof.Machine

/-! ### Arrival and classification -/

/-- The row REQ_ARRIVAL brings a REQ frame to ring-in. -/
theorem exec_reqArrival_of_kind {s : State} {f : Frame} (hk : Frame.kind f = some .req) :
    exec (.reqArrival f) s = .next (s.arrive f) := by
  show arriveAs .req f s = _
  rw [arriveAs, if_pos hk]

/-- A frame taken in PROBING or ONLINE is one that ring-in receives. -/
theorem receives_of_takes {s : State} {f : Frame} (h : s.Takes f) : s.receives = true := by
  obtain ⟨hcarrier, hcold, hwarm, hring, -⟩ := h
  rcases hring with hring | hring <;> simp [State.receives, State.inReset, hcarrier, hcold, hwarm, hring]

/-- A frame taken in PROBING or ONLINE is classified by its kind (R15). -/
theorem arrive_eq_classify {s : State} {f : Frame} {k : Kind} (h : s.Takes f) (hk : Frame.kind f = some k) :
    s.arrive f = s.classify k f := by
  have hreceived : s.receives = true := receives_of_takes h
  obtain ⟨-, -, -, hring, hchecked⟩ := h
  have hconflict : s.ringState ≠ .conflict := by rcases hring with hring | hring <;> simp [hring]
  simp [State.arrive, hreceived, hchecked, hk, hconflict]

/-- A REQ whose DEST is this station is taken as a request, whatever its ORIGIN (R15). -/
theorem classify_req_of_dest {s : State} {f : Frame} (hd : Frame.dest f = s.own) :
    s.classify .req f = s.takeRequest f := by
  simp [State.classify, hd]

/-- REQ_ARRIVAL of a frame for this station, as one equation. -/
theorem exec_reqArrival_own {s : State} {f : Frame} (h : s.Takes f) (hk : Frame.kind f = some .req)
    (hd : Frame.dest f = s.own) : exec (.reqArrival f) s = .next (s.takeRequest f) := by
  rw [exec_reqArrival_of_kind hk, arrive_eq_classify h hk, classify_req_of_dest hd]

/-- At a full inbound request queue the request itself goes nowhere; its RETRY answer passes through (R18). -/
theorem takeRequest_of_full {s : State} {f : Frame} (h : 8 ≤ s.inbound.length) :
    s.takeRequest f = s.placePass (retryFrame f) := by
  rw [State.takeRequest, if_neg (by simpa [Config.inboundPlaces] using h)]

/-! ### The pass-through buffer -/

/-- The arbiter chooses a frame of the pass-through buffer before any of the transmit queue (R21). -/
theorem ringOutChoice_of_passThrough (st : RingState) (l : List Frame) (f : Frame) (transmit : List Frame) :
    ringOutChoice st (l ++ [f]) transmit = .passThrough := by
  cases l with
  | nil => rfl
  | cons _ _ => rfl

/-- A frame placed in the pass-through buffer starts sending where ring-out was idle (R19, R21). -/
theorem placePass_of_room {s : State} (f : Frame) (h : s.passThrough.length < 3) :
    s.placePass f =
      { s with
        passThrough := s.passThrough ++ [f]
        ringOut := if s.ringOut = .idle then .passThrough else s.ringOut } := by
  rw [State.placePass, if_pos (by simpa [Config.passThroughPlaces] using h), State.chooseRingOut]
  cases hout : s.ringOut with
  | idle => simp [ringOutChoice_of_passThrough]
  | passThrough => rfl
  | transmit => rfl

/-- A frame that finds the pass-through buffer full is dropped with a notice (R19). -/
theorem placePass_of_full {s : State} (f : Frame) (h : 3 ≤ s.passThrough.length) :
    s.placePass f = s.placeNotice .ringDrop := by
  rw [State.placePass, if_neg (by simpa [Config.passThroughPlaces] using h)]

/-! ### The RETRY answer -/

/-- The zero fields of an answer without data, from its reserved bit and GUARD to byte 13, are one run of 90 zeros. -/
theorem append_absent_answer_fields (head : BitVec 22) :
    head ++ 0#1 ++ bit false ++ 0#32 ++ 0#32 ++ 0#24 = head ++ 0#90 := by
  apply BitVec.eq_of_toNat_eq
  simp only [BitVec.toNat_append, bit, BitVec.toNat_ofBool, BitVec.toNat_ofNat, Nat.zero_mod, Bool.toNat_false,
    Nat.or_zero, ← Nat.shiftLeft_add]

/-- The frame that the hold logic makes for a RETRY, written out bit by bit (R31, R33). -/
theorem ansFrame_retry (own dest : Station) (tag : Tag) (port : Port) :
    ansFrame own dest tag port .retry (.word false 0) =
      Frame.sealed (2#4 ++ 8#4 ++ 0#1 ++ dest ++ 0#1 ++ own ++ tag ++ port.code ++ 0#90) :=
  congrArg Frame.sealed (append_absent_answer_fields (2#4 ++ 8#4 ++ 0#1 ++ dest ++ 0#1 ++ own ++ tag ++ port.code))

/-- Settles O13: the request's RETRY answer is placed in the pass-through buffer in its place, by the rules of that
buffer, and its body is that of `ansFrame_retry` with DEST and ORIGIN exchanged. -/
theorem fullQueueTurnsRequestIntoRetry : Obligations.FullQueueTurnsRequestIntoRetry := by
  unfold Obligations.FullQueueTurnsRequestIntoRetry
  intro s f htakes hkind hdest hfull body retry
  have hexec : exec (.reqArrival f) s = .next (s.placePass (retryFrame f)) := by
    rw [exec_reqArrival_own htakes hkind hdest, takeRequest_of_full hfull]
  have hretry : retryFrame f = retry := ansFrame_retry _ _ _ _
  rw [hretry] at hexec
  refine ⟨fun hroom => ?_, fun hnoroom => ?_, ?_⟩
  · rw [hexec, placePass_of_room retry hroom]
  · rw [hexec, placePass_of_full retry hnoroom]
  · rw [← hretry, retryFrame, hdest]

end Sys2Proof.Machine
end

section
/-! PROOF. The local ports: the five checks that an accepted memory request meets, and where a request that passes them
goes (R43 to R46, R50 to R53). -/

namespace Sys2Proof.Machine

/-! ### The codes of the pins -/

/-- The OP codes in use are 1 to 7 (R27). -/
theorem op_ofCode_eq_none_iff (x : BitVec 4) : Op.ofCode x = none ↔ x = 0 ∨ 8 ≤ x := by revert x; decide

theorem op_ofCode_eq_some_iff (x : BitVec 4) (o : Op) : Op.ofCode x = some o ↔ x = o.code := by
  revert x; cases o <;> decide

/-- GUARD_ACT 3 is unused (R27). -/
theorem guardAct_ofCode_eq_none_iff (x : BitVec 2) : GuardAct.ofCode x = none ↔ x = 3 := by revert x; decide

theorem guardAct_ofCode_eq_some_iff (x : BitVec 2) (a : GuardAct) : GuardAct.ofCode x = some a ↔ x = a.code := by
  revert x; cases a <;> decide

/-- BULK_KIND 0 is unused (R27). -/
theorem bulkKind_ofCode_eq_none_iff (x : BitVec 2) : BulkKind.ofCode x = none ↔ x = 0 := by revert x; decide

theorem bulkKind_ofCode_eq_some_iff (x : BitVec 2) (k : BulkKind) : BulkKind.ofCode x = some k ↔ x = k.code := by
  revert x; cases k <;> decide

/-! ### The first check and what the pins ask for -/

/-- The first check refuses exactly the requests that R43 lists. -/
theorem pinsCommand_eq_none_iff (q : Port) (r : PortRequest) :
    pinsCommand q r = none ↔
      r.op = 0 ∨ 8 ≤ r.op ∨ (q ≠ .p ∧ r.op ≠ 1 ∧ r.op ≠ 2) ∨ (r.op = 2 ∧ r.lanes = 0)
        ∨ ((r.op = 2 ∨ r.op = 4) ∧ r.guardAct = 3)
        ∨ (r.op = 4 ∧ r.lanes = 0 ∧ (r.guardAct = 1 ∨ r.guardAct = 2)) ∨ (r.op = 5 ∧ r.bulkKind = 0) := by
  unfold pinsCommand
  cases ho : Op.ofCode r.op with
  | none =>
    have hunused : r.op = 0 ∨ 8 ≤ r.op := (op_ofCode_eq_none_iff _).mp ho
    simp only [true_iff]
    exact hunused.imp_right .inl
  | some o =>
    have hcode : r.op = o.code := (op_ofCode_eq_some_iff _ _).mp ho
    cases o with
    | read => simp [hcode, Op.code]
    | holdRead => simp [hcode, Op.code]
    | bulkQuery => simp [hcode, Op.code]
    | bulkAbort => simp [hcode, Op.code]
    | write =>
      cases ha : GuardAct.ofCode r.guardAct with
      | none => simp [hcode, Op.code, (guardAct_ofCode_eq_none_iff _).mp ha]
      | some a =>
        have hact : r.guardAct = a.code := (guardAct_ofCode_eq_some_iff _ _).mp ha
        cases a <;> simp [hcode, Op.code, hact, GuardAct.code]
    | commit =>
      cases ha : GuardAct.ofCode r.guardAct with
      | none => simp [hcode, Op.code, (guardAct_ofCode_eq_none_iff _).mp ha]
      | some a =>
        have hact : r.guardAct = a.code := (guardAct_ofCode_eq_some_iff _ _).mp ha
        cases a <;> simp [hcode, Op.code, hact, GuardAct.code, imp_iff_not_or]
    | bulkStart =>
      cases hk : BulkKind.ofCode r.bulkKind with
      | none => simp [hcode, Op.code, (bulkKind_ofCode_eq_none_iff _).mp hk]
      | some k =>
        have hkind : r.bulkKind = k.code := (bulkKind_ofCode_eq_some_iff _ _).mp hk
        cases k <;> simp [hcode, Op.code, hkind, BulkKind.code]

/-- What pins that pass the first check ask for, by their operation (R40, R43). -/
theorem pinsCommand_cases {q : Port} {r : PortRequest} {c : Command} (h : pinsCommand q r = some c) :
    (r.op = 1 ∧ c = .read)
    ∨ (r.op = 2 ∧ ∃ a, c = .write r.lanes r.data a)
    ∨ (r.op = 3 ∧ c = .holdRead)
    ∨ (r.op = 4 ∧ ∃ a, c = mkCommit r.lanes r.data a)
    ∨ (r.op = 5 ∧ ∃ k : BulkKind, r.bulkKind = k.code ∧ c = mkBulkStart k r.data r.count)
    ∨ (r.op = 6 ∧ c = .bulkQuery)
    ∨ (r.op = 7 ∧ c = .bulkAbort) := by
  unfold pinsCommand at h
  cases ho : Op.ofCode r.op with
  | none => simp [ho] at h
  | some o =>
    have hcode : r.op = o.code := (op_ofCode_eq_some_iff _ _).mp ho
    cases o with
    | read => simp_all [Op.code]
    | holdRead => simp_all [Op.code]
    | bulkQuery => simp_all [Op.code]
    | bulkAbort => simp_all [Op.code]
    | write =>
      cases ha : GuardAct.ofCode r.guardAct with
      | none => simp [ho, ha] at h
      | some a =>
        obtain ⟨-, rfl⟩ : r.lanes ≠ 0 ∧ .write r.lanes r.data a = c := by simpa [ho, ha] using h
        exact .inr (.inl ⟨hcode, a, rfl⟩)
    | commit =>
      cases ha : GuardAct.ofCode r.guardAct with
      | none => simp [ho, ha] at h
      | some a =>
        obtain ⟨-, rfl⟩ : (q = .p ∧ (r.lanes ≠ 0 ∨ a = .keep)) ∧ mkCommit r.lanes r.data a = c := by
          simpa [ho, ha] using h
        exact .inr (.inr (.inr (.inl ⟨hcode, a, rfl⟩)))
    | bulkStart =>
      cases hk : BulkKind.ofCode r.bulkKind with
      | none => simp [ho, hk] at h
      | some k =>
        obtain ⟨-, rfl⟩ : q = .p ∧ mkBulkStart k r.data r.count = c := by simpa [ho, hk] using h
        exact .inr (.inr (.inr (.inr (.inl ⟨hcode, k, (bulkKind_ofCode_eq_some_iff _ _).mp hk, rfl⟩))))

/-- A COMMIT changes a word unless it is a release (R45). -/
theorem changesWord_mkCommit (lanes : Lanes) (data : Word) (a : GuardAct) :
    changesWord (mkCommit lanes data a) = true ↔ lanes ≠ 0 := by
  unfold mkCommit
  split
  · rename_i hrelease; simp [changesWord, hrelease]
  · simp [changesWord]

/-- A bulk job could change a word unless it is a CHECK (R45). -/
theorem changesWord_mkBulkStart (k : BulkKind) (pattern : Word) (count : Count) :
    changesWord (mkBulkStart k pattern count) = true ↔ k.code ≠ 2 := by
  cases k <;> simp [mkBulkStart, changesWord, BulkKind.code]

/-- The table of R45, by the pins. -/
theorem changesWord_iff {q : Port} {r : PortRequest} {c : Command} (h : pinsCommand q r = some c) :
    changesWord c = true ↔
      r.op = 2 ∨ r.op = 3 ∨ (r.op = 4 ∧ r.lanes ≠ 0) ∨ (r.op = 5 ∧ r.bulkKind ≠ 2) := by
  rcases pinsCommand_cases h with ⟨ho, rfl⟩ | ⟨ho, a, rfl⟩ | ⟨ho, rfl⟩ | ⟨ho, a, rfl⟩ | ⟨ho, k, hk, rfl⟩ | ⟨ho, rfl⟩ |
    ⟨ho, rfl⟩
  · simp [ho, changesWord]
  · simp [ho, changesWord]
  · simp [ho, changesWord]
  · simp [ho, changesWord_mkCommit]
  · simp [ho, changesWord_mkBulkStart, hk]
  · simp [ho, changesWord]
  · simp [ho, changesWord]

/-- The fifth check passes every COMMIT (R46). -/
theorem rangeFits_mkCommit (offset : Offset) (lanes : Lanes) (data : Word) (a : GuardAct) :
    rangeFits offset (mkCommit lanes data a) = true := by
  unfold mkCommit
  split <;> rfl

/-- The fifth check, by the pins (R46). -/
theorem rangeFits_eq_false_iff {q : Port} {r : PortRequest} {c : Command} (h : pinsCommand q r = some c) :
    rangeFits r.offset c = false ↔ r.op = 5 ∧ (r.count = 0 ∨ 8192 < r.offset.toNat + r.count.toNat) := by
  rcases pinsCommand_cases h with ⟨ho, rfl⟩ | ⟨ho, a, rfl⟩ | ⟨ho, rfl⟩ | ⟨ho, a, rfl⟩ | ⟨ho, k, hk, rfl⟩ | ⟨ho, rfl⟩ |
    ⟨ho, rfl⟩
  · simp [ho, rangeFits]
  · simp [ho, rangeFits]
  · simp [ho, rangeFits]
  · simp [ho, rangeFits_mkCommit]
  · have hzero : r.count = 0 ↔ r.count.toNat = 0 := by rw [← BitVec.toNat_inj]; rfl
    simp only [ho, rangeFits, mkBulkStart, countFits, hzero, Bool.and_eq_false_iff, decide_eq_false_iff_not, true_and]
    omega
  · simp [ho, rangeFits]
  · simp [ho, rangeFits]

/-- A request is plain unless it comes from P with its privilege line raised (R108). -/
theorem pinsPrivileged_eq_false_iff (q : Port) (r : PortRequest) :
    pinsPrivileged q r = false ↔ q ≠ .p ∨ r.privileged = false := by
  simp [pinsPrivileged, imp_iff_not_or]

/-! ### Acceptance of a memory request -/

/-- The pins of a port hold what was put there last. -/
theorem setStrobe_setStrobe (s : State) (q : Port) (x y : Strobe) :
    (s.setStrobe q x).setStrobe q y = s.setStrobe q y := by
  cases q <;> rfl

/-- ACCEPTANCE of a raised strobe whose request was not accepted yet takes the request at once, at an empty request
place out of reset (R41, R61). -/
theorem exec_acceptance_takes {s : State} {q : Port} (r : PortRequest) (hs : ∀ r', s.strobe q ≠ .accepted r')
    (hcold : s.coldReset = false) (hwarm : s.warmReset = false) (hidle : s.port q = .idle) :
    exec (.acceptance q (some r)) s = .next (s.accept q r) := by
  have hraised : (s.strobe q).raised r = .presented r := by
    cases hx : s.strobe q with
    | low => rfl
    | presented _ => rfl
    | accepted r' => exact absurd hx (hs r')
  have hpresented : (s.setStrobe q (.presented r)).strobe q = .presented r := by rw [strobe_setStrobe, if_pos rfl]
  have hnoreset : (s.setStrobe q (.presented r)).inReset = false := by simp [State.inReset, hcold, hwarm]
  calc exec (.acceptance q (some r)) s
      = .next ((s.setStrobe q ((s.strobe q).raised r)).acceptWaiting q) := rfl
    _ = .next ((s.setStrobe q (.presented r)).accept q r) := by
      rw [hraised, acceptWaiting_takes hnoreset hidle hpresented]
    _ = .next (s.accept q r) := by rw [State.accept, setStrobe_setStrobe]; rfl

/-- Only P has the control-select line, so that every other request is a memory request (R40, R58). -/
theorem accept_eq_acceptMemory (s : State) {q : Port} {r : PortRequest} (h : q = .p → r.control = false) :
    s.accept q r = (s.setStrobe q (.accepted r)).acceptMemory q r := by
  have hmemory : pinsControl q r = false := by simpa [pinsControl] using h
  simp [State.accept, hmemory]

/-- ACCEPTANCE of a memory request makes its strobe accepted, then the five checks and the routing. -/
theorem exec_acceptance_memory {s : State} {q : Port} {r : PortRequest} (hs : ∀ r', s.strobe q ≠ .accepted r')
    (hcold : s.coldReset = false) (hwarm : s.warmReset = false) (hidle : s.port q = .idle)
    (hmemory : q = .p → r.control = false) :
    exec (.acceptance q (some r)) s = .next ((s.setStrobe q (.accepted r)).acceptMemory q r) := by
  rw [exec_acceptance_takes r hs hcold hwarm hidle, accept_eq_acceptMemory s hmemory]

/-! ### The outcome of each check -/

/-- The first check (R43). -/
theorem acceptMemory_illegal {s : State} {q : Port} {r : PortRequest} (h : pinsCommand q r = none) :
    s.acceptMemory q r = s.complete q ⟨.badRequest, [0], false⟩ := by
  simp only [State.acceptMemory, h]; rfl

section
variable {s : State} {q : Port} {r : PortRequest} {c : Command} (hc : pinsCommand q r = some c)
include hc

/-- The second check (R44). -/
theorem acceptMemory_noWindow (hv : (s.window r.window).valid = false) :
    s.acceptMemory q r = s.complete q ⟨.noWindow, [0], false⟩ := by
  simp [State.acceptMemory, hc, hv, State.refuse, plainCompletion]

/-- The third check (R44). -/
theorem acceptMemory_noAccess (hv : (s.window r.window).valid = true) (ho : (s.window r.window).privOnly = true)
    (hp : pinsPrivileged q r = false) : s.acceptMemory q r = s.complete q ⟨.noAccess, [0], false⟩ := by
  simp [State.acceptMemory, hc, hv, ho, hp, State.refuse, plainCompletion]

variable (hv : (s.window r.window).valid = true)
  (ha : ¬((s.window r.window).privOnly = true ∧ pinsPrivileged q r = false))
include hv ha

/-- The fourth check (R45). -/
theorem acceptMemory_readOnly (ho : (s.window r.window).readOnly = true) (hw : changesWord c = true) :
    s.acceptMemory q r = s.complete q ⟨.readOnly, [0], false⟩ := by
  simp [State.acceptMemory, hc, hv, ha, ho, hw, State.refuse, plainCompletion]

variable (hr : ¬((s.window r.window).readOnly = true ∧ changesWord c = true))
include hr

/-- The fifth check (R46). -/
theorem acceptMemory_outOfPage (hf : rangeFits r.offset c = false) :
    s.acceptMemory q r = s.complete q ⟨.badRequest, [0], false⟩ := by
  simp [State.acceptMemory, hc, hv, ha, hr, hf, State.refuse, plainCompletion]

/-- A request that passes the five checks is translated and routed (R47, R50). -/
theorem acceptMemory_routed (hf : rangeFits r.offset c = true) :
    s.acceptMemory q r = s.route q (s.window r.window).target
      ⟨c, pinsPrivileged q r, (s.window r.window).page, r.offset⟩ := by
  simp [State.acceptMemory, hc, hv, ha, hr, hf]

end

/-- Settles O20: each refusal is the outcome of its check, whose condition on the pins is that of
`pinsCommand_eq_none_iff`, `changesWord_iff` or `rangeFits_eq_false_iff`. -/
theorem acceptanceRefusals : Obligations.AcceptanceRefusals := by
  unfold Obligations.AcceptanceRefusals
  intro s q r hs hcold hwarm hidle hmemory w illegal plain changes outside refused
  have hexec := exec_acceptance_memory hs hcold hwarm hidle hmemory
  have hillegal : pinsCommand q r = none ↔ illegal := pinsCommand_eq_none_iff q r
  have hplain : pinsPrivileged q r = false ↔ plain := pinsPrivileged_eq_false_iff q r
  refine ⟨fun h => hexec.trans (congrArg _ (acceptMemory_illegal (hillegal.mpr h))), ?_⟩
  by_cases hi : illegal
  · exact ⟨fun h => absurd hi h, fun h => absurd hi h, fun h => absurd hi h, fun h => absurd hi h⟩
  obtain ⟨c, hc⟩ := Option.ne_none_iff_exists'.mp (mt hillegal.mp hi)
  have hchanges : changesWord c = true ↔ changes := changesWord_iff hc
  have houtside : rangeFits r.offset c = false ↔ outside := rangeFits_eq_false_iff hc
  rw [← hplain, ← hchanges, ← houtside]
  refine ⟨fun _ hv => ?_, fun _ hv ho hp => ?_, fun _ hv ha ho hw => ?_, fun _ hv ha hr hf => ?_⟩
  · exact hexec.trans (congrArg _ (acceptMemory_noWindow hc hv))
  · exact hexec.trans (congrArg _ (acceptMemory_noAccess hc hv ho hp))
  · exact hexec.trans (congrArg _ (acceptMemory_readOnly hc hv ha ho hw))
  · exact hexec.trans (congrArg _ (acceptMemory_outOfPage hc hv ha hr hf))

/-! ### The routing of an accepted request -/

section
variable {s : State} {q : Port} {d : Station} {r : Request}

/-- A request for the own station is for the own bank, in any ring state (R50, R51). -/
theorem route_own (hd : d = s.own) : s.route q d r = s.setPort q (.atBank r) := by
  rw [State.route, if_pos hd]

/-- A request for another station needs a ring that is ONLINE (R50). -/
theorem route_ringDown (hd : d ≠ s.own) (hring : s.ringState ≠ .online) :
    s.route q d r = s.complete q ⟨.ringDown, [0], false⟩ := by
  rw [State.route, if_neg hd, if_neg hring]; rfl

/-- A request that does not meet the three conditions of a send waits (R53, R54). -/
theorem route_waits (hd : d ≠ s.own) (hring : s.ringState = .online) (ht : s.sendTag q d r = none) :
    s.route q d r = s.setPort q (.toSend d r) := by
  rw [State.route, if_neg hd, if_pos hring, ht]

/-- A request that meets the three conditions is sent at once (R50, R53). -/
theorem route_sends {t : Tag} (hd : d ≠ s.own) (hring : s.ringState = .online) (ht : s.sendTag q d r = some t) :
    s.route q d r = s.sendRequest q d r t := by
  rw [State.route, if_neg hd, if_pos hring, ht]

end

/-- Settles O22: the request passes the five checks, and each of the four routes is a branch of the routing; the
accepted strobe changes neither the ring state, the own number nor the conditions of a send. -/
theorem acceptedRequestsAreRouted : Obligations.AcceptedRequestsAreRouted := by
  unfold Obligations.AcceptedRequestsAreRouted
  intro s q r c hs hcold hwarm hidle hmemory hc s1 w request hv ha hr hf
  have hexec : exec (.acceptance q (some r)) s = .next (s1.route q w.target request) := by
    rw [exec_acceptance_memory hs hcold hwarm hidle hmemory]
    exact congrArg _ (acceptMemory_routed hc hv ha hr hf)
  have hsendTag : s1.sendTag q w.target request = s.sendTag q w.target request := rfl
  refine ⟨fun hd => ?_, fun hd hring => ?_, fun hd hring ht => ?_, fun t hd hring ht => ?_⟩
  · exact hexec.trans (congrArg _ (route_own hd))
  · exact hexec.trans (congrArg _ (route_ringDown hd hring))
  · exact hexec.trans (congrArg _ (route_waits hd hring (hsendTag.trans ht)))
  · exact hexec.trans (congrArg _ (route_sends hd hring (hsendTag.trans ht)))

end Sys2Proof.Machine
end

section
/-! PROOF. The outstanding table: how a request gets its entry, how the entry is resent, and how it ends (R53 to R56,
R62 to R78). -/

namespace Sys2Proof.Machine

/-! ### The places of the transmit queue and ring-out -/

/-- The places in use are the frames and the place that the grant has reserved (R22). -/
theorem usedPlaces_eq_placesTaken (s : State) : s.usedPlaces = s.placesTaken := by
  unfold State.usedPlaces State.placesTaken grantReserves
  cases s.grant <;> rfl

/-- The transmit queue has six places (R22). -/
theorem freePlace_iff (s : State) : s.freePlace = true ↔ s.placesTaken < 6 := by
  simp [State.freePlace, usedPlaces_eq_placesTaken, Config.transmitPlaces]

/-- The choice of the ring-out arbiter, by its conditions (R21). -/
theorem ringOutChoice_eq_nextSending (st : RingState) (pass own : List Frame) :
    ringOutChoice st pass own = nextSending st pass own := by
  cases pass with
  | cons _ _ => simp [ringOutChoice, nextSending]
  | nil =>
    cases own with
    | nil => simp [ringOutChoice, nextSending]
    | cons f _ => cases st <;> simp [ringOutChoice, nextSending, mayInsert]

/-- In ONLINE ring-out leaves no frame waiting (R21). -/
theorem nextSending_online (pass own : List Frame) (f : Frame) :
    nextSending .online pass (own ++ [f]) = if pass = [] then .transmit else .passThrough := by
  by_cases hpass : pass = [] <;> simp [nextSending, hpass]

/-- A frame placed at the tail of the transmit queue starts sending where ring-out was idle and chooses it
(R21, R22). -/
theorem placeTransmit_eq_withFrame (s : State) (f : Frame) : s.placeTransmit f = s.withFrame f := by
  rw [State.placeTransmit, State.chooseRingOut, State.withFrame]
  cases hout : s.ringOut with
  | idle => simp [ringOutChoice_eq_nextSending]
  | passThrough => rfl
  | transmit => rfl

/-! ### The end of an entry -/

/-- The end of an entry that is not posted is a completion on its port, whose waiting request is then accepted
(R59, R68). -/
theorem tellEnd_of_not_posted (s : State) (t : Tag) {e : Entry} (code : Code) (hp : e.posted = false) :
    s.tellEnd t e (plainCompletion code) = (s.complete e.port ⟨code, [0], false⟩).acceptWaiting e.port := by
  simp [State.tellEnd, State.reportEnd, plainCompletion, hp]

/-- A posted write that was not done ends with a notice (R68, R78). -/
theorem tellEnd_of_posted (s : State) (t : Tag) {e : Entry} (code : Code) (hp : e.posted = true)
    (hok : code ≠ .answer .ok) (hcorrected : code ≠ .answer .corrected) :
    s.tellEnd t e (plainCompletion code) =
      s.placeNotice (.postedFail e.port t e.target e.request.page e.request.offset code) := by
  simp [State.tellEnd, State.reportEnd, plainCompletion, hp, hok, hcorrected]

/-! ### An own request that comes back -/

/-- REQ_ARRIVAL of an own request for another station, as one equation (R15). -/
theorem exec_reqArrival_unclaimed {s : State} {f : Frame} (h : s.Takes f) (hk : Frame.kind f = some .req)
    (hd : Frame.dest f ≠ s.own) (ho : Frame.origin f = s.own) :
    exec (.reqArrival f) s = .next (s.takeUnclaimed f) := by
  have hrow : s.classify .req f = s.takeUnclaimed f := by simp [State.classify, hd, ho]
  rw [exec_reqArrival_of_kind hk, arrive_eq_classify h hk, hrow]

/-- The entry that waits for the frame's DEST and PORT ends with NO_STATION (R72). -/
theorem takeUnclaimed_of_waiting {s : State} {f : Frame} {e : Entry} (he : s.entry (Frame.tag f) = some e)
    (hw : e.state = .waitingAnswer) (ht : e.target = Frame.dest f) (hp : e.port = Frame.port f) :
    s.takeUnclaimed f = (s.setEntry (Frame.tag f) none).tellEnd (Frame.tag f) e (plainCompletion .noStation) := by
  simp [State.takeUnclaimed, State.closeEntry, he, hw, ht, hp]

/-- An own request without such an entry is discarded (R72). -/
theorem takeUnclaimed_of_no_entry {s : State} {f : Frame}
    (h : ∀ e, s.entry (Frame.tag f) = some e →
      e.state ≠ .waitingAnswer ∨ e.target ≠ Frame.dest f ∨ e.port ≠ Frame.port f) :
    s.takeUnclaimed f = s := by
  unfold State.takeUnclaimed
  cases he : s.entry (Frame.tag f) with
  | none => rfl
  | some e =>
    have hmiss : ¬(e.state = .waitingAnswer ∧ e.target = Frame.dest f ∧ e.port = Frame.port f) :=
      fun ⟨hw, ht, hp⟩ => (h e he).elim (· hw) (·.elim (· ht) (· hp))
    exact if_neg (by simpa [and_assoc] using hmiss)

/-- Settles O14: the waiting entry of the frame's DEST and PORT is closed with NO_STATION, and the two ways to report
it are those of `tellEnd_of_not_posted` and `tellEnd_of_posted`. -/
theorem unclaimedRequestEndsWithNoStation : Obligations.UnclaimedRequestEndsWithNoStation := by
  unfold Obligations.UnclaimedRequestEndsWithNoStation
  intro s f htakes hkind hdest horigin
  have hexec := exec_reqArrival_unclaimed htakes hkind hdest horigin
  refine ⟨fun e he hw ht hp => ?_, fun hother => ?_⟩
  · rw [hexec, takeUnclaimed_of_waiting he hw ht hp]
    refine ⟨fun hposted => ?_, fun hposted => ?_⟩
    · rw [tellEnd_of_not_posted _ _ .noStation hposted]
    · rw [tellEnd_of_posted _ _ .noStation hposted nofun nofun]
  · rw [hexec, takeUnclaimed_of_no_entry hother]

/-! ### Answers -/

/-- ANS_ARRIVAL of an answer for this station, as one equation (R15, R67). -/
theorem exec_ansArrival_own {s : State} {f : Frame} (h : s.Takes f) (hk : Frame.kind f = some .ans)
    (hd : Frame.dest f = s.own) : exec (.ansArrival f) s = .next (s.takeAnswer f) := by
  have hkind : exec (.ansArrival f) s = .next (s.arrive f) := by
    show arriveAs .ans f s = _
    rw [arriveAs, if_pos hk]
  have hrow : s.classify .ans f = s.takeAnswer f := by simp [State.classify, hd]
  rw [hkind, arrive_eq_classify h hk, hrow]

/-- PROGRESS is present in the two answers that R31 lists. -/
theorem carriesProgress_iff (o : Op) (st : Status) :
    carriesProgress o st = true ↔ (o = .bulkQuery ∧ st = .ok) ∨ (o = .bulkAbort ∧ st = .aborted) := by
  simp [carriesProgress]

/-- An answer from the entry's station for its port matches it, unless its PROGRESS has an unused PSTATE
(R34, R67). -/
theorem answerStatus_of_match {e : Entry} {f : Frame} {st : Status} (ht : e.target = Frame.origin f)
    (hp : e.port = Frame.port f) (hst : Frame.status f = some st)
    (hpr : carriesProgress e.request.command.op st = true → Frame.progress f ≠ none) :
    answerStatus e f = some st := by
  have hpr' : ¬(carriesProgress e.request.command.op st = true ∧ Frame.progress f = none) := fun h => hpr h.1 h.2
  simp [answerStatus, ht, hp, hst, hpr']

/-- The answers that match no entry of their tag (R34, R67). -/
theorem answerStatus_eq_none {e : Entry} {f : Frame}
    (h : e.target ≠ Frame.origin f ∨ e.port ≠ Frame.port f ∨ Frame.status f = none
      ∨ (Frame.progress f = none
        ∧ ((e.request.command.op = .bulkQuery ∧ Frame.status f = some .ok)
          ∨ (e.request.command.op = .bulkAbort ∧ Frame.status f = some .aborted)))) :
    answerStatus e f = none := by
  unfold answerStatus
  split
  · rename_i hmatch
    obtain ⟨ht, hp⟩ : Frame.origin f = e.target ∧ Frame.port f = e.port := by simpa using hmatch
    rcases h with h | h | h | ⟨hpr, ⟨hop, hst⟩ | ⟨hop, hst⟩⟩
    · exact absurd ht.symm h
    · exact absurd hp.symm h
    · simp [h]
    · simp [hst, hop, hpr, carriesProgress]
    · simp [hst, hop, hpr, carriesProgress]
  · rfl

section
variable {s : State} {f : Frame} {e : Entry}

/-- An answer to a FREE entry is discarded (R67). -/
theorem takeAnswer_of_free (he : s.entry (Frame.tag f) = none) : s.takeAnswer f = s := by
  simp [State.takeAnswer, he]

variable (he : s.entry (Frame.tag f) = some e)
include he

/-- An answer that does not match its entry is discarded (R67). -/
theorem takeAnswer_of_no_match (hm : answerStatus e f = none) : s.takeAnswer f = s := by
  simp [State.takeAnswer, he, hm]

/-- An answer to an entry that waits to resend is discarded (R70). -/
theorem takeAnswer_of_waitingResend (hw : e.state = .waitingResend) : s.takeAnswer f = s := by
  cases hm : answerStatus e f with
  | none => exact takeAnswer_of_no_match he hm
  | some st => simp [State.takeAnswer, he, hm, hw]

/-- A late answer frees its STALE entry (R70). -/
theorem takeAnswer_of_stale {st : Status} (hm : answerStatus e f = some st) (hw : e.state = .stale) :
    s.takeAnswer f = s.setEntry (Frame.tag f) none := by
  simp [State.takeAnswer, he, hm, hw]

/-- A matching RETRY at an entry that waits for its answer (R69). -/
theorem takeAnswer_of_retry (hm : answerStatus e f = some .retry) (hw : e.state = .waitingAnswer) :
    s.takeAnswer f = s.takeRetry (Frame.tag f) e := by
  simp [State.takeAnswer, he, hm, hw]

end

/-- Up to six resends a RETRY starts the backoff timer (R69). -/
theorem takeRetry_backsOff (s : State) (t : Tag) {e : Entry} (h : e.attempts < 6) :
    s.takeRetry t e =
      s.setEntry t (some { e with state := .waitingResend, timer := some (4 * (e.attempts + 1)) }) := by
  rw [State.takeRetry, if_pos (by simpa [Config.resendLimit] using h)]

/-- After six resends a RETRY ends the entry with RETRY_LIMIT (R69). -/
theorem takeRetry_ends (s : State) (t : Tag) {e : Entry} (h : 6 ≤ e.attempts) :
    s.takeRetry t e = (s.setEntry t none).tellEnd t e (plainCompletion .retryLimit) := by
  rw [State.takeRetry, if_neg (by simpa [Config.resendLimit] using h), State.closeEntry]

/-- Settles O16: each clause is one of the answers that the outstanding table knows, a matching RETRY, a late one, or
one that `answerStatus_eq_none` or the entry's state discards. -/
theorem retriesAndLateAnswers : Obligations.RetriesAndLateAnswers := by
  unfold Obligations.RetriesAndLateAnswers
  intro s f htakes hkind hdest
  rw [exec_ansArrival_own htakes hkind hdest]
  refine ⟨fun e he hw ht hp hst => ?_, fun e st he hw ht hp hst hpr => ?_, fun he => ?_, fun e he hother => ?_⟩
  · have hm : answerStatus e f = some .retry := answerStatus_of_match ht hp hst (by simp [carriesProgress_iff])
    rw [takeAnswer_of_retry he hm hw]
    refine ⟨fun hmore => ?_, fun hlimit hposted => ?_, fun hlimit hposted => ?_⟩
    · rw [takeRetry_backsOff _ _ hmore]
    · rw [takeRetry_ends _ _ hlimit, tellEnd_of_not_posted _ _ .retryLimit hposted]
    · rw [takeRetry_ends _ _ hlimit, tellEnd_of_posted _ _ .retryLimit hposted nofun nofun]
  · have hm : answerStatus e f = some st :=
      answerStatus_of_match ht hp hst fun hc => hpr.resolve_left (not_not_intro ((carriesProgress_iff _ _).mp hc))
    rw [takeAnswer_of_stale he hm hw]
  · rw [takeAnswer_of_free he]
  · rcases hother with hw | hmiss
    · rw [takeAnswer_of_waitingResend he hw]
    · rw [takeAnswer_of_no_match he (answerStatus_eq_none hmiss)]

/-! ### The timers and the claim of an entry -/

/-- A resend places the saved frame again, counts one more attempt and starts the answer timer afresh (R76). -/
theorem resend_eq (s : State) (t : Tag) (e : Entry) :
    s.resend t e =
      (s.setEntry t (some { e with
          state := .waitingAnswer, attempts := e.attempts + 1,
          timer := some (if s.straps.long then 800 else 200) })).withFrame
        (reqFrame s.own e.target t e.port e.request) := by
  rw [State.resend, placeTransmit_eq_withFrame]; rfl

section
variable {s : State} {t : Tag} {e : Entry} (he : s.entry t = some e)
include he

/-- ANSWER_TIMER_EXPIRY at an entry that waits for its answer (R73). -/
theorem exec_answerTimerExpiry (hw : e.state = .waitingAnswer) :
    exec (.answerTimerExpiry t) s =
      .next ((s.setEntry t (some { e with
          state := .stale, timer := some (if s.straps.long then 800 else 200) })).tellEnd t e
        (plainCompletion .timeout)) := by
  show execAnswerTimerExpiry t s = _
  simp [execAnswerTimerExpiry, he, hw, answerTimeout]

/-- QUARANTINE_EXPIRY at a STALE entry (R74). -/
theorem exec_quarantineExpiry (hw : e.state = .stale) :
    exec (.quarantineExpiry t) s = .next (s.setEntry t none) := by
  show execQuarantineExpiry t s = _
  simp [execQuarantineExpiry, he, hw]

/-- BACKOFF_TIMER_EXPIRY at an entry whose backoff timer runs (R76, R77). -/
theorem exec_backoffTimerExpiry (hw : e.state = .waitingResend) (ht : e.timer ≠ none) :
    exec (.backoffTimerExpiry t) s =
      .next (if s.placesTaken < 6 then s.resend t e else s.setEntry t (some { e with timer := none })) := by
  have hruns : e.timer.isSome = true := Option.isSome_iff_ne_none.mpr ht
  show execBackoffTimerExpiry t s = _
  simp [execBackoffTimerExpiry, he, hw, hruns, freePlace_iff]

/-- RESEND_CLAIM of an entry whose claim waits and finds a free place (R77). -/
theorem exec_resendClaim (hw : e.state = .waitingResend) (ht : e.timer = none) (hfree : s.placesTaken < 6) :
    exec (.resendClaim t) s = .next (s.resend t e) := by
  show execResendClaim t s = _
  simp [execResendClaim, he, hw, ht, (freePlace_iff s).mpr hfree]

end

/-- Settles O25: each clause is the rule of its command, with the report of a timed out entry by
`tellEnd_of_not_posted` and `tellEnd_of_posted` and the sending of a resend by `resend_eq`. -/
theorem entryTimersExpire : Obligations.EntryTimersExpire := by
  unfold Obligations.EntryTimersExpire
  intro s t e he quarantined
  refine ⟨fun hw hposted => ?_, fun hw hposted => ?_, fun hw => exec_quarantineExpiry he hw, fun hw => ?_⟩
  · rw [exec_answerTimerExpiry he hw, tellEnd_of_not_posted _ _ .timeout hposted]
  · rw [exec_answerTimerExpiry he hw, tellEnd_of_posted _ _ .timeout hposted nofun nofun]
  · intro resent
    have hresent : s.resend t e = resent := resend_eq s t e
    refine ⟨fun hfree ht => ?_, fun hfull ht => ?_, fun hfree ht => ?_⟩
    · rw [exec_backoffTimerExpiry he hw ht, if_pos hfree, hresent]
    · rw [exec_backoffTimerExpiry he hw ht, if_neg (Nat.not_lt.mpr hfull)]
    · rw [exec_resendClaim he hw ht hfree, hresent]

/-! ### The send -/

/-- The first of a rising run of tags that fits is the lowest one. -/
theorem find?_of_lowest {l : List Tag} {p : Tag → Bool} {t : Tag} (hl : l.Pairwise (· < ·)) (ht : t ∈ l)
    (hp : p t = true) (hlow : ∀ u, u < t → p u = false) : l.find? p = some t := by
  induction l with
  | nil => cases ht
  | cons a l ih =>
    obtain ⟨ha, hl⟩ := List.pairwise_cons.mp hl
    rcases List.mem_cons.mp ht with rfl | ht
    · rw [List.find?_cons_of_pos hp]
    · rw [List.find?_cons_of_neg (by simp [hlow a (ha t ht)]), ih hl ht]

/-- The FREE tag below which none is FREE is the one taken (R65). -/
theorem lowestFree_of_lowest {s : State} {t : Tag} (hfree : s.entry t = none)
    (hlow : ∀ u, u < t → s.entry u ≠ none) : s.lowestFree = some t :=
  find?_of_lowest (by decide) (mem_allTags t) (by simp [hfree])
    fun u hu => by simpa [Option.isSome_iff_ne_none] using hlow u hu

/-- No entry holds the word of a request that differs from each in port, station, page or offset (R53, R66). -/
theorem wordBusy_of_distinct {s : State} {q : Port} {d : Station} {r : Request}
    (h : ∀ u e, s.entry u = some e →
      ¬(e.port = q ∧ e.target = d ∧ e.request.page = r.page ∧ e.request.offset = r.offset)) :
    s.wordBusy q d r = false := by
  refine List.any_eq_false.mpr fun u _ => ?_
  cases he : s.entry u with
  | none => simp
  | some e => simpa [and_assoc] using h u e he

/-- The three conditions of a send, and the tag it takes (R53, R65). -/
theorem sendTag_of_conditions {s : State} {q : Port} {d : Station} {r : Request} {t : Tag}
    (hfree : s.entry t = none) (hlow : ∀ u, u < t → s.entry u ≠ none)
    (hword : ∀ u e, s.entry u = some e →
      ¬(e.port = q ∧ e.target = d ∧ e.request.page = r.page ∧ e.request.offset = r.offset))
    (hplace : s.placesTaken < 6) : s.sendTag q d r = some t := by
  simp [State.sendTag, wordBusy_of_distinct hword, (freePlace_iff s).mpr hplace, lowestFree_of_lowest hfree hlow]

/-- SEND of a request that meets the three conditions (R53, R54). -/
theorem exec_send {s : State} {q : Port} {d : Station} {r : Request} {t : Tag} (hport : s.port q = .toSend d r)
    (hring : s.ringState = .online) (ht : s.sendTag q d r = some t) :
    exec (.send q) s = .next ((s.sendRequest q d r t).acceptWaiting q) := by
  show execSend q s = _
  simp [execSend, hport, hring, ht]

/-- The station once a request has its entry and its frame is in the transmit queue (R65, R28). -/
def State.withRequest (s : State) (q : Port) (d : Station) (r : Request) (t : Tag) : State :=
  (s.setEntry t (some (s.newEntry q d r))).withFrame (reqFrame s.own d t q r)

/-- A posted write completes with its sending (R56). -/
theorem sendRequest_of_posted (s : State) {q : Port} (d : Station) {r : Request} (t : Tag)
    (hp : isPosted q r.command = true) :
    s.sendRequest q d r t = (s.withRequest q d r t).complete q (plainCompletion .posted) := by
  simp [State.sendRequest, State.withRequest, placeTransmit_eq_withFrame, State.newEntry, State.entryFrame, hp]

/-- Every other request is in flight (R56). -/
theorem sendRequest_of_not_posted (s : State) {q : Port} (d : Station) {r : Request} (t : Tag)
    (hp : isPosted q r.command = false) :
    s.sendRequest q d r t = (s.withRequest q d r t).setPort q (.inFlight d r) := by
  simp [State.sendRequest, State.withRequest, placeTransmit_eq_withFrame, State.newEntry, State.entryFrame, hp]

/-- In ONLINE the sent frame waits for ring-out alone (R21, R22). -/
theorem withRequest_online {s : State} (q : Port) (d : Station) (r : Request) (t : Tag)
    (hring : s.ringState = .online) :
    s.withRequest q d r t =
      { s with
        outstanding := s.outstanding.set t.toNat (some (s.newEntry q d r)) t.isLt
        transmit := s.transmit ++ [reqFrame s.own d t q r]
        ringOut :=
          if s.ringOut ≠ .idle then s.ringOut else if s.passThrough = [] then .transmit else .passThrough } := by
  simp only [State.withRequest, State.withFrame, setEntry_ringOut, setEntry_ringState, setEntry_passThrough,
    setEntry_transmit, hring, nextSending_online, ite_not]
  rfl

/-- A request in flight leaves its request place occupied, so that none that waits is accepted (R41). -/
theorem acceptWaiting_inFlight (s : State) (q : Port) (d : Station) (r : Request) :
    (s.setPort q (.inFlight d r)).acceptWaiting q = s.setPort q (.inFlight d r) :=
  acceptWaiting_stays (.inr (.inl (by simp [port_setPort])))

/-- Settles O23: the conditions of the statement are those of R53, so that the lowest FREE tag is taken; the station
with the request's entry and frame is that of `withRequest_online`. -/
theorem sendTakesTheLowestFreeTag : Obligations.SendTakesTheLowestFreeTag := by
  unfold Obligations.SendTakesTheLowestFreeTag
  intro s q d r t hport hring hfree hlow hword hplace posted sent
  have hexec := exec_send hport hring (sendTag_of_conditions hfree hlow hword hplace)
  have hposted : isPosted q r.command = posted := by simp [isPosted, posted]
  have hsent : s.withRequest q d r t = sent := by
    rw [withRequest_online q d r t hring, State.newEntry, hposted]; rfl
  refine ⟨fun hp => ?_, fun hp => ?_⟩
  · rw [hexec, sendRequest_of_posted s d t (hposted.trans hp), hsent]; rfl
  · rw [hexec, sendRequest_of_not_posted s d t (hposted.trans hp), hsent, acceptWaiting_inFlight]

end Sys2Proof.Machine
end

section
/-! PROOF. The bank and its arbiter: the order of the choice, refresh, and a word request from its grant to its end (R88
to R103, R115, R126, R139). -/

namespace Sys2Proof.Machine

/-! ### The choice of the bank arbiter -/

/-- The answer-place condition (R22, R95). -/
theorem placeForAnswer_iff (s : State) :
    s.placeForAnswer = true ↔ s.ringState ≠ .online ∨ s.placesTaken < 6 := by
  simp [State.placeForAnswer, freePlace_iff]

/-- The first READY entry of the deferred queue is the oldest one, since entries join at its tail (R139). -/
theorem oldestReady_of_first {l : List Deferred} {k : Nat} {d : Deferred} (n : Nat) (hk : l[k]? = some d)
    (hready : d.state = .ready) (hfirst : ∀ j e, j < k → l[j]? = some e → e.state ≠ .ready) :
    oldestReady l n = some (n + k, d) := by
  induction l generalizing k n with
  | nil => simp at hk
  | cons x l ih =>
    cases k with
    | zero =>
      obtain rfl : x = d := by simpa using hk
      rw [oldestReady, if_pos hready, Nat.add_zero]
    | succ k =>
      have hx : x.state ≠ .ready := hfirst 0 x (by omega) rfl
      have hrest : ∀ j e, j < k → l[j]? = some e → e.state ≠ .ready :=
        fun j e hj he => hfirst (j + 1) e (by omega) (by simpa using he)
      rw [oldestReady, if_neg hx, ih (n + 1) (by simpa using hk) hrest, Nat.add_right_comm, Nat.add_assoc]

/-- A queue without a READY entry has no oldest one (R139). -/
theorem oldestReady_eq_none {l : List Deferred} (n : Nat) (h : ∀ d ∈ l, d.state ≠ .ready) :
    oldestReady l n = none := by
  induction l generalizing n with
  | nil => rfl
  | cons x l ih =>
    rw [oldestReady, if_neg (h x List.mem_cons_self), ih (n + 1) fun d hd => h d (List.mem_cons_of_mem x hd)]

section
variable {s : State}

/-- With an answer place the REPLAY claim is that of the oldest READY entry (R92, R95, R139). -/
theorem replayClaim_of_first {k : Nat} {d : Deferred} (hplace : s.placeForAnswer = true)
    (hk : s.deferred[k]? = some d) (hready : d.state = .ready)
    (hfirst : ∀ j e, j < k → s.deferred[j]? = some e → e.state ≠ .ready) :
    s.replayClaim = some (.replay k d) := by
  rw [State.replayClaim, if_pos hplace, oldestReady_of_first 0 hk hready hfirst, Nat.zero_add]; rfl

/-- No REPLAY claim is eligible without a READY entry, or without an answer place (R92, R95). -/
theorem replayClaim_eq_none (h : (∀ d ∈ s.deferred, d.state ≠ .ready) ∨ s.placeForAnswer ≠ true) :
    s.replayClaim = none := by
  unfold State.replayClaim
  split
  · rename_i hplace
    rw [oldestReady_eq_none 0 (h.resolve_right (not_not_intro hplace))]; rfl
  · rfl

/-- No choice while a grant holds the bank or cold reset is asserted (R91, R106). -/
theorem choice_eq_none (h : s.grant ≠ .free ∨ s.coldReset = true) : s.choice = none :=
  Option.eq_none_iff_forall_ne_some.mpr fun c hc => by
    obtain ⟨hfree, hcold, -⟩ := choice_some hc
    rcases h with h | h
    · exact h hfree
    · simp [hcold] at h

variable (hfree : s.grant = .free) (hcold : s.coldReset = false)
include hfree hcold

/-- A refresh claim comes first (R92). -/
theorem choice_of_refreshClaim (hclaim : s.refreshClaim = true) : s.choice = some .refresh := by
  simp [State.choice, hfree, hcold, hclaim]

/-- Without a refresh claim the choice is a replay before the rotation (R92). -/
theorem choice_of_no_refreshClaim (hclaim : s.refreshClaim = false) :
    s.choice = s.replayClaim.or s.rotationClaim := by
  simp [State.choice, hfree, hcold, hclaim]

end

/-- Settles O27: the refresh claim by `choice_of_refreshClaim`, and without one the REPLAY claim, which stands exactly
for the oldest READY entry with an answer place, before the rotation. -/
theorem choiceFollowsTheOrder : Obligations.ChoiceFollowsTheOrder := by
  unfold Obligations.ChoiceFollowsTheOrder
  intro s place
  have hplace : s.placeForAnswer = true ↔ place := placeForAnswer_iff s
  refine ⟨choice_eq_none, fun hfree hcold hclaim => choice_of_refreshClaim hfree hcold hclaim,
    fun k d hfree hcold hclaim hp hk hready hfirst => ?_, fun hfree hcold hclaim hno => ?_⟩
  · rw [choice_of_no_refreshClaim hfree hcold hclaim, replayClaim_of_first (hplace.mpr hp) hk hready hfirst,
      Option.some_or]
  · rw [choice_of_no_refreshClaim hfree hcold hclaim, replayClaim_eq_none (hno.imp_right (mt hplace.mp)),
      Option.none_or]

/-! ### Refresh -/

/-- REFRESH_TIMER_EXPIRY while the timer runs (R88). -/
theorem exec_refreshTimerExpiry {s : State} (h : s.refreshTimer ≠ none) :
    exec .refreshTimerExpiry s = .next { s with refreshTimer := some 10, refreshClaim := true } := by
  obtain ⟨n, hn⟩ := Option.ne_none_iff_exists'.mp h
  show execRefreshTimerExpiry s = _
  simp [execRefreshTimerExpiry, hn, Config.refreshPeriod]

/-- REFRESH where the arbiter chooses the refresh claim (R89). -/
theorem exec_refresh {s : State} (h : s.choice = some .refresh) :
    exec .refresh s = .next { s with refreshClaim := false, grant := .refresh } :=
  if_pos h

/-- REFRESH_END while a refresh holds the bank (R91). -/
theorem exec_refreshEnd {s : State} (h : s.grant = .refresh) :
    exec .refreshEnd s = .next { s with grant := .free } := by
  show execRefreshEnd s = _
  simp [execRefreshEnd, h]

/-- Settles O26: the three rules of refresh, the claim being the arbiter's choice by `choice_of_refreshClaim`. -/
theorem refreshRunsFirst : Obligations.RefreshRunsFirst := by
  unfold Obligations.RefreshRunsFirst
  exact fun s => ⟨exec_refreshTimerExpiry,
    fun hfree hcold hclaim => exec_refresh (choice_of_refreshClaim hfree hcold hclaim), exec_refreshEnd⟩

/-! ### The grant of a word request -/

/-- A word request that the arbiter chooses is granted (R91, R98). -/
theorem grantOf_of_serves {s : State} {o : Op} {c : Claim} {tk : Taken} (h : s.Serves o c tk) :
    grantOf o s = .next ((s.advance c).grantWord tk) := by
  obtain ⟨hchoice, hop, htaken⟩ := h
  exact grantOf_next.mpr ⟨c, tk, hchoice, hop, htaken, rfl⟩

/-- A well-formed request has the operation of the command that grants it. -/
theorem op_of_serves {s : State} {o : Op} {c : Claim} {tk : Taken} {r : Request} (h : s.Serves o c tk)
    (hr : s.Admits tk r) : r.command.op = o := by
  obtain ⟨-, hop, htaken⟩ := h
  exact taken_op htaken hop hr.1

/-- READ is the one command with its operation. -/
theorem command_eq_read {c : Command} (h : c.op = .read) : c = .read := by
  cases c with
  | read => rfl
  | _ => exact absurd h nofun

/-- The reads of the bank see the words alone, which a grant does not change. -/
theorem word_advance (s : State) (c : Claim) (a : Nat) : (s.advance c).word a = s.word a := by
  simp [State.word]

section
variable {s : State} {tk : Taken} {r : Request} (c : Claim)

/-- A request that is admitted passes the range check (R87). -/
theorem inRange_of_admits (h : s.Admits tk r) : (s.advance c).inRange tk = some r := by
  obtain ⟨hrequest, hpage⟩ := h
  simp [State.inRange, hrequest, hpage]

/-- The grant finds the holds as they were before it. -/
theorem holdOn_advance (p : Page) (o : Offset) : (s.advance c).holdOn p o = s.holdOn p o :=
  holdOn_of_holds (by simp) p o

/-- A grant with its outcome decided reserves the answer place that its source needs (R97, R103). -/
theorem beginWord_advance (tk : Taken) (res : WordResult) :
    (s.advance c).beginWord tk.source res = s.serving c tk res := by
  have hreserves : (s.advance c).reserves tk.source = s.answerPlace tk := by
    cases hsource : tk.source <;> simp [State.reserves, State.answerPlace, hsource]
  rw [State.beginWord, hreserves, State.serving]

/-- No hold is found on a word that no slot holds. -/
theorem holdOn_of_unheld (h : s.Unheld r) : s.holdOn r.page r.offset = none := holdOn_none.mpr h

/-- The hold found on a word is the one that holds it. -/
theorem holdOn_of_heldIn {i : Slot} {h : Hold} (hheld : s.HeldIn r i h) :
    s.holdOn r.page r.offset = some (i, h) := by
  obtain ⟨hslot, hpage, hoffset, honly⟩ := hheld
  cases hfound : s.holdOn r.page r.offset with
  | none => exact absurd ⟨hpage, hoffset⟩ (holdOn_none.mp hfound i h hslot)
  | some x =>
    obtain ⟨j, k⟩ := x
    obtain ⟨hk, hkpage, hkoffset⟩ := holdOn_some hfound
    obtain rfl : j = i := honly j k hk hkpage hkoffset
    obtain rfl : k = h := Option.some.inj (hk.symm.trans hslot)
    rfl

/-- A request for a word that nobody holds takes its own path (R98, R129). -/
theorem grantWord_of_unheld (hr : s.Admits tk r) (hu : s.Unheld r) :
    (s.advance c).grantWord tk = s.serving c tk (serveUnheld (s.advance c) tk r) := by
  simp [State.grantWord, inRange_of_admits c hr, holdOn_advance, holdOn_of_unheld hu, beginWord_advance]

/-- A request of the holder of its word takes the holder's path (R126); a COMMIT also stops the hold timer. -/
theorem grantWord_of_holder {i : Slot} {h : Hold} (hr : s.Admits tk r) (hheld : s.HeldIn r i h)
    (hholder : h.holder = tk.holder) (hop : r.command.op ≠ .commit) :
    (s.advance c).grantWord tk = s.serving c tk (serveHolder (s.advance c) r i) := by
  simp [State.grantWord, inRange_of_admits c hr, holdOn_advance, holdOn_of_heldIn hheld, hholder, State.stopFor, hop,
    beginWord_advance]

end

/-! ### The end of a word operation -/

/-- The station once the word due of a granted operation is written and the bank is free again (R103). -/
def State.written (s : State) (c : Claim) (res : WordResult) : State :=
  State.writeDue { s.advance c with grant := .free } (res.accessed.getD 0) res.write

/-- WORD_OPERATION_END of a granted operation (R103). -/
theorem exec_wordOperationEnd_serving (s : State) (c : Claim) (tk : Taken) (res : WordResult) :
    exec .wordOperationEnd (s.serving c tk res) =
      .next (((s.written c res).endWord ⟨tk.source, res, s.answerPlace tk, false⟩).acceptFor tk.source) := rfl

/-- The request accepted after an outcome finds the bank as the operation left it (R59). -/
@[simp] theorem acceptFor_mem (s : State) (src : Source) : (s.acceptFor src).mem = s.mem := by
  cases src <;> simp [State.acceptFor]

/-- The end of a granted operation changes the bank by the word due alone (R103). -/
theorem mem_of_wordOperationEnd {s t : State} {c : Claim} {tk : Taken} {res : WordResult}
    (h : exec .wordOperationEnd (s.serving c tk res) = .next t) : t.mem = (s.written c res).mem := by
  rw [exec_wordOperationEnd_serving] at h
  cases h
  simp

/-- The word due is the only one that the end of a granted operation replaces (R103). -/
theorem lookup_of_wordOperationEnd {s t : State} {c : Claim} {tk : Taken} {res : WordResult} {a : Nat} {w : StoredWord}
    (h : exec .wordOperationEnd (s.serving c tk res) = .next t) (ha : res.accessed = some a) (hw : res.write = some w)
    (b : Nat) : Memory.lookup t.mem b = if b = a then some w else Memory.lookup s.mem b := by
  rw [mem_of_wordOperationEnd h, State.written, ha, hw, lookup_writeDue]
  simp

section
variable {s : State} {c : Claim} {tk : Taken} {st : Status} {g : Bool} {d : Word} {acc : Option Nat}

/-- An outcome without a write or a hold, at the port that asked for it: one completion, then the request that waits on
the pins (R59, R103). -/
theorem wordOperationEnd_port {q : Port} (hsource : tk.source = .port q) :
    ∃ u : State, exec .wordOperationEnd (s.serving c tk ⟨st, g, d, acc, none, .keep⟩) = .next (u.acceptWaiting q)
      ∧ u.mem = s.mem ∧ u.port q = .idle
      ∧ portGet u.completions q = portGet s.completions q ++ [⟨.answer st, [d], g⟩] := by
  refine ⟨(s.written c ⟨st, g, d, acc, none, .keep⟩).complete q ⟨.answer st, [d], g⟩, ?_, ?_, ?_, ?_⟩
  · rw [exec_wordOperationEnd_serving, hsource]; rfl
  · simp [State.written]
  · rw [port_complete, if_pos rfl]
  · simp [State.written]

section
variable {o : Station} {q : Port} {tag : Tag} {src : Source}
  (hsource : src = .remote o q tag ∨ ∃ k, src = .replay k o q tag)
include hsource

/-- No port waits for the outcome of a request from the ring. -/
theorem acceptFor_ring (s : State) : s.acceptFor src = s := by
  rcases hsource with rfl | ⟨k, rfl⟩ <;> rfl

/-- With its reserved place the answer joins the transmit queue in ONLINE (R24, R97). -/
theorem deliver_ring_transmit {s : State} (st : Status) (body : AnswerBody) (honline : s.ringState = .online) :
    (s.deliver src st body true).transmit = s.transmit ++ [ansFrame s.own o tag q st body] := by
  rcases hsource with rfl | ⟨k, rfl⟩ <;> simp [State.deliver, State.handFrame, honline]

end

/-- An outcome without a write or a hold, in ONLINE, to the requester on the ring: one answer frame (R24, R103). -/
theorem wordOperationEnd_ring {o : Station} {q : Port} {tag : Tag}
    (hsource : tk.source = .remote o q tag ∨ ∃ k, tk.source = .replay k o q tag) (honline : s.ringState = .online) :
    ∃ u : State, exec .wordOperationEnd (s.serving c tk ⟨st, g, d, acc, none, .keep⟩) = .next u ∧ u.mem = s.mem
      ∧ u.transmit = s.transmit ++ [ansFrame s.own o tag q st (.word g d)] := by
  have hplace : s.answerPlace tk = true := by
    rcases hsource with h | ⟨k, h⟩ <;> simp [State.answerPlace, h, honline]
  refine ⟨(s.written c ⟨st, g, d, acc, none, .keep⟩).deliver tk.source st (.word g d) true, ?_, ?_, ?_⟩
  · rw [exec_wordOperationEnd_serving, acceptFor_ring hsource, hplace]; rfl
  · simp [State.written]
  · rw [deliver_ring_transmit hsource st _ (by simp [State.written, honline])]
    simp [State.written, State.own]

end

/-! ### READ -/

section
variable {s : State} {r : Request} {d : Word} {g : Bool}

/-- READ of a clean word gives it (R99). -/
theorem readWord_of_clean (h : checkWord (s.word (wordAddress r.page r.offset)) = .clean d g) :
    readWord s r = ⟨.ok, g, d, some (wordAddress r.page r.offset), none, .keep⟩ := by
  rw [readWord, h]; rfl

/-- READ of a word with a single wrong bit gives it put right, and does not store it (R99). -/
theorem readWord_of_single (h : checkWord (s.word (wordAddress r.page r.offset)) = .single d g) :
    readWord s r = ⟨.corrected, g, d, some (wordAddress r.page r.offset), none, .keep⟩ := by
  rw [readWord, h]; rfl

/-- READ of an uncorrectable word gives nothing (R99). -/
theorem readWord_of_double (h : checkWord (s.word (wordAddress r.page r.offset)) = .double) :
    readWord s r = ⟨.uncorrectable, false, 0, some (wordAddress r.page r.offset), none, .keep⟩ := by
  rw [readWord, h]; rfl

end

/-- READ of a word that no other holder holds reads the word, whoever asks (R99, R115, R126). -/
theorem exec_read_of_admits {s : State} {c : Claim} {tk : Taken} {r : Request} (hs : s.Serves .read c tk)
    (hr : s.Admits tk r) (hheld : s.Unheld r ∨ ∃ i h, s.HeldIn r i h ∧ h.holder = tk.holder) :
    exec .read s = .next (s.serving c tk (readWord s r)) := by
  have hread : r.command = .read := command_eq_read (op_of_serves hs hr)
  have hsame : readWord (s.advance c) r = readWord s r := by simp only [readWord, word_advance]
  show grantOf .read s = _
  rw [grantOf_of_serves hs]
  rcases hheld with hu | ⟨i, h, hi, hholder⟩
  · rw [grantWord_of_unheld c hr hu, serveUnheld, hread, hsame]
  · rw [grantWord_of_holder c hr hi hholder (by simp [hread, Command.op]), serveHolder, hread, hsame]

/-- Settles O31: the three results of the check are the three outcomes of `readWord`, each without a write or a
hold, and handed on by `wordOperationEnd_port` and `wordOperationEnd_ring`. -/
theorem readGivesTheCheckedWord : Obligations.ReadGivesTheCheckedWord := by
  unfold Obligations.ReadGivesTheCheckedWord
  intro s c tk r hs hr hheld a gives
  have hgives : ∀ st g d, readWord s r = ⟨st, g, d, some a, none, .keep⟩ → gives st g d := fun st g d hres =>
    ⟨hres ▸ exec_read_of_admits hs hr hheld, by simp [State.serving], fun _ => wordOperationEnd_port,
      fun _ _ _ => wordOperationEnd_ring⟩
  exact ⟨fun _ _ hcheck => hgives _ _ _ (readWord_of_clean hcheck),
    fun _ _ hcheck => hgives _ _ _ (readWord_of_single hcheck), fun hcheck => hgives _ _ _ (readWord_of_double hcheck)⟩

/-! ### The single-pass write -/

/-- A privileged WRITE of the full mask that sets or clears the guard bit, with GUARD_ON off, does not read the word
that it replaces (R100, R102). -/
theorem writeWord_singlePass {s : State} {r : Request} {act : GuardAct} (data : Word) (hp : r.privileged = true)
    (hg : s.straps.guardOn = false) (hact : act = .set ∨ act = .clear) :
    writeWord s r 0xF data act =
      ⟨.ok, false, 0, some (wordAddress r.page r.offset), some ⟨data, decide (act = .set), 0⟩, .keep⟩ := by
  have hfits : privilegeFails r.privileged act = false := by simp [privilegeFails, hp]
  have hsingle : singlePass s 0xF act = true := by rcases hact with rfl | rfl <;> simp [singlePass, hg]
  have hguard : guardAfter act false = decide (act = .set) := by rcases hact with rfl | rfl <;> rfl
  rw [writeWord, hfits, if_neg Bool.false_ne_true, if_pos hsingle, hguard]; rfl

/-- WRITE of a word that nobody holds (R100, R129). -/
theorem exec_write_of_unheld {s : State} {c : Claim} {tk : Taken} {r : Request} {lanes : Lanes} {data : Word}
    {act : GuardAct} (hs : s.Serves .write c tk) (hr : s.Admits tk r) (hu : s.Unheld r)
    (hw : r.command = .write lanes data act) :
    exec .write s = .next (s.serving c tk (writeWord (s.advance c) r lanes data act)) := by
  show grantOf .write s = _
  rw [grantOf_of_serves hs, grantWord_of_unheld c hr hu, serveUnheld, hw]

/-- Settles O34: the outcome of the grant is that of `writeWord_singlePass`, and its end replaces the word due alone,
by `lookup_of_wordOperationEnd`. -/
theorem singlePassWriteReplacesTheWord : Obligations.SinglePassWriteReplacesTheWord := by
  unfold Obligations.SinglePassWriteReplacesTheWord
  intro s c tk r data act hs hr hu hw hp hg hact a
  refine ⟨?_, fun t hend => ?_⟩
  · rw [exec_write_of_unheld hs hr hu hw, writeWord_singlePass data hp (by simpa using hg) hact]; rfl
  · have hlookup := lookup_of_wordOperationEnd hend rfl rfl
    exact ⟨by simp [State.word, hlookup], fun b hb => by rw [hlookup, if_neg hb]⟩

end Sys2Proof.Machine
end

section
/-! PROOF. The deferred queue: a request granted on a word that another holds (R98, R127, R140). -/

namespace Sys2Proof.Machine

/-- Each row of a word operation grants the bank to a request of its operation (R91, R98). -/
theorem exec_eq_grantOf {o : Op} {cmd : Instr}
    (h : (o = .read ∧ cmd = .read) ∨ (o = .write ∧ cmd = .write) ∨ (o = .holdRead ∧ cmd = .holdRead)
      ∨ (o = .commit ∧ cmd = .commit)) (s : State) : exec cmd s = grantOf o s := by
  obtain ⟨rfl, rfl⟩ | ⟨rfl, rfl⟩ | ⟨rfl, rfl⟩ | ⟨rfl, rfl⟩ := h <;> rfl

section
variable {s : State} {tk : Taken} {r : Request} {i : Slot} (c : Claim)

/-- A request for a word that another holds meets that hold, whatever its operation (R98, R127, R140). -/
theorem grantWord_of_other {h : Hold} (hr : s.Admits tk r) (hheld : s.HeldIn r i h) (hother : h.holder ≠ tk.holder) :
    (s.advance c).grantWord tk = (s.advance c).meetHold tk r i := by
  simp [State.grantWord, inRange_of_admits c hr, holdOn_advance, holdOn_of_heldIn hheld, hother]

variable {o : Station} {q : Port} {tag : Tag}

/-- A REMOTE request that meets a hold joins the tail of the deferred queue where it has room (R127). -/
theorem meetHold_remote_of_room (hsource : tk.source = .remote o q tag) (hroom : s.deferred.length < 12) :
    (s.advance c).meetHold tk r i =
      { s.advance c with deferred := s.deferred ++ [⟨o, q, tag, r, .waiting i⟩] } := by
  simp [State.meetHold, hsource, Config.deferredPlaces, hroom]

/-- A REMOTE request that meets a hold at a full deferred queue holds the bank to be answered RETRY (R127). -/
theorem meetHold_remote_of_full (hsource : tk.source = .remote o q tag) (hfull : 12 ≤ s.deferred.length) :
    (s.advance c).meetHold tk r i = s.serving c tk ⟨.retry, false, 0, none, none, .keep⟩ := by
  rw [← beginWord_advance]
  simp [State.meetHold, hsource, Config.deferredPlaces, hfull, refusal]

/-- A replayed request that meets a hold again waits on it in its place of the deferred queue (R140). -/
theorem meetHold_replay {k : Nat} (hsource : tk.source = .replay k o q tag) :
    s.meetHold tk r i = { s with deferred := s.deferred.set k ⟨o, q, tag, r, .waiting i⟩ } := by
  rw [State.meetHold, hsource]

end

/-- Settles O40: the grant comes to the hold by `grantWord_of_other`, whatever the operation. What the request does
there depends on where it came from: the three lemmas about `meetHold`. -/
theorem requestsWaitBehindAnothersHold : Obligations.RequestsWaitBehindAnothersHold := by
  unfold Obligations.RequestsWaitBehindAnothersHold
  intro s o c tk r i h cmd hcmd hs hr hheld hother
  have hmeets : exec cmd s = .next ((s.advance c).meetHold tk r i) := by
    rw [exec_eq_grantOf hcmd, grantOf_of_serves hs, grantWord_of_other c hr hheld hother]
  obtain ⟨-, -, htaken⟩ := hs
  obtain ⟨hrequest, -⟩ := hr
  refine ⟨fun f hf => ?_, fun k d hd => ?_⟩
  · subst hf
    have hsource : tk.source = .remote (Frame.origin f) (Frame.port f) (Frame.tag f) := by cases htaken; rfl
    exact ⟨fun hroom => hmeets.trans (congrArg _ (meetHold_remote_of_room _ hsource hroom)),
      fun hfull => hmeets.trans (congrArg _ (meetHold_remote_of_full _ hsource hfull))⟩
  · subst hd
    have hsource : tk.source = .replay k d.origin d.port d.tag := by cases htaken; rfl
    obtain rfl : d.request = r := by cases htaken; exact Option.some.inj hrequest
    exact hmeets.trans (congrArg _ (meetHold_replay hsource))

end Sys2Proof.Machine
end

section
/-! PROOF. The bulk engine: the hand-over of its three commands and the grant of its steps (R95, R118, R146 to R159). -/

namespace Sys2Proof.Machine

/-! ### The answer to a bulk command -/

/-- What the answer to a bulk command carries: PROGRESS where it is present, else STATUS alone (R31). -/
def bulkBody : Option Progress → AnswerBody
  | some pr => .bulk pr
  | none => .word false 0

/-- A frame with a reserved place is queued in ONLINE, where the place was reserved, and discarded elsewhere
(R24, R97). -/
theorem handFrame_reserved (s : State) (f : Frame) :
    s.handFrame f (decide (s.ringState = .online)) = if s.ringState = .online then s.withFrame f else s := by
  by_cases honline : s.ringState = .online <;> simp [State.handFrame, honline, placeTransmit_eq_withFrame]

/-- PROGRESS as a port's data words (R59). -/
theorem progressWords_eq (pr : Progress) : progressWords pr = progressData pr := rfl

/-- The hand-over gives the engine's answer to its requester, and a port then takes the request that waits on its pins
(R59, R149). -/
theorem deliver_bulkBody (s : State) (src : Source) (st : Status) (pr : Option Progress) :
    (s.deliver src st (bulkBody pr) (s.reserves src)).acceptFor src = s.bulkAnswered src st pr := by
  cases src with
  | port q =>
    cases pr with
    | none => rfl
    | some pr =>
      exact congrArg (fun words => (s.complete q ⟨.answer st, words, false⟩).acceptWaiting q) (progressWords_eq pr)
  | remote o q t => exact handFrame_reserved s _
  | replay k o q t => exact handFrame_reserved { s with deferred := s.deferred.eraseIdx k } _

/-! ### The hand-over of a bulk command -/

/-- A bulk command that the arbiter chooses is handed over (R91, R149). -/
theorem handOverOf_of_serves {s : State} {o : Op} {c : Claim} {tk : Taken} (h : s.Serves o c tk) :
    handOverOf o s = .next (((s.advance c).handOver tk).acceptFor tk.source) := by
  obtain ⟨hchoice, hop, htaken⟩ := h
  exact handOverOf_next.mpr ⟨c, tk, hchoice, hop, htaken, rfl⟩

/-- The hand-over of a command in range leaves the record that the engine decides on, and its answer reaches the
requester (R149, R150). -/
theorem handOver_of_decision {s : State} {tk : Taken} {r : Request} {st : Status} {pr : Option Progress}
    {b : Option Job} (hr : s.inRange tk = some r) (hd : engineDecides s.bulk tk r = (st, bulkBody pr, b)) :
    (s.handOver tk).acceptFor tk.source = State.bulkAnswered
      { s with bulk := b, firstMismatch := if st = .accepted then none else s.firstMismatch } tk.source st pr := by
  rw [← deliver_bulkBody, State.handOver, hr]
  simp only [hd]
  rfl

/-- The same of a granted command: the engine decides on the record as it stood before the grant (R91, R149). -/
theorem handOverOf_of_decision {s : State} {o : Op} {c : Claim} {tk : Taken} {r : Request} {st : Status}
    {pr : Option Progress} {b : Option Job} (hr : s.Admits tk r) (hs : s.Serves o c tk)
    (hd : engineDecides s.bulk tk r = (st, bulkBody pr, b)) :
    handOverOf o s = .next (State.bulkAnswered
      { s.advance c with bulk := b, firstMismatch := if st = .accepted then none else s.firstMismatch }
      tk.source st pr) := by
  have hbulk : (s.advance c).bulk = s.bulk := by simp
  have hfirst : (s.advance c).firstMismatch = s.firstMismatch := by simp
  rw [handOverOf_of_serves hs, handOver_of_decision (inRange_of_admits c hr) (hbulk ▸ hd), hfirst]

/-! ### What the engine decides -/

section
variable {tk : Taken} {r : Request} {j : Job}

/-- An engine in IDLE takes a job (R150). -/
theorem engineDecides_start_idle {kind : BulkKind} {pattern : Word} {count : Count}
    (hc : r.command = .bulkStart kind pattern count) :
    engineDecides none tk r = (.accepted, bulkBody none, some (newJob tk r kind pattern count)) := by
  simp [engineDecides, hc, bulkBody]

/-- An engine with a job takes no other (R150). -/
theorem engineDecides_start_busy {kind : BulkKind} {pattern : Word} {count : Count}
    (hc : r.command = .bulkStart kind pattern count) :
    engineDecides (some j) tk r = (.busy, bulkBody none, some j) := by
  simp [engineDecides, hc, bulkBody]

/-- An engine in IDLE has no job to tell of (R151). -/
theorem engineDecides_query_idle (hc : r.command = .bulkQuery) :
    engineDecides none tk r = (.noJob, bulkBody none, none) := by
  simp [engineDecides, hc, bulkBody]

/-- A query is answered with the record as it stands (R151). -/
theorem engineDecides_query_job (hc : r.command = .bulkQuery) :
    engineDecides (some j) tk r = (.ok, bulkBody (some (jobProgress j)), some j) := by
  simp [engineDecides, hc, bulkBody]

/-- An engine in IDLE has no job to abort (R152). -/
theorem engineDecides_abort_idle (hc : r.command = .bulkAbort) :
    engineDecides none tk r = (.noJob, bulkBody none, none) := by
  simp [engineDecides, hc, bulkBody]

/-- The owner's abort ends the job with its last PROGRESS (R152). -/
theorem engineDecides_abort_owner (hc : r.command = .bulkAbort) (ho : j.owner = tk.holder) :
    engineDecides (some j) tk r = (.aborted, bulkBody (some (jobProgress j)), none) := by
  simp [engineDecides, hc, bulkBody, ho]

/-- Another requester's abort leaves the job (R152). -/
theorem engineDecides_abort_other (hc : r.command = .bulkAbort) (ho : j.owner ≠ tk.holder) :
    engineDecides (some j) tk r = (.notOwner, bulkBody none, some j) := by
  simp [engineDecides, hc, bulkBody, ho]

end

/-- Settles O44: each clause is one decision of the engine, whose record and answer `handOverOf_of_decision` carries
over to the station and the requester. -/
theorem bulkCommandsAreDecidedAtOnce : Obligations.BulkCommandsAreDecidedAtOnce := by
  unfold Obligations.BulkCommandsAreDecidedAtOnce
  intro s c tk r hr tag out progress
  refine ⟨fun kind pattern count hs hc => ⟨fun hb => ?_, fun j hb => ?_⟩,
    fun hs hc => ⟨fun hb => ?_, fun j hb => ?_⟩,
    fun hs hc => ⟨fun hb => ?_, fun j hb ho => ?_, fun j hb ho => ?_⟩⟩
  · exact handOverOf_of_decision hr hs (hb ▸ engineDecides_start_idle hc)
  · exact handOverOf_of_decision hr hs (hb ▸ engineDecides_start_busy hc)
  · exact handOverOf_of_decision hr hs (hb ▸ engineDecides_query_idle hc)
  · exact handOverOf_of_decision hr hs (hb ▸ engineDecides_query_job hc)
  · exact handOverOf_of_decision hr hs (hb ▸ engineDecides_abort_idle hc)
  · exact handOverOf_of_decision hr hs (hb ▸ engineDecides_abort_owner hc ho)
  · exact handOverOf_of_decision hr hs (hb ▸ engineDecides_abort_other hc ho)

/-! ### The grant of a step -/

section
variable {s : State} {j : Job} (hchoice : s.choice = some .bulk) (hbulk : s.bulk = some j)
include hchoice hbulk

/-- On a held word the engine waits on its slot, and the bank stays free (R155). -/
theorem exec_bulkStep_of_held {i : Slot} {h : Hold} (hheld : s.holdOn j.page j.next = some (i, h)) :
    exec .bulkStep s = .next { s with rotation := .remote, bulk := some { j with slot := some i } } := by
  show execBulkStep s = _
  simp [execBulkStep, hchoice, hbulk, hheld, State.advance]

/-- On a word that nobody holds the step has the bank, with its outcome decided (R154). -/
theorem exec_bulkStep_of_unheld (hheld : s.holdOn j.page j.next = none) :
    exec .bulkStep s =
      .next { s with rotation := .remote, grant := .step (jobStep s j (s.stepReserves j)) } := by
  show execBulkStep s = _
  simp [execBulkStep, hchoice, hbulk, hheld, State.advance]

end

/-- In ONLINE a step that may end the job of another station's owner has an answer place (R95, R154). -/
theorem stepReserves_eq (s : State) (j : Job) :
    s.stepReserves j =
      decide (j.owner.station ≠ s.own ∧ (j.kind = .check ∨ j.remaining = 1) ∧ s.ringState = .online) := by
  rw [Bool.eq_iff_iff]
  simp [State.stepReserves, stepNeedsPlace, and_assoc]

/-! ### What a step makes of its word -/

section
variable {s : State} {j : Job} {a : Nat} {place : Bool}

/-- A step of a FILL (R157). -/
theorem jobStep_fill (hk : j.kind = .fill) : jobStep s j place = fillStep s j (wordAddress j.page j.next) place := by
  rw [jobStep, hk]

/-- A step of a SCRUB (R159). -/
theorem jobStep_scrub (hk : j.kind = .scrub) : jobStep s j place = scrubStep s (wordAddress j.page j.next) place := by
  rw [jobStep, hk]

/-- A step of a CHECK (R158). -/
theorem jobStep_check (hk : j.kind = .check) :
    jobStep s j place = checkStep s j (wordAddress j.page j.next) place := by
  rw [jobStep, hk]

/-! #### An uncorrectable word -/

section
variable (hcheck : checkWord (s.word a) = .double)
include hcheck

/-- A plain FILL at a station with GUARD_ON passes an uncorrectable word over (R118). -/
theorem fillStep_double_spared (hguard : s.straps.guardOn = true) (hplain : j.privileged = false) :
    fillStep s j a place = ⟨a, none, false, false, true, false, place, false⟩ := by
  simp [fillStep, stepResult, hcheck, hguard, hplain]

/-- Any other FILL writes an uncorrectable word, with a clear guard bit (R118, R157). -/
theorem fillStep_double_written (h : ¬(s.straps.guardOn = true ∧ j.privileged = false)) :
    fillStep s j a place = ⟨a, some ⟨j.pattern, false, 0⟩, false, false, true, false, place, false⟩ := by
  simp [fillStep, stepResult, freshWord, hcheck, h]

/-- A SCRUB leaves an uncorrectable word as stored (R159). -/
theorem scrubStep_double : scrubStep s a place = ⟨a, none, false, false, true, false, place, false⟩ := by
  simp [scrubStep, stepResult, hcheck]

/-- To a CHECK an uncorrectable word is a mismatch (R158). -/
theorem checkStep_double : checkStep s j a place = ⟨a, none, false, false, true, true, place, false⟩ := by
  simp [checkStep, stepResult, hcheck]

end

/-! #### A word passed on, clean, or with `one` wrong bit put right -/

section
variable {d : Word} {g one : Bool}
  (hcheck : (checkWord (s.word a) = .clean d g ∧ one = false) ∨ (checkWord (s.word a) = .single d g ∧ one = true))
include hcheck

/-- A FILL goes by the guard bit passed on, and counts a wrong bit where it writes (R157). -/
theorem fillStep_passed : fillStep s j a place = fillPassed s j a g one place := by
  obtain ⟨hclean, rfl⟩ | ⟨hsingle, rfl⟩ := hcheck
  · simp [fillStep, hclean]
  · simp [fillStep, hsingle]

/-- A plain FILL at a station with GUARD_ON skips a guarded word (R118). -/
theorem fillStep_skipped (hguard : s.straps.guardOn = true) (hplain : j.privileged = false) (hg : g = true) :
    fillStep s j a place = ⟨a, none, true, false, false, false, place, false⟩ := by
  simp [fillStep_passed hcheck, fillPassed, stepResult, hguard, hplain, hg]

/-- Any other FILL writes the pattern and keeps the guard bit (R118, R157). -/
theorem fillStep_written (h : ¬((s.straps.guardOn = true ∧ j.privileged = false) ∧ g = true)) :
    fillStep s j a place = ⟨a, some ⟨j.pattern, g, 0⟩, false, one, false, false, place, false⟩ := by
  simp [fillStep_passed hcheck, fillPassed, stepResult, freshWord, h]

/-- A SCRUB rewrites a word with a wrong bit, and no other (R159). -/
theorem scrubStep_passed :
    scrubStep s a place = ⟨a, if one then some ⟨d, g, 0⟩ else none, false, one, false, false, place, false⟩ := by
  obtain ⟨hclean, rfl⟩ | ⟨hsingle, rfl⟩ := hcheck
  · simp [scrubStep, stepResult, hclean]
  · simp [scrubStep, stepResult, freshWord, hsingle]

/-- A CHECK compares the data passed on with the pattern, and writes nothing (R158). -/
theorem checkStep_passed :
    checkStep s j a place = ⟨a, none, false, one, false, decide (d ≠ j.pattern), place, false⟩ := by
  obtain ⟨hclean, rfl⟩ | ⟨hsingle, rfl⟩ := hcheck
  · simp [checkStep, stepResult, hclean, bne, beq_eq_decide]
  · simp [checkStep, stepResult, hsingle, bne, beq_eq_decide]

end

end

/-- Settles O45: the hold of the word decides between the two grants of a step. On a word that nobody holds, the
step's outcome is that of the job's kind on the result of the check. -/
theorem bulkStepWaitsOrReads : Obligations.BulkStepWaitsOrReads := by
  unfold Obligations.BulkStepWaitsOrReads
  intro s j hchoice hbulk here a place does spares
  refine ⟨fun i h hheld => exec_bulkStep_of_held hchoice hbulk (holdOn_of_heldIn hheld), fun hunheld => ?_⟩
  have hdoes {w k c u m} (hstep : jobStep s j place = ⟨a, w, k, c, u, m, place, false⟩) : does w k c u m := by
    show exec .bulkStep s = _
    rw [exec_bulkStep_of_unheld hchoice hbulk (holdOn_of_unheld hunheld), stepReserves_eq, hstep]
  refine ⟨fun hk hw ⟨hguard, hplain⟩ => ?_, fun hk hw hspares => ?_, fun hk hw => ?_, fun hk hw => ?_,
    fun d g one hw => ⟨fun hk ⟨hguard, hplain⟩ hg => ?_, fun hk hspares => ?_, fun hk => ?_, fun hk => ?_⟩⟩
  · exact hdoes ((jobStep_fill hk).trans (fillStep_double_spared hw hguard hplain))
  · exact hdoes ((jobStep_fill hk).trans (fillStep_double_written hw hspares))
  · exact hdoes ((jobStep_scrub hk).trans (scrubStep_double hw))
  · exact hdoes ((jobStep_check hk).trans (checkStep_double hw))
  · exact hdoes ((jobStep_fill hk).trans (fillStep_skipped hw hguard hplain hg))
  · exact hdoes ((jobStep_fill hk).trans (fillStep_written hw hspares))
  · exact hdoes ((jobStep_scrub hk).trans (scrubStep_passed hw))
  · exact hdoes ((jobStep_check hk).trans (checkStep_passed hw))

end Sys2Proof.Machine
end

section
/-! PROOF. The laws of the buffers, the notice logic and the bank's list: what each effect of a command does to their
lengths, and that every step keeps them (R6, R17, R19, R22, R137, R168). -/

namespace Sys2Proof.Machine

/-! ### The bank's list -/

theorem effect_keeps_memoryCanonical {s t : State} (hs : MemoryCanonical s) (h : Effect s t) : MemoryCanonical t := by
  unfold MemoryCanonical at hs ⊢
  cases h with
  | coldAsserted => exact wf_cutShort s hs
  | coldReleased pins => simp [Memory.wf]
  | wordEnded g => simpa using wf_writeDue _ _ _ hs
  | wordOrphanEnded g => exact wf_writeDue _ _ _ hs
  | stepEnded g => simpa using wf_writeDue _ _ _ hs
  | stepOrphanEnded g => exact wf_writeDue _ _ _ hs
  | _ => simpa using hs

theorem kept_memoryCanonical : Kept MemoryCanonical :=
  kept_effect (fun _ _ hs => hs) (fun _ _ => effect_keeps_memoryCanonical) (fun _ hs => hs)

/-! ### The notice queue -/

theorem placeNotice_within {s : State} (n : Notice) (h : s.notices.length ≤ 8) :
    (s.placeNotice n).notices.length ≤ 8 := by
  rw [placeNotice_notices, Config.noticePlaces]
  split
  · rw [List.length_append, List.length_singleton]; omega
  · exact h

theorem reportEnd_within {s : State} (t : Tag) (e : Entry) (c : Completion) (h : s.notices.length ≤ 8) :
    (s.reportEnd t e c).notices.length ≤ 8 := by
  unfold State.reportEnd
  repeat' split
  · exact h
  · exact placeNotice_within _ h
  · exact h

theorem ringDown_within {s : State} (h : s.notices.length ≤ 8) : s.ringDown.notices.length ≤ 8 := by
  rw [(ringDown_notices s h).1]; exact List.length_take_le ..

theorem placePass_within {s : State} (f : Frame) (h : s.notices.length ≤ 8) :
    (s.placePass f).notices.length ≤ 8 := by
  unfold State.placePass
  split
  · exact h
  · exact placeNotice_within _ h

theorem endJob_within {s : State} (j : Job) (o : JobOutcome) (x : Option Offset) (r : Bool)
    (h : s.notices.length ≤ 8) : (s.endJob j o x r).notices.length ≤ 8 := by
  unfold State.endJob
  split
  · exact placeNotice_within _ h
  · simpa using h

theorem endStep_within {s : State} (j : Job) (g : StepGrant) (h : s.notices.length ≤ 8) :
    (s.endStep j g).notices.length ≤ 8 := by
  unfold State.endStep
  repeat' split
  · exact endJob_within _ _ _ _ h
  · exact endJob_within _ _ _ _ h
  · exact h

theorem effect_keeps_notices {s t : State} (hs : s.notices.length ≤ 8) (h : Effect s t) : t.notices.length ≤ 8 := by
  cases h with
  | coldAsserted => simp
  | warmAsserted => simp
  | online => exact placeNotice_within _ hs
  | broken => exact ringDown_within (placeNotice_within _ hs)
  | conflict =>
    rw [State.enterConflict, chooseRingOut_notices]
    exact ringDown_within (placeNotice_within _ hs)
  | passed f => exact placePass_within f hs
  | noticed n => exact placeNotice_within n hs
  | ended t e c => exact reportEnd_within _ _ _ hs
  | timedOut t e => exact reportEnd_within _ _ _ hs
  | stepEnded g j => exact endStep_within _ _ hs
  | noticeRead => simp; omega
  | _ => simpa using hs

theorem advance_inbound_le (s : State) (c : Claim) : (s.advance c).inbound.length ≤ s.inbound.length := by
  cases c <;> simp [State.advance]

theorem effect_keeps_inbound {s t : State} (hs : s.inbound.length ≤ 8) (h : Effect s t) : t.inbound.length ≤ 8 := by
  have hadvance (c : Claim) : (s.advance c).inbound.length ≤ 8 := (advance_inbound_le s c).trans hs
  cases h with
  | coldAsserted => simp
  | warmAsserted => simp
  | queued f _ hroom => simp only [Config.inboundPlaces] at hroom; simp; omega
  | wordGranted c tk o => simpa using hadvance c
  | handedOver c tk o => simpa using hadvance c
  | stepWaits j => exact hadvance _
  | stepGranted j => exact hadvance _
  | _ => simpa using hs

/-! ### The pass-through buffer, the recent-probe set and the deferred queue -/

theorem effect_keeps_passThrough {s t : State} (hs : s.passThrough.length ≤ 3) (h : Effect s t) :
    t.passThrough.length ≤ 3 := by
  cases h with
  | coldAsserted => simp
  | warmAsserted => simp
  | broken => simp [State.enterBroken]
  | passed f =>
    unfold State.placePass
    split
    · rename_i hroom
      simp only [Config.passThroughPlaces] at hroom
      rw [chooseRingOut_passThrough, List.length_append, List.length_singleton]; omega
    · exact hs
  | sentOn => simp; omega
  | _ => simpa using hs

theorem addRecent_length_le {l : List Serial} (x : Serial) (h : l.length ≤ 8) : (addRecent l x).length ≤ 8 := by
  rw [addRecent, Config.recentPlaces]
  split
  · rw [List.length_append, List.length_singleton]; omega
  · simpa using h

theorem effect_keeps_recentProbes {s t : State} (hs : s.recentProbes.length ≤ 8) (h : Effect s t) :
    t.recentProbes.length ≤ 8 := by
  have hleft (u : State) (hu : u.recentProbes.length ≤ 8) : u.leftReset.recentProbes.length ≤ 8 := by
    unfold State.leftReset
    repeat' split
    · exact hu
    · simp
    · exact hu
  cases h with
  | coldAsserted => simp
  | warmAsserted => simp
  | coldReleased pins => exact hleft _ hs
  | warmReleased pins => exact hleft _ hs
  | probing => simp
  | probes => exact addRecent_length_le _ hs
  | _ => simpa using hs

theorem deliver_deferred_le (s : State) (src : Source) (st : Status) (b : AnswerBody) (r : Bool) :
    (s.deliver src st b r).deferred.length ≤ s.deferred.length := by
  cases src with
  | port q => exact le_rfl
  | remote o q t => simp [State.deliver]
  | replay k o q t => simpa [State.deliver] using List.length_eraseIdx_le ..

theorem applyHold_deferred_length (s : State) (e : HoldEffect) :
    (s.applyHold e).deferred.length = s.deferred.length := by
  cases e <;> simp [State.applyHold]

theorem grantWord_deferred_le {s : State} (tk : Taken) (hs : s.deferred.length ≤ 12) :
    (s.grantWord tk).deferred.length ≤ 12 := by
  unfold State.grantWord
  repeat' split
  · exact hs
  · exact hs
  · simpa using hs
  · unfold State.meetHold
    repeat' split
    · rename_i hroom
      simp only [Config.deferredPlaces] at hroom
      simp only [List.length_append, List.length_singleton]; omega
    · exact hs
    · simpa using hs
    · exact hs

theorem effect_keeps_deferred {s t : State} (hs : s.deferred.length ≤ 12) (h : Effect s t) :
    t.deferred.length ≤ 12 := by
  cases h with
  | coldAsserted => simp
  | warmAsserted => simp
  | wordGranted c tk o => exact grantWord_deferred_le tk (by simpa using hs)
  | handedOver c tk o =>
    unfold State.handOver
    simp only
    split <;> exact (deliver_deferred_le ..).trans (by simpa using hs)
  | wordEnded g =>
    exact (deliver_deferred_le ..).trans ((applyHold_deferred_length ..).trans_le hs)
  | holdExpired i => simpa using hs
  | _ => simpa using hs

/-! ### The transmit queue -/

theorem freePlace_iff_usedPlaces (s : State) : s.freePlace = true ↔ s.usedPlaces < 6 := decide_eq_true_iff

theorem usedPlaces_placeTransmit (s : State) (f : Frame) : (s.placeTransmit f).usedPlaces = s.usedPlaces + 1 := by
  simp only [State.usedPlaces, placeTransmit_transmit, placeTransmit_grant, List.length_append, List.length_singleton]
  exact Nat.add_right_comm ..

theorem usedPlaces_handFrame_le {s : State} (f : Frame) {r : Bool} (hs : s.usedPlaces ≤ 6)
    (hr : r = true → s.ringState = .online → s.usedPlaces < 6) : (s.handFrame f r).usedPlaces ≤ 6 := by
  unfold State.handFrame
  split
  · rename_i h
    simp only [Bool.and_eq_true, decide_eq_true_eq, Bool.or_eq_true, freePlace_iff_usedPlaces] at h
    obtain ⟨honline, hplace⟩ := h
    rw [usedPlaces_placeTransmit]
    exact hplace.elim (hr · honline) id
  · exact hs

theorem usedPlaces_deliver_le {s : State} (src : Source) (st : Status) (b : AnswerBody) {r : Bool}
    (hs : s.usedPlaces ≤ 6) (hr : r = true → s.ringState = .online → s.usedPlaces < 6) :
    (s.deliver src st b r).usedPlaces ≤ 6 := by
  cases src with
  | port q => exact hs
  | remote o q t => exact usedPlaces_handFrame_le _ hs hr
  | replay k o q t => exact usedPlaces_handFrame_le _ hs hr

theorem usedPlaces_lt_of_placeForAnswer {s : State} (h : s.placeForAnswer = true) (honline : s.ringState = .online) :
    s.usedPlaces < 6 := by
  rw [placeForAnswer_iff, ← usedPlaces_eq_placesTaken] at h
  exact h.resolve_left (not_not_intro honline)

/-- The place that a request's grant reserves is there (R95, R97). -/
theorem usedPlaces_lt_of_reserves {s : State} {c : Claim} {tk : Taken} (hc : s.Stands c)
    (ht : c.taken s.own = some tk) (hr : s.reserves tk.source = true) : s.usedPlaces < 6 := by
  cases c with
  | refresh => cases ht
  | bulk => cases ht
  | port q r => cases ht; cases hr
  | remote f =>
    cases ht
    obtain ⟨-, hplace⟩ := hc
    exact usedPlaces_lt_of_placeForAnswer hplace (of_decide_eq_true hr)
  | replay k d =>
    cases ht
    obtain ⟨-, -, hplace⟩ := hc
    exact usedPlaces_lt_of_placeForAnswer hplace (of_decide_eq_true hr)

theorem reserves_congr {s u : State} (h : u.ringState = s.ringState) (src : Source) : u.reserves src = s.reserves src := by
  cases src <;> simp [State.reserves, h]

/-- A word request's grant leaves the bank as it is, or holds it with the answer place that its source needs. -/
theorem grantWord_grant (s : State) (tk : Taken) :
    (s.grantWord tk).grant = s.grant
      ∨ ∃ res, (s.grantWord tk).grant = .word ⟨tk.source, res, s.reserves tk.source, false⟩ := by
  unfold State.grantWord
  repeat' split
  · exact .inr ⟨_, rfl⟩
  · exact .inr ⟨_, rfl⟩
  · exact .inr ⟨_, by rw [beginWord_grant, reserves_congr (s := s) (by simp)]⟩
  · unfold State.meetHold
    repeat' split
    · exact .inl rfl
    · exact .inr ⟨_, rfl⟩
    · exact .inl rfl
    · exact .inr ⟨_, rfl⟩

theorem jobStep_reserved (s : State) (j : Job) (r : Bool) : (jobStep s j r).reserved = r := by
  unfold jobStep fillStep checkStep scrubStep fillPassed stepResult
  simp only
  repeat' split
  all_goals rfl

theorem usedPlaces_of_free {s : State} (h : s.grant = .free) : s.usedPlaces = s.transmit.length := by
  simp [State.usedPlaces, h, grantReserves]

theorem usedPlaces_le_succ (s : State) : s.usedPlaces ≤ s.transmit.length + 1 := by
  unfold State.usedPlaces; split <;> omega

theorem transmit_le_usedPlaces (s : State) : s.transmit.length ≤ s.usedPlaces := Nat.le_add_right ..

theorem usedPlaces_sendRequest (s : State) (q : Port) (d : Station) (r : Request) (t : Tag) :
    (s.sendRequest q d r t).usedPlaces = s.usedPlaces + 1 := by
  unfold State.sendRequest
  simp only
  split <;> exact usedPlaces_placeTransmit (s.setEntry t (some (s.newEntry q d r))) _

theorem usedPlaces_endStep_le {s : State} (j : Job) (g : StepGrant) (hs : s.usedPlaces ≤ 6)
    (hr : g.reserved = true → s.ringState = .online → s.usedPlaces < 6) : (s.endStep j g).usedPlaces ≤ 6 := by
  unfold State.endStep State.endJob
  repeat' split
  · exact hs
  · exact usedPlaces_handFrame_le _ hs hr
  · exact hs
  · exact usedPlaces_handFrame_le _ hs hr
  · exact hs

/-- A request is sent into a free place (R53). -/
theorem freePlace_of_sendTag {s : State} {q : Port} {d : Station} {r : Request} {t : Tag}
    (h : s.sendTag q d r = some t) : s.freePlace = true := by
  rw [State.sendTag] at h
  by_contra hfull
  simp [hfull] at h

/-- The place that a grant has reserved is free once the grant is over (R97). -/
theorem transmit_lt_of_reserves {s : State} (hs : s.usedPlaces ≤ 6) (h : grantReserves s.grant = true) :
    s.transmit.length < 6 := by
  rw [State.usedPlaces, if_pos h] at hs
  omega

theorem usedPlaces_congr {s u : State} (ht : u.transmit = s.transmit) (hg : u.grant = s.grant) :
    u.usedPlaces = s.usedPlaces := by
  rw [State.usedPlaces, State.usedPlaces, ht, hg]

theorem effect_keeps_usedPlaces {s t : State} (hs : s.usedPlaces ≤ 6) (h : Effect s t) : t.usedPlaces ≤ 6 := by
  have hqueue : s.transmit.length ≤ 6 := (transmit_le_usedPlaces s).trans hs
  have hcut (u : State) (hu : u.transmit = []) : u.usedPlaces ≤ 6 :=
    (usedPlaces_le_succ u).trans (by rw [hu]; decide)
  cases h with
  | coldAsserted => exact hcut _ rfl
  | warmAsserted => exact hcut _ rfl
  | broken => exact hcut _ (by simp [State.enterBroken])
  | conflict => exact hcut _ (by simp [State.enterConflict])
  | probes _ hfree =>
    rw [State.placeProbe, usedPlaces_placeTransmit]
    exact (freePlace_iff_usedPlaces s).mp hfree
  | sentOwn => exact (Nat.add_le_add_right (by simp) _).trans hs
  | sent q d r u _ _ htag =>
    rw [usedPlaces_sendRequest]
    exact (freePlace_iff_usedPlaces s).mp (freePlace_of_sendTag htag)
  | resent u e _ _ hfree =>
    rw [State.resend, usedPlaces_placeTransmit]
    exact (freePlace_iff_usedPlaces s).mp hfree
  | refreshes => exact hqueue
  | refreshed => exact hqueue
  | wordGranted c tk o hchoice hop hw ht =>
    obtain ⟨hbank, -, hstands⟩ := choice_some hchoice
    rcases grantWord_grant (s.advance c) tk with hkeeps | ⟨res, hword⟩
    · exact (usedPlaces_congr (by simp) (by simpa using hkeeps)).trans_le hs
    · rw [State.usedPlaces, hword, grantReserves, reserves_congr (s := s) (by simp)]
      split
      · rename_i hr
        simpa [usedPlaces_of_free hbank] using usedPlaces_lt_of_reserves hstands ht hr
      · simpa using hqueue
  | handedOver c tk o hchoice hop hw ht =>
    obtain ⟨-, -, hstands⟩ := choice_some hchoice
    have hsame : (s.advance c).usedPlaces = s.usedPlaces := usedPlaces_congr (by simp) (by simp)
    have hr : (s.advance c).reserves tk.source = true → (s.advance c).ringState = .online → s.usedPlaces < 6 := fun hr _ =>
      usedPlaces_lt_of_reserves hstands ht (by rwa [reserves_congr (s := s) (by simp)] at hr)
    unfold State.handOver
    simp only
    split
    · exact usedPlaces_deliver_le _ _ _ (hsame.trans_le hs) fun h h' => hsame.trans_lt (hr h h')
    · exact usedPlaces_deliver_le _ _ _ (hsame.trans_le hs) fun h h' => hsame.trans_lt (hr h h')
  | wordEnded g hg ho =>
    refine usedPlaces_deliver_le _ _ _ ?_ fun hr _ => ?_
    · rw [usedPlaces_of_free (by simp)]; simpa using hqueue
    · rw [usedPlaces_of_free (by simp)]
      simpa using transmit_lt_of_reserves hs (by rw [hg]; exact hr)
  | wordOrphanEnded g => exact hqueue
  | stepGranted j hchoice hj hw =>
    obtain ⟨hbank, -, k, hk, -, hplace⟩ := choice_some hchoice
    obtain rfl : k = j := Option.some.inj (hk.symm.trans hj)
    rw [State.usedPlaces, grantReserves, jobStep_reserved]
    split
    · rename_i hr
      obtain ⟨hneeds, honline⟩ : stepNeedsPlace s.own k = true ∧ s.ringState = .online := by
        simpa [State.stepReserves] using hr
      simpa [usedPlaces_of_free hbank] using usedPlaces_lt_of_placeForAnswer (hplace hneeds) honline
    · simpa using hqueue
  | stepEnded g j hg ho =>
    exact usedPlaces_endStep_le _ _ hqueue fun hr _ => transmit_lt_of_reserves (s := s) hs (by rw [hg]; exact hr)
  | stepOrphanEnded g => exact hqueue
  | _ => exact (usedPlaces_congr (by simp) (by simp)).trans_le hs

theorem effect_keeps_queuesWithinPlaces {s t : State} (hs : QueuesWithinPlaces s) (h : Effect s t) :
    QueuesWithinPlaces t where
  passThrough := effect_keeps_passThrough hs.passThrough h
  transmit := effect_keeps_usedPlaces hs.transmit h
  inbound := effect_keeps_inbound hs.inbound h
  recent := effect_keeps_recentProbes hs.recent h
  deferred := effect_keeps_deferred hs.deferred h
  notices := effect_keeps_notices hs.notices h

/-- Settles O53: no effect makes a buffer longer than its places, and each write of a word keeps the bank's list in its
canonical form. -/
theorem stepsKeepBuffersAndBank : Obligations.StepsKeepBuffersAndBank := by
  unfold Obligations.StepsKeepBuffersAndBank
  have hqueue (s : State) (q : List Instr) (h : QueuesWithinPlaces s) : QueuesWithinPlaces { s with pending := q } :=
    ⟨h.passThrough, h.transmit, h.inbound, h.recent, h.deferred, h.notices⟩
  have htimers (s : State) (h : QueuesWithinPlaces s) : QueuesWithinPlaces s.countTimers :=
    ⟨h.passThrough, h.transmit, h.inbound, h.recent, h.deferred, h.notices⟩
  exact ⟨kept_effect hqueue (fun _ _ => effect_keeps_queuesWithinPlaces) htimers, kept_memoryCanonical⟩

end Sys2Proof.Machine
end

section
/-! PROOF. The laws of the resets and of the attention line: what a station in reset can still do, and that every step
keeps its working state cleared and the attention line at its level (R3, R60, R63, R105, R106, R169, R170). -/

namespace Sys2Proof.Machine

/-! ### A cleared station -/

/-- What a cleared station has lost, field by field (R3, R60, R63, R124, R142, R164, R170). -/
structure Cleared (s : State) : Prop where
  ringOutCarrier : s.ringOutCarrier = false
  ringState : s.ringState = .offline
  probeTimer : s.probeTimer = none
  probeClaim : s.probeClaim = false
  recentProbes : s.recentProbes = []
  passThrough : s.passThrough = []
  transmit : s.transmit = []
  ringOut : s.ringOut = .idle
  inbound : s.inbound = []
  strobes : ∀ q r, s.strobe q ≠ .accepted r
  ports : s.ports = ⟨.idle, .idle, .idle, .idle⟩
  completions : s.completions = ⟨[], [], [], []⟩
  windows : s.windows = Vector.replicate 32 Window.empty
  outstanding : s.outstanding = Vector.replicate 16 none
  rotation : s.rotation = .remote
  portPointer : s.portPointer = .p
  holds : s.holds = Vector.replicate 6 none
  deferred : s.deferred = []
  bulk : s.bulk = none
  firstMismatch : s.firstMismatch = none
  notices : s.notices = []
  lost : s.lost = false
  attention : s.attention = false

theorem again_eq_self_iff (x : Strobe) : x.again = x ↔ ∀ r, x ≠ .accepted r := by
  cases x <;> simp [Strobe.again]

theorem portMap_eq_self_iff {α : Type} (f : α → α) (x : PerPort α) :
    portMap f x = x ↔ ∀ q, f (portGet x q) = portGet x q := by
  constructor
  · intro h q
    exact (portGet_map f x q).symm.trans (congrArg (portGet · q) h)
  · intro h
    cases x
    exact congr (congr (congr (congrArg PerPort.mk (h .p)) (h .c1)) (h .c2)) (h .c3)

theorem clearWorking_eq_self_iff (s : State) : s.clearWorking = s ↔ Cleared s := by
  have hstrobes : portMap Strobe.again s.strobes = s.strobes ↔ ∀ q r, s.strobe q ≠ .accepted r := by
    simp only [portMap_eq_self_iff, again_eq_self_iff, State.strobe]
  constructor
  · intro h
    have field {α : Type} (part : State → α) : part s = part s.clearWorking := congrArg part h.symm
    exact ⟨field _, field _, field _, field _, field _, field _, field _, field _, field _,
      hstrobes.mp (field State.strobes).symm, field _, field _, field _, field _, field _, field _, field _, field _,
      field _, field _, field _, field _, field _⟩
  · intro h
    have hagain := hstrobes.mpr h.strobes
    cases s
    simp only [State.clearWorking, State.mk.injEq, true_and]
    exact ⟨h.ringOutCarrier.symm, h.ringState.symm, h.probeTimer.symm, h.probeClaim.symm, h.recentProbes.symm,
      h.passThrough.symm, h.transmit.symm, h.ringOut.symm, h.inbound.symm, hagain, h.ports.symm, h.completions.symm,
      h.windows.symm, h.outstanding.symm, h.rotation.symm, h.portPointer.symm, h.holds.symm, h.deferred.symm,
      h.bulk.symm, h.firstMismatch.symm, h.notices.symm, h.lost.symm, h.attention.symm⟩

/-- An asserted reset leaves a cleared station. -/
theorem cleared_clearWorking (s : State) : Cleared s.clearWorking where
  strobes q r h := by
    have hq : (portGet s.strobes q).again = .accepted r := (portGet_map Strobe.again s.strobes q).symm.trans h
    cases hx : portGet s.strobes q <;> rw [hx] at hq <;> cases hq
  ringOutCarrier := rfl
  ringState := rfl
  probeTimer := rfl
  probeClaim := rfl
  recentProbes := rfl
  passThrough := rfl
  transmit := rfl
  ringOut := rfl
  inbound := rfl
  ports := rfl
  completions := rfl
  windows := rfl
  outstanding := rfl
  rotation := rfl
  portPointer := rfl
  holds := rfl
  deferred := rfl
  bulk := rfl
  firstMismatch := rfl
  notices := rfl
  lost := rfl
  attention := rfl

section
variable {s : State} (h : Cleared s)
include h

theorem Cleared.port (q : Port) : s.port q = .idle := by cases q <;> simp [State.port, h.ports, portGet]

theorem Cleared.entry (t : Tag) : s.entry t = none := entry_replicate s h.outstanding t

theorem Cleared.slot (i : Slot) : s.slot i = none := slot_replicate s h.holds i

theorem Cleared.receives : s.receives = false := by simp [State.receives, h.ringState]

/-- In a cleared station nothing claims the bank but refresh. -/
theorem Cleared.choice {c : Claim} (hc : s.choice = some c) : c = .refresh := by
  obtain ⟨-, -, hstands⟩ := choice_some hc
  cases c with
  | refresh => rfl
  | replay k d => simp [State.Stands, h.deferred] at hstands
  | remote f => simp [State.Stands, h.inbound] at hstands
  | port q r => simp [State.Stands, h.port] at hstands
  | bulk => simp [State.Stands, h.bulk] at hstands

theorem Cleared.setStrobe {q : Port} {x : Strobe} (hx : ∀ r, x ≠ .accepted r) : Cleared (s.setStrobe q x) :=
  { h with
    strobes := fun o r => by
      rw [strobe_setStrobe]
      split
      · exact hx r
      · exact h.strobes o r }

end

/-! ### What happens in reset -/

theorem orphaned_orphaned (g : Grant) : orphaned (orphaned g) = orphaned g := by cases g <;> rfl

/-- A grant that reports nothing is an orphan, if it holds the bank for a word or a step (R105). -/
theorem orphan_of_orphaned_word {g : WordGrant} (h : orphaned (.word g) = .word g) : g.orphan = true := by
  rw [orphaned, Grant.word.injEq] at h; rw [← h]

theorem clearInReset_of {s : State} (hc : s.inReset = true → Cleared s) (hg : s.inReset = true → orphaned s.grant = s.grant)
    (hcold : s.coldReset = true → s.grant = .free ∧ s.refreshTimer = none ∧ s.refreshClaim = false) : ClearInReset s :=
  ⟨fun h => (clearWorking_eq_self_iff s).mpr (hc h), hg, hcold⟩

theorem inReset_of_coldReset {s : State} (h : s.coldReset = true) : s.inReset = true := by simp [State.inReset, h]

/-- Out of reset the laws of reset say nothing. -/
theorem clearInReset_of_out {s : State} (h : s.inReset = false) : ClearInReset s :=
  clearInReset_of (fun hr => absurd hr (by simp [h])) (fun hr => absurd hr (by simp [h]))
    (fun hr => absurd (inReset_of_coldReset hr) (by simp [h]))

/-- COLD_RESET_ASSERTION clears the station and frees the bank (R3, R106). -/
theorem clearInReset_coldAsserted (s : State) : ClearInReset { s.clearWorking with
    coldReset := true, probeSerial := 0, mem := s.cutShort, refreshTimer := none, refreshClaim := false,
    grant := .free } :=
  clearInReset_of (fun _ => { cleared_clearWorking s with }) (fun _ => rfl) (fun _ => ⟨rfl, rfl, rfl⟩)

/-- WARM_RESET_ASSERTION clears the station and takes the requester of a grant away (R3, R105). -/
theorem clearInReset_warmAsserted {s : State} (hs : ClearInReset s) :
    ClearInReset { s.clearWorking with warmReset := true, grant := orphaned s.grant } := by
  refine clearInReset_of (fun _ => { cleared_clearWorking s with }) (fun _ => orphaned_orphaned _) (fun hcold => ?_)
  obtain ⟨hbank, hrest⟩ := hs.cold hcold
  exact ⟨by simp [hbank, orphaned], hrest⟩

/-- A released reset leaves the station in the other one, or out of reset (R4). -/
theorem clearInReset_leftReset {u : State} (hu : ClearInReset u) : ClearInReset u.leftReset := by
  by_cases hreset : u.inReset = true
  · rw [State.leftReset, if_pos hreset]
    exact hu
  · have hout : u.inReset = false := by simpa using hreset
    exact clearInReset_of_out ((inReset_of (by simp) (by simp)).trans hout)

/-- The end of a grant frees the bank, and nothing else that reset keeps (R105). -/
theorem clearInReset_freed {s t : State} (hs : ClearInReset s) (hc : s.inReset = true → Cleared t)
    (hin : t.inReset = s.inReset) (hcold : t.coldReset = s.coldReset) (hg : t.grant = .free)
    (ht : t.refreshTimer = s.refreshTimer) (hclaim : t.refreshClaim = s.refreshClaim) : ClearInReset t :=
  clearInReset_of (hin ▸ hc) (fun _ => by rw [hg]; rfl) (fun h => by
    obtain ⟨-, htimer, hrefresh⟩ := hs.cold (hcold ▸ h)
    exact ⟨hg, ht.trans htimer, hclaim.trans hrefresh⟩)

/-- What a cleared station in reset can do, and what holds the bank then (R3, R88, R105, R106). -/
theorem effect_keeps_clearInReset_in {s t : State} (hs : ClearInReset s) (hreset : s.inReset = true) (h : Effect s t) :
    ClearInReset t := by
  have hc : Cleared s := (clearWorking_eq_self_iff s).mp (hs.cleared hreset)
  have hg : orphaned s.grant = s.grant := hs.grants hreset
  have hfree (c : Claim) (hchoice : s.choice = some c) (hne : c ≠ .refresh) : False := hne (hc.choice hchoice)
  cases h with
  | same => exact hs
  | coldAsserted => exact clearInReset_coldAsserted s
  | warmAsserted => exact clearInReset_warmAsserted hs
  | coldReleased pins => exact clearInReset_leftReset (clearInReset_of (fun _ => { hc with }) (fun _ => hg) nofun)
  | warmReleased pins => exact clearInReset_leftReset (clearInReset_of (fun _ => { hc with }) (fun _ => hg) hs.cold)
  | carrierLost => exact clearInReset_of (fun _ => { hc with }) (fun _ => hg) hs.cold
  | carrierBack => exact clearInReset_of (fun _ => { hc with }) (fun _ => hg) hs.cold
  | broken _ hring => simp [hc.ringState] at hring
  | probing _ hout => simp [hout] at hreset
  | online hr => simp [hc.receives] at hr
  | conflict hr => simp [hc.receives] at hr
  | passed f hr => simp [hc.receives] at hr
  | queued f hr => simp [hc.receives] at hr
  | ended u e c hr => simp [hc.receives] at hr
  | backsOff u e hr => simp [hc.receives] at hr
  | freed u e he => simp [hc.entry] at he
  | noticed n hr => simp [hc.receives] at hr
  | probeExpires n hp => simp [hc.probeTimer] at hp
  | probes hp => simp [hc.probeClaim] at hp
  | sentOn ho => simp [hc.ringOut] at ho
  | sentOwn ho => simp [hc.ringOut] at ho
  | strobed q x hx =>
    have hx : ∀ r, x ≠ .accepted r := fun r he => by
      obtain ⟨r', hr'⟩ := hx hreset ⟨r, he⟩
      exact hc.strobes q r' hr'
    exact clearInReset_of (fun _ => hc.setStrobe hx) (fun _ => hg) hs.cold
  | answered q c hout => simp [hout] at hreset
  | toBank q r hout => simp [hout] at hreset
  | toSend q d r hout => simp [hout] at hreset
  | sent q d r u _ honline => simp [hc.ringState] at honline
  | control a hout => simp [hout] at hreset
  | timedOut u e he => simp [hc.entry] at he
  | resent u e he => simp [hc.entry] at he
  | claimsResend u e he => simp [hc.entry] at he
  | refreshExpires n hn =>
    refine clearInReset_of (fun _ => { hc with }) (fun _ => hg) (fun hcold => ?_)
    obtain ⟨-, htimer, -⟩ := hs.cold hcold
    simp [htimer] at hn
  | refreshes hchoice =>
    obtain ⟨-, hcold, -⟩ := choice_some hchoice
    exact clearInReset_of (fun _ => { hc with }) (fun _ => rfl) (fun h => by simp [hcold] at h)
  | refreshed => exact clearInReset_freed hs (fun _ => { hc with }) rfl rfl rfl rfl rfl
  | wordGranted c tk o hchoice _ _ ht => exact (hfree c hchoice (by rintro rfl; cases ht)).elim
  | handedOver c tk o hchoice _ _ ht => exact (hfree c hchoice (by rintro rfl; cases ht)).elim
  | wordEnded g hword ho =>
    rw [hword] at hg
    simp [orphan_of_orphaned_word hg] at ho
  | wordOrphanEnded g => exact clearInReset_freed hs (fun _ => { hc with }) rfl rfl rfl rfl rfl
  | holdExpired i k hk => simp [hc.slot] at hk
  | stepWaits j i k hchoice => exact (hfree _ hchoice nofun).elim
  | stepGranted j hchoice => exact (hfree _ hchoice nofun).elim
  | stepEnded g j _ _ hj => simp [hc.bulk] at hj
  | stepOrphanEnded g => exact clearInReset_freed hs (fun _ => { hc with }) rfl rfl rfl rfl rfl
  | noticeRead hp => simp [hc.port] at hp
  | statusRead hp => simp [hc.port] at hp
  | windowWritten n v hp => simp [hc.port] at hp
  | controlRefused hp => simp [hc.port] at hp

/-- Out of reset an effect leads into reset by an assertion alone. -/
theorem effect_keeps_clearInReset {s t : State} (hs : ClearInReset s) (h : Effect s t) : ClearInReset t := by
  by_cases hreset : s.inReset = true
  · exact effect_keeps_clearInReset_in hs hreset h
  have hout : s.inReset = false := by simpa using hreset
  cases h with
  | coldAsserted => exact clearInReset_coldAsserted s
  | warmAsserted => exact clearInReset_warmAsserted hs
  | coldReleased pins hc => exact absurd (inReset_of_coldReset hc) hreset
  | warmReleased pins hw => simp [State.inReset, hw] at hout
  | _ => exact clearInReset_of_out ((inReset_of (by simp) (by simp)).trans hout)

/-! ### The attention line -/

/-- The attention line stands at its level (R169). -/
def AttentionLevel (s : State) : Prop := s.attention = true ↔ s.notices ≠ [] ∨ s.lost = true

theorem attentionLevel_placeNotice (s : State) (n : Notice) : AttentionLevel (s.placeNotice n) := by
  simp only [AttentionLevel, placeNotice_attention, placeNotice_notices, placeNotice_lost, true_iff]
  split
  · exact .inl (by simp)
  · exact .inr rfl

theorem attentionLevel_congr {s t : State} (hs : AttentionLevel s) (hn : t.notices = s.notices)
    (hl : t.lost = s.lost) (ha : t.attention = s.attention) : AttentionLevel t := by
  rwa [AttentionLevel, hn, hl, ha]

theorem attentionLevel_of {s : State} (h : s.attention = attentionLevel s.notices s.lost) : AttentionLevel s := by
  rw [AttentionLevel, h]
  cases s.notices <;> simp [attentionLevel]

theorem attentionLevel_reportEnd {s : State} (t : Tag) (e : Entry) (c : Completion) (hs : AttentionLevel s) :
    AttentionLevel (s.reportEnd t e c) := by
  unfold State.reportEnd
  repeat' split
  · exact hs
  · exact attentionLevel_placeNotice _ _
  · exact hs

theorem attentionLevel_endIfWaiting (s : State) (t : Tag) (hs : AttentionLevel s) :
    AttentionLevel (s.endIfWaiting t) := by
  unfold State.endIfWaiting
  repeat' split
  · exact hs
  · exact attentionLevel_reportEnd _ _ _ hs
  · exact hs

theorem attentionLevel_ringDown {s : State} (hs : AttentionLevel s) : AttentionLevel s.ringDown :=
  foldl_law _ _ (fun u q hu => attentionLevel_congr hu (by simp) (by simp) (by simp)) _ _
    (foldl_law _ _ attentionLevel_endIfWaiting _ _ hs)

theorem attentionLevel_chooseRingOut {s : State} (hs : AttentionLevel s) : AttentionLevel s.chooseRingOut := hs

theorem attentionLevel_placePass {s : State} (f : Frame) (hs : AttentionLevel s) : AttentionLevel (s.placePass f) := by
  unfold State.placePass
  split
  · exact hs
  · exact attentionLevel_placeNotice _ _

theorem attentionLevel_endStep {s : State} (j : Job) (g : StepGrant) (hs : AttentionLevel s) :
    AttentionLevel (s.endStep j g) := by
  have hend (k : Job) (o : JobOutcome) (x : Option Offset) (r : Bool) : AttentionLevel (s.endJob k o x r) := by
    unfold State.endJob
    split
    · exact attentionLevel_placeNotice _ _
    · exact attentionLevel_congr hs (by simp) (by simp) (by simp)
  unfold State.endStep
  repeat' split
  · exact hend _ _ _ _
  · exact hend _ _ _ _
  · exact hs

theorem effect_keeps_attentionLevel {s t : State} (hs : AttentionLevel s) (h : Effect s t) : AttentionLevel t := by
  cases h with
  | coldAsserted => exact attentionLevel_of rfl
  | warmAsserted => exact attentionLevel_of rfl
  | online => exact attentionLevel_placeNotice _ _
  | broken => exact attentionLevel_ringDown (attentionLevel_placeNotice _ _)
  | conflict => exact attentionLevel_chooseRingOut (attentionLevel_ringDown (attentionLevel_placeNotice _ _))
  | passed f => exact attentionLevel_placePass f hs
  | noticed n => exact attentionLevel_placeNotice s n
  | ended u e c => exact attentionLevel_reportEnd _ _ _ hs
  | timedOut u e => exact attentionLevel_reportEnd _ _ _ hs
  | stepEnded g j => exact attentionLevel_endStep _ _ hs
  | noticeRead => exact attentionLevel_of rfl
  | statusRead => exact attentionLevel_of rfl
  | _ => exact attentionLevel_congr hs (by simp) (by simp) (by simp)

/-- In reset the attention line is deasserted, since the notice logic is cleared. -/
theorem attentionFollows_of {s : State} (hr : ClearInReset s) (hl : AttentionLevel s) : AttentionFollows s :=
  { hr with
    level := hl
    deasserted := fun h => ((clearWorking_eq_self_iff s).mp (hr.cleared h)).attention }

theorem clearInReset_pending {s : State} (q : List Instr) (hs : ClearInReset s) : ClearInReset { s with pending := q } :=
  clearInReset_of (fun h => { (clearWorking_eq_self_iff s).mp (hs.cleared h) with }) hs.grants hs.cold

theorem clearInReset_countTimers {s : State} (hs : ClearInReset s) : ClearInReset s.countTimers := by
  refine clearInReset_of (fun h => ?_) hs.grants (fun hcold => ?_)
  · have hc : Cleared s := (clearWorking_eq_self_iff s).mp (hs.cleared h)
    exact { hc with
      probeTimer := by simp [hc.probeTimer, countDown]
      outstanding := by simp [hc.outstanding]
      holds := by simp [hc.holds] }
  · obtain ⟨hbank, htimer, hclaim⟩ := hs.cold hcold
    exact ⟨hbank, by simp [htimer, countDown], hclaim⟩

/-- Settles O54: no effect wakes a cleared station but a release, and each effect that changes the notice logic sets the
attention line to its level. -/
theorem stepsKeepAttention : Obligations.StepsKeepAttention := by
  unfold Obligations.StepsKeepAttention
  refine kept_effect (fun s q hs => ?_) (fun s t hs h => ?_) (fun s hs => ?_)
  · exact attentionFollows_of (clearInReset_pending q hs.toClearInReset) hs.level
  · exact attentionFollows_of (effect_keeps_clearInReset hs.toClearInReset h) (effect_keeps_attentionLevel hs.level h)
  · exact attentionFollows_of (clearInReset_countTimers hs.toClearInReset) hs.level

end Sys2Proof.Machine
end

section
/-! PROOF. The laws of the timers: a running timer stands between 1 and the value it was started with, but for those
that a tick has counted to 0 and whose expiry is due within it (R5, R64, R69, R77, R88, R122). -/

namespace Sys2Proof.Machine

/-! ### Timers with an expiry due -/

/-- A running timer is within its start value, and at 0 only while `due`, its expiry, is still to come in the tick. -/
def TimerWithin (due : Prop) (bound n : Nat) : Prop := n ≤ bound ∧ (n = 0 → due)

theorem timerWithin_of_pos {due : Prop} {bound n : Nat} (h : 1 ≤ n) (hb : n ≤ bound) : TimerWithin due bound n :=
  ⟨hb, fun h0 => by omega⟩

theorem timerWithin_false_iff {bound n : Nat} : TimerWithin False bound n ↔ 1 ≤ n ∧ n ≤ bound := by
  simp only [TimerWithin, imp_false]; omega

theorem TimerWithin.mono {d d' : Prop} {bound n : Nat} (h : TimerWithin d bound n) (hd : n = 0 → d → d') :
    TimerWithin d' bound n := ⟨h.1, fun h0 => hd h0 (h.2 h0)⟩

/-- The expiry of an entry's timer, by its state (R73, R74, R76). -/
def Entry.expiry (t : Tag) (e : Entry) : Instr :=
  match e.state with
  | .waitingAnswer => .answerTimerExpiry t
  | .waitingResend => .backoffTimerExpiry t
  | .stale => .quarantineExpiry t

/-- `Entry.timed`, with a timer at 0 allowed while its expiry is due. -/
def Entry.timedOr (straps : Straps) (due : Prop) (e : Entry) : Prop :=
  e.attempts ≤ 6 ∧
  match e.state with
  | .waitingAnswer => ∃ n, e.timer = some n ∧ TimerWithin due (answerTimeout straps) n
  | .waitingResend => e.attempts ≤ 5 ∧ ∀ n, e.timer = some n → TimerWithin due (4 * (e.attempts + 1)) n
  | .stale => ∃ n, e.timer = some n ∧ TimerWithin due (answerTimeout straps) n

theorem timedOr_false_iff (straps : Straps) (e : Entry) : e.timedOr straps False ↔ e.timed straps := by
  have hoption (P : Nat → Prop) : (∀ n, e.timer = some n → P n) ↔ (e.timer = none ∨ ∃ n, e.timer = some n ∧ P n) := by
    cases e.timer <;> simp
  unfold Entry.timedOr Entry.timed
  cases e.state <;> simp only [timerWithin_false_iff, answerTimeout, hoption]

theorem Entry.timedOr.mono {straps : Straps} {d d' : Prop} {e : Entry} (h : e.timedOr straps d)
    (hd : e.timer = some 0 → d → d') :
    e.timedOr straps d' := by
  obtain ⟨hattempts, h⟩ := h
  refine ⟨hattempts, ?_⟩
  cases hst : e.state with
  | waitingAnswer =>
    obtain ⟨n, hn, hw⟩ : ∃ n, e.timer = some n ∧ _ := by simpa [hst] using h
    exact ⟨n, hn, hw.mono fun h0 => hd (h0 ▸ hn)⟩
  | waitingResend =>
    obtain ⟨hmore, hw⟩ : e.attempts ≤ 5 ∧ _ := by simpa [hst] using h
    exact ⟨hmore, fun n hn => (hw n hn).mono fun h0 => hd (h0 ▸ hn)⟩
  | stale =>
    obtain ⟨n, hn, hw⟩ : ∃ n, e.timer = some n ∧ _ := by simpa [hst] using h
    exact ⟨n, hn, hw.mono fun h0 => hd (h0 ▸ hn)⟩

/-- The laws of the timers within a tick, of which the expiries `due` are still to come. -/
structure TimersDue (due : Instr → Prop) (s : State) : Prop extends ClearInReset s where
  probe : ∀ n, s.probeTimer = some n → TimerWithin (due .probeTimerExpiry) 100 n
  refresh : ∀ n, s.refreshTimer = some n → TimerWithin (due .refreshTimerExpiry) 10 n
  runs : s.refreshTimer.isSome = !s.coldReset
  claim : s.refreshClaim = true → s.coldReset = false
  entries : ∀ t e, s.entry t = some e → e.timedOr s.straps (due (e.expiry t))
  holds : ∀ i h, s.slot i = some h → TimerWithin (due (.holdTimerExpiry i)) 64 h.timer

theorem timersDue_false_iff (s : State) : TimersDue (fun _ => False) s ↔ TimersInRange s := by
  constructor
  · intro h
    exact { h with
      probe := fun n hn => timerWithin_false_iff.mp (h.probe n hn)
      refresh := fun n hn => timerWithin_false_iff.mp (h.refresh n hn)
      entries := fun t e he => (timedOr_false_iff _ _).mp (h.entries t e he)
      holds := fun i k hk => timerWithin_false_iff.mp (h.holds i k hk) }
  · intro h
    exact { h with
      probe := fun n hn => timerWithin_false_iff.mpr (h.probe n hn)
      refresh := fun n hn => timerWithin_false_iff.mpr (h.refresh n hn)
      entries := fun t e he => (timedOr_false_iff _ _).mpr (h.entries t e he)
      holds := fun i k hk => timerWithin_false_iff.mpr (h.holds i k hk) }

/-! ### The outstanding table -/

/-- Every entry that is not FREE fulfils a law of its tag. -/
def EachEntry (law : Tag → Entry → Prop) (s : State) : Prop := ∀ t e, s.entry t = some e → law t e

theorem eachEntry_congr {law : Tag → Entry → Prop} {s t : State} (hs : EachEntry law s)
    (h : t.outstanding = s.outstanding) : EachEntry law t := fun u e he => hs u e (entry_of_outstanding h u ▸ he)

theorem eachEntry_setEntry {law : Tag → Entry → Prop} {s : State} (hs : EachEntry law s) (t : Tag) (e : Option Entry)
    (he : ∀ x, e = some x → law t x) : EachEntry law (s.setEntry t e) := fun u x hx => by
  rw [entry_setEntry] at hx
  split at hx
  · rename_i hu; exact hu ▸ he x hx
  · exact hs u x hx

theorem eachEntry_ringDown {law : Tag → Entry → Prop} {s : State} (hs : EachEntry law s) : EachEntry law s.ringDown :=
  fun u x hx => by
    rw [ringDown_entry] at hx
    exact hs u x (Option.filter_eq_some_iff.mp hx).1

theorem eachEntry_replicate {law : Tag → Entry → Prop} {s : State} (h : s.outstanding = Vector.replicate 16 none) :
    EachEntry law s := fun u x hx => by simp [entry_replicate s h] at hx

/-- A law of entries is kept if a new entry, a resend, a backoff, a claim and a quarantine fulfil it. -/
theorem effect_keeps_eachEntry {law : Tag → Entry → Prop} {s t : State} (hs : EachEntry law s)
    (hnew : ∀ u q d r, s.ringState = .online → s.sendTag q d r = some u → law u (s.newEntry q d r))
    (hback : ∀ u e, law u e → e.state = .waitingAnswer → e.attempts < 6 →
      law u { e with state := .waitingResend, timer := some (4 * (e.attempts + 1)) })
    (hresend : ∀ u e, law u e → e.state = .waitingResend →
      law u { e with state := .waitingAnswer, attempts := e.attempts + 1, timer := some (answerTimeout s.straps) })
    (hclaim : ∀ u e, law u e → e.state = .waitingResend → law u { e with timer := none })
    (hquarantine : ∀ u e, law u e → e.state = .waitingAnswer →
      law u { e with state := .stale, timer := some (answerTimeout s.straps) })
    (h : Effect s t) : EachEntry law t := by
  cases h with
  | coldAsserted => exact eachEntry_replicate rfl
  | warmAsserted => exact eachEntry_replicate rfl
  | broken =>
    refine eachEntry_ringDown ?_
    exact eachEntry_congr hs rfl
  | conflict =>
    refine eachEntry_congr (eachEntry_ringDown ?_) (chooseRingOut_outstanding _)
    exact eachEntry_congr hs rfl
  | ended u e c => exact eachEntry_congr (eachEntry_setEntry hs u none fun _ hx => nomatch hx) (by simp [State.endEntry])
  | backsOff u e _ he hw ha =>
    exact eachEntry_setEntry hs u _ fun x hx => Option.some.inj hx ▸ hback u e (hs u e he) hw ha
  | freed u e => exact eachEntry_setEntry hs u none fun _ hx => nomatch hx
  | sent q d r u _ honline htag =>
    refine eachEntry_congr (eachEntry_setEntry hs u (some (s.newEntry q d r)) ?_) ?_
    · exact fun x hx => Option.some.inj hx ▸ hnew u q d r honline htag
    · unfold State.sendRequest
      simp only
      split <;> simp
  | timedOut u e he hw =>
    refine eachEntry_congr (eachEntry_setEntry hs u _ ?_) (by simp; rfl)
    exact fun x hx => Option.some.inj hx ▸ hquarantine u e (hs u e he) hw
  | resent u e he hw =>
    refine eachEntry_congr (eachEntry_setEntry hs u _ ?_) rfl
    exact fun x hx => Option.some.inj hx ▸ hresend u e (hs u e he) hw
  | claimsResend u e he hw =>
    exact eachEntry_setEntry hs u _ fun x hx => Option.some.inj hx ▸ hclaim u e (hs u e he) hw
  | _ => exact eachEntry_congr hs (by simp)

/-! ### The hold table -/

/-- What the grant of a word request comes to: refused, begun on its own path, or waiting behind another's hold (R98,
R126, R127, R140). -/
inductive GrantResult (s : State) (tk : Taken) : State → Prop
  | refused (st : Status) : GrantResult s tk (s.beginWord tk.source (refusal st .keep))
  | unheld (r : Request) : s.inRange tk = some r → s.holdOn r.page r.offset = none →
      GrantResult s tk (s.beginWord tk.source (serveUnheld s tk r))
  | holder (r : Request) (i : Slot) (h : Hold) : s.inRange tk = some r → s.holdOn r.page r.offset = some (i, h) →
      h.holder = tk.holder →
      GrantResult s tk (State.beginWord (s.stopFor i r.command) tk.source (serveHolder s r i))
  | deferred (o : Station) (q : Port) (t : Tag) (r : Request) (i : Slot) (h : Hold) : tk.source = .remote o q t →
      s.inRange tk = some r → s.holdOn r.page r.offset = some (i, h) → h.holder ≠ tk.holder →
      GrantResult s tk { s with deferred := s.deferred ++ [⟨o, q, t, r, .waiting i⟩] }
  | again (k : Nat) (o : Station) (q : Port) (t : Tag) (r : Request) (i : Slot) (h : Hold) :
      tk.source = .replay k o q t → s.inRange tk = some r → s.holdOn r.page r.offset = some (i, h) →
      h.holder ≠ tk.holder → GrantResult s tk { s with deferred := s.deferred.set k ⟨o, q, t, r, .waiting i⟩ }

theorem grantWord_result (s : State) (tk : Taken) : GrantResult s tk (s.grantWord tk) := by
  unfold State.grantWord
  split
  · exact .refused _
  rename_i r hr
  split
  · rename_i hu; exact .unheld r hr hu
  rename_i i h hh
  split
  · rename_i hmine; exact .holder r i h hr hh hmine
  rename_i hother
  unfold State.meetHold
  split
  · rename_i o q t hsource
    split
    · exact .deferred o q t r i h hsource hr hh hother
    · exact .refused _
  · rename_i k o q t hsource; exact .again k o q t r i h hsource hr hh hother
  · exact .refused _

/-- Every hold fulfils a law of its slot. -/
def EachHold (law : Slot → Hold → Prop) (s : State) : Prop := ∀ i h, s.slot i = some h → law i h

theorem eachHold_congr {law : Slot → Hold → Prop} {s t : State} (hs : EachHold law s) (h : t.holds = s.holds) :
    EachHold law t := fun i k hk => hs i k (slot_of_holds h i ▸ hk)

theorem eachHold_replicate {law : Slot → Hold → Prop} {s : State} (h : s.holds = Vector.replicate 6 none) :
    EachHold law s := fun i k hk => by simp [slot_replicate s h] at hk

theorem eachHold_endHold {law : Slot → Hold → Prop} {s : State} (hs : EachHold law s) (i : Slot) :
    EachHold law (s.endHold i) := fun j k hk => by
  rw [slot_endHold] at hk
  split at hk
  · cases hk
  · exact hs j k hk

theorem eachHold_stopHold {law : Slot → Hold → Prop} {s : State} (hs : EachHold law s) (i : Slot)
    (hstop : ∀ h, law i h → law i { h with stopped := true }) : EachHold law (s.stopHold i) := fun j k hk => by
  rw [slot_stopHold] at hk
  split at hk
  · rename_i hj
    obtain ⟨h, hh, rfl⟩ := Option.map_eq_some_iff.mp hk
    exact hj ▸ hstop h (hs i h hh)
  · exact hs j k hk

theorem eachHold_makeHold {law : Slot → Hold → Prop} {s : State} (hs : EachHold law s) (p : Page) (o : Offset)
    (x : Holder) (hnew : ∀ i, law i ⟨p, o, x, Config.holdLimit, false⟩) : EachHold law (s.makeHold p o x) := by
  unfold State.makeHold
  split
  · rename_i i _
    intro j k hk
    rw [slot_setSlot] at hk
    split at hk
    · exact Option.some.inj hk ▸ hnew j
    · exact hs j k hk
  · exact hs

theorem eachHold_applyHold {law : Slot → Hold → Prop} {s : State} (hs : EachHold law s) (e : HoldEffect)
    (hnew : ∀ i p o x, law i ⟨p, o, x, Config.holdLimit, false⟩) : EachHold law (s.applyHold e) := by
  cases e with
  | keep => exact hs
  | make p o x => exact eachHold_makeHold hs p o x fun i => hnew i p o x
  | finish i => exact eachHold_endHold hs i

/-- A law of holds is kept if a new hold and a stopped one fulfil it. -/
theorem effect_keeps_eachHold {law : Slot → Hold → Prop} {s t : State} (hs : EachHold law s)
    (hnew : ∀ i p o x, law i ⟨p, o, x, Config.holdLimit, false⟩)
    (hstop : ∀ i h, law i h → law i { h with stopped := true }) (h : Effect s t) : EachHold law t := by
  cases h with
  | coldAsserted => exact eachHold_replicate rfl
  | warmAsserted => exact eachHold_replicate rfl
  | wordGranted c tk =>
    have hadvanced : EachHold law (s.advance c) := eachHold_congr hs (by simp)
    have hresult := grantWord_result (s.advance c) tk
    generalize (s.advance c).grantWord tk = u at hresult ⊢
    cases hresult with
    | holder r i h =>
      refine eachHold_congr (s := (s.advance c).stopFor i r.command) ?_ rfl
      unfold State.stopFor
      split
      · exact eachHold_stopHold hadvanced i (hstop i)
      · exact hadvanced
    | _ => exact eachHold_congr hadvanced rfl
  | wordEnded g =>
    have hfreed : EachHold law
        (State.writeDue { s with grant := .free } (g.result.accessed.getD 0) g.result.write) := eachHold_congr hs rfl
    exact eachHold_congr (eachHold_applyHold hfreed g.result.hold hnew) (by simp [State.endWord])
  | holdExpired i => exact eachHold_endHold hs i
  | _ => exact eachHold_congr hs (by simp)

/-! ### What an effect does to the timers -/

section
variable {due : Instr → Prop} {s t : State}

theorem effect_keeps_probeTimer (hs : ∀ n, s.probeTimer = some n → TimerWithin (due .probeTimerExpiry) 100 n)
    (h : Effect s t) : ∀ n, t.probeTimer = some n → TimerWithin (due .probeTimerExpiry) 100 n := by
  have hstart : ∀ n, some Config.probePeriod = some n → TimerWithin (due .probeTimerExpiry) 100 n := by
    rintro n ⟨⟩
    exact timerWithin_of_pos (by decide) le_rfl
  have hleft (u : State) (hu : u.probeTimer = s.probeTimer) :
      ∀ n, u.leftReset.probeTimer = some n → TimerWithin (due .probeTimerExpiry) 100 n := by
    unfold State.leftReset
    repeat' split
    · rwa [hu]
    · exact hstart
    · exact hu ▸ hs
  cases h with
  | coldAsserted => exact fun _ hn => nomatch hn
  | warmAsserted => exact fun _ hn => nomatch hn
  | coldReleased pins => exact hleft _ rfl
  | warmReleased pins => exact hleft _ rfl
  | broken => simp [State.enterBroken]
  | conflict => simp [State.enterConflict]
  | online => exact fun _ hn => nomatch hn
  | probing => exact hstart
  | probeExpires => exact hstart
  | _ => simpa using hs

theorem effect_keeps_refreshTimer (hs : ∀ n, s.refreshTimer = some n → TimerWithin (due .refreshTimerExpiry) 10 n)
    (h : Effect s t) : ∀ n, t.refreshTimer = some n → TimerWithin (due .refreshTimerExpiry) 10 n := by
  have hstart : ∀ n, some Config.refreshPeriod = some n → TimerWithin (due .refreshTimerExpiry) 10 n := by
    rintro n ⟨⟩
    exact timerWithin_of_pos (by decide) le_rfl
  cases h with
  | coldAsserted => exact fun _ hn => nomatch hn
  | coldReleased pins => simpa using hstart
  | refreshExpires => exact hstart
  | _ => simpa using hs

/-- Refresh runs exactly out of cold reset (R88, R106). -/
theorem effect_keeps_refreshRuns (hs : s.refreshTimer.isSome = !s.coldReset) (h : Effect s t) :
    t.refreshTimer.isSome = !t.coldReset := by
  cases h with
  | coldAsserted => rfl
  | coldReleased pins => simp
  | refreshExpires n hn => rw [← hs, hn]; rfl
  | _ => simpa using hs

theorem effect_keeps_refreshClaim (hruns : s.refreshTimer.isSome = !s.coldReset)
    (hs : s.refreshClaim = true → s.coldReset = false) (h : Effect s t) :
    t.refreshClaim = true → t.coldReset = false := by
  cases h with
  | coldAsserted => exact fun hc => nomatch hc
  | coldReleased pins => simp
  | refreshExpires n hn => exact fun _ => by simpa [hn] using hruns
  | refreshes => exact fun hc => nomatch hc
  | _ => simpa using hs

/-- The straps change in reset alone, where no entry is left (R4, R63). -/
theorem effect_straps (hs : ClearInReset s) (h : Effect s t) :
    t.straps = s.straps ∨ t.outstanding = Vector.replicate 16 none := by
  have hcleared (hr : s.inReset = true) : s.outstanding = Vector.replicate 16 none :=
    ((clearWorking_eq_self_iff s).mp (hs.cleared hr)).outstanding
  cases h with
  | coldReleased pins hc => exact .inr (by simpa using hcleared (inReset_of_coldReset hc))
  | warmReleased pins hw => exact .inr (by simpa using hcleared (by simp [State.inReset, hw]))
  | _ => exact .inl (by simp)

theorem timedOr_waitingAnswer {straps : Straps} {d : Prop} {e : Entry} (h : e.state = .waitingAnswer) :
    e.timedOr straps d ↔ e.attempts ≤ 6 ∧ ∃ n, e.timer = some n ∧ TimerWithin d (answerTimeout straps) n := by
  rw [Entry.timedOr, h]

theorem timedOr_waitingResend {straps : Straps} {d : Prop} {e : Entry} (h : e.state = .waitingResend) :
    e.timedOr straps d ↔
      e.attempts ≤ 6 ∧ e.attempts ≤ 5 ∧ ∀ n, e.timer = some n → TimerWithin d (4 * (e.attempts + 1)) n := by
  rw [Entry.timedOr, h]

theorem timedOr_stale {straps : Straps} {d : Prop} {e : Entry} (h : e.state = .stale) :
    e.timedOr straps d ↔ e.attempts ≤ 6 ∧ ∃ n, e.timer = some n ∧ TimerWithin d (answerTimeout straps) n := by
  rw [Entry.timedOr, h]

theorem timerWithin_answerTimeout (straps : Straps) (d : Prop) :
    TimerWithin d (answerTimeout straps) (answerTimeout straps) :=
  timerWithin_of_pos (by unfold answerTimeout; split <;> decide) le_rfl

/-- Every timer of an entry is started within its bounds (R64, R69, R73, R76, R77). -/
theorem effect_keeps_timedOr (hc : ClearInReset s) (hs : EachEntry (fun u e => e.timedOr s.straps (due (e.expiry u))) s)
    (h : Effect s t) : EachEntry (fun u e => e.timedOr t.straps (due (e.expiry u))) t := by
  rcases effect_straps hc h with hstraps | hnone
  · rw [hstraps]
    refine effect_keeps_eachEntry hs (fun u q d r _ _ => ?_) (fun u e he hw ha => ?_) (fun u e he hw => ?_)
      (fun u e he hw => ?_) (fun u e he hw => ?_) h
    · exact (timedOr_waitingAnswer rfl).mpr ⟨Nat.zero_le _, _, rfl, timerWithin_answerTimeout _ _⟩
    · refine (timedOr_waitingResend rfl).mpr ⟨ha.le, Nat.le_of_lt_succ ha, ?_⟩
      rintro n ⟨⟩
      exact timerWithin_of_pos (by omega) le_rfl
    · obtain ⟨-, hmore, -⟩ := (timedOr_waitingResend hw).mp he
      exact (timedOr_waitingAnswer rfl).mpr ⟨Nat.succ_le_succ hmore, _, rfl, timerWithin_answerTimeout _ _⟩
    · obtain ⟨hattempts, hmore, -⟩ := (timedOr_waitingResend hw).mp he
      exact (timedOr_waitingResend (e := { e with timer := none }) hw).mpr ⟨hattempts, hmore, by simp⟩
    · obtain ⟨hattempts, -⟩ := (timedOr_waitingAnswer hw).mp he
      exact (timedOr_stale rfl).mpr ⟨hattempts, _, rfl, timerWithin_answerTimeout _ _⟩
  · exact eachEntry_replicate hnone

theorem effect_keeps_timersDue (hs : TimersDue due s) (h : Effect s t) : TimersDue due t :=
  { effect_keeps_clearInReset hs.toClearInReset h with
    probe := effect_keeps_probeTimer hs.probe h
    refresh := effect_keeps_refreshTimer hs.refresh h
    runs := effect_keeps_refreshRuns hs.runs h
    claim := effect_keeps_refreshClaim hs.runs hs.claim h
    entries := effect_keeps_timedOr hs.toClearInReset hs.entries h
    holds := effect_keeps_eachHold (law := fun i h => TimerWithin (due (.holdTimerExpiry i)) 64 h.timer) hs.holds
      (fun _ _ _ _ => timerWithin_of_pos (n := Config.holdLimit) (by decide) le_rfl) (fun _ _ hh => hh) h }

end

/-! ### The expiries of a tick -/

section
variable {due : Instr → Prop} {s t : State}

/-- An expiry is no longer due once its timer does not stand at 0. -/
theorem TimersDue.without (h : TimersDue due s) {c : Instr} (hprobe : c = .probeTimerExpiry → s.probeTimer ≠ some 0)
    (hrefresh : c = .refreshTimerExpiry → s.refreshTimer ≠ some 0)
    (hentry : ∀ u e, s.entry u = some e → c = e.expiry u → e.timer ≠ some 0)
    (hhold : ∀ i k, s.slot i = some k → c = .holdTimerExpiry i → k.timer ≠ 0) :
    TimersDue (fun x => due x ∧ x ≠ c) s :=
  { h with
    probe := fun n hn => (h.probe n hn).mono fun h0 hd => ⟨hd, fun hc => hprobe hc.symm (h0 ▸ hn)⟩
    refresh := fun n hn => (h.refresh n hn).mono fun h0 hd => ⟨hd, fun hc => hrefresh hc.symm (h0 ▸ hn)⟩
    entries := fun u e he => (h.entries u e he).mono fun h0 hd => ⟨hd, fun hc => hentry u e he hc.symm h0⟩
    holds := fun i k hk => (h.holds i k hk).mono fun h0 hd => ⟨hd, fun hc => hhold i k hk hc.symm h0⟩ }

theorem TimersDue.mono {due' : Instr → Prop} (h : TimersDue due s) (hd : ∀ c, due c → due' c) : TimersDue due' s :=
  { h with
    probe := fun n hn => (h.probe n hn).mono fun _ => hd _
    refresh := fun n hn => (h.refresh n hn).mono fun _ => hd _
    entries := fun u e he => (h.entries u e he).mono fun _ => hd _
    holds := fun i k hk => (h.holds i k hk).mono fun _ => hd _ }

theorem expiry_eq_answerTimerExpiry {u v : Tag} {e : Entry} (h : Instr.answerTimerExpiry v = e.expiry u) :
    v = u ∧ e.state = .waitingAnswer := by
  unfold Entry.expiry at h
  split at h <;> cases h
  exact ⟨rfl, ‹_›⟩

theorem expiry_eq_backoffTimerExpiry {u v : Tag} {e : Entry} (h : Instr.backoffTimerExpiry v = e.expiry u) :
    v = u ∧ e.state = .waitingResend := by
  unfold Entry.expiry at h
  split at h <;> cases h
  exact ⟨rfl, ‹_›⟩

theorem expiry_eq_quarantineExpiry {u v : Tag} {e : Entry} (h : Instr.quarantineExpiry v = e.expiry u) :
    v = u ∧ e.state = .stale := by
  unfold Entry.expiry at h
  split at h <;> cases h
  exact ⟨rfl, ‹_›⟩

theorem entry_resend (s : State) (u v : Tag) (e : Entry) :
    (s.resend u e).entry v =
      if v = u then some { e with
        state := .waitingAnswer, attempts := e.attempts + 1, timer := some (answerTimeout s.straps) }
      else s.entry v := entry_setEntry s u v _

/-- Telling the end of an entry may accept the request that then waits on the pins. -/
theorem effects_reportEnd_tellEnd (u : State) (v : Tag) (e : Entry) (c : Completion) :
    Effects (u.reportEnd v e c) (u.tellEnd v e c) := by
  unfold State.tellEnd
  split
  · exact .refl _
  · exact effects_acceptWaiting _ _

/-- An expiry restarts, stops or ends its own timer. -/
theorem exec_keeps_timersDue {c : Instr} (hs : TimersDue due s) (h : exec c s = .next t) :
    TimersDue (fun x => due x ∧ x ≠ c) t := by
  have ht : TimersDue due t := (effects_of_exec h).law (fun _ _ => effect_keeps_timersDue) hs
  cases c with
  | probeTimerExpiry =>
    refine ht.without (fun _ => ?_) (fun hc => nomatch hc) (fun u e _ hc => ?_) (fun _ _ _ hc => nomatch hc)
    · simp only [exec, execProbeTimerExpiry] at h
      split at h
      · cases h
      · cases h
        split <;> simp [Config.probePeriod]
    · unfold Entry.expiry at hc
      split at hc <;> cases hc
  | refreshTimerExpiry =>
    refine ht.without (fun hc => nomatch hc) (fun _ => ?_) (fun u e _ hc => ?_) (fun _ _ _ hc => nomatch hc)
    · simp only [exec, execRefreshTimerExpiry] at h
      split at h <;> cases h
      simp [Config.refreshPeriod]
    · unfold Entry.expiry at hc
      split at hc <;> cases hc
  | holdTimerExpiry i =>
    refine ht.without (fun hc => nomatch hc) (fun hc => nomatch hc) (fun u e _ hc => ?_) (fun j k hk hc => ?_)
    · unfold Entry.expiry at hc
      split at hc <;> cases hc
    · cases hc
      simp only [exec, execHoldTimerExpiry] at h
      split at h
      · cases h
      · split at h <;> cases h
        simp [slot_endHold] at hk
  | answerTimerExpiry v =>
    simp only [exec, execAnswerTimerExpiry] at h
    split at h
    · cases h
    rename_i e he
    split at h
    · rename_i hw
      cases h
      refine (effects_reportEnd_tellEnd _ v e _).law (fun _ _ => effect_keeps_timersDue) ?_
      refine (effect_keeps_timersDue hs (.timedOut v e he hw)).without (fun hc => nomatch hc) (fun hc => nomatch hc)
        (fun u x hx hc => ?_) (fun _ _ _ hc => nomatch hc)
      obtain ⟨rfl, hwaits⟩ := expiry_eq_answerTimerExpiry hc
      rw [entry_of_outstanding (s := s.setEntry v (some _)) (by simp; rfl), entry_setEntry, if_pos rfl] at hx
      cases hx
      cases hwaits
    · cases h
  | backoffTimerExpiry v =>
    refine ht.without (fun hc => nomatch hc) (fun hc => nomatch hc) (fun u e he hc => ?_) (fun _ _ _ hc => nomatch hc)
    obtain ⟨rfl, hw⟩ := expiry_eq_backoffTimerExpiry hc
    simp only [exec, execBackoffTimerExpiry] at h
    split at h
    · cases h
    rename_i x _
    split at h
    · cases h
      split at he
      · rw [entry_resend, if_pos rfl] at he
        cases he
        cases hw
      · rw [entry_setEntry, if_pos rfl] at he
        cases he
        simp
    · cases h
  | quarantineExpiry v =>
    refine ht.without (fun hc => nomatch hc) (fun hc => nomatch hc) (fun u e he hc => ?_) (fun _ _ _ hc => nomatch hc)
    obtain ⟨rfl, hw⟩ := expiry_eq_quarantineExpiry hc
    simp only [exec, execQuarantineExpiry] at h
    split at h
    · cases h
    · split at h <;> cases h
      simp [entry_setEntry] at he
  | _ =>
    refine ht.without (fun hc => nomatch hc) (fun hc => nomatch hc) (fun u e _ hc => ?_) (fun _ _ _ hc => nomatch hc)
    unfold Entry.expiry at hc
    split at hc <;> cases hc

/-- Expiries one after another leave no timer at 0 of those that are due. -/
theorem execAll_keeps_timersDue {l : List Instr} (hs : TimersDue (· ∈ l) s) (h : execAll l s = .next t) :
    TimersDue (fun _ => False) t := by
  induction l generalizing s with
  | nil =>
    cases h
    simpa using hs
  | cons c l ih =>
    simp only [execAll] at h
    cases hc : exec c s with
    | next u =>
      rw [hc] at h
      refine ih ((exec_keeps_timersDue hs hc).mono fun x hx => ?_) h
      obtain ⟨hmem, hne⟩ := hx
      exact (List.mem_cons.mp hmem).resolve_left hne
    | fault r => rw [hc] at h; cases h
    | refused r => rw [hc] at h; cases h

end

/-! ### The count of a tick -/

theorem probeTimerExpiry_mem_dueExpiries {s : State} (h : s.probeTimer = some 0) : .probeTimerExpiry ∈ s.dueExpiries := by
  simp [State.dueExpiries, h]

theorem refreshTimerExpiry_mem_dueExpiries {s : State} (h : s.refreshTimer = some 0) :
    .refreshTimerExpiry ∈ s.dueExpiries := by
  simp [State.dueExpiries, h]

theorem holdTimerExpiry_mem_dueExpiries {s : State} {i : Slot} {h : Hold} (hi : s.slot i = some h)
    (hruns : h.stopped = false) (h0 : h.timer = 0) : .holdTimerExpiry i ∈ s.dueExpiries := by
  simp only [State.dueExpiries, List.mem_append, List.mem_flatMap]
  exact .inl (.inr ⟨i, mem_allSlots i, by simp [hi, slotExpiry, hruns, h0]⟩)

theorem expiry_mem_dueExpiries {s : State} {u : Tag} {e : Entry} (hu : s.entry u = some e) (h0 : e.timer = some 0) :
    e.expiry u ∈ s.dueExpiries := by
  simp only [State.dueExpiries, List.mem_append, List.mem_flatMap]
  refine .inr ⟨u, mem_allTags u, ?_⟩
  cases hst : e.state <;> simp [hu, entryExpiry, Entry.expiry, h0, hst]

/-- One µs off a timer in range leaves it within its start value. -/
theorem timerWithin_countDown {due : Prop} {bound n : Nat} {t : Option Nat} (hn : countDown t = some n)
    (h : ∀ m, t = some m → 1 ≤ m ∧ m ≤ bound) (hdue : countDown t = some 0 → due) : TimerWithin due bound n := by
  obtain ⟨m, hm, rfl⟩ := Option.map_eq_some_iff.mp hn
  obtain ⟨-, hle⟩ := h m hm
  exact ⟨by omega, fun h0 => hdue (h0 ▸ hn)⟩

theorem timedOr_countEntry {straps : Straps} {due : Prop} {e : Entry} (h : e.timed straps)
    (hdue : (countEntry e).timer = some 0 → due) : (countEntry e).timedOr straps due := by
  have hcount (m : Nat) (hm : e.timer = some m) : (countEntry e).timer = some (m - 1) := by
    simp [countEntry, hm, countDown]
  obtain ⟨hattempts, h⟩ := h
  refine ⟨hattempts, ?_⟩
  cases hst : e.state with
  | waitingAnswer =>
    obtain ⟨m, hm, -, hle⟩ : ∃ m, e.timer = some m ∧ 1 ≤ m ∧ m ≤ answerTimeout straps := by
      simpa [hst, answerTimeout] using h
    have hw : TimerWithin due (answerTimeout straps) (m - 1) := ⟨by omega, fun h0 => hdue (h0 ▸ hcount m hm)⟩
    simpa [countEntry, hst] using ⟨m - 1, hcount m hm, hw⟩
  | waitingResend =>
    obtain ⟨hmore, htimer⟩ : e.attempts ≤ 5 ∧ _ := by simpa [hst] using h
    have hw : ∀ n, (countEntry e).timer = some n → TimerWithin due (4 * (e.attempts + 1)) n := fun n hn =>
      timerWithin_countDown hn (fun m hm => by simpa [hm] using htimer) hdue
    simpa [countEntry, hst, hmore] using hw
  | stale =>
    obtain ⟨m, hm, -, hle⟩ : ∃ m, e.timer = some m ∧ 1 ≤ m ∧ m ≤ answerTimeout straps := by
      simpa [hst, answerTimeout] using h
    have hw : TimerWithin due (answerTimeout straps) (m - 1) := ⟨by omega, fun h0 => hdue (h0 ▸ hcount m hm)⟩
    simpa [countEntry, hst] using ⟨m - 1, hcount m hm, hw⟩

/-- A tick counts each running timer down by one, and the expiry of each that reaches 0 is due. -/
theorem timersDue_countTimers {s : State} (hs : TimersInRange s) :
    TimersDue (· ∈ s.countTimers.dueExpiries) s.countTimers :=
  { clearInReset_countTimers hs.toClearInReset with
    probe := fun n hn => timerWithin_countDown hn hs.probe (probeTimerExpiry_mem_dueExpiries (s := s.countTimers))
    refresh := fun n hn => timerWithin_countDown hn hs.refresh (refreshTimerExpiry_mem_dueExpiries (s := s.countTimers))
    runs := by simpa [countDown] using hs.runs
    claim := hs.claim
    entries := fun u x hx => by
      have hentry := hx
      rw [entry_countTimers] at hentry
      obtain ⟨e, he, rfl⟩ := Option.map_eq_some_iff.mp hentry
      exact timedOr_countEntry (hs.entries u e he) (expiry_mem_dueExpiries hx)
    holds := fun i x hx => by
      have hslot := hx
      rw [slot_countTimers] at hslot
      obtain ⟨h, hh, rfl⟩ := Option.map_eq_some_iff.mp hslot
      obtain ⟨hpos, hle⟩ := hs.holds i h hh
      cases hstopped : h.stopped with
      | true => exact timerWithin_of_pos (by simpa [countHold, hstopped]) (by simpa [countHold, hstopped])
      | false =>
        refine ⟨by simp only [countHold, hstopped]; simp; omega, fun h0 => ?_⟩
        exact holdTimerExpiry_mem_dueExpiries hx (by simp [countHold, hstopped]) h0 }

/-- Settles O59: every effect starts its timers within their bounds, and a tick runs the expiry of each timer that it
counts down to 0. -/
theorem stepsKeepTimersInRange : Obligations.StepsKeepTimersInRange := by
  unfold Obligations.StepsKeepTimersInRange
  intro s t hs h
  rw [← timersDue_false_iff]
  unfold Steps step at h
  split at h
  · exact execAll_keeps_timersDue (timersDue_countTimers hs) h
  · refine (effects_of_exec h).law (fun _ _ => effect_keeps_timersDue) ((timersDue_false_iff _).mpr ?_)
    exact { clearInReset_pending _ hs.toClearInReset, hs with }

end Sys2Proof.Machine
end

section
/-! PROOF. The laws of the bulk engine: the job's record stays in range, nothing that waits could start a job that is
not, and a job keeps what it was started with (R30, R46, R146, R150, R158, R160). -/

namespace Sys2Proof.Machine

/-! ### The ports -/

/-- Every port's state fulfils a law. -/
def EachPort (law : Port → PortState → Prop) (s : State) : Prop := ∀ q, law q (s.port q)

section
variable {law : Port → PortState → Prop} {s : State}

theorem eachPort_congr {t : State} (hs : EachPort law s) (h : t.ports = s.ports) : EachPort law t :=
  fun q => port_of_ports h q ▸ hs q

theorem eachPort_setPort (hs : EachPort law s) (q : Port) (st : PortState) (h : law q st) :
    EachPort law (s.setPort q st) := fun p' => by
  rw [port_setPort]
  split
  · rename_i hq; exact hq ▸ h
  · exact hs p'

variable (hidle : ∀ q, law q .idle)
include hidle

theorem eachPort_complete (hs : EachPort law s) (q : Port) (c : Completion) : EachPort law (s.complete q c) :=
  eachPort_congr (eachPort_setPort hs q .idle (hidle q)) rfl

theorem eachPort_reportEnd (hs : EachPort law s) (t : Tag) (e : Entry) (c : Completion) :
    EachPort law (s.reportEnd t e c) := by
  unfold State.reportEnd
  repeat' split
  · exact hs
  · exact eachPort_congr hs rfl
  · exact eachPort_complete hidle hs _ _

theorem eachPort_ringDown (hs : EachPort law s) : EachPort law s.ringDown := fun q => by
  obtain ⟨-, hport⟩ := ringDown_ports s q
  rw [hport]
  split
  · exact hs q
  · exact hidle q

theorem eachPort_deliver (hs : EachPort law s) (src : Source) (st : Status) (b : AnswerBody) (r : Bool) :
    EachPort law (s.deliver src st b r) := by
  cases src with
  | port q => exact eachPort_complete hidle hs q _
  | remote o q t => exact eachPort_congr hs (by simp [State.deliver])
  | replay k o q t => exact eachPort_congr hs (by simp [State.deliver])

/-- A law of the ports is kept if it holds of the states that a port can enter. -/
theorem effect_keeps_eachPort {t : State} (hs : EachPort law s)
    (hbank : ∀ q r, bankRequestLegal q r = true → law q (.atBank r))
    (hsend : ∀ q d r, s.ringState = .online → law q (.toSend d r)) (hflight : ∀ q d r, law q (.inFlight d r))
    (hcontrol : ∀ a, law .p (.control a)) (h : Effect s t) : EachPort law t := by
  have hclear (u : State) (hu : u.ports = ⟨.idle, .idle, .idle, .idle⟩) : EachPort law u := fun q => by
    rw [State.port, hu]
    cases q <;> exact hidle _
  cases h with
  | coldAsserted => exact hclear _ rfl
  | warmAsserted => exact hclear _ rfl
  | broken =>
    refine eachPort_ringDown hidle ?_
    exact eachPort_congr hs rfl
  | conflict =>
    refine eachPort_congr (eachPort_ringDown hidle ?_) (chooseRingOut_ports _)
    exact eachPort_congr hs rfl
  | ended u e c => exact eachPort_reportEnd hidle (eachPort_congr hs (by simp)) u e c
  | timedOut u e => exact eachPort_reportEnd hidle (eachPort_congr hs (by simp)) u e _
  | answered q c => exact eachPort_complete hidle hs q c
  | toBank q r _ _ hlegal => exact eachPort_setPort hs q _ (hbank q r hlegal)
  | toSend q d r _ _ honline => exact eachPort_setPort hs q _ (hsend q d r honline)
  | sent q d r u =>
    have hplaced : EachPort law
        ((s.setEntry u (some (s.newEntry q d r))).placeTransmit (s.entryFrame u (s.newEntry q d r))) :=
      eachPort_congr hs rfl
    unfold State.sendRequest
    simp only
    split
    · exact eachPort_complete hidle hplaced q _
    · exact eachPort_setPort hplaced q _ (hflight q d r)
  | control a => exact eachPort_setPort hs .p _ (hcontrol a)
  | handedOver c tk =>
    have hadvanced : EachPort law (s.advance c) := eachPort_congr hs (by simp)
    unfold State.handOver
    simp only
    split
    · exact eachPort_deliver hidle hadvanced _ _ _ _
    · refine eachPort_deliver hidle ?_ _ _ _ _
      exact eachPort_congr hadvanced rfl
  | wordEnded g =>
    unfold State.endWord
    exact eachPort_deliver hidle (eachPort_congr hs (by simp)) _ _ _ _
  | noticeRead =>
    refine eachPort_complete hidle ?_ .p (okCompletion _)
    exact eachPort_congr hs rfl
  | statusRead =>
    refine eachPort_complete hidle ?_ .p (okCompletion _)
    exact eachPort_congr hs rfl
  | windowWritten n v =>
    refine eachPort_complete hidle ?_ .p (okCompletion _)
    exact eachPort_congr hs rfl
  | controlRefused => exact eachPort_complete hidle hs .p _
  | _ => exact eachPort_congr hs (by simp)

end

theorem effect_keeps_bankRequestLegal {s t : State} (hs : ∀ q r, s.port q = .atBank r → bankRequestLegal q r = true)
    (h : Effect s t) : ∀ q r, t.port q = .atBank r → bankRequestLegal q r = true :=
  fun q r hq => by
    refine effect_keeps_eachPort (law := fun q st => ∀ r, st = .atBank r → bankRequestLegal q r = true) ?_ ?_ ?_ ?_ ?_ ?_ h q r hq
    · rintro q r ⟨⟩
    · exact fun q r => hs q r
    · rintro q r hlegal r' ⟨⟩; exact hlegal
    · rintro q d r _ r' ⟨⟩
    · rintro q d r r' ⟨⟩
    · rintro a r' ⟨⟩

/-! ### The job -/

/-- What the engine can decide about a command: an answer that leaves it as it is, an abort, or a job taken (R150 to
R152). -/
inductive EngineOutcome (b : Option Job) (tk : Taken) (r : Request) : Status × AnswerBody × Option Job → Prop
  | answers (st : Status) (body : AnswerBody) : st ≠ .accepted → EngineOutcome b tk r (st, body, b)
  | aborts (body : AnswerBody) : EngineOutcome b tk r (.aborted, body, none)
  | starts (kind : BulkKind) (pattern : Word) (count : Count) : b = none → r.command = .bulkStart kind pattern count →
      EngineOutcome b tk r (.accepted, .word false 0, some (newJob tk r kind pattern count))

theorem engineDecides_outcome (b : Option Job) (tk : Taken) (r : Request) :
    EngineOutcome b tk r (engineDecides b tk r) := by
  unfold engineDecides
  split
  · rename_i kind pattern count hc; exact .starts kind pattern count rfl hc
  · exact .answers _ _ (by decide)
  · exact .answers _ _ (by decide)
  · exact .answers _ _ (by decide)
  · exact .answers _ _ (by decide)
  · split
    · exact .aborts _
    · exact .answers _ _ (by decide)
  · exact .answers _ _ (by decide)

/-- The engine after a hand-over has no job, the job that it had, or one just taken (R150 to R152). -/
theorem handOver_bulk {s : State} {tk : Taken} {j : Job} (h : (s.handOver tk).bulk = some j) :
    (s.bulk = some j ∧ (s.handOver tk).firstMismatch = s.firstMismatch)
      ∨ ∃ r kind pattern count, s.inRange tk = some r ∧ r.command = .bulkStart kind pattern count
        ∧ j = newJob tk r kind pattern count ∧ (s.handOver tk).firstMismatch = none := by
  unfold State.handOver at h ⊢
  cases hr : s.inRange tk with
  | none => exact .inl ⟨by simpa [hr] using h, by simp⟩
  | some r =>
    have houtcome := engineDecides_outcome s.bulk tk r
    simp only [hr, deliver_keeps] at h ⊢
    generalize engineDecides s.bulk tk r = d at houtcome h ⊢
    cases houtcome with
    | answers st body hst => exact .inl ⟨h, if_neg hst⟩
    | aborts body => cases h
    | starts kind pattern count hidle hc =>
      exact .inr ⟨r, kind, pattern, count, rfl, hc, (Option.some.inj h).symm, rfl⟩

/-- A BULK_START from the ring that is not malformed has its range within its page and comes from a port P (R30). -/
theorem command_bulkStart {f : Frame} {kind : BulkKind} {pattern : Word} {count : Count}
    (h : Frame.command f = some (.bulkStart kind pattern count)) :
    countFits (Frame.offset f) count = true ∧ Frame.port f = .p := by
  have hop : frameOp f = .bulkStart := (command_op h).symm
  unfold Frame.command at h
  split at h
  case h_6 =>
    split at h
    · cases h
    split at h
    · rename_i hlegal
      cases h
      simpa using hlegal
    · cases h
  all_goals simp_all [frameOp]

/-- A bulk command granted the bank that starts a job asks for a range within its page, for a port P (R30, R46). -/
theorem newJob_inRange {s : State} {c : Claim} {tk : Taken} {r : Request} {kind : BulkKind} {pattern : Word}
    {count : Count} (hports : ∀ q r, s.port q = .atBank r → bankRequestLegal q r = true)
    (hdeferred : ∀ d ∈ s.deferred, isWordOp d.request.command.op = true) (hstands : s.Stands c)
    (htaken : c.taken s.own = some tk) (hr : tk.request = some r) (hc : r.command = .bulkStart kind pattern count) :
    (newJob tk r kind pattern count).inRange := by
  suffices hlegal : countFits r.offset count = true ∧ tk.holder.port = .p by
    obtain ⟨hfits, hp⟩ := hlegal
    simp only [countFits, Bool.and_eq_true, decide_eq_true_eq] at hfits
    exact ⟨hfits.1, hfits.2, by simp [newJob], hp⟩
  cases c with
  | refresh => cases htaken
  | bulk => cases htaken
  | replay k d =>
    cases htaken
    cases hr
    obtain ⟨hd, -⟩ := hstands
    have hword := hdeferred d (List.mem_of_getElem? hd)
    simp [hc, Command.op, isWordOp] at hword
  | remote f =>
    cases htaken
    obtain ⟨x, hx, rfl⟩ := Option.map_eq_some_iff.mp hr
    have hx' : x = .bulkStart kind pattern count := hc
    exact command_bulkStart (hx' ▸ hx)
  | port q r' =>
    cases htaken
    cases hr
    obtain ⟨hq, -⟩ := hstands
    have hlegal := hports q r hq
    simp only [bankRequestLegal, hc, Bool.and_eq_true, decide_eq_true_eq] at hlegal
    exact ⟨hlegal.2, hlegal.1⟩

/-- Every job fulfils a law. -/
def EachJob (law : Job → Prop) (s : State) : Prop := ∀ j, s.bulk = some j → law j

theorem eachJob_congr {law : Job → Prop} {s t : State} (hs : EachJob law s) (h : t.bulk = s.bulk) : EachJob law t :=
  fun j hj => hs j (h ▸ hj)

theorem eachJob_endHold {law : Job → Prop} {s : State} (hs : EachJob law s)
    (hslot : ∀ j x, law j → law { j with slot := x }) (i : Slot) : EachJob law (s.endHold i) := fun j hj => by
  obtain ⟨x, hx, rfl⟩ := Option.map_eq_some_iff.mp hj
  split
  · exact hslot x none (hs x hx)
  · exact hs x hx

theorem eachJob_applyHold {law : Job → Prop} {s : State} (hs : EachJob law s)
    (hslot : ∀ j x, law j → law { j with slot := x }) (e : HoldEffect) : EachJob law (s.applyHold e) := by
  cases e with
  | keep => exact hs
  | make pg o x => exact eachJob_congr hs (by simp [State.applyHold])
  | finish i => exact eachJob_endHold hs hslot i

/-- A step leaves a job only if it found no mismatch and words remain (R158, R160). -/
theorem endStep_bulk {s : State} {j x : Job} {g : StepGrant} (h : (s.endStep j g).bulk = some x) :
    x = stepped j g ∧ g.mismatch = false ∧ j.remaining - 1 ≠ 0 ∧ (s.endStep j g).firstMismatch = s.firstMismatch := by
  have hended (o : JobOutcome) (f : Option Offset) : (s.endJob (stepped j g) o f g.reserved).bulk ≠ some x := by
    unfold State.endJob
    split <;> simp
  unfold State.endStep at h ⊢
  split at h
  · exact absurd h (hended _ _)
  split at h
  · exact absurd h (hended _ _)
  rename_i hmatch hmore
  exact ⟨(Option.some.inj h).symm, by simpa using hmatch, hmore, by simp [hmatch, hmore]⟩

/-- A law of the job is kept if a job just taken and a job one word on fulfil it, whatever hold it waits on. -/
theorem effect_keeps_eachJob {law : Job → Prop} {s t : State} (hs : EachJob law s)
    (hslot : ∀ j x, law j → law { j with slot := x })
    (hnew : ∀ c tk r kind pattern count, s.Stands c → c.taken s.own = some tk → tk.request = some r →
      r.command = .bulkStart kind pattern count → law (newJob tk r kind pattern count))
    (hstep : ∀ g j, s.grant = .step g → j.remaining - 1 ≠ 0 → law j → law (stepped j g))
    (h : Effect s t) : EachJob law t := by
  cases h with
  | coldAsserted => exact fun _ hj => nomatch hj
  | warmAsserted => exact fun _ hj => nomatch hj
  | handedOver c tk o hchoice _ _ htaken =>
    obtain ⟨-, -, hstands⟩ := choice_some hchoice
    intro j hj
    rcases handOver_bulk hj with ⟨hold, -⟩ | ⟨r, kind, pattern, count, hr, hc, rfl, -⟩
    · exact hs j (by simpa using hold)
    · exact hnew c tk r kind pattern count hstands htaken (inRange_some hr).1 hc
  | wordEnded g =>
    have hfreed : EachJob law
        (State.writeDue { s with grant := .free } (g.result.accessed.getD 0) g.result.write) := eachJob_congr hs rfl
    exact eachJob_congr (eachJob_applyHold hfreed hslot g.result.hold) (by simp [State.endWord])
  | holdExpired i => exact eachJob_endHold hs hslot i
  | stepWaits j i h _ hj =>
    rintro x ⟨⟩
    exact hslot j (some i) (hs j hj)
  | stepEnded g j hg _ hj =>
    intro x hx
    obtain ⟨rfl, -, hmore, -⟩ := endStep_bulk hx
    exact hstep g j hg hmore (hs j hj)
  | _ => exact eachJob_congr hs (by simp)

theorem stepped_inRange {j : Job} {g : StepGrant} (hj : j.inRange) (hmore : j.remaining - 1 ≠ 0)
    (hskips : g.skipped = true → g.corrected = false ∧ g.uncorrectable = false)
    (hcorrects : g.corrected = true → g.uncorrectable = false) : (stepped j g).inRange := by
  obtain ⟨-, hpage, htallies, howner⟩ := hj
  have hnext : (j.next + 1).toNat = j.next.toNat + 1 := by
    rw [BitVec.toNat_add]; simp; omega
  refine ⟨Nat.one_le_iff_ne_zero.mpr hmore, ?_, ?_, howner⟩
  · simp only [stepped, hnext]; omega
  · simp only [stepped, tally]
    cases hsk : g.skipped <;> cases hco : g.corrected <;> cases hun : g.uncorrectable <;> simp_all <;> omega

/-! ### The deferred queue -/

theorem mem_deferred_deliver {s : State} {src : Source} {st : Status} {b : AnswerBody} {r : Bool} {d : Deferred}
    (h : d ∈ (s.deliver src st b r).deferred) : d ∈ s.deferred := by
  cases src with
  | port q => exact h
  | remote o q t => simpa [State.deliver] using h
  | replay k o q t => exact List.mem_of_mem_eraseIdx (by simpa [State.deliver] using h)

@[simp] theorem readied_request (i : Slot) (d : Deferred) : (readied i d).request = d.request := by
  unfold readied; split <;> rfl

/-- Every deferred request fulfils a law. -/
def EachDeferred (law : Request → Prop) (s : State) : Prop := ∀ d ∈ s.deferred, law d.request

theorem eachDeferred_congr {law : Request → Prop} {s t : State} (hs : EachDeferred law s)
    (h : t.deferred = s.deferred) : EachDeferred law t := fun d hd => hs d (h ▸ hd)

theorem eachDeferred_endHold {law : Request → Prop} {s : State} (hs : EachDeferred law s) (i : Slot) :
    EachDeferred law (s.endHold i) := fun d hd => by
  obtain ⟨x, hx, rfl⟩ := List.mem_map.mp hd
  exact readied_request i x ▸ hs x hx

theorem eachDeferred_applyHold {law : Request → Prop} {s : State} (hs : EachDeferred law s) (e : HoldEffect) :
    EachDeferred law (s.applyHold e) := by
  cases e with
  | keep => exact hs
  | make pg o x => exact eachDeferred_congr hs (by simp [State.applyHold])
  | finish i => exact eachDeferred_endHold hs i

/-- A law of deferred requests is kept if every request for a word fulfils it. -/
theorem effect_keeps_eachDeferred {law : Request → Prop} {s t : State} (hs : EachDeferred law s)
    (hnew : ∀ r, isWordOp r.command.op = true → law r) (h : Effect s t) : EachDeferred law t := by
  cases h with
  | coldAsserted => exact fun _ hd => nomatch hd
  | warmAsserted => exact fun _ hd => nomatch hd
  | wordGranted c tk o _ hop hword htaken =>
    have hadvanced : EachDeferred law (s.advance c) := eachDeferred_congr hs (by simp)
    have hlaw (r : Request) (hr : (s.advance c).inRange tk = some r) : law r :=
      hnew r (taken_op htaken hop (inRange_some hr).1 ▸ hword)
    have hresult := grantWord_result (s.advance c) tk
    generalize (s.advance c).grantWord tk = u at hresult ⊢
    cases hresult with
    | deferred _ _ _ r i _ _ hr =>
      intro d hd
      rcases List.mem_append.mp hd with hold | hlast
      · exact hadvanced d hold
      · exact List.mem_singleton.mp hlast ▸ hlaw r hr
    | again _ _ _ _ r i _ _ hr =>
      intro d hd
      rcases List.mem_or_eq_of_mem_set hd with hold | rfl
      · exact hadvanced d hold
      · exact hlaw r hr
    | holder r i => exact eachDeferred_congr hadvanced (by simp)
    | _ => exact eachDeferred_congr hadvanced rfl
  | handedOver c tk =>
    intro d hd
    have hfirst : d ∈ (s.advance c).deferred := by
      unfold State.handOver at hd
      split at hd
      · exact mem_deferred_deliver hd
      · have hkept := mem_deferred_deliver hd
        exact hkept
    exact hs d (by simpa using hfirst)
  | wordEnded g =>
    have hfreed : EachDeferred law
        (State.writeDue { s with grant := .free } (g.result.accessed.getD 0) g.result.write) :=
      eachDeferred_congr hs rfl
    intro d hd
    exact eachDeferred_applyHold hfreed g.result.hold d (mem_deferred_deliver hd)
  | holdExpired i => exact eachDeferred_endHold hs i
  | _ => exact eachDeferred_congr hs (by simp)

/-! ### The grant of a step -/

/-- A step that holds the bank fulfils a law. -/
def EachStep (law : StepGrant → Prop) (s : State) : Prop := ∀ g, s.grant = .step g → law g

theorem eachStep_congr {law : StepGrant → Prop} {s t : State} (hs : EachStep law s) (h : t.grant = s.grant) :
    EachStep law t := fun g hg => hs g (h ▸ hg)

theorem eachStep_free {law : StepGrant → Prop} {s : State} (h : s.grant = .free) : EachStep law s :=
  fun g hg => by rw [h] at hg; cases hg

/-- A law of the step under way is kept if a step just granted fulfils it, and one that a warm reset orphans. -/
theorem effect_keeps_eachStep {law : StepGrant → Prop} {s t : State} (hs : EachStep law s)
    (hnew : ∀ j, s.bulk = some j → s.holdOn j.page j.next = none → law (jobStep s j (s.stepReserves j)))
    (horphan : ∀ g, law g → law { g with reserved := false, orphan := true }) (h : Effect s t) : EachStep law t := by
  cases h with
  | coldAsserted => exact eachStep_free rfl
  | warmAsserted =>
    intro g hg
    cases hgrant : s.grant with
    | step x =>
      simp only [hgrant, orphaned] at hg
      cases hg
      exact horphan x (hs x hgrant)
    | _ => simp [hgrant, orphaned] at hg
  | refreshes => exact fun _ hg => nomatch hg
  | refreshed => exact eachStep_free rfl
  | wordGranted c tk o hchoice =>
    obtain ⟨hfree, -, -⟩ := choice_some hchoice
    intro g hg
    rcases grantWord_grant (s.advance c) tk with hsame | ⟨res, hres⟩
    · rw [hsame] at hg; simp [hfree] at hg
    · rw [hres] at hg; cases hg
  | wordEnded g => exact eachStep_free (by simp [State.endWord])
  | wordOrphanEnded g => exact eachStep_free rfl
  | stepGranted j hchoice hj hunheld => rintro g ⟨⟩; exact hnew j hj hunheld
  | stepEnded g j => exact eachStep_free (by simp)
  | stepOrphanEnded g => exact eachStep_free rfl
  | _ => exact eachStep_congr hs (by simp)

/-- At most one of the three things a step counts in befalls its word (R157 to R159). -/
def StepGrant.CountsOnce (g : StepGrant) : Prop :=
  (g.skipped = true → g.corrected = false ∧ g.uncorrectable = false) ∧ (g.corrected = true → g.uncorrectable = false)

theorem jobStep_countsOnce (s : State) (j : Job) (r : Bool) : (jobStep s j r).CountsOnce := by
  unfold jobStep fillStep checkStep scrubStep fillPassed stepResult StepGrant.CountsOnce
  simp only
  repeat' split
  all_goals simp

/-! ### The laws of the engine -/

theorem effect_keeps_noMismatch {s t : State} (hs : ∀ j, s.bulk = some j → s.firstMismatch = none) (h : Effect s t) :
    ∀ j, t.bulk = some j → t.firstMismatch = none := by
  cases h with
  | coldAsserted => exact fun _ _ => rfl
  | warmAsserted => exact fun _ _ => rfl
  | handedOver c tk =>
    intro j hj
    rcases handOver_bulk hj with ⟨hold, hkept⟩ | ⟨_, _, _, _, -, -, -, hnone⟩
    · simpa [hkept] using hs j (by simpa using hold)
    · exact hnone
  | wordEnded g =>
    have hfreed : EachJob (fun _ => s.firstMismatch = none)
        (State.writeDue { s with grant := .free } (g.result.accessed.getD 0) g.result.write) := hs
    intro j hj
    have hnone := eachJob_applyHold hfreed (fun _ _ hx => hx) g.result.hold j (by simpa [State.endWord] using hj)
    simpa [State.endWord] using hnone
  | holdExpired i =>
    intro j hj
    exact eachJob_endHold (law := fun _ => s.firstMismatch = none) hs (fun _ _ hx => hx) i j hj
  | stepWaits j i h _ hj => exact fun _ _ => hs j hj
  | stepEnded g j _ _ hj =>
    intro x hx
    obtain ⟨-, -, -, hkept⟩ := endStep_bulk hx
    rw [hkept]; exact hs j hj
  | _ => simpa using hs

theorem effect_keeps_jobLaws {s t : State} (hs : JobLaws s) (h : Effect s t) : JobLaws t where
  record := effect_keeps_eachJob hs.record (fun _ _ hj => hj)
    (fun c tk r _ _ _ hstands htaken hr hc => newJob_inRange hs.ports
      (fun d hd => by rcases hs.deferred d hd with hop | hop | hop | hop <;> simp [hop, isWordOp]) hstands htaken hr hc)
    (fun g j hg hmore hj => stepped_inRange hj hmore (hs.skips g hg) (hs.corrects g hg)) h
  ports := effect_keeps_bankRequestLegal hs.ports h
  deferred := effect_keeps_eachDeferred (law := fun r => r.command.op = .read ∨ r.command.op = .write
      ∨ r.command.op = .holdRead ∨ r.command.op = .commit) hs.deferred
    (fun r hr => by cases hop : r.command.op <;> simp_all [isWordOp]) h
  skips g hg := (effect_keeps_eachStep (law := StepGrant.CountsOnce) (fun g hg => ⟨hs.skips g hg, hs.corrects g hg⟩)
    (fun j _ _ => jobStep_countsOnce s j _) (fun _ hg => hg) h g hg).1
  corrects g hg := (effect_keeps_eachStep (law := StepGrant.CountsOnce)
    (fun g hg => ⟨hs.skips g hg, hs.corrects g hg⟩) (fun j _ _ => jobStep_countsOnce s j _) (fun _ hg => hg) h g hg).2
  mismatch := effect_keeps_noMismatch hs.mismatch h

/-- Settles O58: every effect keeps the job, the steps and what could start a job in range. -/
theorem stepsKeepTheJobInRange : Obligations.StepsKeepTheJobInRange := by
  unfold Obligations.StepsKeepTheJobInRange
  exact kept_effect (fun _ _ hs => ⟨hs.record, hs.ports, hs.deferred, hs.skips, hs.corrects, hs.mismatch⟩)
    (fun _ _ => effect_keeps_jobLaws) (fun _ hs => ⟨hs.record, hs.ports, hs.deferred, hs.skips, hs.corrects, hs.mismatch⟩)

end Sys2Proof.Machine
end

section
/-! PROOF. The laws of the hold table: what waits on a hold waits behind one that stands, and the grant on the bank
agrees with the holds (R121, R123, R132, R138, R155). -/

namespace Sys2Proof.Machine

/-! ### What waits on a hold -/

/-- The word of a hold and its holder: what never changes while it stands. -/
def Hold.place (h : Hold) : Page × Offset × Holder := (h.page, h.offset, h.holder)

/-- The word of a hold, and whether its timer is stopped: what the grant on the bank turns on. -/
def Hold.mark (h : Hold) : Page × Offset × Bool := (h.page, h.offset, h.stopped)

/-- The part of the laws that does not speak of the grant. -/
structure HoldsStand (s : State) : Prop where
  unique : ∀ i j a b, s.slot i = some a → s.slot j = some b → a.page = b.page → a.offset = b.offset → i = j
  waiting : ∀ d i, d ∈ s.deferred → d.state = .waiting i →
    ∃ h, s.slot i = some h ∧ h.page = d.request.page ∧ h.offset = d.request.offset ∧ h.holder ≠ ⟨d.origin, d.port⟩
  engine : ∀ j i, s.bulk = some j → j.slot = some i → ∃ h, s.slot i = some h ∧ h.page = j.page ∧ h.offset = j.next

/-- The part of the laws that speaks of the grant. -/
structure GrantFits (s : State) : Prop where
  stopped : ∀ i h, s.slot i = some h → h.stopped = true →
    ∃ g, s.grant = .word g ∧ g.orphan = false ∧ g.result.hold = .finish i
  toMake : ∀ g page offset holder, s.grant = .word g → g.orphan = false →
    g.result.hold = .make page offset holder → s.holdOn page offset = none ∧ s.emptySlot.isSome = true
  toEnd : ∀ g i, s.grant = .word g → g.orphan = false → g.result.hold = .finish i →
    ∃ h, s.slot i = some h ∧ h.stopped = true
  writes : ∀ g i h, s.grant = .word g → s.slot i = some h → g.result.write ≠ none →
    g.result.accessed = some (wordAddress h.page h.offset) → g.result.hold = .finish i
  steps : ∀ g i h, s.grant = .step g → s.slot i = some h → g.address ≠ wordAddress h.page h.offset
  stepping : ∀ g j, s.grant = .step g → g.orphan = false → s.bulk = some j → j.slot = none

theorem holdLaws_iff (s : State) : HoldLaws s ↔ HoldsStand s ∧ GrantFits s :=
  ⟨fun h => ⟨⟨h.unique, h.waiting, h.engine⟩, { h with }⟩, fun ⟨hs, hg⟩ => { hs, hg with }⟩

section
variable {s t : State}

/-- A slot of a state with the same places holds the same word for the same holder. -/
theorem slot_of_place (h : ∀ i, (t.slot i).map Hold.place = (s.slot i).map Hold.place) {i : Slot} {k : Hold}
    (hk : s.slot i = some k) :
    ∃ k', t.slot i = some k' ∧ k'.page = k.page ∧ k'.offset = k.offset ∧ k'.holder = k.holder := by
  have hi := h i
  rw [hk, Option.map_some, Option.map_eq_some_iff] at hi
  obtain ⟨k', hk', hplace⟩ := hi
  simp only [Hold.place, Prod.mk.injEq] at hplace
  exact ⟨k', hk', hplace⟩

/-- A slot of a state with the same marks holds the same word, its timer stopped alike. -/
theorem slot_of_mark (h : ∀ i, (t.slot i).map Hold.mark = (s.slot i).map Hold.mark) {i : Slot} {k : Hold}
    (hk : s.slot i = some k) :
    ∃ k', t.slot i = some k' ∧ k'.page = k.page ∧ k'.offset = k.offset ∧ k'.stopped = k.stopped := by
  have hi := h i
  rw [hk, Option.map_some, Option.map_eq_some_iff] at hi
  obtain ⟨k', hk', hmark⟩ := hi
  simp only [Hold.mark, Prod.mk.injEq] at hmark
  exact ⟨k', hk', hmark⟩

/-- The laws of what waits speak of the places of the holds alone, and pass to a shorter deferred queue and to an
engine that waits no more than before. -/
theorem HoldsStand.of_place (hs : HoldsStand s) (hplace : ∀ i, (t.slot i).map Hold.place = (s.slot i).map Hold.place)
    (hdeferred : ∀ d ∈ t.deferred, d ∈ s.deferred)
    (hbulk : ∀ j i, t.bulk = some j → j.slot = some i → s.bulk = some j) : HoldsStand t where
  unique i j a b ha hb hp ho := by
    obtain ⟨a', ha', hap, hao, -⟩ := slot_of_place (fun i => (hplace i).symm) ha
    obtain ⟨b', hb', hbp, hbo, -⟩ := slot_of_place (fun i => (hplace i).symm) hb
    exact hs.unique i j a' b' ha' hb' (by rw [hap, hbp, hp]) (by rw [hao, hbo, ho])
  waiting d i hd hw := by
    obtain ⟨h, hi, hp, ho, hh⟩ := hs.waiting d i (hdeferred d hd) hw
    obtain ⟨h', hi', hp', ho', hh'⟩ := slot_of_place hplace hi
    exact ⟨h', hi', hp'.trans hp, ho'.trans ho, hh' ▸ hh⟩
  engine j i hj hi := by
    obtain ⟨h, hi, hp, ho⟩ := hs.engine j i (hbulk j i hj hi) hi
    obtain ⟨h', hi', hp', ho', -⟩ := slot_of_place hplace hi
    exact ⟨h', hi', hp'.trans hp, ho'.trans ho⟩

theorem HoldsStand.congr (hs : HoldsStand s) (hholds : t.holds = s.holds) (hdeferred : t.deferred = s.deferred)
    (hbulk : t.bulk = s.bulk) : HoldsStand t :=
  hs.of_place (fun i => by rw [slot_of_holds hholds]) (fun d hd => hdeferred ▸ hd) (fun j i hj _ => hbulk ▸ hj)

/-- The laws of the grant speak of the words of the holds and of their timers' being stopped alone. -/
theorem GrantFits.of_mark (hs : GrantFits s) (hmark : ∀ i, (t.slot i).map Hold.mark = (s.slot i).map Hold.mark)
    (hgrant : t.grant = s.grant) (hbulk : t.bulk = s.bulk) : GrantFits t where
  stopped i h hi hst := by
    obtain ⟨h', hi', -, -, hst'⟩ := slot_of_mark (fun i => (hmark i).symm) hi
    rw [hgrant]; exact hs.stopped i h' hi' (hst' ▸ hst)
  toMake g page offset holder hg ho hmake := by
    obtain ⟨hunheld, hempty⟩ := hs.toMake g page offset holder (hgrant ▸ hg) ho hmake
    have hnone (i : Slot) : (t.slot i).isNone = (s.slot i).isNone := by simpa using congrArg Option.isNone (hmark i)
    refine ⟨holdOn_none.mpr fun i h hi => ?_, by simpa [State.emptySlot, hnone] using hempty⟩
    obtain ⟨h', hi', hp, ho, -⟩ := slot_of_mark (fun i => (hmark i).symm) hi
    rw [← hp, ← ho]
    exact holdOn_none.mp hunheld i h' hi'
  toEnd g i hg ho hend := by
    obtain ⟨h, hi, hst⟩ := hs.toEnd g i (hgrant ▸ hg) ho hend
    obtain ⟨h', hi', -, -, hst'⟩ := slot_of_mark hmark hi
    exact ⟨h', hi', hst'.trans hst⟩
  writes g i h hg hi hw hat := by
    obtain ⟨h', hi', hp, ho, -⟩ := slot_of_mark (fun i => (hmark i).symm) hi
    exact hs.writes g i h' (hgrant ▸ hg) hi' hw (by rw [hp, ho, hat])
  steps g i h hg hi := by
    obtain ⟨h', hi', hp, ho, -⟩ := slot_of_mark (fun i => (hmark i).symm) hi
    rw [← hp, ← ho]; exact hs.steps g i h' (hgrant ▸ hg) hi'
  stepping g j hg ho hj := hs.stepping g j (hgrant ▸ hg) ho (hbulk ▸ hj)

theorem GrantFits.congr (hs : GrantFits s) (hholds : t.holds = s.holds) (hgrant : t.grant = s.grant)
    (hbulk : t.bulk = s.bulk) : GrantFits t :=
  hs.of_mark (fun i => by rw [slot_of_holds hholds]) hgrant hbulk

theorem HoldLaws.congr (hs : HoldLaws s) (hholds : t.holds = s.holds) (hgrant : t.grant = s.grant)
    (hdeferred : t.deferred = s.deferred) (hbulk : t.bulk = s.bulk) : HoldLaws t := by
  rw [holdLaws_iff] at hs ⊢
  exact ⟨hs.1.congr hholds hdeferred hbulk, hs.2.congr hholds hgrant hbulk⟩

/-- Where no word operation and no step holds the bank, no hold timer is stopped (R132). -/
theorem GrantFits.of_running (hword : ∀ g, s.grant ≠ .word g) (hstep : ∀ g, s.grant ≠ .step g)
    (hrun : ∀ i h, s.slot i = some h → h.stopped = false) : GrantFits s where
  stopped i h hi hst := by rw [hrun i h hi] at hst; cases hst
  toMake g _ _ _ hg := absurd hg (hword g)
  toEnd g _ hg := absurd hg (hword g)
  writes g _ _ hg := absurd hg (hword g)
  steps g _ _ hg := absurd hg (hstep g)
  stepping g _ hg := absurd hg (hstep g)

theorem GrantFits.of_free (hfree : s.grant = .free) (hrun : ∀ i h, s.slot i = some h → h.stopped = false) :
    GrantFits s := .of_running (by simp [hfree]) (by simp [hfree]) hrun

/-- A stopped timer is that of the COMMIT under way (R132). -/
theorem GrantFits.running (hs : GrantFits s) (h : ∀ g, s.grant = .word g → g.orphan = true) :
    ∀ i k, s.slot i = some k → k.stopped = false := fun i k hk => by
  by_contra hst
  obtain ⟨g, hg, ho, -⟩ := hs.stopped i k hk (by simpa using hst)
  simp [h g hg] at ho

theorem holdsStand_cleared (hholds : s.holds = Vector.replicate 6 none) (hdeferred : s.deferred = [])
    (hbulk : s.bulk = none) : HoldsStand s where
  unique i j a b ha := by simp [slot_replicate s hholds] at ha
  waiting d i hd := by simp [hdeferred] at hd
  engine j i hj := by simp [hbulk] at hj

/-! ### What the operations on the hold table keep -/

theorem HoldsStand.endHold (hs : HoldsStand s) (i : Slot) : HoldsStand (s.endHold i) where
  unique j k a b ha hb := by
    rw [slot_endHold] at ha hb
    split at ha
    · cases ha
    split at hb
    · cases hb
    exact hs.unique j k a b ha hb
  waiting d k hd hw := by
    obtain ⟨x, hx, rfl⟩ := List.mem_map.mp hd
    unfold readied at hw ⊢
    split at hw
    · cases hw
    rename_i hother
    obtain ⟨h, hk, hword⟩ := hs.waiting x k hx hw
    have hne : k ≠ i := fun he => hother (he ▸ hw)
    refine ⟨h, ?_, by simpa [hother] using hword⟩
    rw [slot_endHold, if_neg hne, hk]
  engine j k hj hk := by
    obtain ⟨x, hx, rfl⟩ := Option.map_eq_some_iff.mp hj
    split at hk
    · cases hk
    rename_i hother
    obtain ⟨h, hh, hword⟩ := hs.engine x k hx hk
    have hne : k ≠ i := fun he => hother (he ▸ hk)
    refine ⟨h, ?_, by simpa [hother] using hword⟩
    rw [slot_endHold, if_neg hne, hh]

/-- A hold made on a word that is not held, in a slot that was empty (R121). -/
theorem HoldsStand.makeHold (hs : HoldsStand s) {page : Page} {offset : Offset} (holder : Holder)
    (hunheld : s.holdOn page offset = none) : HoldsStand (s.makeHold page offset holder) := by
  unfold State.makeHold
  cases hempty : s.emptySlot with
  | none => exact hs
  | some i =>
    have hfree := emptySlot_some hempty
    have hunheld := holdOn_none.mp hunheld
    have hstays {k : Slot} {h : Hold} (hk : s.slot k = some h) :
        (s.setSlot i (some ⟨page, offset, holder, Config.holdLimit, false⟩)).slot k = some h := by
      rw [slot_setSlot, if_neg, hk]
      rintro rfl
      simp [hfree] at hk
    refine ⟨fun j k a b ha hb hp ho => ?_, fun d k hd hw => ?_, fun j k hj hk => ?_⟩
    · rw [slot_setSlot] at ha hb
      split at ha <;> split at hb
      · simp_all
      · cases ha
        exact absurd ⟨hp.symm, ho.symm⟩ (hunheld k b hb)
      · cases hb
        exact absurd ⟨hp, ho⟩ (hunheld j a ha)
      · exact hs.unique j k a b ha hb hp ho
    · obtain ⟨h, hh, hword⟩ := hs.waiting d k hd hw
      exact ⟨h, hstays hh, hword⟩
    · obtain ⟨h, hh, hword⟩ := hs.engine j k hj hk
      exact ⟨h, hstays hh, hword⟩

theorem place_stopFor (s : State) (i : Slot) (c : Command) (j : Slot) :
    ((s.stopFor i c).slot j).map Hold.place = (s.slot j).map Hold.place := by
  unfold State.stopFor
  split
  · rw [slot_stopHold]
    split
    · rename_i hj
      subst hj
      cases s.slot j <;> rfl
    · rfl
  · rfl

theorem place_countTimers (s : State) (j : Slot) :
    (s.countTimers.slot j).map Hold.place = (s.slot j).map Hold.place := by
  rw [slot_countTimers]
  cases s.slot j with
  | none => rfl
  | some h =>
    simp only [Option.map_some, countHold]
    split <;> rfl

end

/-! ### What a word operation is granted with -/

/-- On a word that is not held an operation ends no hold, makes one only on its own word and with a slot for it, and
writes no other word (R101, R121, R130). -/
theorem serveUnheld_result (s : State) (tk : Taken) (r : Request) :
    ((serveUnheld s tk r).hold = .keep
        ∨ ((serveUnheld s tk r).hold = .make r.page r.offset tk.holder ∧ s.emptySlot.isSome = true))
      ∧ ((serveUnheld s tk r).write ≠ none →
        (serveUnheld s tk r).accessed = some (wordAddress r.page r.offset)) := by
  unfold serveUnheld
  split
  · unfold readWord readResult unwritten
    simp only
    split <;> simp
  · unfold writeWord refusal readMergeWrite mergeWrite unwritten writeResult
    simp only
    repeat' split
    all_goals simp
  · unfold holdReadWord refusal unwritten holdUnlessGuarded readResult unwritten
    split
    · simp
    · rename_i hempty
      have hempty : s.emptySlot.isSome = true := by simpa [Option.isSome_iff_ne_none] using hempty
      simp only
      repeat' split
      all_goals simp [hempty]
  all_goals simp [refusal]

/-- The holder of a word ends its hold by COMMIT, and by COMMIT alone writes its word (R123, R126, R132, R133). -/
theorem serveHolder_result (s : State) (r : Request) (i : Slot) :
    (serveHolder s r i).hold = (if r.command.op = .commit then .finish i else .keep)
      ∧ ((serveHolder s r i).write ≠ none →
        r.command.op = .commit ∧ (serveHolder s r i).accessed = some (wordAddress r.page r.offset)) := by
  unfold serveHolder
  split
  · unfold readWord readResult unwritten
    simp only
    split <;> simp [*, Command.op]
  · unfold refusal; simp [*, Command.op]
  · unfold refusal; simp [*, Command.op]
  · rename_i hc
    have hop : r.command.op = .commit := by rw [hc]; rfl
    rw [if_pos hop]
    unfold commitWord refusal readMergeWrite mergeWrite unwritten writeResult
    simp only
    repeat' split
    all_goals simp [hop]
  all_goals unfold refusal; simp [*, Command.op]

section
variable {s t : State}

/-- The laws of the grant once an operation that makes and ends no hold has taken a free bank, on a word that no slot
holds if it writes. -/
theorem GrantFits.beginWord_unheld (hrun : ∀ i h, s.slot i = some h → h.stopped = false) (src : Source)
    {res : WordResult} {page : Page} {offset : Offset} {holder : Holder} (hunheld : s.holdOn page offset = none)
    (hhold : res.hold = .keep ∨ (res.hold = .make page offset holder ∧ s.emptySlot.isSome = true))
    (hwrite : res.write ≠ none → res.accessed = some (wordAddress page offset)) : GrantFits (s.beginWord src res) where
  stopped i h hi hst := by rw [hrun i h hi] at hst; cases hst
  toMake := by
    rintro g page' offset' holder' ⟨⟩ - hmake
    rcases hhold with hkeep | ⟨hmade, hempty⟩
    · rw [hkeep] at hmake; cases hmake
    · rw [hmade] at hmake; cases hmake
      exact ⟨hunheld, hempty⟩
  toEnd := by
    rintro g i ⟨⟩ - hend
    rcases hhold with hkeep | ⟨hmade, -⟩
    · rw [hkeep] at hend; cases hend
    · rw [hmade] at hend; cases hend
  writes := by
    rintro g i h ⟨⟩ hi hw hat
    have haddress := (hwrite hw).symm.trans hat
    obtain ⟨hp, ho⟩ := wordAddress_injective (Option.some.inj haddress)
    exact absurd ⟨hp.symm, ho.symm⟩ (holdOn_none.mp hunheld i h hi)
  steps g i h hg := nomatch hg
  stepping g j hg := nomatch hg

/-- The laws of the grant once an operation that neither writes nor touches a hold has taken a free bank. -/
theorem GrantFits.beginWord_idle (hrun : ∀ i h, s.slot i = some h → h.stopped = false) (src : Source)
    {res : WordResult} (hhold : res.hold = .keep) (hwrite : res.write = none) : GrantFits (s.beginWord src res) where
  stopped i h hi hst := by rw [hrun i h hi] at hst; cases hst
  toMake := by rintro g page offset holder ⟨⟩ - hmake; rw [hhold] at hmake; cases hmake
  toEnd := by rintro g i ⟨⟩ - hend; rw [hhold] at hend; cases hend
  writes := by rintro g i h ⟨⟩ - hw; exact absurd hwrite hw
  steps g i h hg := nomatch hg
  stepping g j hg := nomatch hg

/-- The laws of the grant once the holder of a word has taken a free bank. -/
theorem GrantFits.beginWord_holder (hstand : HoldsStand s) (hrun : ∀ i h, s.slot i = some h → h.stopped = false)
    (src : Source) {r : Request} {i : Slot} {h : Hold} (hheld : s.holdOn r.page r.offset = some (i, h)) :
    GrantFits (State.beginWord (s.stopFor i r.command) src (serveHolder s r i)) := by
  obtain ⟨hslot, hpage, hoffset⟩ := holdOn_some hheld
  obtain ⟨hhold, hwrite⟩ := serveHolder_result s r i
  by_cases hop : r.command.op = .commit
  · rw [if_pos hop] at hhold
    have hstop : s.stopFor i r.command = s.stopHold i := if_pos hop
    rw [hstop]
    refine ⟨fun k x hk hst => ⟨_, rfl, rfl, ?_⟩, ?_, ?_, ?_, fun g _ _ hg => (nomatch hg), fun g _ hg => (nomatch hg)⟩
    · have hk : (s.stopHold i).slot k = some x := hk
      rw [slot_stopHold] at hk
      split at hk
      · rename_i hki; rw [hhold, hki]
      · rw [hrun k x hk] at hst; cases hst
    · rintro g page offset holder ⟨⟩ - hmake
      rw [hhold] at hmake; cases hmake
    · rintro g k ⟨⟩ - hend
      rw [hhold] at hend; cases hend
      refine ⟨{ h with stopped := true }, ?_, rfl⟩
      exact (slot_stopHold s i i).trans (by simp [hslot])
    · rintro g k x ⟨⟩ hk hw hat
      have haddress := (hwrite hw).2.symm.trans hat
      obtain ⟨hp, ho⟩ := wordAddress_injective (Option.some.inj haddress)
      obtain ⟨x', hx', hxp, hxo, -⟩ := slot_of_place (fun j => (place_stopFor s i r.command j).symm) (hstop ▸ hk)
      have hki : k = i := hstand.unique k i x' h hx' hslot (by rw [hxp, ← hp, hpage]) (by rw [hxo, ← ho, hoffset])
      rw [hki]; exact hhold
  · rw [if_neg hop] at hhold
    have hstays : s.stopFor i r.command = s := if_neg hop
    rw [hstays]
    exact .beginWord_idle hrun src hhold (by_contra fun hw => hop (hwrite hw).1)

end

/-! ### The laws under each effect -/

section
variable {s t : State}

theorem holdLaws_warmAsserted (s : State) :
    HoldLaws { s.clearWorking with warmReset := true, grant := orphaned s.grant } := by
  refine (holdLaws_iff _).mpr ⟨holdsStand_cleared rfl rfl rfl, ?_⟩
  have hnone (i : Slot) (h : Hold) :
      ({ s.clearWorking with warmReset := true, grant := orphaned s.grant } : State).slot i ≠ some h := by
    rw [slot_replicate _ rfl]; exact nofun
  have horphan (g : WordGrant) (hg : orphaned s.grant = .word g) : g.orphan = true := by
    cases hgrant : s.grant <;> simp only [hgrant, orphaned] at hg <;> cases hg
    rfl
  have hother (g : WordGrant) (hg : orphaned s.grant = .word g) (ho : g.orphan = false) : False := by
    rw [horphan g hg] at ho; cases ho
  exact ⟨fun i h hi => absurd hi (hnone i h), fun g _ _ _ hg ho => (hother g hg ho).elim,
    fun g _ hg ho => (hother g hg ho).elim, fun _ i h _ hi => absurd hi (hnone i h),
    fun _ i h _ hi => absurd hi (hnone i h), fun _ _ _ _ hj => nomatch hj⟩

/-- The request of a claim from the ring is that of the holder its source names (R125). -/
theorem taken_holder {own : Station} {c : Claim} {tk : Taken} (h : c.taken own = some tk) :
    (∀ o q t, tk.source = .remote o q t → tk.holder = ⟨o, q⟩)
      ∧ ∀ k o q t, tk.source = .replay k o q t → tk.holder = ⟨o, q⟩ := by
  cases c with
  | refresh => cases h
  | bulk => cases h
  | replay k d => cases h; exact ⟨nofun, by rintro _ _ _ _ ⟨⟩; rfl⟩
  | remote f => cases h; exact ⟨by rintro _ _ _ ⟨⟩; rfl, nofun⟩
  | port q r => cases h; exact ⟨nofun, nofun⟩

/-- A request deferred behind another's hold waits behind a hold that stands (R127, R138). -/
theorem HoldsStand.defer (hs : HoldsStand s) {o : Station} {q : Port} {u : Tag} {r : Request} {i : Slot} {h : Hold}
    {l : List Deferred} (hheld : s.holdOn r.page r.offset = some (i, h)) (hother : h.holder ≠ ⟨o, q⟩)
    (hl : ∀ d ∈ l, d ∈ s.deferred ∨ d = ⟨o, q, u, r, .waiting i⟩) : HoldsStand { s with deferred := l } where
  unique := hs.unique
  engine := hs.engine
  waiting d k hd hw := by
    rcases hl d hd with hold | rfl
    · exact hs.waiting d k hold hw
    · cases hw
      obtain ⟨hslot, hp, ho⟩ := holdOn_some hheld
      exact ⟨h, hslot, hp, ho, hother⟩

theorem grantWord_keeps_holdLaws (hstand : HoldsStand s) (hfree : s.grant = .free)
    (hrun : ∀ i h, s.slot i = some h → h.stopped = false) {c : Claim} {own : Station} {tk : Taken}
    (htaken : c.taken own = some tk) : HoldLaws (s.grantWord tk) := by
  rw [holdLaws_iff]
  obtain ⟨hremote, hreplay⟩ := taken_holder htaken
  have hresult := grantWord_result s tk
  generalize s.grantWord tk = u at hresult ⊢
  cases hresult with
  | refused st => exact ⟨hstand.congr rfl rfl rfl, .beginWord_idle hrun _ rfl rfl⟩
  | unheld r hr hunheld =>
    obtain ⟨hhold, hwrite⟩ := serveUnheld_result s tk r
    exact ⟨hstand.congr rfl rfl rfl, .beginWord_unheld hrun _ hunheld hhold hwrite⟩
  | holder r i h hr hheld =>
    refine ⟨?_, .beginWord_holder hstand hrun _ hheld⟩
    exact hstand.of_place (place_stopFor s i r.command) (by simp) fun j k hj _ => by simpa using hj
  | deferred o q u r i h hsource hr hheld hother =>
    refine ⟨hstand.defer (u := u) hheld (hremote o q u hsource ▸ hother) fun d hd => ?_, .of_free hfree hrun⟩
    exact (List.mem_append.mp hd).imp_right List.mem_singleton.mp
  | again k o q u r i h hsource hr hheld hother =>
    refine ⟨hstand.defer (u := u) hheld (hreplay k o q u hsource ▸ hother) fun d hd => ?_, .of_free hfree hrun⟩
    exact List.mem_or_eq_of_mem_set hd

theorem mem_deferred_handOver {tk : Taken} {d : Deferred} (h : d ∈ (s.handOver tk).deferred) : d ∈ s.deferred := by
  unfold State.handOver at h
  split at h
  · exact mem_deferred_deliver h
  · have hkept := mem_deferred_deliver h
    exact hkept

theorem handOver_keeps_holdLaws (hstand : HoldsStand s) (hfree : s.grant = .free)
    (hrun : ∀ i h, s.slot i = some h → h.stopped = false) (tk : Taken) : HoldLaws (s.handOver tk) := by
  have hslot (i : Slot) : (s.handOver tk).slot i = s.slot i := slot_of_holds (by simp) i
  refine (holdLaws_iff _).mpr ⟨?_, .of_free (by simpa using hfree) fun i h hi => hrun i h (hslot i ▸ hi)⟩
  refine hstand.of_place (fun i => by rw [hslot]) (fun d => mem_deferred_handOver) fun j i hj hi => ?_
  rcases handOver_bulk hj with ⟨hold, -⟩ | ⟨_, _, _, _, -, -, rfl, -⟩
  · exact hold
  · cases hi

/-- The end of a word operation: the hold it was to make is made, the one it was to end is ended, and no timer stays
stopped (R121, R136). -/
theorem wordEnded_keeps_holdLaws (hs : HoldLaws s) {g : WordGrant} (hg : s.grant = .word g) (ho : g.orphan = false) :
    HoldLaws (State.endWord
      (State.writeDue { s with grant := .free } (g.result.accessed.getD 0) g.result.write) g) := by
  obtain ⟨hstand, hfits⟩ := (holdLaws_iff s).mp hs
  let u := State.writeDue { s with grant := .free } (g.result.accessed.getD 0) g.result.write
  have hu : HoldsStand u := hstand.congr rfl rfl rfl
  suffices happlied : HoldsStand (u.applyHold g.result.hold)
      ∧ ∀ i h, (u.applyHold g.result.hold).slot i = some h → h.stopped = false by
    obtain ⟨hstand', hrun⟩ := happlied
    refine (holdLaws_iff _).mpr ⟨?_, .of_free (by simp [State.endWord]) fun i h hi => hrun i h ?_⟩
    · exact hstand'.of_place (fun i => by rw [slot_of_holds]; simp [State.endWord, u])
        (fun d => mem_deferred_deliver) (fun j i hj _ => by simpa [State.endWord, u] using hj)
    · rw [← hi]
      exact (slot_of_holds (by simp [State.endWord, u]) i).symm
  have hstopped (i : Slot) (h : Hold) (hi : s.slot i = some h) (hst : h.stopped = true) :
      g.result.hold = .finish i := by
    obtain ⟨x, hx, -, hend⟩ := hfits.stopped i h hi hst
    rw [hg] at hx
    cases hx
    exact hend
  have hrun (hother : ∀ i, g.result.hold ≠ .finish i) : EachHold (fun _ h => h.stopped = false) u := fun i h hi => by
    by_contra hst
    exact hother i (hstopped i h hi (by simpa using hst))
  cases hhold : g.result.hold with
  | keep => exact ⟨hu, hrun (by simp [hhold])⟩
  | make page offset holder =>
    obtain ⟨hunheld, -⟩ := hfits.toMake g page offset holder hg ho hhold
    exact ⟨hu.makeHold holder hunheld, eachHold_makeHold (hrun (by simp [hhold])) page offset holder fun _ => rfl⟩
  | finish i =>
    refine ⟨hu.endHold i, fun j h hj => ?_⟩
    by_contra hst
    have hj : (u.endHold i).slot j = some h := hj
    rw [slot_endHold] at hj
    split at hj
    · cases hj
    · rename_i hne
      have hend := hstopped j h hj (by simpa using hst)
      rw [hhold] at hend
      cases hend
      exact hne rfl

/-- The expiry of a hold: what waited on it waits no more, and nothing else turns on it (R122, R136). -/
theorem holdExpired_keeps_holdLaws (hs : HoldLaws s) {i : Slot} {h : Hold} (hi : s.slot i = some h)
    (hruns : h.stopped = false) : HoldLaws (s.endHold i) := by
  obtain ⟨hstand, hfits⟩ := (holdLaws_iff s).mp hs
  refine (holdLaws_iff _).mpr ⟨hstand.endHold i, ?_⟩
  have hold {j : Slot} {k : Hold} (hj : (s.endHold i).slot j = some k) : s.slot j = some k := by
    rw [slot_endHold] at hj
    split at hj
    · cases hj
    · exact hj
  refine ⟨fun j k hj => hfits.stopped j k (hold hj), fun g page offset holder hg ho hmake => ?_,
    fun g j hg ho hend => ?_, fun g j k hg hj => hfits.writes g j k hg (hold hj),
    fun g j k hg hj => hfits.steps g j k hg (hold hj), fun g j hg ho hj => ?_⟩
  · obtain ⟨hunheld, -⟩ := hfits.toMake g page offset holder hg ho hmake
    rw [holdOn_none] at hunheld ⊢
    refine ⟨fun j k hj => hunheld j k (hold hj), List.find?_isSome.mpr ⟨i, mem_allSlots i, ?_⟩⟩
    simp [slot_endHold]
  · obtain ⟨k, hk, hst⟩ := hfits.toEnd g j hg ho hend
    refine ⟨k, ?_, hst⟩
    rw [slot_endHold, if_neg, hk]
    rintro rfl
    rw [hi] at hk
    cases hk
    rw [hruns] at hst
    cases hst
  · obtain ⟨x, hx, rfl⟩ := Option.map_eq_some_iff.mp hj
    have hrunning := hfits.stepping g x hg ho hx
    split
    · rfl
    · exact hrunning

/-- A step is on the next word of its job (R154). -/
theorem jobStep_address (s : State) (j : Job) (r : Bool) : (jobStep s j r).address = wordAddress j.page j.next := by
  unfold jobStep fillStep checkStep scrubStep fillPassed stepResult
  simp only
  repeat' split
  all_goals rfl

theorem effect_keeps_holdLaws (hs : HoldLaws s) (h : Effect s t) : HoldLaws t := by
  obtain ⟨hstand, hfits⟩ := (holdLaws_iff s).mp hs
  have hrunFree (hfree : s.grant = .free) : ∀ i h, s.slot i = some h → h.stopped = false :=
    hfits.running (by simp [hfree])
  cases h with
  | coldAsserted =>
    refine (holdLaws_iff _).mpr ⟨holdsStand_cleared rfl rfl rfl, .of_free rfl fun i h hi => ?_⟩
    rw [slot_replicate _ rfl] at hi; cases hi
  | warmAsserted => exact holdLaws_warmAsserted s
  | refreshes hchoice =>
    obtain ⟨hfree, -, -⟩ := choice_some hchoice
    exact (holdLaws_iff _).mpr ⟨hstand.congr rfl rfl rfl, .of_running (fun _ hg => nomatch hg) (fun _ hg => nomatch hg) (hrunFree hfree)⟩
  | refreshed hg =>
    exact (holdLaws_iff _).mpr ⟨hstand.congr rfl rfl rfl, .of_free rfl (hfits.running (by simp [hg]))⟩
  | wordGranted c tk o hchoice _ _ htaken =>
    obtain ⟨hfree, -, -⟩ := choice_some hchoice
    refine grantWord_keeps_holdLaws (hstand.congr (by simp) (by simp) (by simp)) (by simpa using hfree)
      (fun i h hi => hrunFree hfree i h ?_) htaken
    rw [← hi]; exact (slot_of_holds (by simp) i).symm
  | handedOver c tk o hchoice =>
    obtain ⟨hfree, -, -⟩ := choice_some hchoice
    refine handOver_keeps_holdLaws (hstand.congr (by simp) (by simp) (by simp)) (by simpa using hfree)
      (fun i h hi => hrunFree hfree i h ?_) tk
    rw [← hi]; exact (slot_of_holds (by simp) i).symm
  | wordEnded g hg ho => exact wordEnded_keeps_holdLaws hs hg ho
  | wordOrphanEnded g hg ho =>
    refine (holdLaws_iff _).mpr ⟨hstand.congr rfl rfl rfl, .of_free rfl (hfits.running fun x hx => ?_)⟩
    rw [hg] at hx; cases hx; exact ho
  | holdExpired i h hi hruns => exact holdExpired_keeps_holdLaws hs hi hruns
  | stepWaits j i h hchoice hj hheld =>
    obtain ⟨hfree, -, -⟩ := choice_some hchoice
    obtain ⟨hslot, hp, ho⟩ := holdOn_some hheld
    refine (holdLaws_iff _).mpr ⟨⟨hstand.unique, hstand.waiting, ?_⟩, .of_free hfree (hrunFree hfree)⟩
    rintro x k ⟨⟩ ⟨⟩
    exact ⟨h, hslot, hp, ho⟩
  | stepGranted j hchoice hj hunheld =>
    obtain ⟨hfree, -, hstands⟩ := choice_some hchoice
    obtain ⟨x, hx, hrunning, -⟩ := hstands
    have hrun := hrunFree hfree
    refine (holdLaws_iff _).mpr ⟨hstand.congr rfl rfl rfl, ⟨fun i h hi hst => ?_, fun _ _ _ _ hg => (nomatch hg),
      fun _ _ hg => (nomatch hg), fun _ _ _ hg => (nomatch hg), ?_, ?_⟩⟩
    · rw [hrun i h hi] at hst; cases hst
    · rintro g i h ⟨⟩ hi haddress
      rw [jobStep_address] at haddress
      obtain ⟨hp, ho⟩ := wordAddress_injective haddress
      exact holdOn_none.mp hunheld i h hi ⟨hp.symm, ho.symm⟩
    · rintro g y ⟨⟩ - hy
      have hxy : x = y := Option.some.inj (hx.symm.trans hy)
      exact hxy ▸ hrunning
  | stepEnded g j hg ho hj =>
    refine (holdLaws_iff _).mpr ⟨?_, .of_free (by simp) fun i h hi => hfits.running (by simp [hg]) i h ?_⟩
    · refine hstand.of_place (fun i => by rw [slot_of_holds]; simp) (by simp) fun x i hx hi => ?_
      obtain ⟨rfl, -⟩ := endStep_bulk hx
      have hrunning := hfits.stepping g j hg ho hj
      simp [stepped, hrunning] at hi
    · rw [← hi]; exact (slot_of_holds (by simp) i).symm
  | stepOrphanEnded g hg =>
    exact (holdLaws_iff _).mpr ⟨hstand.congr rfl rfl rfl, .of_free rfl (hfits.running (by simp [hg]))⟩
  | _ => exact hs.congr (by simp) (by simp) (by simp) (by simp)

end

theorem mark_countTimers (s : State) (j : Slot) :
    (s.countTimers.slot j).map Hold.mark = (s.slot j).map Hold.mark := by
  rw [slot_countTimers]
  cases s.slot j with
  | none => rfl
  | some h =>
    simp only [Option.map_some, countHold]
    split <;> rfl

theorem holdLaws_countTimers {s : State} (hs : HoldLaws s) : HoldLaws s.countTimers := by
  obtain ⟨hstand, hfits⟩ := (holdLaws_iff s).mp hs
  refine (holdLaws_iff _).mpr ⟨hstand.of_place (place_countTimers s) (by simp) fun j i hj _ => by simpa using hj,
    hfits.of_mark (mark_countTimers s) (by simp) (by simp)⟩

/-- Settles O57: what waits on a hold and what the grant does to it agree before and after every effect; a tick changes
no hold but its timer. -/
theorem stepsKeepTheHoldLaws : Obligations.StepsKeepTheHoldLaws := by
  unfold Obligations.StepsKeepTheHoldLaws
  exact kept_effect (fun _ _ hs => hs.congr rfl rfl rfl rfl) (fun _ _ => effect_keeps_holdLaws)
    (fun _ => holdLaws_countTimers)

end Sys2Proof.Machine
end

section
/-! PROOF. The laws of the ring interface: the ring state agrees with resets, carrier and the probe logic, nothing waits
for the ring outside ONLINE, and ring-out sends what is there (R1 to R7, R20 to R23, R55, R79, R80). -/

namespace Sys2Proof.Machine

/-! ### The recent-probe set -/

/-- The serials of a list are those just before `x`, oldest first. -/
def SerialsBefore (l : List Serial) (x : Serial) : Prop :=
  ∀ k, k < l.length → l[k]? = some (x - BitVec.ofNat 8 (l.length - k))

theorem serialsBefore_nil (x : Serial) : SerialsBefore [] x := fun _ hk => nomatch hk

theorem SerialsBefore.append {l : List Serial} {x : Serial} (h : SerialsBefore l x) :
    SerialsBefore (l ++ [x]) (x + 1) := fun k hk => by
  have hnext (n : Nat) : x + 1 - BitVec.ofNat 8 (n + 1) = x - BitVec.ofNat 8 n := by
    rw [BitVec.ofNat_add]; exact add_sub_add_right_eq_sub x _ 1
  simp only [List.length_append, List.length_singleton] at hk ⊢
  rcases Nat.lt_succ_iff_lt_or_eq.mp hk with hlt | rfl
  · rw [List.getElem?_append_left hlt, h k hlt, show l.length + 1 - k = l.length - k + 1 by omega, hnext]
  · rw [List.getElem?_append_right le_rfl, Nat.sub_self, Nat.add_sub_cancel_left, hnext 0]
    simp

theorem SerialsBefore.drop {l : List Serial} {x : Serial} (h : SerialsBefore l x) : SerialsBefore (l.drop 1) x :=
  fun k hk => by
    rw [List.length_drop] at hk ⊢
    rw [List.getElem?_drop, h (1 + k) (by omega), show l.length - (1 + k) = l.length - 1 - k by omega]

theorem SerialsBefore.addRecent {l : List Serial} {x : Serial} (h : SerialsBefore l x) :
    SerialsBefore (addRecent l x) (x + 1) := by
  unfold Machine.addRecent
  split
  · exact h.append
  · exact h.append.drop

theorem recentAreLast_iff (s : State) : RecentAreLast s ↔ SerialsBefore s.recentProbes s.probeSerial := Iff.rfl

theorem effect_keeps_recentAreLast {s t : State} (hs : RecentAreLast s) (h : Effect s t) : RecentAreLast t := by
  rw [recentAreLast_iff] at hs ⊢
  have hleft (u : State) (hu : SerialsBefore u.recentProbes u.probeSerial) :
      SerialsBefore u.leftReset.recentProbes u.leftReset.probeSerial := by
    unfold State.leftReset
    repeat' split
    · exact hu
    · exact serialsBefore_nil _
    · exact hu
  cases h with
  | coldAsserted => exact serialsBefore_nil _
  | warmAsserted => exact serialsBefore_nil _
  | coldReleased pins => exact hleft _ hs
  | warmReleased pins => exact hleft _ hs
  | probing => exact serialsBefore_nil _
  | probes => exact hs.addRecent
  | _ => simpa using hs

/-! ### The ring state -/

theorem RingConsistent.congr {s t : State} (hs : RingConsistent s) (hout : t.ringOutCarrier = s.ringOutCarrier)
    (hreset : t.inReset = s.inReset) (hstate : t.ringState = s.ringState) (hin : t.ringInCarrier = s.ringInCarrier)
    (htimer : t.probeTimer = s.probeTimer) (hclaim : t.probeClaim = true → s.probeClaim = true) : RingConsistent t where
  outCarrier := by rw [hout, hreset, hs.outCarrier]
  reset := by rw [hreset, hstate]; exact hs.reset
  offline := by rw [hreset, hstate, hin]; exact hs.offline
  broken := by rw [hstate, hin]; exact hs.broken
  joined := by rw [hstate, hin]; exact hs.joined
  timer := by rw [hstate, htimer]; exact hs.timer
  claim h := by rw [hstate]; exact hs.claim (hclaim h)

theorem ringConsistent_of_offline {s : State} (hoffline : s.ringState = .offline) (hout : s.ringOutCarrier = !s.inReset)
    (hin : s.inReset = false → s.ringInCarrier = false) (htimer : s.probeTimer = none) (hclaim : s.probeClaim = false) :
    RingConsistent s :=
  ⟨hout, fun _ => hoffline, fun _ => hin, by simp [hoffline], by simp [hoffline], by simp [hoffline, htimer],
    by simp [hclaim]⟩

theorem ringConsistent_of_probing {s : State} (hprobing : s.ringState = .probing) (hout : s.ringOutCarrier = true)
    (hreset : s.inReset = false) (hin : s.ringInCarrier = true) (htimer : s.probeTimer.isSome = true) :
    RingConsistent s :=
  ⟨by rw [hout, hreset]; rfl, by simp [hreset], by simp [hprobing], by simp [hprobing], fun _ => hin,
    by simp [hprobing, htimer], fun _ => hprobing⟩

/-- In ONLINE, BROKEN and CONFLICT the probe logic is at rest. -/
theorem ringConsistent_of_settled {s : State} (hoffline : s.ringState ≠ .offline) (hprobing : s.ringState ≠ .probing)
    (hout : s.ringOutCarrier = true) (hreset : s.inReset = false)
    (hbroken : s.ringState = .broken → s.ringInCarrier = false)
    (honline : s.ringState = .online → s.ringInCarrier = true) (htimer : s.probeTimer = none)
    (hclaim : s.probeClaim = false) : RingConsistent s :=
  ⟨by rw [hout, hreset]; rfl, by simp [hreset], fun h => absurd h hoffline, hbroken,
    fun h => honline (h.resolve_left hprobing), by simp [hprobing, htimer], by simp [hclaim]⟩

/-- Out of reset the station drives ring-out carrier and starts probing on ring-in carrier (R4, R5). -/
theorem ringConsistent_leftReset {u : State} (hoffline : u.ringState = .offline) (hout : u.ringOutCarrier = false)
    (htimer : u.probeTimer = none) (hclaim : u.probeClaim = false) : RingConsistent u.leftReset := by
  unfold State.leftReset
  split
  · rename_i hreset
    exact ringConsistent_of_offline hoffline (by simp [hout, hreset]) (by simp [hreset]) htimer hclaim
  rename_i hreset
  have hreset : u.inReset = false := by simpa using hreset
  split
  · rename_i hin
    exact ringConsistent_of_probing rfl rfl hreset hin rfl
  · rename_i hin
    refine ringConsistent_of_offline hoffline ?_ (fun _ => by simpa using hin) htimer hclaim
    have hout : ({ u with ringOutCarrier := true } : State).inReset = false := hreset
    rw [hout]; rfl

/-- A station that receives is out of reset, with carrier on ring-in (R2). -/
theorem of_receives {s : State} (h : s.receives = true) : s.ringInCarrier = true ∧ s.inReset = false := by
  simp only [State.receives, Bool.and_eq_true, Bool.not_eq_true'] at h
  exact ⟨h.1.1.1, h.1.1.2⟩

section
variable {s t : State} (hs : RingConsistent s)
include hs

theorem RingConsistent.outCarrier_of_out (h : s.inReset = false) : s.ringOutCarrier = true := by
  rw [hs.outCarrier, h]; rfl

theorem RingConsistent.out_of_state (h : s.ringState ≠ .offline) : s.inReset = false := by
  by_contra hreset
  exact h (hs.reset (by simpa using hreset))

/-- In reset the ring interface is at rest (R3). -/
theorem RingConsistent.rests (h : s.inReset = true) :
    s.ringState = .offline ∧ s.ringOutCarrier = false ∧ s.probeTimer = none ∧ s.probeClaim = false := by
  have hoffline := hs.reset h
  have htimer : ¬ s.probeTimer.isSome = true := fun ht => by rw [hs.timer, hoffline] at ht; cases ht
  have hclaim : ¬ s.probeClaim = true := fun hc => by have hp := hs.claim hc; rw [hoffline] at hp; cases hp
  exact ⟨hoffline, by rw [hs.outCarrier, h]; rfl, by simpa using htimer, by simpa using hclaim⟩

theorem effect_keeps_ringConsistent (h : Effect s t) : RingConsistent t := by
  have hout := fun h => hs.outCarrier_of_out (hs.out_of_state h)
  cases h with
  | coldAsserted => exact ringConsistent_of_offline rfl (by simp [State.inReset]) (by simp [State.inReset]) rfl rfl
  | warmAsserted => exact ringConsistent_of_offline rfl (by simp [State.inReset]) (by simp [State.inReset]) rfl rfl
  | coldReleased pins hc =>
    obtain ⟨hoffline, houtCarrier, htimer, hclaim⟩ := hs.rests (inReset_of_coldReset hc)
    exact ringConsistent_leftReset hoffline houtCarrier htimer hclaim
  | warmReleased pins hw =>
    obtain ⟨hoffline, houtCarrier, htimer, hclaim⟩ := hs.rests (by simp [State.inReset, hw])
    exact ringConsistent_leftReset hoffline houtCarrier htimer hclaim
  | carrierLost _ hprobing honline =>
    exact { hs with
      offline := fun _ _ => rfl
      broken := fun _ => rfl
      joined := fun hj => (hj.elim hprobing honline).elim }
  | broken _ hstate =>
    have hnot : s.ringState ≠ .offline := by rcases hstate with h | h <;> simp [h]
    have hreset := hs.out_of_state hnot
    refine ringConsistent_of_settled (by simp [State.enterBroken]) (by simp [State.enterBroken])
      (by simpa [State.enterBroken] using hout hnot) ?_ (by simp [State.enterBroken]) (by simp [State.enterBroken])
      (by simp [State.enterBroken]) (by simp [State.enterBroken])
    exact (inReset_of (s := s) (by simp [State.enterBroken]) (by simp [State.enterBroken])).trans hreset
  | carrierBack _ hquiet =>
    exact { hs with
      offline := fun ho hreset => by
        rcases hquiet with hr | ⟨hn, -⟩
        · exact absurd (hr.symm.trans hreset) (by decide)
        · exact absurd ho hn
      broken := fun hb => by
        rcases hquiet with hr | ⟨-, hn⟩
        · have hoffline := hs.reset hr
          have hb : s.ringState = .broken := hb
          rw [hoffline] at hb; cases hb
        · exact absurd hb hn
      joined := fun _ => rfl }
  | probing _ hreset =>
    exact ringConsistent_of_probing rfl (hs.outCarrier_of_out hreset) hreset rfl rfl
  | online hreceives =>
    obtain ⟨hin, hreset⟩ := of_receives hreceives
    exact ringConsistent_of_settled nofun nofun (hs.outCarrier_of_out hreset) hreset nofun (fun _ => hin) rfl rfl
  | conflict hreceives =>
    obtain ⟨hin, hreset⟩ := of_receives hreceives
    refine ringConsistent_of_settled (by simp [State.enterConflict]) (by simp [State.enterConflict])
      (by simpa [State.enterConflict] using hs.outCarrier_of_out hreset) ?_ (by simp [State.enterConflict])
      (by simp [State.enterConflict]) (by simp [State.enterConflict]) (by simp [State.enterConflict])
    exact (inReset_of (s := s) (by simp [State.enterConflict]) (by simp [State.enterConflict])).trans hreset
  | probeExpires n hn =>
    have hprobing := hs.timer.mp (by simp [hn])
    exact { hs with
      timer := iff_of_true rfl hprobing
      claim := fun _ => hprobing }
  | probes => exact hs.congr (by simp) (inReset_of (by simp) (by simp)) (by simp) (by simp) (by simp) fun hc => nomatch hc
  | _ => exact hs.congr (by simp) (inReset_of (by simp) (by simp)) (by simp) (by simp) (by simp) fun hc => by simpa using hc

end

/-! ### What waits for the ring -/

section
variable {s t : State}

theorem ringDown_not_toSend (s : State) (q : Port) (d : Station) (r : Request) : s.ringDown.port q ≠ .toSend d r := by
  obtain ⟨-, hport⟩ := ringDown_ports s q
  rw [hport]
  split
  · rename_i hnone
    intro hq
    unfold State.lostRequests at hnone
    split at hnone
    · simp [hq] at hnone
    · contradiction
  · exact nofun

theorem ringDown_stale {s : State} {u : Tag} {e : Entry} (h : s.ringDown.entry u = some e) : e.state = .stale := by
  rw [ringDown_entry, Option.filter_eq_some_iff] at h
  simpa using h.2

/-- Leaving ONLINE ends all that waits for the ring (R55, R79). -/
theorem effect_leaves_online (hs : RingConsistent s) (honline : s.ringState = .online) (h : Effect s t) :
    t.ringState = .online
      ∨ (∀ q d r, t.port q ≠ .toSend d r) ∧ ∀ u e, t.entry u = some e → e.state = .stale := by
  have hout : s.inReset = false := hs.out_of_state (by simp [honline])
  cases h with
  | coldAsserted =>
    refine .inr ⟨fun q d r => by cases q <;> exact nofun, fun u e he => ?_⟩
    rw [entry_replicate _ rfl] at he; cases he
  | warmAsserted =>
    refine .inr ⟨fun q d r => by cases q <;> exact nofun, fun u e he => ?_⟩
    rw [entry_replicate _ rfl] at he; cases he
  | coldReleased pins hc => rw [inReset_of_coldReset hc] at hout; cases hout
  | warmReleased pins hw => simp [State.inReset, hw] at hout
  | broken => exact .inr ⟨fun q d r => ringDown_not_toSend _ q d r, fun u e he => ringDown_stale he⟩
  | conflict =>
    unfold State.enterConflict
    refine .inr ⟨fun q d r => ?_, fun u e he => ?_⟩
    · rw [port_of_ports (chooseRingOut_ports _)]; exact ringDown_not_toSend _ q d r
    · rw [entry_of_outstanding (chooseRingOut_outstanding _)] at he; exact ringDown_stale he
  | probing _ _ hstate => rw [honline] at hstate; simp at hstate
  | online => exact .inl rfl
  | _ => exact .inl (by simpa using honline)

theorem effect_keeps_waitsOnlyOnline (hs : WaitsOnlyOnline s) (h : Effect s t) : WaitsOnlyOnline t := by
  have hports : EachPort (fun _ st => ∀ d r, st = .toSend d r → s.ringState = .online) t :=
    effect_keeps_eachPort (fun _ _ _ hst => nomatch hst) (fun q d r => hs.ports q d r) (fun _ _ _ _ _ hst => nomatch hst)
      (fun _ _ _ honline _ _ _ => honline) (fun _ _ _ _ _ hst => nomatch hst) (fun _ _ _ hst => nomatch hst) h
  have hentries : EachEntry (fun _ e => e.state ≠ .stale → s.ringState = .online) t :=
    effect_keeps_eachEntry hs.entries (fun _ _ _ _ honline _ _ => honline)
      (fun _ _ he hw _ _ => he (by simp [hw])) (fun _ _ he hw _ => he (by simp [hw]))
      (fun _ _ he hw _ => he (by simp [hw])) (fun _ _ _ _ hst => absurd rfl hst) h
  refine { effect_keeps_ringConsistent hs.toRingConsistent h with ports := fun q d r hq => ?_, entries := fun u e he hw => ?_ }
  · rcases effect_leaves_online hs.toRingConsistent (hports q d r hq) h with honline | ⟨hnone, -⟩
    · exact honline
    · exact absurd hq (hnone q d r)
  · rcases effect_leaves_online hs.toRingConsistent (hentries u e he hw) h with honline | ⟨-, hstale⟩
    · exact honline
    · exact absurd (hstale u e he) hw

end

/-! ### The transmit queue and ring-out -/

/-- The part of the laws that speaks of what ring-out sends. -/
structure SendingFits (s : State) : Prop where
  queue : s.transmit ≠ [] → s.ringState = .probing ∨ s.ringState = .online
  probes : s.ringState = .probing → ∀ f ∈ s.transmit, Frame.kind f = some .loop
  pass : s.ringOut = .passThrough → s.passThrough ≠ []
  own : s.ringOut = .transmit → s.transmit ≠ []
  idle : s.ringOut = .idle → ringOutChoice s.ringState s.passThrough s.transmit = .idle

section
variable {s t : State}

theorem SendingFits.congr (hs : SendingFits s) (hstate : t.ringState = s.ringState) (hown : t.transmit = s.transmit)
    (hpass : t.passThrough = s.passThrough) (hout : t.ringOut = s.ringOut) : SendingFits t where
  queue := by rw [hown, hstate]; exact hs.queue
  probes := by rw [hown, hstate]; exact hs.probes
  pass := by rw [hout, hpass]; exact hs.pass
  own := by rw [hout, hown]; exact hs.own
  idle := by rw [hout, hstate, hpass, hown]; exact hs.idle

theorem ringOutChoice_eq_passThrough {st : RingState} {pass own : List Frame}
    (h : ringOutChoice st pass own = .passThrough) : pass ≠ [] := by
  rintro rfl
  cases own with
  | nil => cases h
  | cons f l => simp only [ringOutChoice] at h; split at h <;> cases h

theorem ringOutChoice_eq_transmit {st : RingState} {pass own : List Frame}
    (h : ringOutChoice st pass own = .transmit) : own ≠ [] := by
  rintro rfl
  cases pass <;> cases h

/-- After the arbiter's choice ring-out sends what is there (R20, R21). -/
theorem SendingFits.choose (hqueue : s.transmit ≠ [] → s.ringState = .probing ∨ s.ringState = .online)
    (hprobes : s.ringState = .probing → ∀ f ∈ s.transmit, Frame.kind f = some .loop)
    (hpass : s.ringOut = .passThrough → s.passThrough ≠ []) (hown : s.ringOut = .transmit → s.transmit ≠ []) :
    SendingFits s.chooseRingOut := by
  cases hout : s.ringOut with
  | idle =>
    have hchoice : s.chooseRingOut.ringOut = ringOutChoice s.ringState s.passThrough s.transmit := by simp [hout]
    exact ⟨hqueue, hprobes, fun h => ringOutChoice_eq_passThrough (hchoice ▸ h),
      fun h => ringOutChoice_eq_transmit (hchoice ▸ h), fun h => hchoice ▸ h⟩
  | passThrough =>
    have hkept : s.chooseRingOut.ringOut = .passThrough := by simp [hout]
    exact ⟨hqueue, hprobes, fun _ => hpass hout, fun h => (nomatch hkept.symm.trans h), fun h => (nomatch hkept.symm.trans h)⟩
  | transmit =>
    have hkept : s.chooseRingOut.ringOut = .transmit := by simp [hout]
    exact ⟨hqueue, hprobes, fun h => (nomatch hkept.symm.trans h), fun _ => hown hout, fun h => (nomatch hkept.symm.trans h)⟩

/-- While nothing can be inserted, an idle ring-out has nothing in the pass-through buffer (R21). -/
theorem ringOutChoice_eq_idle {st : RingState} {pass own : List Frame} (h : ringOutChoice st pass own = .idle) :
    pass = [] ∧ ∀ f ∈ own.head?, mayInsert st f = false := by
  cases pass with
  | cons f l => cases h
  | nil =>
    refine ⟨rfl, ?_⟩
    cases own with
    | nil => exact nofun
    | cons f l =>
      rintro x ⟨⟩
      by_contra hf
      simp [ringOutChoice, hf] at h

theorem SendingFits.placeTransmit (hs : SendingFits s) {f : Frame}
    (hf : s.ringState = .online ∨ s.ringState = .probing ∧ Frame.kind f = some .loop) :
    SendingFits (s.placeTransmit f) := by
  refine .choose (fun _ => ?_) (fun hprobing x hx => ?_) hs.pass (fun _ => by simp)
  · exact hf.elim .inr fun h => .inl h.1
  · rcases List.mem_append.mp hx with hold | hlast
    · exact hs.probes hprobing x hold
    · rcases hf with honline | ⟨-, hloop⟩
      · exact absurd (hprobing.symm.trans honline) (by decide)
      · exact List.mem_singleton.mp hlast ▸ hloop

theorem SendingFits.handFrame (hs : SendingFits s) (f : Frame) (r : Bool) : SendingFits (s.handFrame f r) := by
  unfold State.handFrame
  split
  · rename_i h
    exact hs.placeTransmit (.inl (by simp_all))
  · exact hs

theorem SendingFits.deliver (hs : SendingFits s) (src : Source) (st : Status) (b : AnswerBody) (r : Bool) :
    SendingFits (s.deliver src st b r) := by
  cases src with
  | port q => exact hs.congr rfl rfl rfl rfl
  | remote o q u => exact hs.handFrame _ r
  | replay k o q u =>
    refine SendingFits.handFrame ?_ _ r
    exact hs.congr rfl rfl rfl rfl

theorem SendingFits.endStep (hs : SendingFits s) (j : Job) (g : StepGrant) : SendingFits (s.endStep j g) := by
  have hended (o : JobOutcome) (x : Option Offset) : SendingFits (s.endJob (stepped j g) o x g.reserved) := by
    unfold State.endJob
    split
    · exact hs.congr rfl rfl rfl rfl
    · refine SendingFits.handFrame ?_ _ _
      exact hs.congr rfl rfl rfl rfl
  unfold State.endStep
  split
  · exact hended _ _
  split
  · exact hended _ _
  · exact hs.congr rfl rfl rfl rfl

/-- A station without frames of its own, whose ring-out is idle only over an empty pass-through buffer. -/
theorem sendingFits_of_empty (hown : s.transmit = []) (hpass : s.ringOut = .passThrough → s.passThrough ≠ [])
    (hout : s.ringOut ≠ .transmit) (hidle : s.ringOut = .idle → s.passThrough = []) : SendingFits s where
  queue h := absurd hown h
  probes _ f hf := by rw [hown] at hf; cases hf
  pass := hpass
  own h := absurd h hout
  idle h := by rw [hidle h, hown]; rfl

/-- The ring state may change at will while the station has no frames of its own (R23). -/
theorem SendingFits.withRingState (hs : SendingFits s) (hnot : s.ringState ≠ .probing ∧ s.ringState ≠ .online)
    (hown : t.transmit = s.transmit) (hpass : t.passThrough = s.passThrough) (hout : t.ringOut = s.ringOut) :
    SendingFits t := by
  have hempty : s.transmit = [] := by
    by_contra h
    exact (hs.queue h).elim hnot.1 hnot.2
  refine sendingFits_of_empty (hown.trans hempty) (by rw [hout, hpass]; exact hs.pass) (fun h => ?_) fun h => ?_
  · exact hs.own (hout ▸ h) hempty
  · rw [hpass]; exact (ringOutChoice_eq_idle (hs.idle (hout ▸ h))).1

theorem effect_keeps_sendingFits (hw : WaitsOnlyOnline s) (hs : SendingFits s) (h : Effect s t) : SendingFits t := by
  have hrest (hreset : s.inReset = true) : s.ringState ≠ .probing ∧ s.ringState ≠ .online := by
    simp [hw.reset hreset]
  cases h with
  | coldAsserted => exact sendingFits_of_empty rfl (fun h => nomatch h) (fun h => nomatch h) fun _ => rfl
  | warmAsserted => exact sendingFits_of_empty rfl (fun h => nomatch h) (fun h => nomatch h) fun _ => rfl
  | coldReleased pins hc => exact hs.withRingState (hrest (inReset_of_coldReset hc)) (by simp) (by simp) (by simp)
  | warmReleased pins hwarm => exact hs.withRingState (hrest (by simp [State.inReset, hwarm])) (by simp) (by simp) (by simp)
  | broken =>
    refine sendingFits_of_empty ?_ ?_ ?_ ?_ <;> simp [State.enterBroken]
  | probing _ _ hstate => exact hs.withRingState (by rcases hstate with h | h <;> simp [h]) rfl rfl rfl
  | online _ hprobing =>
    have hidle (hout : s.ringOut = .idle) : s.passThrough = [] ∧ s.transmit = [] := by
      obtain ⟨hpass, hhead⟩ := ringOutChoice_eq_idle (hs.idle hout)
      refine ⟨hpass, ?_⟩
      by_contra hown
      obtain ⟨f, l, hl⟩ := List.exists_cons_of_ne_nil hown
      have hloop := hs.probes hprobing f (by simp [hl])
      have hstays := hhead f (by simp [hl])
      simp [hprobing, mayInsert, hloop] at hstays
    refine ⟨fun _ => .inr rfl, fun h => (nomatch h), hs.pass, hs.own, fun hout => ?_⟩
    obtain ⟨hpass, hown⟩ := hidle hout
    simp [State.enterOnline, hpass, hown, ringOutChoice]
  | conflict =>
    refine .choose (by simp) (by simp) (fun hout => ?_) (fun hout => ?_)
    · simp only [ringDown_keeps, placeNotice_ringOut, placeNotice_passThrough] at hout ⊢
      split at hout
      · cases hout
      · exact hs.pass hout
    · simp only [ringDown_keeps, placeNotice_ringOut] at hout
      split at hout
      · cases hout
      · contradiction
  | passed f =>
    unfold State.placePass
    split
    · exact .choose hs.queue hs.probes (fun _ => by simp) hs.own
    · exact hs.congr rfl rfl rfl rfl
  | ended u e c => exact hs.congr (by simp) (by simp) (by simp) (by simp)
  | probes hclaim =>
    refine SendingFits.placeTransmit ?_ (.inr ⟨hw.claim hclaim, kind_loopFrame _ _⟩)
    exact hs.congr rfl rfl rfl rfl
  | sentOn hout =>
    exact .choose hs.queue hs.probes (fun h => nomatch h) (fun h => nomatch h)
  | sentOwn hout =>
    refine .choose (fun h => hs.queue fun hempty => h (by simp [hempty]))
      (fun hp f hf => hs.probes hp f (List.mem_of_mem_drop hf)) (fun h => nomatch h) (fun h => nomatch h)
  | sent q d r u _ honline =>
    have hentered : SendingFits (s.setEntry u (some (s.newEntry q d r))) := hs.congr rfl rfl rfl rfl
    have hplaced := hentered.placeTransmit (f := s.entryFrame u (s.newEntry q d r)) (.inl honline)
    unfold State.sendRequest
    simp only
    split
    · exact hplaced.congr rfl rfl rfl rfl
    · exact hplaced.congr rfl rfl rfl rfl
  | resent u e he hwaits =>
    refine SendingFits.placeTransmit ?_ (.inl (hw.entries u e he (by simp [hwaits])))
    exact hs.congr rfl rfl rfl rfl
  | handedOver c tk =>
    have hadvanced : SendingFits (s.advance c) := hs.congr (by simp) (by simp) (by simp) (by simp)
    unfold State.handOver
    split
    · exact hadvanced.deliver _ _ _ _
    · refine SendingFits.deliver ?_ _ _ _ _
      exact hadvanced.congr rfl rfl rfl rfl
  | wordEnded g =>
    refine SendingFits.deliver ?_ _ _ _ _
    exact hs.congr (by simp) (by simp) (by simp) (by simp)
  | stepEnded g j =>
    refine SendingFits.endStep ?_ j g
    exact hs.congr rfl rfl rfl rfl
  | _ => exact hs.congr (by simp) (by simp) (by simp) (by simp)

end

theorem sendingConsistent_iff (s : State) : SendingConsistent s ↔ WaitsOnlyOnline s ∧ SendingFits s :=
  ⟨fun h => ⟨h.toWaitsOnlyOnline, { h with }⟩, fun ⟨hw, hf⟩ => { hw, hf with }⟩

theorem effect_keeps_sendingConsistent {s t : State} (hs : SendingConsistent s) (h : Effect s t) :
    SendingConsistent t := by
  rw [sendingConsistent_iff] at hs ⊢
  obtain ⟨hw, hf⟩ := hs
  exact ⟨effect_keeps_waitsOnlyOnline hw h, effect_keeps_sendingFits hw hf h⟩

theorem sendingConsistent_countTimers {s : State} (hs : SendingConsistent s) : SendingConsistent s.countTimers := by
  obtain ⟨hw, hf⟩ := (sendingConsistent_iff s).mp hs
  have hring : RingConsistent s.countTimers := { hs.toRingConsistent with
    timer := by simpa [countDown] using hs.timer }
  refine (sendingConsistent_iff _).mpr ⟨{ hring with ports := hw.ports, entries := fun u e he hst => ?_ }, hf.congr rfl rfl rfl rfl⟩
  rw [entry_countTimers, Option.map_eq_some_iff] at he
  obtain ⟨x, hx, rfl⟩ := he
  exact hw.entries u x hx hst

/-- Settles O55: every effect keeps the probe logic, what waits and what ring-out sends in agreement with the ring
state, and the recent-probe set changes with the probe serial. -/
theorem stepsKeepTheRingInterface : Obligations.StepsKeepTheRingInterface := by
  unfold Obligations.StepsKeepTheRingInterface
  exact ⟨kept_effect (fun _ _ hs => { hs with }) (fun _ _ => effect_keeps_sendingConsistent)
      (fun _ => sendingConsistent_countTimers),
    kept_effect (fun _ _ hs => hs) (fun _ _ => effect_keeps_recentAreLast) (fun _ hs => hs)⟩

end Sys2Proof.Machine
end

section
/-! PROOF. No two entries of the outstanding table have one word of one station for one port, and out of reset no
request waits on the pins of a port whose request place is empty (R41, R53, R59, R61, R66). -/

namespace Sys2Proof.Machine

/-! ### The words of the outstanding table -/

/-- The word of an entry, with its port (R66). -/
def Entry.word (e : Entry) : Port × Station × Page × Offset := (e.port, e.target, e.request.page, e.request.offset)

theorem wordsDistinct_iff (s : State) : WordsDistinct s ↔
    ∀ t u a b, s.entry t = some a → s.entry u = some b → a.word = b.word → t = u := by
  simp only [WordsDistinct, Entry.word, Prod.mk.injEq, and_imp]

/-- A request is sent under the lowest free tag, and only if no entry has its word (R53, R65). -/
theorem sendTag_some {s : State} {q : Port} {d : Station} {r : Request} {t : Tag} (h : s.sendTag q d r = some t) :
    s.wordBusy q d r = false ∧ s.lowestFree = some t := by
  unfold State.sendTag at h
  split at h
  · cases h
  · rename_i hnot
    simp only [Bool.or_eq_true, not_or, Bool.not_eq_true] at hnot
    exact ⟨hnot.1, h⟩

theorem wordBusy_of_entry {s : State} {q : Port} {d : Station} {r : Request} {u : Tag} {e : Entry}
    (he : s.entry u = some e) (hword : e.word = (q, d, r.page, r.offset)) : s.wordBusy q d r = true := by
  simp only [Entry.word, Prod.mk.injEq] at hword
  obtain ⟨rfl, rfl, hp, ho⟩ := hword
  exact List.any_eq_true.mpr ⟨u, mem_allTags u, by simp [he, hp, ho]⟩

/-- An entry of the station, or the one that the request to be sent would have. -/
def State.entryOrNew (s : State) (u : Tag) (e : Entry) : Prop :=
  (∃ a, s.entry u = some a ∧ a.word = e.word)
    ∨ (s.lowestFree = some u ∧ ∀ v a, s.entry v = some a → a.word ≠ e.word)

theorem effect_entryOrNew {s t : State} (h : Effect s t) : EachEntry s.entryOrNew t := by
  have hsame {u : Tag} {e x : Entry} (hx : s.entryOrNew u e) (hword : x.word = e.word) : s.entryOrNew u x := by
    unfold State.entryOrNew; rw [hword]; exact hx
  refine effect_keeps_eachEntry (fun u e he => .inl ⟨e, he, rfl⟩) (fun u q d r _ htag => ?_)
    (fun _ _ he _ _ => hsame he rfl) (fun _ _ he _ => hsame he rfl) (fun _ _ he _ => hsame he rfl)
    (fun _ _ he _ => hsame he rfl) h
  obtain ⟨hbusy, hfree⟩ := sendTag_some htag
  refine .inr ⟨hfree, fun v a ha hword => ?_⟩
  have hheld : s.wordBusy q d r = true := wordBusy_of_entry ha hword
  rw [hbusy] at hheld
  cases hheld

theorem effect_keeps_wordsDistinct {s t : State} (hs : WordsDistinct s) (h : Effect s t) : WordsDistinct t := by
  rw [wordsDistinct_iff] at hs ⊢
  intro u v a b ha hb hword
  rcases effect_entryOrNew h u a ha with ⟨x, hx, hxa⟩ | ⟨hu, hnew⟩
  · rcases effect_entryOrNew h v b hb with ⟨y, hy, hyb⟩ | ⟨-, hnew⟩
    · exact hs u v x y hx hy (by rw [hxa, hyb, hword])
    · exact absurd (hxa.trans hword) (hnew u x hx)
  · rcases effect_entryOrNew h v b hb with ⟨y, hy, hyb⟩ | ⟨hv, -⟩
    · exact absurd (hyb.trans hword.symm) (hnew v y hy)
    · exact Option.some.inj (hu.symm.trans hv)

theorem wordsDistinct_countTimers {s : State} (hs : WordsDistinct s) : WordsDistinct s.countTimers := by
  rw [wordsDistinct_iff] at hs ⊢
  intro u v a b ha hb hword
  rw [entry_countTimers, Option.map_eq_some_iff] at ha hb
  obtain ⟨x, hx, rfl⟩ := ha
  obtain ⟨y, hy, rfl⟩ := hb
  exact hs u v x y hx hy hword

/-! ### The request pins -/

/-- Out of reset no request waits on the pins of this port while its request place is empty (R41). -/
def Served (q : Port) (s : State) : Prop :=
  ∀ r, s.inReset = false → s.strobe q = .presented r → s.port q ≠ .idle

theorem pinsServed_iff (s : State) : PinsServed s ↔ ∀ q, Served q s := Iff.rfl

section
variable {s t : State} {q o : Port}

theorem Served.of (hs : Served q s) (hreset : t.inReset = s.inReset) (hstrobe : t.strobe q = s.strobe q)
    (hport : t.port q = s.port q) : Served q t := fun r hn hr => by
  rw [hport]; exact hs r (hreset ▸ hn) (hstrobe ▸ hr)

theorem pinsServed_congr (hs : PinsServed s) (hcold : t.coldReset = s.coldReset) (hwarm : t.warmReset = s.warmReset)
    (hstrobes : t.strobes = s.strobes) (hports : t.ports = s.ports) : PinsServed t :=
  fun q => Served.of (hs q) (inReset_of hcold hwarm) (strobe_of_strobes hstrobes q) (port_of_ports hports q)

theorem pinsServed_inReset (h : s.inReset = true) : PinsServed s := fun _ _ hn => by rw [h] at hn; cases hn

theorem inReset_acceptWaiting (s : State) (q : Port) : (s.acceptWaiting q).inReset = s.inReset :=
  inReset_of (by simp) (by simp)

theorem served_acceptWaiting_self (s : State) (q : Port) : Served q (s.acceptWaiting q) := fun r hn hr =>
  acceptWaiting_served s q r (inReset_acceptWaiting s q ▸ hn) hr

theorem served_acceptWaiting (hs : Served o s) (q : Port) : Served o (s.acceptWaiting q) := by
  by_cases h : o = q
  · exact h ▸ served_acceptWaiting_self s q
  · exact hs.of (inReset_acceptWaiting s q) (acceptWaiting_strobe s h) (acceptWaiting_port s h)

/-- Accepting what waits at a port leaves every port served if the others were (R41). -/
theorem pinsServed_acceptWaiting (q : Port) (hs : ∀ o, o ≠ q → Served o s) : PinsServed (s.acceptWaiting q) := fun o => by
  by_cases h : o = q
  · exact h ▸ served_acceptWaiting_self s q
  · exact served_acceptWaiting (hs o h) q

theorem pinsServed_acceptAll (s : State) : PinsServed s.acceptAll := fun q => by
  rw [acceptAll_eq]
  cases q with
  | p =>
    exact served_acceptWaiting (served_acceptWaiting (served_acceptWaiting (served_acceptWaiting_self s .p) .c1) .c2) .c3
  | c1 => exact served_acceptWaiting (served_acceptWaiting (served_acceptWaiting_self _ .c1) .c2) .c3
  | c2 => exact served_acceptWaiting (served_acceptWaiting_self _ .c2) .c3
  | c3 => exact served_acceptWaiting_self _ .c3

/-- A completion on a port and the acceptance of its next request leave every port served (R59). -/
theorem pinsServed_complete_acceptWaiting (hs : PinsServed s) (q : Port) (c : Completion) :
    PinsServed ((s.complete q c).acceptWaiting q) :=
  pinsServed_acceptWaiting q fun o ho => Served.of (hs o) rfl rfl (by rw [port_complete, if_neg ho])

theorem pinsServed_tellEnd (hs : PinsServed s) (u : Tag) (e : Entry) (c : Completion) : PinsServed (s.tellEnd u e c) := by
  unfold State.tellEnd State.reportEnd
  split
  · split
    · exact hs
    · exact pinsServed_congr hs rfl rfl rfl rfl
  · exact pinsServed_complete_acceptWaiting hs e.port c

theorem pinsServed_deliver_acceptFor (hs : PinsServed s) (src : Source) (st : Status) (b : AnswerBody) (r : Bool) :
    PinsServed ((s.deliver src st b r).acceptFor src) := by
  cases src with
  | port q => exact pinsServed_complete_acceptWaiting hs q _
  | remote o q u =>
    simp only [State.acceptFor, State.deliver]
    exact pinsServed_congr hs (by simp) (by simp) (by simp) (by simp)
  | replay k o q u =>
    simp only [State.acceptFor, State.deliver]
    exact pinsServed_congr hs (by simp) (by simp) (by simp) (by simp)

theorem pinsServed_arrive (hs : PinsServed s) (f : Frame) : PinsServed (s.arrive f) := by
  have hpass (x : Frame) : PinsServed (s.placePass x) := pinsServed_congr hs (by simp) (by simp) (by simp) (by simp)
  have hclose (u : Tag) (e : Entry) (c : Completion) : PinsServed (s.closeEntry u e c) := by
    refine pinsServed_tellEnd ?_ u e c
    exact pinsServed_congr hs rfl rfl rfl rfl
  unfold State.arrive
  repeat' split
  · exact hs
  · exact hpass f
  · unfold State.classify
    split
    · unfold State.takeProbe
      repeat' split
      · exact pinsServed_congr hs (by simp) (by simp) (by simp) (by simp)
      · exact hs
      · exact pinsServed_acceptAll _
    split
    · unfold State.takeRequest
      split
      · exact pinsServed_congr hs rfl rfl rfl rfl
      · exact hpass _
    split
    · unfold State.takeUnclaimed
      repeat' split
      · exact hs
      · exact hclose _ _ _
      · exact hs
    split
    · unfold State.takeAnswer State.takeRetry
      repeat' split
      · exact hs
      · exact hs
      · exact pinsServed_congr hs rfl rfl rfl rfl
      · exact hclose _ _ _
      · exact hclose _ _ _
      · exact hs
      · exact pinsServed_congr hs rfl rfl rfl rfl
    split
    · unfold State.takeDone
      split
      · exact hs
      · exact pinsServed_congr hs rfl rfl rfl rfl
    split
    · exact hs
    · exact hpass f
  · exact hs

theorem pinsServed_arriveAs {k : Kind} {f : Frame} (hs : PinsServed s) (h : arriveAs k f s = .next t) :
    PinsServed t := by
  unfold arriveAs at h
  split at h
  · cases h; exact pinsServed_arrive hs f
  · cases h

theorem pinsServed_grantOf {o : Op} (hs : PinsServed s) (h : grantOf o s = .next t) : PinsServed t := by
  obtain ⟨c, tk, -, -, -, rfl⟩ := grantOf_next.mp h
  exact pinsServed_congr hs (by simp) (by simp) (by simp) (by simp)

theorem pinsServed_handOverOf {o : Op} (hs : PinsServed s) (h : handOverOf o s = .next t) : PinsServed t := by
  obtain ⟨c, tk, -, -, -, rfl⟩ := handOverOf_next.mp h
  have hadvanced : PinsServed (s.advance c) := pinsServed_congr hs (by simp) (by simp) (by simp) (by simp)
  unfold State.handOver
  split
  · exact pinsServed_deliver_acceptFor hadvanced _ _ _ _
  · refine pinsServed_deliver_acceptFor ?_ _ _ _ _
    exact pinsServed_congr hadvanced rfl rfl rfl rfl

/-- After every command each port is served: what empties a request place accepts the request that then waits. -/
theorem exec_keeps_pinsServed {c : Instr} (hs : PinsServed s) (h : exec c s = .next t) : PinsServed t := by
  cases c with
  | coldResetAssertion =>
    cases h
    split
    · exact hs
    · exact pinsServed_inReset rfl
  | coldResetRelease pins =>
    cases h
    split
    · exact pinsServed_acceptAll _
    · exact hs
  | warmResetAssertion =>
    cases h
    split
    · exact hs
    · exact pinsServed_inReset (by simp [State.inReset])
  | warmResetRelease pins =>
    cases h
    split
    · exact pinsServed_acceptAll _
    · exact hs
  | lossOfCarrier =>
    cases h
    repeat' split
    · exact pinsServed_acceptAll _
    · exact pinsServed_acceptAll _
    all_goals exact pinsServed_congr hs rfl rfl rfl rfl
  | returnOfCarrier =>
    cases h
    repeat' split
    all_goals exact pinsServed_congr hs (by simp) (by simp) (by simp) (by simp)
  | loopArrival f => exact pinsServed_arriveAs hs h
  | reqArrival f => exact pinsServed_arriveAs hs h
  | ansArrival f => exact pinsServed_arriveAs hs h
  | doneArrival f => exact pinsServed_arriveAs hs h
  | throughFrameArrival f =>
    simp only [exec, execThroughFrameArrival] at h
    split at h
    · cases h; exact pinsServed_arrive hs f
    · cases h
  | acceptance q pins =>
    cases h
    cases pins with
    | none =>
      intro o
      by_cases ho : o = q
      · exact fun r _ hr => by simp [strobe_setStrobe, ho] at hr
      · exact Served.of (hs o) rfl (by simp [strobe_setStrobe, ho]) rfl
    | some r =>
      exact pinsServed_acceptWaiting q fun o ho => Served.of (hs o) rfl (by simp [strobe_setStrobe, ho]) rfl
  | send q =>
    simp only [exec, execSend] at h
    repeat' split at h
    all_goals cases h
    refine pinsServed_acceptWaiting q fun o ho => Served.of (hs o) (inReset_of (by simp) (by simp)) ?_ ?_
    · exact strobe_of_strobes (by simp) o
    · exact sendRequest_port s _ _ _ ho
  | answerTimerExpiry v =>
    simp only [exec, execAnswerTimerExpiry] at h
    repeat' split at h
    all_goals cases h
    refine pinsServed_tellEnd ?_ v _ _
    exact pinsServed_congr hs rfl rfl rfl rfl
  | read => exact pinsServed_grantOf hs h
  | write => exact pinsServed_grantOf hs h
  | holdRead => exact pinsServed_grantOf hs h
  | commit => exact pinsServed_grantOf hs h
  | bulkStart => exact pinsServed_handOverOf hs h
  | bulkQuery => exact pinsServed_handOverOf hs h
  | bulkAbort => exact pinsServed_handOverOf hs h
  | wordOperationEnd =>
    simp only [exec, execWordOperationEnd] at h
    split at h
    · cases h
      split
      · exact pinsServed_congr hs rfl rfl rfl rfl
      · refine pinsServed_deliver_acceptFor ?_ _ _ _ _
        exact pinsServed_congr hs (by simp) (by simp) (by simp) (by simp)
    · cases h
  | noticeRead =>
    simp only [exec, execNoticeRead] at h
    split at h <;> cases h
    refine pinsServed_complete_acceptWaiting ?_ .p (okCompletion _)
    exact pinsServed_congr hs rfl rfl rfl rfl
  | statusRead =>
    simp only [exec, execStatusRead] at h
    split at h <;> cases h
    refine pinsServed_complete_acceptWaiting ?_ .p (okCompletion _)
    exact pinsServed_congr hs rfl rfl rfl rfl
  | windowWrite =>
    simp only [exec, execWindowWrite] at h
    split at h <;> cases h
    refine pinsServed_complete_acceptWaiting ?_ .p (okCompletion _)
    exact pinsServed_congr hs rfl rfl rfl rfl
  | controlSpaceWrite =>
    simp only [exec, execControlSpaceWrite] at h
    split at h <;> cases h
    exact pinsServed_complete_acceptWaiting hs .p _
  | _ =>
    simp only [exec, execProbeTimerExpiry, execProbeClaim, execSendingEnd, execBackoffTimerExpiry, execResendClaim,
      execQuarantineExpiry, execRefreshTimerExpiry, execRefresh, execRefreshEnd, execHoldTimerExpiry, execBulkStep,
      execBulkStepEnd] at h
    repeat' split at h
    all_goals cases h
    all_goals exact pinsServed_congr hs (by simp) (by simp) (by simp) (by simp)

end

/-- Settles O56: no effect gives two entries one word, and every command that empties a request place accepts the
request that then waits on its pins. -/
theorem stepsKeepWordsDistinct : Obligations.StepsKeepWordsDistinct := by
  unfold Obligations.StepsKeepWordsDistinct
  exact ⟨kept_effect (fun _ _ hs => hs) (fun _ _ => effect_keeps_wordsDistinct) (fun _ => wordsDistinct_countTimers),
    kept_of (fun _ _ hs => hs) (fun _ _ _ => exec_keeps_pinsServed) (fun _ hs => hs)⟩

end Sys2Proof.Machine
end

section
/-! PROOF. Resets, carrier and probing: what the commands of the ring interface come to (R3 to R13, R20 to R22, R61,
R105, R106). -/

namespace Sys2Proof.Machine

/-! ### The step of the queue -/

/-- Settles O1, by the definition of a step. -/
theorem stepRunsTheFrontCommand : Obligations.StepRunsTheFrontCommand := by
  unfold Obligations.StepRunsTheFrontCommand
  intro c cs s
  rfl

/-! ### Probe claims -/

theorem addRecent_eq (l : List Serial) (x : Serial) :
    addRecent l x = if l.length < 8 then l ++ [x] else (l ++ [x]).tail := by
  rw [addRecent, List.drop_one]; rfl

theorem placeProbe_eq_withProbe (s : State) : s.placeProbe = s.withProbe := by
  rw [State.placeProbe, placeTransmit_eq_withFrame, addRecent_eq]
  rfl

/-- A claim just raised is taken if a place is free (R6). -/
theorem takeClaim_raised (s : State) : State.takeClaim { s with probeClaim := true } = s.withProbeClaim := by
  have hprobe : State.placeProbe { s with probeClaim := true } = s.withProbe := placeProbe_eq_withProbe _
  have hplace : State.freePlace { s with probeClaim := true } = true ↔ s.placesTaken < 6 := freePlace_iff _
  simp only [State.takeClaim, hprobe, hplace, State.withProbeClaim]

/-- Entry into PROBING (R5, R6). -/
theorem enterProbing_eq (s : State) : s.enterProbing =
    State.withProbeClaim { s with ringState := .probing, recentProbes := [], probeTimer := some 100 } :=
  takeClaim_raised { s with ringState := .probing, recentProbes := [], probeTimer := some 100 }

/-- Settles O10: a claim raised is taken as `takeClaim_raised` says, and one that waited as `placeProbe_eq_withProbe`
does. -/
theorem probesAreClaimedAndPlaced : Obligations.ProbesAreClaimedAndPlaced := by
  unfold Obligations.ProbesAreClaimedAndPlaced
  intro s
  refine ⟨fun htimer hclaim => ?_, fun htimer hclaim => ?_, fun hclaim hplace => ?_⟩
  · obtain ⟨n, hn⟩ := Option.ne_none_iff_exists'.mp htimer
    rw [← takeClaim_raised]
    simp [exec, execProbeTimerExpiry, hn, hclaim, Config.probePeriod]
  · obtain ⟨n, hn⟩ := Option.ne_none_iff_exists'.mp htimer
    simp [exec, execProbeTimerExpiry, hn, hclaim, Config.probePeriod]
  · simp [exec, execProbeClaim, hclaim, (freePlace_iff s).mpr hplace, placeProbe_eq_withProbe]

/-! ### Sending -/

theorem chooseRingOut_of_idle {s : State} (h : s.ringOut = .idle) :
    s.chooseRingOut = { s with ringOut := nextSending s.ringState s.passThrough s.transmit } := by
  rw [State.chooseRingOut, h, ← ringOutChoice_eq_nextSending]

/-- Settles O11: the frame leaves its buffer, and an idle ring-out takes its choice. -/
theorem sendingEndFreesThePlace : Obligations.SendingEndFreesThePlace := by
  unfold Obligations.SendingEndFreesThePlace
  intro s
  refine ⟨fun hout => ?_, fun hout => ?_⟩
  · rw [← List.drop_one]
    simp only [exec, execSendingEnd, hout]
    exact congrArg _ (chooseRingOut_of_idle rfl)
  · rw [← List.drop_one]
    simp only [exec, execSendingEnd, hout]
    exact congrArg _ (chooseRingOut_of_idle rfl)

/-! ### Resets -/

/-- The bank after a grant was cut short differs at the word of the grant alone (R106). -/
theorem lookup_cutShort {s : State} {a : Nat} (h : grantAddress s.grant ≠ some a) :
    Memory.lookup s.cutShort a = Memory.lookup s.mem a := by
  unfold State.cutShort
  split
  · rfl
  · rename_i b hb
    rw [lookup_write, if_neg]
    rintro rfl
    exact h hb

theorem again_eq : Strobe.again = fun x => match x with | .accepted r => .presented r | y => y := by
  funext x; cases x <;> rfl

/-- Settles O3, by the definition of a cold reset and `lookup_cutShort`. -/
theorem coldResetAssertionClearsWorkingState : Obligations.ColdResetAssertionClearsWorkingState := by
  unfold Obligations.ColdResetAssertionClearsWorkingState
  intro s
  refine ⟨fun hc => by simp [exec, execColdResetAssertion, hc], fun hc => ⟨s.cutShort, ?_, fun _ => lookup_cutShort⟩⟩
  simp only [exec, execColdResetAssertion, hc, State.clearWorking, again_eq]
  rfl

/-- Settles O4, by the definition of a warm reset. -/
theorem warmResetAssertionKeepsTheBank : Obligations.WarmResetAssertionKeepsTheBank := by
  unfold Obligations.WarmResetAssertionKeepsTheBank
  intro s
  refine ⟨fun hw => by simp [exec, execWarmResetAssertion, hw], fun hw => ⟨orphaned s.grant, ?_, ?_⟩⟩
  · simp only [exec, execWarmResetAssertion, hw, State.clearWorking, again_eq]
    rfl
  · exact ⟨fun h => by rw [h]; rfl, fun h => by rw [h]; rfl, fun w h => by rw [h]; rfl, fun w h => by rw [h]; rfl⟩

/-- Out of reset, a station starts probing on ring-in carrier, and the requests of raised strobes are accepted (R4, R5,
R61). -/
theorem leaveReset_acceptAll (u : State) : u.leaveReset.acceptAll =
    if u.inReset then u
    else if u.ringInCarrier then
      (State.withProbeClaim
        { u with ringOutCarrier := true, ringState := .probing, recentProbes := [], probeTimer := some 100 }).acceptAll
    else State.acceptAll { u with ringOutCarrier := true } := by
  unfold State.leaveReset
  split
  · rename_i hreset; exact acceptAll_inReset hreset
  split
  · rw [enterProbing_eq]
  · rfl

/-- A whole cold reset with every pin low leads to the station's initial state (R85, R106). -/
theorem coldReset_whole {s : State} (hc : s.coldReset = false) (hw : s.warmReset = false)
    (hin : s.ringInCarrier = false) (hlow : ∀ q, s.strobe q = .low) :
    ∃ t, exec .coldResetAssertion s = .next t
      ∧ exec (.coldResetRelease ⟨0, 0, false, false⟩) t =
        .next { State.reset with pending := s.pending, epoch := s.epoch + 1 } := by
  have hstrobes : portMap Strobe.again s.strobes = ⟨.low, .low, .low, .low⟩ := by
    have hp : s.strobes.p = .low := hlow .p
    have h1 : s.strobes.c1 = .low := hlow .c1
    have h2 : s.strobes.c2 = .low := hlow .c2
    have h3 : s.strobes.c3 = .low := hlow .c3
    simp [portMap, hp, h1, h2, h3, Strobe.again]
  have hasserted : exec .coldResetAssertion s = .next
      { s.clearWorking with
        coldReset := true, probeSerial := 0, mem := s.cutShort, refreshTimer := none, refreshClaim := false,
        grant := .free } := by
    simp only [exec, execColdResetAssertion, hc]
    rfl
  refine ⟨_, hasserted, ?_⟩
  simp only [exec, execColdResetRelease, if_true, leaveReset_acceptAll]
  rw [if_neg (by simp [State.inReset, hw]), if_neg (by simp [hin]), acceptAll_low]
  · simp only [State.clearWorking, hstrobes, hw, hin, State.reset]
  · intro q r
    simp only [State.strobe, State.clearWorking, hstrobes]
    cases q <;> exact nofun

/-- Settles O5, by `leaveReset_acceptAll` and `coldReset_whole`. -/
theorem resetReleaseStartsTheStation : Obligations.ResetReleaseStartsTheStation := by
  unfold Obligations.ResetReleaseStartsTheStation
  intro s pins
  refine ⟨fun hc => ?_, fun hc => ?_, fun hw => ?_, fun hw => ?_, coldReset_whole⟩
  · simp [exec, execColdResetRelease, hc]
  · simp only [exec, execColdResetRelease, hc, if_true, leaveReset_acceptAll]
    rfl
  · simp [exec, execWarmResetRelease, hw]
  · simp only [exec, execWarmResetRelease, hw, if_true, leaveReset_acceptAll]
    simp [State.inReset]

/-! ### Carrier -/

/-- Settles O6: OFFLINE and BROKEN enter PROBING by `enterProbing_eq`; elsewhere the pin alone changes. -/
theorem returnOfCarrierStartsProbing : Obligations.ReturnOfCarrierStartsProbing := by
  unfold Obligations.ReturnOfCarrierStartsProbing
  intro s
  refine ⟨fun hin => by simp [exec, execReturnOfCarrier, hin], fun hin hc hw hstate => ?_, fun hin hother => ?_⟩
  · have hreset : s.inReset = false := by simp [State.inReset, hc, hw]
    rcases hstate with hstate | hstate <;>
      simp [exec, execReturnOfCarrier, hin, hreset, hstate, enterProbing_eq]
  · by_cases hreset : s.inReset = true
    · simp [exec, execReturnOfCarrier, hin, hreset]
    · have hreset : s.inReset = false := by simpa using hreset
      have hresets : s.coldReset = false ∧ s.warmReset = false := by simpa [State.inReset] using hreset
      rcases hother with h | h | h | h | h
      · simp [h] at hresets
      · simp [h] at hresets
      all_goals simp [exec, execReturnOfCarrier, hin, hreset, h]

/-! ### The exit from PROBING and ONLINE -/

theorem endIfWaiting_attention {s : State} (h : s.attention = true) (a : Tag) : (s.endIfWaiting a).attention = true := by
  unfold State.endIfWaiting State.endEntry State.reportEnd
  repeat' split
  · exact h
  · exact h
  · rfl
  · exact h
  · exact h

theorem endToSend_attention {s : State} (h : s.attention = true) (q : Port) : (s.endToSend q).attention = true := by
  unfold State.endToSend
  split
  · exact h
  · exact h

/-- A line asserted stays so through the exit (R79, R169). -/
theorem ringDown_attention {s : State} (h : s.attention = true) : s.ringDown.attention = true := by
  have hentries (l : List Tag) (u : State) (hu : u.attention = true) :
      (l.foldl State.endIfWaiting u).attention = true := by
    induction l generalizing u with
    | nil => exact hu
    | cons a l ih => exact ih _ (endIfWaiting_attention hu a)
  have hports (l : List Port) (u : State) (hu : u.attention = true) :
      (l.foldl State.endToSend u).attention = true := by
    induction l generalizing u with
    | nil => exact hu
    | cons q l ih => exact ih _ (endToSend_attention hu q)
  exact hports _ _ (hentries _ _ h)

/-- The exit changes the ports, the outstanding table and the notice logic alone (R55, R79). -/
theorem ringDown_eq (u : State) : u.ringDown =
    { u with
      ports := u.ringDown.ports, completions := u.ringDown.completions, outstanding := u.ringDown.outstanding,
      notices := u.ringDown.notices, lost := u.ringDown.lost, attention := u.ringDown.attention } := by
  have hkeeps := ringDown_keeps u
  generalize u.ringDown = t at hkeeps ⊢
  cases t
  simp only at hkeeps
  simp [hkeeps]

/-- The notice of the new ring state comes first, then those of the posted writes lost (R11, R13, R79). -/
theorem ringLeft_ringDown {s v : State} (into : RingState) (hentries : v.outstanding = s.outstanding)
    (hports : v.ports = s.ports) (hcompletions : v.completions = s.completions) (hnotices : v.notices = s.notices)
    (hlost : v.lost = s.lost) : RingLeft s (v.placeNotice (.ringState into)).ringDown into := by
  have hentry (u : Tag) : (v.placeNotice (.ringState into)).entry u = s.entry u :=
    entry_of_outstanding (s := s) hentries u
  have hport (q : Port) : (v.placeNotice (.ringState into)).port q = s.port q := port_of_ports (s := s) hports q
  have hwaits (q : Port) : (v.placeNotice (.ringState into)).waitsFor q = s.waitsFor q := by
    funext u; simp only [State.waitsFor, hentry]
  have hrequests (q : Port) : (v.placeNotice (.ringState into)).lostRequests q = s.lostRequests q := by
    simp only [State.lostRequests, hwaits, hport]
  have hwrites : (v.placeNotice (.ringState into)).lostWrites = s.lostWrites := by
    simp only [State.lostWrites, hentry]
  refine ⟨fun u => by rw [ringDown_entry, hentry], fun q => ?_, fun q => ?_, fun hroom => ?_, ringDown_attention rfl⟩
  · rw [(ringDown_ports _ q).2, hrequests, hport]
  · rw [(ringDown_ports _ q).1, hrequests, placeNotice_completions, hcompletions]
  · have hv : v.notices.length ≤ 8 := hnotices ▸ hroom
    have hplaced : (v.placeNotice (.ringState into)).notices.length ≤ 8 := placeNotice_within _ hv
    obtain ⟨hdown, hdownLost⟩ := ringDown_notices _ hplaced
    obtain ⟨hrest, hrestLost⟩ := placeNotices s.lostWrites _ hplaced
    obtain ⟨hall, hallLost⟩ := placeNotices (.ringState into :: s.lostWrites) v hv
    rw [hwrites] at hdown hdownLost
    constructor
    · rw [hdown, ← hrest, ← hnotices, ← hall]; rfl
    · rw [hdownLost, ← hrestLost, ← hnotices, ← hlost, ← hallLost]; rfl

/-- Settles O7: PROBING and ONLINE leave the ring by `ringLeft_ringDown`; elsewhere the pin alone changes. -/
theorem lossOfCarrierBreaksTheRing : Obligations.LossOfCarrierBreaksTheRing := by
  unfold Obligations.LossOfCarrierBreaksTheRing
  intro s
  refine ⟨fun hin hstate => ⟨State.enterBroken { s with ringInCarrier := false }, ?_, ?_, ?_⟩, fun hquiet => ?_⟩
  · rcases hstate with h | h <;> simp [exec, execLossOfCarrier, hin, h]
  · exact ringLeft_ringDown .broken rfl rfl rfl rfl rfl
  · unfold State.enterBroken
    conv_lhs => rw [ringDown_eq]
    rw [ringDown_attention rfl]
    rfl
  · by_cases hin : s.ringInCarrier = true
    · rcases hquiet with h | h | h | h
      · rw [hin] at h; cases h
      all_goals simp [exec, execLossOfCarrier, hin, h]
    · have hin : s.ringInCarrier = false := by simpa using hin
      have hsame : ({ s with ringInCarrier := false } : State) = s := by cases s; simp_all
      rw [hsame]
      simp [exec, execLossOfCarrier, hin]

end Sys2Proof.Machine
end

section
/-! PROOF. What the arriving frames come to: probes, requests, answers, DONE frames, and frames that are passed on or
dropped (R2, R8, R9, R13 to R19, R34, R35, R67, R68, R78, R163). -/

namespace Sys2Proof.Machine

/-! ### The rows of the arrivals -/

/-- Each arrival row brings a frame of its kind to ring-in. -/
theorem arriveAs_of_kind {k : Kind} {f : Frame} {s : State} (hk : Frame.kind f = some k) :
    arriveAs k f s = .next (s.arrive f) := by
  rw [arriveAs, if_pos hk]

theorem exec_loopArrival_own {s : State} {f : Frame} (h : s.Takes f) (hk : Frame.kind f = some .loop)
    (ho : Frame.origin f = s.own) : exec (.loopArrival f) s = .next (s.takeProbe f) := by
  show arriveAs .loop f s = _
  rw [arriveAs_of_kind hk, arrive_eq_classify h hk]
  simp [State.classify, ho]

theorem exec_doneArrival_own {s : State} {f : Frame} (h : s.Takes f) (hk : Frame.kind f = some .done)
    (hd : Frame.dest f = s.own) : exec (.doneArrival f) s = .next (s.takeDone f) := by
  show arriveAs .done f s = _
  rw [arriveAs_of_kind hk, arrive_eq_classify h hk]
  simp [State.classify, hd]

/-! ### Probes -/

/-- Settles O9: a probe of the recent-probe set is the station's own, come back. -/
theorem knownSerialEntersOnline : Obligations.KnownSerialEntersOnline := by
  unfold Obligations.KnownSerialEntersOnline
  intro s f htakes hkind horigin hknown
  have hcontains : s.recentProbes.contains (Frame.serial f) = true := List.contains_iff_mem.mpr hknown
  rw [exec_loopArrival_own htakes hkind horigin]
  refine ⟨fun hstate => ?_, fun hstate => ?_⟩
  · rw [State.takeProbe, if_pos hcontains, if_pos hstate]; rfl
  · rw [State.takeProbe, if_pos hcontains, if_neg (by simp [hstate])]

/-- What ring-out goes on with in CONFLICT: a frame of the pass-through buffer, if there is one (R13, R21). -/
theorem enterConflict_ringOut (s : State) : s.enterConflict.ringOut =
    if s.ringOut ≠ .passThrough ∧ s.passThrough = [] then .idle else .passThrough := by
  simp only [State.enterConflict, chooseRingOut_ringOut, ringDown_keeps, placeNotice_ringOut, placeNotice_ringState,
    placeNotice_passThrough, placeNotice_transmit]
  cases s.ringOut <;> cases s.passThrough <;> simp [ringOutChoice]

theorem ringLeft_chooseRingOut {s t : State} {into : RingState} (h : RingLeft s t into) :
    RingLeft s t.chooseRingOut into := ⟨h.entries, h.ports, h.completions, h.notices, h.attention⟩

/-- The station in CONFLICT with its notice placed, before what waits for the ring ends (R13). -/
def State.conflictNoticed (s : State) : State :=
  State.placeNotice
    { s with
      ringState := .conflict, probeTimer := none, probeClaim := false, transmit := [],
      ringOut := if s.ringOut = .transmit then .idle else s.ringOut }
    (.ringState .conflict)

theorem enterConflict_eq_ringDown (s : State) : s.enterConflict = s.conflictNoticed.ringDown.chooseRingOut := rfl

theorem ringLeft_enterConflict (s : State) : RingLeft s s.enterConflict .conflict := by
  rw [enterConflict_eq_ringDown]
  refine ringLeft_chooseRingOut ?_
  exact ringLeft_ringDown .conflict rfl rfl rfl rfl rfl

/-- The exit and the choice of ring-out after it change no more than ring-out, the ports, the outstanding table and the
notice logic. -/
theorem ringDown_chooseRingOut_eq {u t : State} (h : t = u.ringDown.chooseRingOut) : t =
    { u with
      ringOut := t.ringOut, ports := t.ports, completions := t.completions, outstanding := t.outstanding,
      notices := t.notices, lost := t.lost, attention := t.attention } := by
  have hkeeps := ringDown_keeps u
  subst h
  generalize u.ringDown = t at hkeeps ⊢
  cases t
  simp only at hkeeps
  simp [hkeeps, State.chooseRingOut]

theorem enterConflict_eq (s : State) : s.enterConflict =
    { s with
      ringState := .conflict, probeTimer := none, probeClaim := false, transmit := [],
      ringOut := if s.ringOut ≠ .passThrough ∧ s.passThrough = [] then .idle else .passThrough,
      ports := s.enterConflict.ports, completions := s.enterConflict.completions,
      outstanding := s.enterConflict.outstanding, notices := s.enterConflict.notices, lost := s.enterConflict.lost,
      attention := true } := by
  rw [← enterConflict_ringOut]
  conv_rhs => rw [← (ringLeft_enterConflict s).attention]
  have heq := enterConflict_eq_ringDown s
  generalize s.enterConflict = t at heq ⊢
  exact ringDown_chooseRingOut_eq heq

/-- Settles O8: a probe with an unknown serial shows another station with the own number. -/
theorem unknownSerialEntersConflict : Obligations.UnknownSerialEntersConflict := by
  unfold Obligations.UnknownSerialEntersConflict
  intro s f htakes hkind horigin hunknown
  have hcontains : s.recentProbes.contains (Frame.serial f) = false := by simpa using hunknown
  refine ⟨s.enterConflict, ?_, ringLeft_enterConflict s, enterConflict_eq s⟩
  rw [exec_loopArrival_own htakes hkind horigin, State.takeProbe, hcontains]
  rfl

/-! ### Requests and job ends -/

/-- Settles O12: a request for this station joins the queue while there is room. -/
theorem requestJoinsInboundQueue : Obligations.RequestJoinsInboundQueue := by
  unfold Obligations.RequestJoinsInboundQueue
  intro s f htakes hkind hdest hroom
  rw [exec_reqArrival_own htakes hkind hdest, State.takeRequest, if_pos (show s.inbound.length < Config.inboundPlaces from hroom)]

theorem placeNotice_of_room {s : State} (n : Notice) (h : s.notices.length < 8) :
    s.placeNotice n = { s with notices := s.notices ++ [n], attention := true } := by
  simp [State.placeNotice, Config.noticePlaces, h]

theorem placeNotice_of_full {s : State} (n : Notice) (h : 8 ≤ s.notices.length) :
    s.placeNotice n = { s with lost := true, attention := true } := by
  simp [State.placeNotice, Config.noticePlaces, Nat.not_lt.mpr h]

/-- Settles O17: the notice of the frame's fields is placed. -/
theorem doneFramePlacesANotice : Obligations.DoneFramePlacesANotice := by
  unfold Obligations.DoneFramePlacesANotice
  intro s f htakes hkind hdest
  rw [exec_doneArrival_own htakes hkind hdest]
  refine ⟨fun k hk => ?_, fun hnone => by rw [State.takeDone, hnone]⟩
  have hfirst : doneFirstMismatch f k =
      if k = .check ∧ Frame.outcome f = .mismatch then some (Frame.firstMismatch f) else none := by
    simp [doneFirstMismatch]
  simp only [State.takeDone, hk, hfirst]
  exact ⟨fun hroom => congrArg _ (placeNotice_of_room _ hroom), fun hfull => congrArg _ (placeNotice_of_full _ hfull)⟩

/-! ### Frames passed on and frames dropped -/

/-- The rows that bring a frame of a used kind to ring-in (log entry 21). -/
theorem exec_arrival {s : State} {f : Frame} {k : Kind} {c : Instr} (hk : Frame.kind f = some k)
    (hrow : (k = .loop ∧ c = .loopArrival f) ∨ (k = .req ∧ c = .reqArrival f) ∨ (k = .ans ∧ c = .ansArrival f)
      ∨ (k = .done ∧ c = .doneArrival f) ∨ (s.isThrough f = true ∧ c = .throughFrameArrival f)) :
    exec c s = .next (s.arrive f) := by
  rcases hrow with ⟨rfl, rfl⟩ | ⟨rfl, rfl⟩ | ⟨rfl, rfl⟩ | ⟨rfl, rfl⟩ | ⟨hthrough, rfl⟩
  · exact arriveAs_of_kind hk
  · exact arriveAs_of_kind hk
  · exact arriveAs_of_kind hk
  · exact arriveAs_of_kind hk
  · simp [exec, execThroughFrameArrival, hthrough]

/-- A frame that ring-in receives in CONFLICT, or that no row of R15 takes in PROBING or ONLINE, is passed on (R15,
R16). -/
theorem arrive_passed {s : State} {f : Frame} {k : Kind} (hreceived : s.receives = true)
    (hchecked : Frame.checked f = true) (hk : Frame.kind f = some k)
    (h : s.ringState = .conflict ∨ Frame.origin f ≠ s.own ∧ (k = .loop ∨ Frame.dest f ≠ s.own)) :
    s.arrive f = s.placePass f := by
  by_cases hconflict : s.ringState = .conflict
  · simp [State.arrive, hreceived, hchecked, hk, hconflict]
  · obtain ⟨horigin, hother⟩ := h.resolve_left hconflict
    have hclassify : s.classify k f = s.placePass f := by
      cases k <;> simp_all [State.classify]
    simp [State.arrive, hreceived, hchecked, hk, hconflict, hclassify]

/-- Settles O18: such a frame is forwarded, by the rules of the pass-through buffer. -/
theorem otherFramesPassThrough : Obligations.OtherFramesPassThrough := by
  unfold Obligations.OtherFramesPassThrough
  intro s f k c hin hcold hwarm hchecked hk hrow hstate
  have hreceived : s.receives = true := by
    rcases hstate with h | ⟨h | h, -⟩ <;> simp [State.receives, State.inReset, hin, hcold, hwarm, h]
  have hpass : exec c s = .next (s.placePass f) := by
    rw [exec_arrival hk, arrive_passed hreceived hchecked hk (hstate.imp_right And.right)]
    refine hrow.imp_right (Or.imp_right (Or.imp_right (Or.imp_right ?_)))
    rintro ⟨hkinds, rfl⟩
    refine ⟨?_, rfl⟩
    rcases hstate with hconflict | ⟨-, -, hother⟩
    · simp [State.isThrough, hk, hconflict]
    · rcases hkinds with rfl | rfl | hconflict
      · simpa [State.isThrough, hk] using .inr (hother.resolve_left (by decide))
      · simpa [State.isThrough, hk] using .inr (hother.resolve_left (by decide))
      · simp [State.isThrough, hk, hconflict]
  rw [hpass]
  exact ⟨fun hroom => congrArg _ (placePass_of_room f hroom), fun hfull => congrArg _ (placePass_of_full f hfull)⟩

theorem arrive_dropped {s : State} {f : Frame} (h : s.receives = false ∨ Frame.checked f = false) :
    s.arrive f = s := by
  rcases h with h | h <;> simp [State.arrive, h]

/-- An own answer or DONE frame for another station, come back, is dropped (R15). -/
theorem arrive_own_returned {s : State} {f : Frame} {k : Kind} (hstate : s.ringState = .probing ∨ s.ringState = .online)
    (hk : Frame.kind f = some k) (hkind : k = .ans ∨ k = .done) (hdest : Frame.dest f ≠ s.own)
    (horigin : Frame.origin f = s.own) : s.arrive f = s := by
  have hconflict : s.ringState ≠ .conflict := by rcases hstate with h | h <;> simp [h]
  have hclassify : s.classify k f = s := by
    rcases hkind with rfl | rfl <;> simp [State.classify, hdest, horigin]
  simp [State.arrive, hk, hconflict, hclassify]

/-- Settles O19: such a frame is not received, fails the check, or is one that no row of R15 takes. -/
theorem droppedFramesLeaveNoTrace : Obligations.DroppedFramesLeaveNoTrace := by
  unfold Obligations.DroppedFramesLeaveNoTrace
  intro s f
  refine ⟨fun hdropped => ?_, fun hnone => ?_, fun hstate hkind hdest horigin => ?_⟩
  · have hdrop : s.arrive f = s := arrive_dropped (by
      rcases hdropped with h | h | h | h | h | h <;> simp [State.receives, State.inReset, h])
    refine ⟨fun hk => ?_, fun hk => ?_, fun hk => ?_, fun hk => ?_, fun hrow => ?_⟩
    · exact (arriveAs_of_kind hk).trans (congrArg _ hdrop)
    · exact (arriveAs_of_kind hk).trans (congrArg _ hdrop)
    · exact (arriveAs_of_kind hk).trans (congrArg _ hdrop)
    · exact (arriveAs_of_kind hk).trans (congrArg _ hdrop)
    · have hthrough : s.isThrough f = true := by
        unfold State.isThrough
        cases hk : Frame.kind f <;> simp_all
      simp [exec, execThroughFrameArrival, hthrough, hdrop]
  · simp [exec, execThroughFrameArrival, State.isThrough, State.arrive, hnone]
  · obtain ⟨k, hk, hanswer⟩ : ∃ k, Frame.kind f = some k ∧ (k = .ans ∨ k = .done) := by
      rcases hkind with h | h
      · exact ⟨_, h, .inl rfl⟩
      · exact ⟨_, h, .inr rfl⟩
    have hdrop := arrive_own_returned hstate hk hanswer hdest horigin
    have hthrough : s.isThrough f = true := by
      rcases hanswer with rfl | rfl <;> simp [State.isThrough, hk, hdest]
    refine ⟨by simp [exec, execThroughFrameArrival, hthrough, hdrop], fun hans => ?_, fun hdone => ?_⟩
    · exact (arriveAs_of_kind hans).trans (congrArg _ hdrop)
    · exact (arriveAs_of_kind hdone).trans (congrArg _ hdrop)

/-! ### Answers -/

section
variable {s : State} {f : Frame} {e : Entry} {st : Status}

/-- A matching answer other than RETRY ends the entry that waits for it (R68). -/
theorem takeAnswer_of_answer (he : s.entry (Frame.tag f) = some e) (hm : answerStatus e f = some st)
    (hw : e.state = .waitingAnswer) (hst : st ≠ .retry) :
    s.takeAnswer f =
      s.closeEntry (Frame.tag f) e (answerCompletion st (answerFields e.request.command.op st f)) := by
  simp [State.takeAnswer, he, hm, hw, hst]

theorem closeEntry_of_not_posted (s : State) (u : Tag) {e : Entry} (c : Completion) (hp : e.posted = false) :
    s.closeEntry u e c = ((s.setEntry u none).complete e.port c).acceptWaiting e.port := by
  simp [State.closeEntry, State.tellEnd, State.reportEnd, hp]

/-- A posted write that was done ends without a trace (R68, R78). -/
theorem closeEntry_of_posted_done (s : State) (u : Tag) {e : Entry} {c : Completion} (hp : e.posted = true)
    (hc : c.code = .answer .ok ∨ c.code = .answer .corrected) : s.closeEntry u e c = s.setEntry u none := by
  simp [State.closeEntry, State.tellEnd, State.reportEnd, hp, hc]

/-- A posted write that failed ends with a notice (R68, R78). -/
theorem closeEntry_of_posted_failed (s : State) (u : Tag) {e : Entry} {c : Completion} (hp : e.posted = true)
    (hok : c.code ≠ .answer .ok) (hcorrected : c.code ≠ .answer .corrected) :
    s.closeEntry u e c =
      (s.setEntry u none).placeNotice (.postedFail e.port u e.target e.request.page e.request.offset c.code) := by
  simp [State.closeEntry, State.tellEnd, State.reportEnd, hp, hok, hcorrected]

/-- Data and guard bit come with a READ or HOLD_READ that read its word (R34, R68). -/
theorem answerFields_of_read {o : Op} (f : Frame) (ho : o = .read ∨ o = .holdRead)
    (hst : st = .ok ∨ st = .corrected) : answerFields o st f = .word (Frame.guard f) (Frame.data f) := by
  rcases ho with rfl | rfl <;> rcases hst with rfl | rfl <;> rfl

/-- Any other answer carries its PROGRESS, or nothing (R31, R34). -/
theorem answerFields_of_other {o : Op} (f : Frame) (h : ¬((o = .read ∨ o = .holdRead) ∧ (st = .ok ∨ st = .corrected))) :
    answerFields o st f =
      if carriesProgress o st = true then
        match Frame.progress f with
        | some pr => .bulk pr
        | none => .word false 0
      else .word false 0 := by
  unfold answerFields
  split
  case h_5 => rfl
  all_goals simp at h

theorem answerFields_of_progress {o : Op} {f : Frame} {pr : Progress}
    (h : (o = .bulkQuery ∧ st = .ok) ∨ (o = .bulkAbort ∧ st = .aborted)) (hpr : Frame.progress f = some pr) :
    answerFields o st f = .bulk pr := by
  rw [answerFields_of_other f (by rcases h with ⟨rfl, -⟩ | ⟨rfl, -⟩ <;> simp), if_pos ((carriesProgress_iff o st).mpr h),
    hpr]

theorem answerFields_of_status {o : Op} (f : Frame)
    (hread : ¬((o = .read ∨ o = .holdRead) ∧ (st = .ok ∨ st = .corrected)))
    (hprogress : ¬((o = .bulkQuery ∧ st = .ok) ∨ (o = .bulkAbort ∧ st = .aborted))) :
    answerFields o st f = .word false 0 := by
  rw [answerFields_of_other f hread, if_neg (mt (carriesProgress_iff o st).mp hprogress)]

end

/-- Settles O15: a matching answer ends its entry with the fields that the entry's operation and the status make
present. -/
theorem matchingAnswerEndsTheEntry : Obligations.MatchingAnswerEndsTheEntry := by
  unfold Obligations.MatchingAnswerEndsTheEntry
  intro s f e st htakes hkind hdest he hw ht hp hst hretry o progress
  have hexec (hpr : progress → Frame.progress f ≠ none) : exec (.ansArrival f) s =
      .next (s.closeEntry (Frame.tag f) e (answerCompletion st (answerFields o st f))) := by
    rw [exec_ansArrival_own htakes hkind hdest]
    have hmatch := answerStatus_of_match ht hp hst fun hc => hpr ((carriesProgress_iff _ _).mp hc)
    exact congrArg _ (takeAnswer_of_answer he hmatch hw hretry)
  refine ⟨fun hposted ho hok => ?_, fun hposted hprogress pr hpr => ?_, fun hposted hread hprogress => ?_,
    fun hposted hprogress hok => ?_, fun hposted hprogress hok hcorrected => ?_⟩
  · have hnone : ¬progress := by rcases ho with ho | ho <;> simp [progress, ho]
    rw [hexec fun h => absurd h hnone, closeEntry_of_not_posted _ _ _ hposted, answerFields_of_read f ho hok]
    rfl
  · rw [hexec fun _ => by simp [hpr], closeEntry_of_not_posted _ _ _ hposted, answerFields_of_progress hprogress hpr]
    rfl
  · rw [hexec fun h => absurd h hprogress, closeEntry_of_not_posted _ _ _ hposted,
      answerFields_of_status f hread hprogress]
    rfl
  · rw [hexec fun h => absurd h hprogress, closeEntry_of_posted_done _ _ hposted]
    simpa [answerCompletion] using hok
  · rw [hexec fun h => absurd h hprogress, closeEntry_of_posted_failed _ _ hposted]
    · rfl
    · simpa [answerCompletion] using hok
    · simpa [answerCompletion] using hcorrected

end Sys2Proof.Machine
end

section
/-! PROOF. The request pins, the accesses to the control space, and the arbiter's claims (R17, R28, R40 to R45, R58 to
R61, R90 to R96, R108, R148, R171 to R178). -/

namespace Sys2Proof.Machine

/-! ### The pins -/

theorem setStrobe_self {s : State} {q : Port} {x : Strobe} (h : s.strobe q = x) : s.setStrobe q x = s := by
  subst h
  cases s
  cases q <;> rfl

theorem raised_of_not_accepted {x : Strobe} (r : PortRequest) (h : ∀ r', x ≠ .accepted r') :
    x.raised r = .presented r := by
  cases x with
  | low => rfl
  | presented _ => rfl
  | accepted r' => exact absurd rfl (h r')

/-- What the pins ask for, with the codes that they carry (R28, R40, R43). -/
theorem pinsCommand_asks {q : Port} {r : PortRequest} {c : Command} (h : pinsCommand q r = some c) :
    (r.op = 1 ∧ c = .read)
    ∨ (r.op = 2 ∧ ∃ a : GuardAct, r.guardAct = a.code ∧ r.lanes ≠ 0 ∧ c = .write r.lanes r.data a)
    ∨ (r.op = 3 ∧ c = .holdRead)
    ∨ (r.op = 4 ∧ ∃ a : GuardAct, r.guardAct = a.code ∧ c = mkCommit r.lanes r.data a)
    ∨ (r.op = 5 ∧ q = .p ∧ ∃ k : BulkKind, r.bulkKind = k.code ∧ c = mkBulkStart k r.data r.count)
    ∨ (r.op = 6 ∧ c = .bulkQuery)
    ∨ (r.op = 7 ∧ c = .bulkAbort) := by
  unfold pinsCommand at h
  cases ho : Op.ofCode r.op with
  | none => simp [ho] at h
  | some o =>
    have hcode : r.op = o.code := (op_ofCode_eq_some_iff _ _).mp ho
    cases o with
    | read => simp_all [Op.code]
    | holdRead => simp_all [Op.code]
    | bulkQuery => simp_all [Op.code]
    | bulkAbort => simp_all [Op.code]
    | write =>
      cases ha : GuardAct.ofCode r.guardAct with
      | none => simp [ho, ha] at h
      | some a =>
        obtain ⟨hlanes, rfl⟩ : r.lanes ≠ 0 ∧ .write r.lanes r.data a = c := by simpa [ho, ha] using h
        exact .inr (.inl ⟨hcode, a, (guardAct_ofCode_eq_some_iff _ _).mp ha, hlanes, rfl⟩)
    | commit =>
      cases ha : GuardAct.ofCode r.guardAct with
      | none => simp [ho, ha] at h
      | some a =>
        simp only [ho, ha] at h
        split at h
        · cases h
          exact .inr (.inr (.inr (.inl ⟨hcode, a, (guardAct_ofCode_eq_some_iff _ _).mp ha, rfl⟩)))
        · cases h
    | bulkStart =>
      cases hk : BulkKind.ofCode r.bulkKind with
      | none => simp [ho, hk] at h
      | some k =>
        simp only [ho, hk] at h
        split at h
        · rename_i hq
          cases h
          exact .inr (.inr (.inr (.inr (.inl ⟨hcode, hq, k, (bulkKind_ofCode_eq_some_iff _ _).mp hk, rfl⟩))))
        · cases h

/-- Settles O21: the strobe by its cases, and the request by those of `pinsCommand_asks`. -/
theorem pinsGiveTheRequest : Obligations.PinsGiveTheRequest := by
  unfold Obligations.PinsGiveTheRequest
  refine ⟨fun s q r => ⟨rfl, fun hbusy hs => ?_, fun r' hs => ?_, fun hstays => ?_, fun hcold hwarm hidle hs => ?_,
    acceptAll_eq s, rfl, fun o t => ⟨rfl, fun _ => rfl⟩⟩, fun q r c hc => ?_⟩
  · show Host.Outcome.next ((s.setStrobe q ((s.strobe q).raised r)).acceptWaiting q) = _
    rw [raised_of_not_accepted r hs, acceptWaiting_stays]
    rcases hbusy with h | h | h
    · exact .inl (by simp [State.inReset, h])
    · exact .inl (by simp [State.inReset, h])
    · exact .inr (.inl h)
  · show Host.Outcome.next ((s.setStrobe q ((s.strobe q).raised r)).acceptWaiting q) = _
    rw [hs, Strobe.raised, acceptWaiting_stays]
    exact .inr (.inr fun r'' => by simp [strobe_setStrobe])
  · refine acceptWaiting_stays ?_
    rcases hstays with h | h | h
    · exact .inl (by simp [State.inReset, h])
    · exact .inl (by simp [State.inReset, h])
    · exact .inr h
  · have hraised : ((s.setStrobe q .low).strobe q).raised r = .presented r := by rw [strobe_setStrobe, if_pos rfl]; rfl
    show Host.Outcome.next (((s.setStrobe q .low).setStrobe q _).acceptWaiting q) = _
    rw [hraised, setStrobe_setStrobe, setStrobe_self hs]
  · have hprivileged : pinsPrivileged .p r = r.privileged ∧ pinsPrivileged .c1 r = false ∧ pinsPrivileged .c2 r = false
        ∧ pinsPrivileged .c3 r = false := by simp [pinsPrivileged]
    rcases pinsCommand_asks hc with ⟨ho, rfl⟩ | ⟨ho, a, ha, hlanes, rfl⟩ | ⟨ho, rfl⟩ | ⟨ho, a, ha, rfl⟩ |
      ⟨ho, -, k, hk, rfl⟩ | ⟨ho, rfl⟩ | ⟨ho, rfl⟩
    · simp [ho, Command.op, Op.code, Command.mask, Command.data, Command.job, hprivileged]
    · simp [ho, Command.op, Op.code, Command.mask, Command.data, Command.job, ha, hprivileged]
    · simp [ho, Command.op, Op.code, Command.mask, Command.data, Command.job, hprivileged]
    · by_cases hlanes : r.lanes = 0#4
      · simp [ho, mkCommit, hlanes, Command.op, Op.code, Command.mask, Command.data, Command.job, GuardAct.code,
          hprivileged]
      · simp [ho, mkCommit, hlanes, Command.op, Op.code, Command.mask, Command.data, Command.job, ha, hprivileged]
    · cases k <;> simp [ho, mkBulkStart, Command.op, Op.code, Command.mask, Command.data, Command.job, hk, BulkKind.code,
        hprivileged]
    · simp [ho, Command.op, Op.code, Command.mask, Command.data, Command.job, hprivileged]
    · simp [ho, Command.op, Op.code, Command.mask, Command.data, Command.job, hprivileged]

/-! ### The claims -/

theorem findSome?_cons_eq_or {α β : Type} (f : α → Option β) (a : α) (l : List α) :
    (a :: l).findSome? f = (f a).or (l.findSome? f) := by
  rw [List.findSome?_cons]
  cases f a <;> rfl

/-- Settles O28, by the definitions of the rotation and of `State.advance`. -/
theorem rotationAndPortsTakeTurns : Obligations.RotationAndPortsTakeTurns := by
  unfold Obligations.RotationAndPortsTakeTurns
  intro s f q r k d first
  have hfirst (a : Port) (h : s.portPointer = a) :
      first a (nextPort a) (nextPort (nextPort a)) (nextPort (nextPort (nextPort a))) := by
    simp only [first, State.localClaim, h, portsFrom, findSome?_cons_eq_or, List.findSome?_nil, Option.or_none,
      Option.or_assoc]
  refine ⟨fun h => by rw [State.rotationClaim, h], fun h => by rw [State.rotationClaim, h],
    fun h => by rw [State.rotationClaim, h], hfirst .p, hfirst .c1, hfirst .c2, hfirst .c3, rfl, rfl, ?_, ?_, rfl⟩
  · simp [State.advance]
  · cases q <;> rfl

theorem isWordOp_iff (o : Op) : isWordOp o = true ↔ o = .read ∨ o = .write ∨ o = .holdRead ∨ o = .commit := by
  cases o <;> simp [isWordOp]

theorem emptySlot_isSome_iff (s : State) : s.emptySlot.isSome = true ↔ ∃ i, s.slot i = none := by
  simp [State.emptySlot, List.find?_isSome, mem_allSlots]

/-- Where no word is held twice, a local claim is held back exactly by another's hold on its word, or as a HOLD_READ with
no slot for its hold (R96, R128). -/
theorem portEligible_iff {s : State} {q : Port} {r : Request}
    (hunique : ∀ i j a b, s.slot i = some a → s.slot j = some b → a.page = b.page → a.offset = b.offset → i = j) :
    s.portEligible q r = true ↔ ¬(isWordOp r.command.op = true
      ∧ ((∃ i h, s.slot i = some h ∧ h.page = r.page ∧ h.offset = r.offset ∧ h.holder ≠ ⟨s.own, q⟩)
        ∨ (r.command.op = .holdRead ∧ s.Unheld r ∧ ∀ i, s.slot i ≠ none))) := by
  unfold State.portEligible
  by_cases hword : isWordOp r.command.op = true
  · rw [if_pos hword]
    cases hheld : s.holdOn r.page r.offset with
    | some x =>
      obtain ⟨i, h⟩ := x
      obtain ⟨hslot, hp, ho⟩ := holdOn_some hheld
      have hunheld : ¬s.Unheld r := fun hn => hn i h hslot ⟨hp, ho⟩
      have hother : (∃ i h, s.slot i = some h ∧ h.page = r.page ∧ h.offset = r.offset ∧ h.holder ≠ ⟨s.own, q⟩)
          ↔ h.holder ≠ ⟨s.own, q⟩ := by
        refine ⟨fun ⟨j, k, hk, hkp, hko, hne⟩ => ?_, fun hne => ⟨i, h, hslot, hp, ho, hne⟩⟩
        obtain rfl := hunique i j h k hslot hk (hp.trans hkp.symm) (ho.trans hko.symm)
        rw [hslot] at hk
        cases hk
        exact hne
      simp [hword, hunheld, hother]
    | none =>
      have hunheld : s.Unheld r := holdOn_none.mp hheld
      have hnobody : ¬∃ i h, s.slot i = some h ∧ h.page = r.page ∧ h.offset = r.offset ∧ h.holder ≠ ⟨s.own, q⟩ :=
        fun ⟨i, h, hslot, hp, ho, _⟩ => hunheld i h hslot ⟨hp, ho⟩
      simp only [Bool.or_eq_true, bne_iff_ne, emptySlot_isSome_iff, hword, hunheld, hnobody, false_or, true_and, not_and,
        not_forall, not_not]
      exact imp_iff_not_or.symm
  · simp [hword]

/-- Settles O29: each claim by its own condition, that of a port by `portEligible_iff`. -/
theorem eligibleClaims : Obligations.EligibleClaims := by
  unfold Obligations.EligibleClaims
  intro s place heldBack mayEndElsewhere
  have hplace : s.placeForAnswer = true ↔ place := placeForAnswer_iff s
  refine ⟨fun f => ?_, fun c hc => ?_, fun hunique q r => ?_, ?_⟩
  · unfold State.remoteClaim
    cases hin : s.inbound with
    | nil => simp
    | cons x l =>
      by_cases hfree : s.placeForAnswer = true
      · simp [hfree, hplace.mp hfree]
      · simp [hfree, mt hplace.mpr hfree]
  · obtain ⟨q, r, rfl, hq, -⟩ := localClaim_some hc
    exact ⟨q, r, rfl, hq⟩
  · unfold State.portClaim
    cases hport : s.port q with
    | atBank x =>
      have heligible : s.portEligible q x = true ↔ ¬heldBack q x := by
        rw [portEligible_iff hunique]
        simp only [heldBack, isWordOp_iff]
      by_cases hx : s.portEligible q x = true
      · simp only [hx, if_true, Option.some.injEq, Claim.port.injEq, true_and, PortState.atBank.injEq]
        exact ⟨fun h => ⟨h, h ▸ heligible.mp hx⟩, fun h => h.1⟩
      · simp only [hx, PortState.atBank.injEq]
        exact ⟨fun h => (nomatch h), fun ⟨h, hnot⟩ => absurd (heligible.mpr (h ▸ hnot)) hx⟩
    | _ => simp
  · unfold State.bulkClaim
    cases hbulk : s.bulk with
    | none => simp
    | some j =>
      have hneeds : stepNeedsPlace s.own j = true ↔ mayEndElsewhere j := by
        simp [stepNeedsPlace, mayEndElsewhere]
      simp only [Option.some.injEq, exists_eq_left', ite_eq_left_iff, ← hneeds, ← hplace]
      cases j.slot <;> cases stepNeedsPlace s.own j <;> cases s.placeForAnswer <;> simp

end Sys2Proof.Machine
end

section
/-! PROOF. The items of the control space, bit by bit, and the ends of the accesses to them (R48, R169, R171 to
R178). -/

namespace Sys2Proof.Machine

/-! ### The layouts -/

@[simp] theorem getLsbD_bit_zero (b : Bool) : (bit b).getLsbD 0 = b := by simp [bit]

/-- The fields of a word are read by leaving out, from the right, the fields below them. -/
theorem windowWord_fields (w : Window) :
    (windowWord w).getLsbD 31 = w.valid ∧ (windowWord w).extractLsb' 18 13 = 0
      ∧ (windowWord w).getLsbD 17 = w.privOnly ∧ (windowWord w).getLsbD 16 = w.readOnly
      ∧ (windowWord w).extractLsb' 11 5 = 0 ∧ (windowWord w).extractLsb' 8 3 = w.target
      ∧ (windowWord w).extractLsb' 5 3 = 0 ∧ (windowWord w).extractLsb' 0 5 = w.page := by
  unfold windowWord
  simp (discharger := decide) only [BitVec.extractLsb'_append_eq_of_le, BitVec.extractLsb'_append_eq_of_add_le,
    BitVec.extractLsb'_eq_self, Nat.reduceSub, BitVec.getLsbD_append, getLsbD_bit_zero, Nat.reduceLT, reduceIte,
    BitVec.ofNat_eq_ofNat, and_self]

theorem holdItem_holdWord (h : Option Hold) : HoldItem (holdWord h) h := by
  cases h with
  | none => rfl
  | some h =>
    unfold HoldItem holdWord countField
    simp (discharger := decide) only [BitVec.extractLsb'_append_eq_of_le, BitVec.extractLsb'_append_eq_of_add_le,
      BitVec.extractLsb'_eq_self, Nat.reduceSub, BitVec.getLsbD_append, getLsbD_bit_zero, Nat.reduceLT, reduceIte,
      and_self, and_true]
    decide

theorem bulkItem_bulkWords (b : Option Job) : BulkItem (bulkWords b) b := by
  cases b with
  | none => rfl
  | some j =>
    refine ⟨_, _, _, _, rfl, ?_⟩
    unfold waitingCode countField
    simp (discharger := decide) only [BitVec.extractLsb'_append_eq_of_le, BitVec.extractLsb'_append_eq_of_add_le,
      BitVec.extractLsb'_eq_self, Nat.reduceSub, BitVec.getLsbD_append, getLsbD_bit_zero, Nat.reduceLT, reduceIte,
      true_and, BitVec.ofNat_eq_ofNat]
    have hslot : slotField j.slot = match j.slot with
        | none => 0#3
        | some i => BitVec.ofNat 3 i.val := by cases j.slot <;> rfl
    exact ⟨hslot, rfl, rfl, rfl, rfl⟩

theorem zero_append_eq_setWidth (x : BitVec 5) : 0#27 ++ x = x.setWidth 32 := by
  apply BitVec.eq_of_toNat_eq
  simp only [BitVec.toNat_append, BitVec.toNat_ofNat, Nat.zero_mod, Nat.zero_shiftLeft, Nat.zero_or, BitVec.toNat_setWidth]
  omega

theorem noticeItem_noticeReadWords (l : List Notice) : NoticeItem (noticeReadWords l) l.head? := by
  cases l with
  | nil => rfl
  | cons n l =>
    cases n with
    | postedFail port tag target page offset code =>
      refine ⟨1#4 ++ port.code ++ tag ++ target ++ page ++ 0#1 ++ offset, ?_, ?_⟩
      · rw [← zero_append_eq_setWidth]; rfl
      · simp (discharger := decide) only [BitVec.extractLsb'_append_eq_of_le, BitVec.extractLsb'_append_eq_of_add_le,
          BitVec.extractLsb'_eq_self, Nat.reduceSub, BitVec.getLsbD_append, Nat.reduceLT, reduceIte,
          BitVec.ofNat_eq_ofNat, and_true, true_and]
        decide
    | bulkDone server port kind outcome t first =>
      refine ⟨_, _, _, rfl, ?_⟩
      have houtcome : outcome.code.getLsbD 0 = decide (outcome = .mismatch) := by cases outcome <;> rfl
      simp (discharger := decide) only [BitVec.extractLsb'_append_eq_of_le, BitVec.extractLsb'_append_eq_of_add_le,
        BitVec.extractLsb'_eq_self, Nat.reduceSub, BitVec.getLsbD_append, getLsbD_bit_zero, Nat.reduceLT, reduceIte,
        BitVec.ofNat_eq_ofNat, and_self, and_true, true_and, houtcome]
      decide
    | ringState st => rfl
    | ringDrop => rfl

/-! ### The ends of accesses -/

/-- What `windowOfWord` reads of a word, a later read returns, with the bits of no field 0 (R172, R178). -/
theorem windowWord_windowOfWord (v : Word) : windowWord (windowOfWord v) = v &&& 0x8003071F#32 := by
  unfold windowWord windowOfWord
  ext i hi
  simp only [← BitVec.getLsbD_eq_getElem, BitVec.getLsbD_append, BitVec.getLsbD_and]
  interval_cases i <;> simp [bit]

/-- Settles O49: the entry is replaced whole, or the write refused. -/
theorem controlWritesEnd : Obligations.ControlWritesEnd := by
  unfold Obligations.ControlWritesEnd
  intro s
  refine ⟨fun n v hp => ⟨?_, windowWord_windowOfWord v⟩, fun hp => ?_⟩
  · simp only [exec, execWindowWrite, hp]; rfl
  · simp only [exec, execControlSpaceWrite, hp]; rfl

theorem countP_toList_eq_finRange {α : Type} {n : Nat} (v : Vector α n) (f : α → Bool) :
    v.toList.countP f = (List.finRange n).countP fun i => f (v.get i) := by
  have hlist : v.toList = (List.finRange n).map v.get := by
    apply List.ext_getElem
    · simp
    · intro i _ _
      simp [Vector.get_eq_getElem]
  rw [hlist, List.countP_map]
  rfl

theorem entryCount_eq (table : Vector (Option Entry) 16) (st : EntryState) :
    entryCount table st =
      (List.finRange 16).countP fun i => (table.get i).any fun e => decide (e.state = st) := by
  rw [entryCount, countP_toList_eq_finRange]
  refine List.countP_congr fun i _ => ?_
  cases table.get i <;> simp

theorem holdCount_eq (holds : Vector (Option Hold) 6) :
    holdCount holds = (List.finRange 6).countP fun i => (holds.get i).isSome := countP_toList_eq_finRange holds _

theorem attentionLevel_drop (l : List Notice) (lost : Bool) :
    attentionLevel (l.drop 1) lost = (decide (2 ≤ l.length) || lost) := by
  match l with
  | [] => rfl
  | [_] => rfl
  | _ :: _ :: _ => simp [attentionLevel]

/-- The fields of the two words of STATUS (R174, R178). -/
theorem statusWords_fields (s : State) : ∃ w0 w1 : Word, statusWords s = [w0, w1]
    ∧ w0.extractLsb' 0 3 = s.ringState.code ∧ w0.getLsbD 3 = false ∧ w0.extractLsb' 4 3 = s.straps.station
    ∧ w0.getLsbD 7 = false ∧ w0.extractLsb' 8 2 = pagesCode s.straps
    ∧ w0.getLsbD 10 = s.straps.guardOn ∧ w0.getLsbD 11 = s.straps.long
    ∧ w0.extractLsb' 12 2 = bulkCode s.bulk ∧ w0.extractLsb' 14 2 = 0
    ∧ w0.extractLsb' 16 4 = BitVec.ofNat 4 s.notices.length ∧ w0.getLsbD 20 = s.lost ∧ w0.extractLsb' 21 11 = 0
    ∧ w1.extractLsb' 0 5 = BitVec.ofNat 5 (entryCount s.outstanding .waitingAnswer)
    ∧ w1.extractLsb' 5 5 = BitVec.ofNat 5 (entryCount s.outstanding .waitingResend)
    ∧ w1.extractLsb' 10 5 = BitVec.ofNat 5 (entryCount s.outstanding .stale) ∧ w1.getLsbD 15 = false
    ∧ w1.extractLsb' 16 3 = BitVec.ofNat 3 (holdCount s.holds)
    ∧ w1.getLsbD 19 = false ∧ w1.extractLsb' 20 4 = BitVec.ofNat 4 s.deferred.length ∧ w1.extractLsb' 24 8 = 0 := by
  refine ⟨_, _, rfl, ?_⟩
  unfold countField
  simp (discharger := decide) only [BitVec.extractLsb'_append_eq_of_le, BitVec.extractLsb'_append_eq_of_add_le,
    BitVec.extractLsb'_eq_self, Nat.reduceSub, BitVec.getLsbD_append, getLsbD_bit_zero, Nat.reduceLT, reduceIte,
    BitVec.ofNat_eq_ofNat, and_true, true_and]
  decide

/-- Settles O48: the words are those of the layouts, and the counts those of the tables. -/
theorem noticeAndStatusReads : Obligations.NoticeAndStatusReads := by
  unfold Obligations.NoticeAndStatusReads
  intro s entries
  refine ⟨fun hp => ⟨noticeReadWords s.notices, ?_, noticeItem_noticeReadWords _⟩, fun hp => ?_, rfl, rfl, rfl, rfl⟩
  · rw [← List.drop_one, ← attentionLevel_drop]
    simp only [exec, execNoticeRead, hp]
    rfl
  · obtain ⟨w0, w1, hwords, hfields⟩ := statusWords_fields s
    refine ⟨w0, w1, ?_, ?_⟩
    · have hattention : decide (s.notices ≠ []) = attentionLevel s.notices false := by
        cases hn : s.notices <;> simp [attentionLevel]
      rw [hattention, ← hwords]
      simp only [exec, execStatusRead, hp]
      rfl
    · have hbulk : bulkCode s.bulk = match s.bulk with | none => 0 | some j => if j.slot.isSome then 2 else 1 := by
        cases s.bulk <;> rfl
      simp only [entryCount_eq, holdCount_eq, pagesCode, hbulk] at hfields
      exact hfields

/-! ### The access at its acceptance -/

section
variable {o : Offset}

theorem itemAt_window (h : o.toNat < 32) : itemAt o = some (.window (o.setWidth 5)) := if_pos h

theorem itemAt_status (h : o.toNat = 0x40) : itemAt o = some .status := by simp [itemAt, h]

theorem itemAt_notice (h : o.toNat = 0x41) : itemAt o = some .notice := by simp [itemAt, h]

theorem itemAt_hold (i : Slot) (h : o.toNat = 0x50 + i.val) : itemAt o = some (.hold i) := by
  fin_cases i <;> simp [itemAt, h]

theorem itemAt_bulk (h : o.toNat = 0x60) : itemAt o = some .bulk := by simp [itemAt, h]

/-- Every other offset names no item (R178). -/
theorem itemAt_none (h : ¬(o.toNat < 32 ∨ o.toNat = 0x40 ∨ o.toNat = 0x41 ∨ (0x50 ≤ o.toNat ∧ o.toNat ≤ 0x55)
    ∨ o.toNat = 0x60)) : itemAt o = none := by
  unfold itemAt
  simp only
  repeat rw [if_neg (by omega)]

/-- The items above the window map are those that are not writable (R171, R178). -/
theorem itemAt_refused (s : State) (v : Word) (h : o.toNat = 0x40 ∨ o.toNat = 0x41
    ∨ (0x50 ≤ o.toNat ∧ o.toNat ≤ 0x55) ∨ o.toNat = 0x60) :
    ∃ it, itemAt o = some it ∧ s.controlWrite v it = s.setPort .p (.control .refusedWrite) := by
  rcases h with h | h | ⟨hlow, hhigh⟩ | h
  · exact ⟨_, itemAt_status h, rfl⟩
  · exact ⟨_, itemAt_notice h, rfl⟩
  · exact ⟨_, itemAt_hold ⟨o.toNat - 0x50, by omega⟩ (by simp; omega), rfl⟩
  · exact ⟨_, itemAt_bulk h, rfl⟩

end

section
variable (s : State) {r : PortRequest}

theorem acceptControl_of_other (h1 : r.op ≠ 1) (h2 : r.op ≠ 2) :
    s.acceptControl r = s.complete .p ⟨.badRequest, [0], false⟩ := by
  have hread : Op.ofCode r.op ≠ some .read := mt (op_ofCode_eq_some_iff _ _).mp h1
  have hwrite : Op.ofCode r.op ≠ some .write := mt (op_ofCode_eq_some_iff _ _).mp h2
  simp [State.acceptControl, hread, hwrite, State.refuse, plainCompletion]

/-- A READ or WRITE of the control space is asked for its privilege, then for its item (R171). -/
theorem acceptControl_of_access (h : r.op = 1 ∨ r.op = 2) : s.acceptControl r =
    if r.privileged then
      match itemAt r.offset with
      | none => s.complete .p ⟨.badRequest, [0], false⟩
      | some it => if r.op = 1 then s.controlRead it else s.controlWrite r.data it
    else s.complete .p ⟨.noAccess, [0], false⟩ := by
  have hread : Op.ofCode 1 = some .read := by decide
  rcases h with h | h
  · simp only [State.acceptControl, h, hread, if_true]
    rfl
  · simp [State.acceptControl, h]
    rfl

end

/-- Settles O24: each access by `acceptControl_of_access` and the item at its offset. -/
theorem controlAccessIsChecked : Obligations.ControlAccessIsChecked := by
  unfold Obligations.ControlAccessIsChecked
  intro s r hs hcold hwarm hidle hcontrol s1 n item done begun
  have hexec : exec (.acceptance .p (some r)) s = .next (s1.acceptControl r) := by
    have hselected : pinsControl .p r = true := by simp [pinsControl, hcontrol]
    rw [exec_acceptance_takes r hs hcold hwarm hidle, State.accept]
    simp only [hselected, if_true]
    rfl
  have hread (hop : r.op = 1) (hprivileged : r.privileged = true) {it : Item} (hit : itemAt r.offset = some it) :
      exec (.acceptance .p (some r)) s = .next (s1.controlRead it) := by
    rw [hexec, acceptControl_of_access s1 (.inl hop), if_pos hprivileged, hit]
    exact congrArg _ (if_pos hop)
  have hwrite (hop : r.op = 2) (hprivileged : r.privileged = true) {it : Item} (hit : itemAt r.offset = some it) :
      exec (.acceptance .p (some r)) s = .next (s1.controlWrite r.data it) := by
    rw [hexec, acceptControl_of_access s1 (.inr hop), if_pos hprivileged, hit]
    exact congrArg _ (if_neg (by rw [hop]; decide))
  refine ⟨fun h1 h2 => ?_, fun hop hplain => ?_, fun hop hprivileged hnone => ?_, fun hop hprivileged k hk => ?_,
    fun hop hprivileged i hi => ?_, fun hop hprivileged hn => ?_, fun hop hprivileged hn => ?_,
    fun hop hprivileged hn => ?_, fun hop hprivileged hn => ?_, fun hop hprivileged hitem hn => ?_⟩
  · exact hexec.trans (congrArg _ (acceptControl_of_other s1 h1 h2))
  · refine hexec.trans (congrArg _ ?_)
    rw [acceptControl_of_access s1 hop, hplain]
    rfl
  · refine hexec.trans (congrArg _ ?_)
    rw [acceptControl_of_access s1 hop, if_pos hprivileged, itemAt_none hnone]
  · have hwindow : s1.window (r.offset.setWidth 5) = s.windows.get k := by
      have hnumber : (r.offset.setWidth 5).toFin = k := Fin.ext (by
        rw [BitVec.val_toFin, BitVec.toNat_setWidth, show r.offset.toNat = k.val from hk]
        exact Nat.mod_eq_of_lt k.isLt)
      exact congrArg s.windows.get hnumber
    refine ⟨windowWord (s.windows.get k), ?_, windowWord_fields _⟩
    rw [← hwindow]
    exact hread hop hprivileged (itemAt_window (by rw [show r.offset.toNat = k.val from hk]; exact k.isLt))
  · exact ⟨holdWord (s.slot i), hread hop hprivileged (itemAt_hold i hi), holdItem_holdWord _⟩
  · exact ⟨bulkWords s.bulk, hread hop hprivileged (itemAt_bulk hn), bulkItem_bulkWords _⟩
  · exact hread hop hprivileged (itemAt_status hn)
  · exact hread hop hprivileged (itemAt_notice hn)
  · have hnumber : BitVec.ofNat 5 n = r.offset.setWidth 5 := by
      apply BitVec.eq_of_toNat_eq
      simp [n]
    rw [hnumber]
    exact hwrite hop hprivileged (itemAt_window hn)
  · obtain ⟨it, hit, hrefused⟩ := itemAt_refused s1 r.data (hitem.resolve_left (Nat.not_lt.mpr hn))
    exact (hwrite hop hprivileged hit).trans (congrArg _ hrefused)

end Sys2Proof.Machine
end

section
/-! PROOF. What a REQ frame asks for, and the frames that survive their way (R27 to R36, R110). -/

namespace Sys2Proof.Machine

/-! ### What a REQ frame asks for -/

section
variable {f : Frame}

theorem op_eq_none (h : Frame.op f = none) : f.extractLsb' 120 4 = 0#4 ∨ 8#4 ≤ f.extractLsb' 120 4 :=
  (op_ofCode_eq_none_iff _).mp h

theorem op_eq_some {o : Op} (h : Frame.op f = some o) : f.extractLsb' 120 4 = o.code := (op_ofCode_eq_some_iff _ _).mp h

theorem framePort_eq_p_iff : Frame.port f = .p ↔ f.extractLsb' 106 2 = 0#2 := by
  have hcode (x : BitVec 2) : Port.ofCode x = .p ↔ x = 0#2 := by revert x; decide
  exact hcode _

/-- A BULK_START has its range in its page and comes from a port P unless one of the clauses of R30 holds. -/
theorem bulkStart_legal_iff : (countFits (Frame.offset f) (Frame.count f) && Frame.port f == .p) = true ↔
    ¬(f.extractLsb' 24 14 = 0#14 ∨ 8192 < (f.extractLsb' 24 14).toNat
      ∨ 8192 < (f.extractLsb' 72 13).toNat + (f.extractLsb' 24 14).toNat ∨ f.extractLsb' 106 2 ≠ 0#2) := by
  have hzero : f.extractLsb' 24 14 = 0#14 ↔ (f.extractLsb' 24 14).toNat = 0 := by rw [← BitVec.toNat_inj]; rfl
  rw [Bool.and_eq_true, beq_iff_eq, framePort_eq_p_iff, hzero]
  simp only [countFits, Bool.and_eq_true, decide_eq_true_eq]
  show (1 ≤ (f.extractLsb' 24 14).toNat ∧ (f.extractLsb' 72 13).toNat + (f.extractLsb' 24 14).toNat ≤ 8192) ∧ _ ↔ _
  constructor
  · rintro ⟨⟨hone, hpage⟩, hport⟩
    simp only [hport, ne_eq, not_true_eq_false, or_false]
    omega
  · intro h
    simp only [not_or, not_not] at h
    obtain ⟨hzero, -, hpage, hport⟩ := h
    exact ⟨⟨by omega, by omega⟩, hport⟩

/-- A frame asks for nothing exactly where R30 calls it malformed. -/
theorem command_eq_none_iff (f : Frame) : Frame.command f = none ↔ MalformedRequest f := by
  unfold Frame.command
  cases ho : Frame.op f with
  | none =>
    have hunused := op_eq_none ho
    simp only [true_iff]
    exact hunused.imp_right .inl
  | some o =>
    have hcode := op_eq_some ho
    cases o with
    | read => simp [MalformedRequest, hcode, Op.code]
    | holdRead => simp [MalformedRequest, hcode, Op.code]
    | bulkQuery => simp [MalformedRequest, hcode, Op.code]
    | bulkAbort => simp [MalformedRequest, hcode, Op.code]
    | write =>
      have hlanes : Frame.lanes f = f.extractLsb' 96 4 := rfl
      cases ha : Frame.guardAct f with
      | none =>
        have hact : f.extractLsb' 102 2 = 3#2 := (guardAct_ofCode_eq_none_iff _).mp ha
        simp [MalformedRequest, hcode, Op.code, hact]
      | some a =>
        have hact : f.extractLsb' 102 2 = a.code := (guardAct_ofCode_eq_some_iff _ _).mp ha
        cases a <;> simp [MalformedRequest, hcode, Op.code, hact, GuardAct.code, hlanes]
    | commit =>
      cases ha : Frame.guardAct f with
      | none =>
        have hact : f.extractLsb' 102 2 = 3#2 := (guardAct_ofCode_eq_none_iff _).mp ha
        simp [MalformedRequest, hcode, Op.code, hact]
      | some a =>
        have hact : f.extractLsb' 102 2 = a.code := (guardAct_ofCode_eq_some_iff _ _).mp ha
        cases a <;> simp [MalformedRequest, hcode, Op.code, hact, GuardAct.code]
    | bulkStart =>
      cases hk : Frame.jobKind f with
      | none =>
        have hkind : f.extractLsb' 16 2 = 0#2 := (bulkKind_ofCode_eq_none_iff _).mp hk
        simp [MalformedRequest, hcode, Op.code, hkind]
      | some k =>
        have hkind : f.extractLsb' 16 2 ≠ 0#2 := by
          have hkcode : f.extractLsb' 16 2 = k.code := (bulkKind_ofCode_eq_some_iff _ _).mp hk
          rw [hkcode]; cases k <;> decide
        have hlegal := bulkStart_legal_iff (f := f)
        cases hl : countFits (Frame.offset f) (Frame.count f) && Frame.port f == .p with
        | true =>
          have hfits := hlegal.mp hl
          simp only [MalformedRequest, hcode, hkind, hfits]
          simp [Op.code]
        | false =>
          have hbreaks := not_not.mp (mt hlegal.mpr (by simp [hl]))
          simp only [MalformedRequest, hcode, hkind, hbreaks]
          simp [Op.code]

theorem request_eq_none_iff (f : Frame) : Frame.request f = none ↔ MalformedRequest f := by
  rw [Frame.request, Option.map_eq_none_iff, command_eq_none_iff]

/-- A frame that is not malformed asks for what its fields say (R28, R110). -/
theorem request_eq {c : Command} (h : Frame.command f = some c) :
    Frame.request f = some ⟨c, f.getLsbD 105, f.extractLsb' 88 5, f.extractLsb' 72 13⟩ := by
  have hprivileged : Frame.privileged f = f.getLsbD 105 := by
    have hbit : Frame.field f 2 1 1 = BitVec.ofBool (f.getLsbD 105) := by
      apply BitVec.eq_of_getLsbD_eq
      intro i hi
      obtain rfl : i = 0 := by omega
      simp [Frame.field]
    rw [Frame.privileged, hbit]
    cases f.getLsbD 105 <;> rfl
  rw [Frame.request, h, Option.map_some, hprivileged]
  rfl

theorem command_of_write {a : GuardAct} (hop : Frame.op f = some .write) (ha : Frame.guardAct f = some a)
    (hl : Frame.lanes f ≠ 0) : Frame.command f = some (.write (Frame.lanes f) (Frame.data f) a) := by
  simp only [Frame.command, hop, ha]
  exact if_neg hl

theorem command_of_commit {a : GuardAct} (hop : Frame.op f = some .commit) (ha : Frame.guardAct f = some a) :
    Frame.command f = some (mkCommit (Frame.lanes f) (Frame.data f) a) := by
  simp only [Frame.command, hop, ha, Option.map_some]

theorem command_of_bulkStart {k : BulkKind} (hop : Frame.op f = some .bulkStart) (hk : Frame.jobKind f = some k)
    (hlegal : (countFits (Frame.offset f) (Frame.count f) && Frame.port f == .p) = true) :
    Frame.command f = some (mkBulkStart k (Frame.data f) (Frame.count f)) := by
  simp only [Frame.command, hop, hk]
  exact if_pos hlegal

theorem frameOp_of_code {o : Op} (h : f.extractLsb' 120 4 = o.code) : Frame.op f = some o :=
  (op_ofCode_eq_some_iff _ _).mpr h

end

/-! ### A request's way to its frame and back -/

/-- A frame with the codes of a command that the port's checks let through asks for that command (R27, R28). -/
theorem command_of_fields {f : Frame} {q : Port} {r : PortRequest} {c : Command} (hc : pinsCommand q r = some c)
    (hfits : rangeFits r.offset c = true) (hop : f.extractLsb' 120 4 = c.op.code)
    (hact : f.extractLsb' 102 2 = c.mask.1) (hlanes : f.extractLsb' 96 4 = c.mask.2) (hdata : f.extractLsb' 40 32 = c.data)
    (hcount : f.extractLsb' 24 14 = c.job.1) (hkind : f.extractLsb' 16 2 = c.job.2)
    (hport : Frame.port f = q) (hoffset : f.extractLsb' 72 13 = r.offset) : Frame.command f = some c := by
  have hop : Frame.op f = some c.op := frameOp_of_code hop
  have hact (a : GuardAct) (ha : c.mask.1 = a.code) : Frame.guardAct f = some a :=
    (guardAct_ofCode_eq_some_iff _ _).mpr (hact.trans ha)
  have hkind (k : BulkKind) (hk : c.job.2 = k.code) : Frame.jobKind f = some k :=
    (bulkKind_ofCode_eq_some_iff _ _).mpr (hkind.trans hk)
  have hlanes : Frame.lanes f = c.mask.2 := hlanes
  have hdata : Frame.data f = c.data := hdata
  have hcount : Frame.count f = c.job.1 := hcount
  have hoffset : Frame.offset f = r.offset := hoffset
  rcases pinsCommand_asks hc with ⟨-, rfl⟩ | ⟨-, a, -, hl, rfl⟩ | ⟨-, rfl⟩ | ⟨-, a, -, rfl⟩ | ⟨-, rfl, k, -, rfl⟩ |
    ⟨-, rfl⟩ | ⟨-, rfl⟩
  · rw [Frame.command, hop]; rfl
  · rw [command_of_write hop (hact a rfl) (by rw [hlanes]; exact hl), hlanes, hdata]
    rfl
  · rw [Frame.command, hop]; rfl
  · by_cases hl : r.lanes = 0
    · have hrelease : mkCommit r.lanes r.data a = .commit 0 0 .keep := if_pos hl
      rw [hrelease] at hop hact hlanes hdata ⊢
      rw [command_of_commit hop (hact .keep rfl), hlanes]
      exact congrArg some (if_pos rfl)
    · have hwrites : mkCommit r.lanes r.data a = .commit r.lanes r.data a := if_neg hl
      rw [hwrites] at hop hact hlanes hdata ⊢
      rw [command_of_commit hop (hact a rfl), hlanes, hdata]
      exact congrArg some (if_neg hl)
  · have hlegal : (countFits (Frame.offset f) (Frame.count f) && Frame.port f == .p) = true := by
      rw [hcount, hoffset, hport]
      exact (Bool.and_true _).trans hfits
    rw [command_of_bulkStart hop (hkind k rfl) hlegal, hdata, hcount]
    cases k <;> rfl
  · rw [Frame.command, hop]; rfl
  · rw [Frame.command, hop]; rfl

/-- The fields of a REQ frame as made (R28). -/
theorem reqFrame_fields (own dest : Station) (tag : Tag) (q : Port) (r : Request) :
    let f := reqFrame own dest tag q r
    f.extractLsb' 124 4 = 1 ∧ f.extractLsb' 120 4 = r.command.op.code ∧ f.extractLsb' 116 3 = dest
      ∧ f.extractLsb' 112 3 = own ∧ f.extractLsb' 108 4 = tag ∧ f.extractLsb' 106 2 = q.code
      ∧ f.getLsbD 105 = r.privileged ∧ f.extractLsb' 102 2 = r.command.mask.1 ∧ f.extractLsb' 96 4 = r.command.mask.2
      ∧ f.extractLsb' 88 5 = r.page ∧ f.extractLsb' 72 13 = r.offset ∧ f.extractLsb' 40 32 = r.command.data
      ∧ f.extractLsb' 24 14 = r.command.job.1 ∧ f.extractLsb' 16 2 = r.command.job.2 := by
  unfold reqFrame Frame.sealed
  simp (discharger := decide) only [BitVec.extractLsb'_append_eq_of_le, BitVec.extractLsb'_append_eq_of_add_le,
    BitVec.extractLsb'_eq_self, Nat.reduceSub, BitVec.getLsbD_append, getLsbD_bit_zero, Nat.reduceLT, reduceIte,
    BitVec.ofNat_eq_ofNat, and_self]

theorem ofCode_code (q : Port) : Port.ofCode q.code = q := by cases q <;> decide

/-- A request that the port's checks let through is read from its REQ frame as it was (R27, R28). -/
theorem request_reqFrame {own dest : Station} {tag : Tag} {q : Port} {pins : PortRequest} {c : Command} {page : Page}
    (hc : pinsCommand q pins = some c) (hfits : rangeFits pins.offset c = true) :
    Frame.request (reqFrame own dest tag q ⟨c, pinsPrivileged q pins, page, pins.offset⟩) =
      some ⟨c, pinsPrivileged q pins, page, pins.offset⟩ := by
  obtain ⟨-, hop, -, -, -, hport, hprivileged, hact, hlanes, hpage, hoffset, hdata, hcount, hkind⟩ :=
    reqFrame_fields own dest tag q ⟨c, pinsPrivileged q pins, page, pins.offset⟩
  have hq : Frame.port (reqFrame own dest tag q ⟨c, pinsPrivileged q pins, page, pins.offset⟩) = q :=
    (congrArg Port.ofCode hport).trans (ofCode_code q)
  rw [request_eq (command_of_fields hc hfits hop hact hlanes hdata hcount hkind hq hoffset), hprivileged, hpage, hoffset]

/-- Settles O51: what a frame asks for by `request_eq_none_iff` and the lemmas of its operations, and the round trip by
`request_reqFrame`. -/
theorem requestFramesRoundTrip : Obligations.RequestFramesRoundTrip := by
  unfold Obligations.RequestFramesRoundTrip
  refine ⟨fun f => ?_, fun own dest tag q pins c page hc hfits => ?_⟩
  · intro op lanes data act kind asks
    refine ⟨request_eq_none_iff f, fun hlegal => ?_⟩
    have hact (h : f.extractLsb' 102 2 ≠ 3#2) : Frame.guardAct f = some act := by
      show GuardAct.ofCode (f.extractLsb' 102 2) = some
        (match (f.extractLsb' 102 2).toNat with | 0 => .keep | 1 => .set | _ => .clear)
      generalize f.extractLsb' 102 2 = x at h ⊢
      revert x
      decide
    have hkind (h : f.extractLsb' 16 2 ≠ 0#2) : Frame.jobKind f = some kind := by
      show BulkKind.ofCode (f.extractLsb' 16 2) = some
        (match (f.extractLsb' 16 2).toNat with | 1 => .fill | 2 => .check | _ => .scrub)
      generalize f.extractLsb' 16 2 = x at h ⊢
      revert x
      decide
    have hclauses := hlegal
    simp only [MalformedRequest, not_or, not_and] at hclauses
    obtain ⟨-, -, hguards, hmask, hjobs⟩ := hclauses
    refine ⟨fun hop => ?_, fun hop => ?_, fun hop => ?_, fun hop => ?_, fun hop => ?_, fun hop => ?_, fun hop => ?_⟩
    · exact request_eq (by rw [Frame.command, frameOp_of_code (o := .read) hop])
    · exact request_eq (command_of_write (frameOp_of_code hop) (hact (hguards (.inl hop))) (hmask hop))
    · exact request_eq (by rw [Frame.command, frameOp_of_code (o := .holdRead) hop])
    · exact request_eq (command_of_commit (frameOp_of_code hop) (hact (hguards (.inr hop))))
    · obtain ⟨hk, hranges⟩ := hjobs hop
      refine request_eq (command_of_bulkStart (frameOp_of_code hop) (hkind hk) (bulkStart_legal_iff.mpr ?_))
      simpa only [not_or] using hranges
    · exact request_eq (by rw [Frame.command, frameOp_of_code (o := .bulkQuery) hop])
    · exact request_eq (by rw [Frame.command, frameOp_of_code (o := .bulkAbort) hop])
  · intro r f
    obtain ⟨hframe, -, hdest, horigin, htag, hport, -⟩ := reqFrame_fields own dest tag q r
    exact ⟨checked_sealed _, congrArg Kind.ofCode hframe, hdest, horigin, htag,
      (congrArg Port.ofCode hport).trans (ofCode_code q), request_reqFrame hc hfits⟩

/-! ### Answers, job ends and probes -/

theorem status_ofCode_code (st : Status) : Status.ofCode st.code = some st := by cases st <;> decide

theorem bulkKind_ofCode_code (k : BulkKind) : BulkKind.ofCode k.code = some k := by cases k <;> decide

/-- The fields that every ANS frame has (R31). -/
theorem ansFrame_fields (own dest : Station) (tag : Tag) (q : Port) (st : Status) (body : AnswerBody) :
    let f := ansFrame own dest tag q st body
    f.extractLsb' 124 4 = 2 ∧ f.extractLsb' 120 4 = st.code ∧ f.extractLsb' 116 3 = dest ∧ f.extractLsb' 112 3 = own
      ∧ f.extractLsb' 108 4 = tag ∧ f.extractLsb' 106 2 = q.code ∧ Frame.checked f = true := by
  cases body with
  | word g d =>
    refine ⟨?_, ?_, ?_, ?_, ?_, ?_, checked_sealed _⟩
    all_goals
      unfold ansFrame Frame.sealed
      simp (discharger := decide) only [BitVec.extractLsb'_append_eq_of_le, BitVec.extractLsb'_append_eq_of_add_le,
        BitVec.extractLsb'_eq_self, Nat.reduceSub, BitVec.ofNat_eq_ofNat]
  | bulk pr =>
    refine ⟨?_, ?_, ?_, ?_, ?_, ?_, checked_sealed _⟩
    all_goals
      unfold ansFrame Frame.sealed
      simp (discharger := decide) only [BitVec.extractLsb'_append_eq_of_le, BitVec.extractLsb'_append_eq_of_add_le,
        BitVec.extractLsb'_eq_self, Nat.reduceSub, BitVec.ofNat_eq_ofNat]

/-- The data and the guard bit of an ANS frame (R31). -/
theorem ansFrame_word_fields (own dest : Station) (tag : Tag) (q : Port) (st : Status) (g : Bool) (d : Word) :
    let f := ansFrame own dest tag q st (.word g d)
    f.extractLsb' 104 1 = bit g ∧ f.extractLsb' 40 32 = d := by
  unfold ansFrame Frame.sealed
  simp (discharger := decide) only [BitVec.extractLsb'_append_eq_of_le, BitVec.extractLsb'_append_eq_of_add_le,
    BitVec.extractLsb'_eq_self, Nat.reduceSub, and_self]

theorem bits_fields (t : Tallies) : t.bits.extractLsb' 42 14 = t.done ∧ t.bits.extractLsb' 28 14 = t.skipped
    ∧ t.bits.extractLsb' 14 14 = t.corrected ∧ t.bits.extractLsb' 0 14 = t.uncorrectable := by
  unfold Tallies.bits
  simp (discharger := decide) only [BitVec.extractLsb'_append_eq_of_le, BitVec.extractLsb'_append_eq_of_add_le,
    BitVec.extractLsb'_eq_self, Nat.reduceSub, and_self]

/-- PROGRESS of an ANS frame (R31). -/
theorem ansFrame_bulk_fields (own dest : Station) (tag : Tag) (q : Port) (st : Status) (pr : Progress) :
    let f := ansFrame own dest tag q st (.bulk pr)
    f.extractLsb' 102 2 = waitingCode pr.waiting ∧ f.extractLsb' 88 13 = pr.next ∧ f.extractLsb' 72 14 = pr.remaining
      ∧ f.extractLsb' 58 14 = pr.tallies.done ∧ f.extractLsb' 44 14 = pr.tallies.skipped
      ∧ f.extractLsb' 30 14 = pr.tallies.corrected ∧ f.extractLsb' 16 14 = pr.tallies.uncorrectable := by
  obtain ⟨hdone, hskipped, hcorrected, huncorrectable⟩ := bits_fields pr.tallies
  unfold ansFrame Frame.sealed
  simp (discharger := decide) only [BitVec.extractLsb'_append_eq_of_le, BitVec.extractLsb'_append_eq_of_add_le,
    BitVec.extractLsb'_eq_self, Nat.reduceSub, hdone, hskipped, hcorrected, huncorrectable,
    and_self]

theorem doneFrame_fields (own : Station) (owner : Holder) (kind : BulkKind) (outcome : JobOutcome) (t : Tallies)
    (first : Option Offset) :
    let f := doneFrame own owner kind outcome t first
    f.extractLsb' 124 4 = 3 ∧ f.extractLsb' 122 2 = kind.code ∧ f.extractLsb' 120 1 = outcome.code
      ∧ f.extractLsb' 116 3 = owner.station ∧ f.extractLsb' 112 3 = own ∧ f.extractLsb' 106 2 = owner.port.code
      ∧ f.extractLsb' 80 13 = first.getD 0 ∧ f.extractLsb' 58 14 = t.done ∧ f.extractLsb' 44 14 = t.skipped
      ∧ f.extractLsb' 30 14 = t.corrected ∧ f.extractLsb' 16 14 = t.uncorrectable := by
  obtain ⟨hdone, hskipped, hcorrected, huncorrectable⟩ := bits_fields t
  unfold doneFrame Frame.sealed
  simp (discharger := decide) only [BitVec.extractLsb'_append_eq_of_le, BitVec.extractLsb'_append_eq_of_add_le,
    BitVec.extractLsb'_eq_self, Nat.reduceSub, BitVec.ofNat_eq_ofNat, hdone, hskipped, hcorrected, huncorrectable,
    and_self]

theorem loopFrame_fields (own : Station) (serial : Serial) :
    (loopFrame own serial).extractLsb' 112 3 = own ∧ (loopFrame own serial).extractLsb' 96 8 = serial := by
  unfold loopFrame Frame.sealed
  simp (discharger := decide) only [BitVec.extractLsb'_append_eq_of_le, BitVec.extractLsb'_append_eq_of_add_le,
    BitVec.extractLsb'_eq_self, Nat.reduceSub, and_self]

section
variable {f : Frame}

theorem tallies_of_fields {t : Tallies} (hdone : f.extractLsb' 58 14 = t.done) (hskipped : f.extractLsb' 44 14 = t.skipped)
    (hcorrected : f.extractLsb' 30 14 = t.corrected) (huncorrectable : f.extractLsb' 16 14 = t.uncorrectable) :
    Frame.tallies f = t := by
  cases t
  exact (Tallies.mk.injEq ..).mpr ⟨hdone, hskipped, hcorrected, huncorrectable⟩

theorem outcome_of_code {o : JobOutcome} (h : f.extractLsb' 120 1 = o.code) : Frame.outcome f = o := by
  have hfield : Frame.field f 0 0 1 = o.code := h
  rw [Frame.outcome, hfield]
  cases o <;> rfl

theorem progress_of_fields {pr : Progress} (hstate : f.extractLsb' 102 2 = waitingCode pr.waiting)
    (hnext : f.extractLsb' 88 13 = pr.next) (hremaining : f.extractLsb' 72 14 = pr.remaining)
    (htallies : Frame.tallies f = pr.tallies) : Frame.progress f = some pr := by
  have hstate : Frame.field f 3 6 2 = waitingCode pr.waiting := hstate
  have hnext : Frame.field f 4 0 13 = pr.next := hnext
  have hremaining : Frame.field f 6 0 14 = pr.remaining := hremaining
  obtain ⟨waiting, next, remaining, tallies⟩ := pr
  rw [Frame.progress, hstate, hnext, hremaining, htallies]
  cases waiting <;> rfl

end

/-- Settles O52: each frame's fields are those it was made with. -/
theorem answerAndDoneFramesRoundTrip : Obligations.AnswerAndDoneFramesRoundTrip := by
  unfold Obligations.AnswerAndDoneFramesRoundTrip
  refine ⟨fun own dest tag q st => ⟨fun body => ?_, fun g d => ?_, fun pr => ?_⟩, fun own serial => ?_,
    fun own owner kind outcome t first => ?_⟩
  · intro f
    obtain ⟨hkind, hstatus, hdest, horigin, htag, hport, hchecked⟩ := ansFrame_fields own dest tag q st body
    exact ⟨hchecked, congrArg Kind.ofCode hkind, hdest, horigin, htag,
      (congrArg Port.ofCode hport).trans (ofCode_code q), (congrArg Status.ofCode hstatus).trans (status_ofCode_code st)⟩
  · obtain ⟨hguard, hdata⟩ := ansFrame_word_fields own dest tag q st g d
    have hbit : (bit g == 1#1) = g := by cases g <;> rfl
    exact ⟨(congrArg (· == 1#1) hguard).trans hbit, hdata⟩
  · obtain ⟨hstate, hnext, hremaining, hdone, hskipped, hcorrected, huncorrectable⟩ :=
      ansFrame_bulk_fields own dest tag q st pr
    exact progress_of_fields hstate hnext hremaining (tallies_of_fields hdone hskipped hcorrected huncorrectable)
  · obtain ⟨horigin, hserial⟩ := loopFrame_fields own serial
    exact ⟨checked_sealed _, kind_loopFrame own serial, horigin, hserial⟩
  · intro f
    obtain ⟨hkind, hjob, houtcome, hdest, horigin, hport, hfirst, hdone, hskipped, hcorrected, huncorrectable⟩ :=
      doneFrame_fields own owner kind outcome t first
    have hended : Frame.outcome f = outcome := outcome_of_code houtcome
    have htallies : Frame.tallies f = t := tallies_of_fields hdone hskipped hcorrected huncorrectable
    refine ⟨checked_sealed _, congrArg Kind.ofCode hkind, hdest, horigin,
      (congrArg Port.ofCode hport).trans (ofCode_code _), (congrArg BulkKind.ofCode hjob).trans (bulkKind_ofCode_code kind),
      hended, htallies, fun hcheck hmismatch => ?_⟩
    rw [doneFirstMismatch, hcheck, hended, hmismatch]
    exact congrArg some hfirst

end Sys2Proof.Machine
end

section
/-! PROOF. What the check of a word passes on, and the grants of the word operations (R30, R86, R87, R98 to R117, R126,
R129 to R133). -/

namespace Sys2Proof.Machine

/-! ### The check of a word -/

/-- The wrong bits of a word are as many as the distinct places where they stand. -/
theorem wrongBits_eq_length {w : StoredWord} {l : List Nat} (hl : l.Nodup)
    (h : ∀ k, w.wrong.getLsbD k = true ↔ k ∈ l) : wrongBits w = l.length := by
  rw [wrongBits, List.countP_eq_length_filter]
  refine ((List.perm_ext_iff_of_nodup (List.nodup_range.filter _) hl).mpr fun k => ?_).length_eq
  rw [List.mem_filter, List.mem_range, h, and_iff_right_iff_imp]
  exact fun hk => BitVec.lt_of_getLsbD ((h k).mpr hk)

theorem getLsbD_one_shiftLeft {i k : Nat} (hi : i < 40) : (1#40 <<< i).getLsbD k = true ↔ k = i := by
  simp only [BitVec.getLsbD_shiftLeft, BitVec.getLsbD_one, Bool.and_eq_true, decide_eq_true_eq, Bool.not_eq_true',
    decide_eq_false_iff_not]
  omega

section
variable {w : StoredWord}

theorem checkWord_of_none (h : w.wrong = 0) : checkWord w = .clean w.data w.guard := by
  have hbits : wrongBits w = 0 := wrongBits_eq_length (l := []) List.nodup_nil (by simp [h])
  rw [checkWord, hbits]; rfl

theorem checkWord_of_one {i : Nat} (hi : i < 40) (h : w.wrong = 1#40 <<< i) :
    checkWord w = .single w.data w.guard := by
  have hbits : wrongBits w = 1 :=
    wrongBits_eq_length (l := [i]) (List.nodup_singleton i) fun k => by
      rw [h, getLsbD_one_shiftLeft hi, List.mem_singleton]
  rw [checkWord, hbits]; rfl

theorem checkWord_of_two {i j : Nat} (hij : i < j) (hj : j < 40) (h : w.wrong = (1#40 <<< i) ||| (1#40 <<< j)) :
    checkWord w = .double := by
  have hbits : wrongBits w = 2 :=
    wrongBits_eq_length (l := [i, j]) (by simp [hij.ne]) fun k => by
      rw [h, BitVec.getLsbD_or, Bool.or_eq_true, getLsbD_one_shiftLeft (hij.trans hj), getLsbD_one_shiftLeft hj]
      simp
  rw [checkWord, hbits]; rfl

theorem checkWord_of_many (h : 3 ≤ wrongBits w) : checkWord w = misread w := by
  rw [checkWord]
  split
  · omega
  · omega
  · omega
  · rfl

end

/-- Settles O32: the result of the check by the number of wrong bits, and with three or more the choice of the free
value. -/
theorem checkCorrectsOneBitAndDetectsTwo : Obligations.CheckCorrectsOneBitAndDetectsTwo := by
  unfold Obligations.CheckCorrectsOneBitAndDetectsTwo
  intro w data guard
  refine ⟨checkWord_of_none, fun i => checkWord_of_one, fun i j => checkWord_of_two, fun hmany => ?_⟩
  rw [checkWord_of_many hmany, misread]
  cases Config.manyWrong w with
  | clean => exact .inr (.inl rfl)
  | single i => exact .inr (.inr ⟨i.val, i.isLt, rfl⟩)
  | double => exact .inl rfl

/-! ### The range check -/

/-- The operation that a frame asks for, by its OP (R30). -/
theorem frameOp_eq (f : Frame) : frameOp f = match (f.extractLsb' 120 4).toNat with
    | 2 => .write | 3 => .holdRead | 4 => .commit | 5 => .bulkStart | 6 => .bulkQuery | 7 => .bulkAbort
    | _ => .read := by
  show (Op.ofCode (f.extractLsb' 120 4)).getD .read = _
  generalize f.extractLsb' 120 4 = code
  revert code
  decide

theorem straps_advance (s : State) (c : Claim) : (s.advance c).straps = s.straps := by simp

section
variable {s : State} {o : Op} {c : Claim} {tk : Taken}

/-- A malformed frame and a page beyond the bank are refused by the range check (R30, R87). -/
theorem inRange_eq_none (hs : s.Serves o c tk)
    (h : (∃ f, c = .remote f ∧ MalformedRequest f)
      ∨ (∀ r, tk.request = some r →
        (if s.straps.pages = 1 then 16 else if s.straps.pages = 2 then 32 else 8) ≤ r.page.toNat)) :
    (s.advance c).inRange tk = none := by
  rw [State.inRange]
  cases hr : tk.request with
  | none => rfl
  | some r =>
    obtain ⟨-, -, htaken⟩ := hs
    rcases h with ⟨f, rfl, hbad⟩ | hpage
    · obtain rfl := Option.some.inj htaken
      exact absurd ((request_eq_none_iff f).mpr hbad) (by simp [show Frame.request f = some r from hr])
    · have hbeyond : ¬r.page.toNat < pageCount (s.advance c).straps := by
        rw [straps_advance]
        exact Nat.not_lt.mpr (hpage r hr)
      exact if_neg hbeyond

/-- A word operation that the range check refuses ends with OUT_OF_RANGE (R87). -/
theorem grantOf_of_inRange_none (hs : s.Serves o c tk) (h : (s.advance c).inRange tk = none) :
    grantOf o s = .next (s.serving c tk ⟨.outOfRange, false, 0, none, none, .keep⟩) := by
  rw [grantOf_of_serves hs, State.grantWord, h, ← beginWord_advance]
  rfl

/-- A bulk command that the range check refuses is answered OUT_OF_RANGE (R87, R149). -/
theorem handOverOf_of_inRange_none (hs : s.Serves o c tk) (h : (s.advance c).inRange tk = none) :
    handOverOf o s = .next ((s.advance c).bulkAnswered tk.source .outOfRange none) := by
  rw [handOverOf_of_serves hs, State.handOver, h, ← deliver_bulkBody]
  rfl

end

/-- Settles O30: the range check refuses by `inRange_eq_none`, at each row of the seven operations. -/
theorem outOfRangeEndsTheRequest : Obligations.OutOfRangeEndsTheRequest := by
  unfold Obligations.OutOfRangeEndsTheRequest
  refine ⟨fun f => congrArg some (frameOp_eq f), fun s c tk h => ⟨fun hs => ?_, fun hs => ?_, fun hs => ?_, fun hs => ?_,
    fun hs => ?_, fun hs => ?_, fun hs => ?_⟩⟩
  · exact grantOf_of_inRange_none hs (inRange_eq_none hs h)
  · exact grantOf_of_inRange_none hs (inRange_eq_none hs h)
  · exact grantOf_of_inRange_none hs (inRange_eq_none hs h)
  · exact grantOf_of_inRange_none hs (inRange_eq_none hs h)
  · exact handOverOf_of_inRange_none hs (inRange_eq_none hs h)
  · exact handOverOf_of_inRange_none hs (inRange_eq_none hs h)
  · exact handOverOf_of_inRange_none hs (inRange_eq_none hs h)

/-! ### The merge of new lanes into a word -/

/-- The bits of a lane are selected together (R27). -/
theorem extractLsb'_laneBits (lanes : Lanes) (lane : Fin 4) :
    (laneBits lanes).extractLsb' (8 * lane.val) 8 = if lanes.getLsbD lane.val then BitVec.allOnes 8 else 0#8 := by
  unfold laneBits
  fin_cases lane
  all_goals
    simp (discharger := decide) only [BitVec.extractLsb'_append_eq_of_le, BitVec.extractLsb'_append_eq_of_add_le,
      BitVec.extractLsb'_eq_self, Nat.reduceSub, Nat.reduceMul]
    rfl

theorem getLsbD_laneBits (lanes : Lanes) (lane : Fin 4) {k : Nat} (hk : k < 8) :
    (laneBits lanes).getLsbD (8 * lane.val + k) = lanes.getLsbD lane.val := by
  have hbit := congrArg (·.getLsbD k) (extractLsb'_laneBits lanes lane)
  simp only [BitVec.getLsbD_extractLsb', hk, decide_true, Bool.true_and] at hbit
  rw [hbit]
  cases lanes.getLsbD lane.val
  · exact BitVec.getLsbD_zero
  · exact (BitVec.getLsbD_allOnes).trans (decide_eq_true hk)

/-- Each lane of a merge is that of the new data or that of the old (R101). -/
theorem extractLsb'_mergeLanes (lanes : Lanes) (new old : Word) (lane : Fin 4) :
    (mergeLanes lanes new old).extractLsb' (8 * lane.val) 8 =
      if lanes.getLsbD lane.val then new.extractLsb' (8 * lane.val) 8 else old.extractLsb' (8 * lane.val) 8 := by
  apply BitVec.eq_of_getLsbD_eq
  intro k hk
  have hword : 8 * lane.val + k < 32 := by omega
  have hselected : (laneBits lanes)[8 * lane.val + k] = lanes.getLsbD lane.val :=
    (BitVec.getLsbD_eq_getElem hword).symm.trans (getLsbD_laneBits lanes lane hk)
  cases hmask : lanes.getLsbD lane.val <;> simp [mergeLanes, hk, hword, hselected.trans hmask]

/-- The word `w` holds the lanes of `data` in the mask, the others of `d`, the guard bit that the action makes of `g`,
and no wrong bit (R101, R110). -/
def MergedWord (w : StoredWord) (lanes : Lanes) (data : Word) (act : GuardAct) (d : Word) (g : Bool) : Prop :=
  (∀ lane : Fin 4, w.data.extractLsb' (8 * lane.val) 8 =
      if lanes.getLsbD lane.val then data.extractLsb' (8 * lane.val) 8 else d.extractLsb' (8 * lane.val) 8)
    ∧ (act = .keep → w.guard = g) ∧ (act = .set → w.guard = true) ∧ (act = .clear → w.guard = false) ∧ w.wrong = 0

theorem merges_freshWord (lanes : Lanes) (data : Word) (act : GuardAct) (d : Word) (g : Bool) :
    MergedWord (freshWord (mergeLanes lanes data d) (guardAfter act g)) lanes data act d g := by
  refine ⟨extractLsb'_mergeLanes lanes data d, ?_, ?_, ?_, rfl⟩
  · rintro rfl; rfl
  · rintro rfl; rfl
  · rintro rfl; rfl

section
variable {s : State} {r : Request} {lanes : Lanes} {data : Word} {act : GuardAct} {hold : HoldEffect} {d : Word}
  {g : Bool} {st : Status}

theorem guardFails_eq_true (hguard : s.straps.guardOn = true) (hplain : r.privileged = false) (hg : g = true) :
    guardFails s r.privileged g = true := by simp [guardFails, hguard, hplain, hg]

theorem guardFails_eq_false (h : s.straps.guardOn = false ∨ r.privileged = true ∨ g = false) :
    guardFails s r.privileged g = false := by rcases h with h | h | h <;> simp [guardFails, h]

theorem privilegeFails_eq_true (hplain : r.privileged = false) (hact : act = .set ∨ act = .clear) :
    privilegeFails r.privileged act = true := by
  rcases hact with rfl | rfl <;> simp [privilegeFails, hplain]

theorem privilegeFails_eq_false (h : r.privileged = true ∨ act = .keep) : privilegeFails r.privileged act = false := by
  rcases h with h | rfl
  · simp [privilegeFails, h]
  · simp [privilegeFails]

/-- An uncorrectable word is not merged into (R101, R133). -/
theorem readMergeWrite_double (h : checkWord (s.word (wordAddress r.page r.offset)) = .double) :
    readMergeWrite s r lanes data act hold =
      ⟨.uncorrectable, false, 0, some (wordAddress r.page r.offset), none, hold⟩ := by
  rw [readMergeWrite, h]
  rfl

section
variable (hcheck : (checkWord (s.word (wordAddress r.page r.offset)) = .clean d g ∧ st = .ok)
  ∨ (checkWord (s.word (wordAddress r.page r.offset)) = .single d g ∧ st = .corrected))
include hcheck

theorem readMergeWrite_passed :
    readMergeWrite s r lanes data act hold = mergeWrite s r lanes data act hold st d g := by
  rcases hcheck with ⟨hclean, rfl⟩ | ⟨hsingle, rfl⟩
  · rw [readMergeWrite, hclean]
  · rw [readMergeWrite, hsingle]

/-- A plain request does not merge into a guarded word while GUARD_ON is on (R113). -/
theorem readMergeWrite_guarded (hguard : s.straps.guardOn = true) (hplain : r.privileged = false) (hg : g = true) :
    readMergeWrite s r lanes data act hold =
      ⟨.guardFault, false, 0, some (wordAddress r.page r.offset), none, hold⟩ := by
  rw [readMergeWrite_passed hcheck, mergeWrite, guardFails_eq_true hguard hplain hg]
  rfl

/-- Any other word that its check passes on is merged into (R101, R133). -/
theorem readMergeWrite_written (h : s.straps.guardOn = false ∨ r.privileged = true ∨ g = false) :
    ∃ w : StoredWord, readMergeWrite s r lanes data act hold =
        ⟨st, false, 0, some (wordAddress r.page r.offset), some w, hold⟩
      ∧ MergedWord w lanes data act d g := by
  refine ⟨_, ?_, merges_freshWord lanes data act d g⟩
  rw [readMergeWrite_passed hcheck, mergeWrite, guardFails_eq_false h]
  rfl

end

/-- A grant changes neither the words nor the straps that a merge depends on. -/
theorem readMergeWrite_advance (c : Claim) :
    readMergeWrite (s.advance c) r lanes data act hold = readMergeWrite s r lanes data act hold := by
  cases c <;> rfl

end

/-! ### WRITE -/

section
variable {s : State} {r : Request} {lanes : Lanes} {act : GuardAct}

theorem writeWord_refused (data : Word) (hplain : r.privileged = false) (hact : act = .set ∨ act = .clear) :
    writeWord s r lanes data act = ⟨.privFault, false, 0, none, none, .keep⟩ := by
  rw [writeWord, privilegeFails_eq_true hplain hact]
  rfl

/-- A WRITE that needs the old word reads it, checks it and merges into it (R100, R101). -/
theorem writeWord_merges (data : Word) (hp : r.privileged = true ∨ act = .keep)
    (h : s.straps.guardOn = true ∨ lanes ≠ 0xF ∨ act = .keep) :
    writeWord s r lanes data act = readMergeWrite s r lanes data act .keep := by
  have hsingle : singlePass s lanes act = false := by
    rcases h with h | h | h
    · simp [singlePass, h]
    · simp only [singlePass, beq_eq_false_iff_ne.mpr h, Bool.and_false, Bool.false_and]
    · simp [singlePass, h]
  rw [writeWord, privilegeFails_eq_false hp, hsingle]
  rfl

end

/-- Settles O33: the privilege test comes before all else. -/
theorem plainWriteMayNotSetOrClear : Obligations.PlainWriteMayNotSetOrClear := by
  unfold Obligations.PlainWriteMayNotSetOrClear
  intro s c tk r lanes data act hs hr hu hw hplain hact
  rw [exec_write_of_unheld hs hr hu hw, writeWord_refused data hplain hact]

/-- Settles O35: the WRITE reads, checks and merges by `writeWord_merges`, with the three results of the merge. -/
theorem writeMergesIntoTheWord : Obligations.WriteMergesIntoTheWord := by
  unfold Obligations.WriteMergesIntoTheWord
  intro s c tk r lanes data act hs hr hu hw hp hmerges a
  have hexec : exec .write s = .next (s.serving c tk (readMergeWrite s r lanes data act .keep)) := by
    rw [exec_write_of_unheld hs hr hu hw, writeWord_merges data hp (by simpa using hmerges), readMergeWrite_advance]
  refine ⟨fun hdouble => ?_, fun d g st hcheck => ⟨fun hguard hplain hg => ?_, fun hopen => ?_⟩⟩
  · rw [hexec, readMergeWrite_double hdouble]; rfl
  · rw [hexec, readMergeWrite_guarded hcheck hguard hplain hg]; rfl
  · obtain ⟨w, hresult, hword⟩ := readMergeWrite_written (lanes := lanes) (data := data) (act := act) (hold := .keep)
      hcheck hopen
    exact ⟨w, by rw [hexec, hresult]; rfl, hword⟩

/-! ### HOLD_READ -/

theorem exec_holdRead_of_unheld {s : State} {c : Claim} {tk : Taken} {r : Request} (hs : s.Serves .holdRead c tk)
    (hr : s.Admits tk r) (hu : s.Unheld r) : exec .holdRead s = .next (s.serving c tk (holdReadWord s r tk.holder)) := by
  have hcommand : r.command = .holdRead := by
    have hop := op_of_serves hs hr
    cases hc : r.command with
    | holdRead => rfl
    | _ => rw [hc] at hop; exact absurd hop nofun
  have hsame : holdReadWord (s.advance c) r tk.holder = holdReadWord s r tk.holder := by cases c <;> rfl
  show grantOf .holdRead s = _
  rw [grantOf_of_serves hs, grantWord_of_unheld c hr hu, serveUnheld, hcommand, hsame]

section
variable {s : State} {r : Request} {holder : Holder} {d : Word} {g : Bool} {st : Status}

theorem holdReadWord_full (h : s.emptySlot = none) :
    holdReadWord s r holder = ⟨.retry, false, 0, none, none, .keep⟩ := by
  rw [holdReadWord, h]; rfl

section
variable (hempty : s.emptySlot.isSome = true)
include hempty

theorem holdReadWord_double (h : checkWord (s.word (wordAddress r.page r.offset)) = .double) :
    holdReadWord s r holder = ⟨.uncorrectable, false, 0, some (wordAddress r.page r.offset), none, .keep⟩ := by
  rw [holdReadWord, if_neg (by simpa [Option.isSome_iff_ne_none] using hempty), h]; rfl

variable (hcheck : (checkWord (s.word (wordAddress r.page r.offset)) = .clean d g ∧ st = .ok)
  ∨ (checkWord (s.word (wordAddress r.page r.offset)) = .single d g ∧ st = .corrected))
include hcheck

theorem holdReadWord_passed : holdReadWord s r holder = holdUnlessGuarded s r holder st d g := by
  rw [holdReadWord, if_neg (by simpa [Option.isSome_iff_ne_none] using hempty)]
  rcases hcheck with ⟨hclean, rfl⟩ | ⟨hsingle, rfl⟩
  · rw [hclean]
  · rw [hsingle]

/-- A plain HOLD_READ makes no hold on a guarded word while GUARD_ON is on (R114). -/
theorem holdReadWord_guarded (hguard : s.straps.guardOn = true) (hplain : r.privileged = false) (hg : g = true) :
    holdReadWord s r holder = ⟨.guardFault, false, 0, some (wordAddress r.page r.offset), none, .keep⟩ := by
  rw [holdReadWord_passed hempty hcheck, holdUnlessGuarded, guardFails_eq_true hguard hplain hg]; rfl

/-- Any other HOLD_READ of a word that its check passes on gives it, with a hold (R130). -/
theorem holdReadWord_given (h : s.straps.guardOn = false ∨ r.privileged = true ∨ g = false) :
    holdReadWord s r holder =
      ⟨st, g, d, some (wordAddress r.page r.offset), none, .make r.page r.offset holder⟩ := by
  rw [holdReadWord_passed hempty hcheck, holdUnlessGuarded, guardFails_eq_false h]; rfl

end

end

/-- Settles O37: the branches of the hold path, with an empty slot by `emptySlot_isSome_iff`. -/
theorem holdReadTakesTheHoldPath : Obligations.HoldReadTakesTheHoldPath := by
  unfold Obligations.HoldReadTakesTheHoldPath
  intro s c tk r hs hr hu a gives
  have hgives {res : WordResult} (h : holdReadWord s r tk.holder = res) : gives res :=
    h ▸ exec_holdRead_of_unheld hs hr hu
  refine ⟨fun hfull => hgives (holdReadWord_full ?_), fun hslot hdouble => hgives (holdReadWord_double ?_ hdouble),
    fun d g st hslot hcheck => ⟨fun hguard hplain hg => hgives (holdReadWord_guarded ?_ hcheck hguard hplain hg),
      fun hopen => hgives (holdReadWord_given ?_ hcheck hopen)⟩⟩
  · have hnone : ¬∃ i, s.slot i = none := fun ⟨i, hi⟩ => hfull i hi
    rw [← emptySlot_isSome_iff] at hnone
    simpa using hnone
  · exact (emptySlot_isSome_iff s).mpr hslot
  · exact (emptySlot_isSome_iff s).mpr hslot
  · exact (emptySlot_isSome_iff s).mpr hslot

/-! ### The holder of the word -/

/-- Settles O38: the holder's own path refuses both. -/
theorem holderMayNotWriteOrHoldAgain : Obligations.HolderMayNotWriteOrHoldAgain := by
  unfold Obligations.HolderMayNotWriteOrHoldAgain
  intro s c tk r i h hr hheld hholder
  refine ⟨fun hs => ?_, fun hs => ?_⟩
  · have hop := op_of_serves hs hr
    have hserve : serveHolder (s.advance c) r i = ⟨.alreadyHeld, false, 0, none, none, .keep⟩ := by
      cases hc : r.command with
      | write lanes data act => rw [serveHolder, hc]; rfl
      | _ => rw [hc] at hop; exact absurd hop nofun
    show grantOf .write s = _
    rw [grantOf_of_serves hs, grantWord_of_holder c hr hheld hholder (by rw [hop]; decide), hserve]
  · have hop := op_of_serves hs hr
    have hserve : serveHolder (s.advance c) r i = ⟨.alreadyHeld, false, 0, none, none, .keep⟩ := by
      cases hc : r.command with
      | holdRead => rw [serveHolder, hc]; rfl
      | _ => rw [hc] at hop; exact absurd hop nofun
    show grantOf .holdRead s = _
    rw [grantOf_of_serves hs, grantWord_of_holder c hr hheld hholder (by rw [hop]; decide), hserve]

/-! ### COMMIT -/

section
variable {s : State} {c : Claim} {tk : Taken} {r : Request} {lanes : Lanes} {data : Word} {act : GuardAct} {i : Slot}

theorem commitWord_advance : commitWord (s.advance c) r lanes data act i = commitWord s r lanes data act i := by
  cases c <;> rfl

/-- A COMMIT of the holder stops the timer of its hold, and its outcome ends the hold (R132, R133). -/
theorem exec_commit_of_holder {h : Hold} (hs : s.Serves .commit c tk) (hr : s.Admits tk r)
    (hcommand : r.command = .commit lanes data act) (hheld : s.HeldIn r i h) (hholder : h.holder = tk.holder) :
    exec .commit s = .next { s.serving c tk (commitWord s r lanes data act i) with
      holds := s.holds.set i.val (some { h with stopped := true }) i.isLt } := by
  have hop : r.command.op = .commit := op_of_serves hs hr
  have hslot : (s.advance c).slot i = some h := (slot_of_holds (by simp) i).trans hheld.1
  have hstopped : (s.advance c).stopHold i =
      { s.advance c with holds := s.holds.set i.val (some { h with stopped := true }) i.isLt } := by
    rw [State.stopHold, hslot, show (s.advance c).holds = s.holds by simp]; rfl
  have hbegun := beginWord_advance (s := s) c tk (commitWord s r lanes data act i)
  have hgrant : (s.advance c).grantWord tk =
      ((s.advance c).stopHold i).beginWord tk.source (commitWord (s.advance c) r lanes data act i) := by
    have hserve : serveHolder (s.advance c) r i = commitWord (s.advance c) r lanes data act i := by
      rw [serveHolder, hcommand]
    simp [State.grantWord, inRange_of_admits c hr, holdOn_advance, holdOn_of_heldIn hheld, hholder, State.stopFor,
      hop, hserve]
  show grantOf .commit s = _
  rw [grantOf_of_serves hs, hgrant, commitWord_advance, ← hbegun, hstopped]
  rfl

theorem commitWord_release (h : lanes = 0) : commitWord s r lanes data act i =
    ⟨.ok, false, 0, none, none, .finish i⟩ := by rw [commitWord, if_pos h]; rfl

theorem commitWord_refused (hlanes : lanes ≠ 0) (hplain : r.privileged = false) (hact : act = .set ∨ act = .clear) :
    commitWord s r lanes data act i = ⟨.privFault, false, 0, none, none, .finish i⟩ := by
  rw [commitWord, if_neg hlanes, privilegeFails_eq_true hplain hact]; rfl

theorem commitWord_merges (hlanes : lanes ≠ 0) (hp : r.privileged = true ∨ act = .keep) :
    commitWord s r lanes data act i = readMergeWrite s r lanes data act (.finish i) := by
  rw [commitWord, if_neg hlanes, privilegeFails_eq_false hp]; rfl

end

/-- Settles O39: without a hold the path of `serveUnheld`, by the holder the branches of `commitWord`. -/
theorem commitEndsTheHold : Obligations.CommitEndsTheHold := by
  unfold Obligations.CommitEndsTheHold
  intro s c tk r lanes data act hs hr hcommand a
  refine ⟨fun hu => ?_, fun i h hheld hholder => ?_⟩
  · show grantOf .commit s = _
    rw [grantOf_of_serves hs, grantWord_of_unheld c hr hu, serveUnheld, hcommand]
    rfl
  intro gives
  have hgives {res : WordResult} (hres : commitWord s r lanes data act i = res) : gives res :=
    hres ▸ exec_commit_of_holder hs hr hcommand hheld hholder
  refine ⟨fun hlanes => hgives (commitWord_release hlanes),
    fun hlanes hplain hact => hgives (commitWord_refused hlanes hplain hact), fun hlanes hp => ?_⟩
  have hmerges := commitWord_merges (s := s) (data := data) (i := i) hlanes hp
  refine ⟨fun hdouble => hgives (hmerges.trans (readMergeWrite_double hdouble)), fun d g st hcheck =>
    ⟨fun hguard hplain hg => hgives (hmerges.trans (readMergeWrite_guarded hcheck hguard hplain hg)), fun hopen => ?_⟩⟩
  obtain ⟨w, hresult, hword⟩ := readMergeWrite_written (lanes := lanes) (data := data) (act := act)
    (hold := .finish i) hcheck hopen
  exact ⟨w, hgives (hmerges.trans hresult), hword⟩

end Sys2Proof.Machine
end

section
/-! PROOF. What plain requests and jobs leave alone, and what the ends of grants and holds do (R24, R85, R103, R105,
R117, R121, R136, R160 to R164). -/

namespace Sys2Proof.Machine

/-! ### The words that plain requests may write -/

/-- The word `w`, due at the end of a grant, keeps the guard bit that the check passed on, and replaces no guarded word
while GUARD_ON is on (R117). -/
def GuardKept (s : State) (a : Nat) (w : StoredWord) : Prop :=
  ∃ d gd, (checkWord (s.word a) = .clean d gd ∨ checkWord (s.word a) = .single d gd)
    ∧ w.guard = gd ∧ (s.straps.guardOn = true → gd = false)

section
variable {s : State} {r : Request} {w : StoredWord}

theorem readWord_write (s : State) (r : Request) : (readWord s r).write = none := by
  unfold readWord
  simp only
  split <;> rfl

theorem holdReadWord_write (s : State) (r : Request) (holder : Holder) : (holdReadWord s r holder).write = none := by
  have hguarded (st : Status) (d : Word) (g : Bool) : (holdUnlessGuarded s r holder st d g).write = none := by
    unfold holdUnlessGuarded
    simp only
    split <;> rfl
  unfold holdReadWord
  split
  · rfl
  · split
    · exact hguarded _ _ _
    · exact hguarded _ _ _
    · rfl

variable (hplain : r.privileged = false)
include hplain

theorem mergeWrite_plain {lanes : Lanes} {data d : Word} {hold : HoldEffect} {st : Status} {g : Bool}
    (hcheck : checkWord (s.word (wordAddress r.page r.offset)) = .clean d g
      ∨ checkWord (s.word (wordAddress r.page r.offset)) = .single d g)
    (hw : (mergeWrite s r lanes data .keep hold st d g).write = some w) :
    (mergeWrite s r lanes data .keep hold st d g).accessed = some (wordAddress r.page r.offset)
      ∧ GuardKept s (wordAddress r.page r.offset) w := by
  unfold mergeWrite at hw ⊢
  cases hfails : guardFails s r.privileged g with
  | true => simp [hfails, unwritten] at hw
  | false =>
    obtain rfl : freshWord (mergeLanes lanes data d) (guardAfter .keep g) = w := by
      simpa [hfails, writeResult] using hw
    refine ⟨by simp [writeResult], d, g, hcheck, rfl, fun hguard => ?_⟩
    simpa [guardFails, hguard, hplain] using hfails

theorem readMergeWrite_plain {lanes : Lanes} {data : Word} {hold : HoldEffect}
    (hw : (readMergeWrite s r lanes data .keep hold).write = some w) :
    (readMergeWrite s r lanes data .keep hold).accessed = some (wordAddress r.page r.offset)
      ∧ GuardKept s (wordAddress r.page r.offset) w := by
  cases hcheck : checkWord (s.word (wordAddress r.page r.offset)) with
  | clean d g =>
    rw [readMergeWrite_passed (.inl ⟨hcheck, rfl⟩)] at hw ⊢
    exact mergeWrite_plain hplain (.inl hcheck) hw
  | single d g =>
    rw [readMergeWrite_passed (.inr ⟨hcheck, rfl⟩)] at hw ⊢
    exact mergeWrite_plain hplain (.inr hcheck) hw
  | double => rw [readMergeWrite_double hcheck] at hw; exact nomatch hw

/-- A plain request passes the privilege test with KEEP alone (R111, R112). -/
theorem keep_of_privilegeFails {act : GuardAct} (h : privilegeFails r.privileged act = false) : act = .keep := by
  simpa [privilegeFails, hplain] using h

theorem writeWord_plain {lanes : Lanes} {data : Word} {act : GuardAct}
    (hw : (writeWord s r lanes data act).write = some w) :
    (writeWord s r lanes data act).accessed = some (wordAddress r.page r.offset)
      ∧ GuardKept s (wordAddress r.page r.offset) w := by
  cases hfails : privilegeFails r.privileged act with
  | true => rw [writeWord, hfails] at hw; exact nomatch hw
  | false =>
    obtain rfl := keep_of_privilegeFails hplain hfails
    rw [writeWord_merges data (.inr rfl) (.inr (.inr rfl))] at hw ⊢
    exact readMergeWrite_plain hplain hw

theorem commitWord_plain {lanes : Lanes} {data : Word} {act : GuardAct} {i : Slot}
    (hw : (commitWord s r lanes data act i).write = some w) :
    (commitWord s r lanes data act i).accessed = some (wordAddress r.page r.offset)
      ∧ GuardKept s (wordAddress r.page r.offset) w := by
  by_cases hlanes : lanes = 0
  · rw [commitWord_release hlanes] at hw; exact nomatch hw
  cases hfails : privilegeFails r.privileged act with
  | true => rw [commitWord, if_neg hlanes, hfails] at hw; exact nomatch hw
  | false =>
    obtain rfl := keep_of_privilegeFails hplain hfails
    rw [commitWord_merges hlanes (.inr rfl)] at hw ⊢
    exact readMergeWrite_plain hplain hw

theorem serveUnheld_plain {tk : Taken} (hw : (serveUnheld s tk r).write = some w) :
    (serveUnheld s tk r).accessed = some (wordAddress r.page r.offset)
      ∧ GuardKept s (wordAddress r.page r.offset) w := by
  unfold serveUnheld at hw ⊢
  cases hc : r.command with
  | write lanes data act => rw [hc] at hw; exact writeWord_plain hplain hw
  | read => rw [hc] at hw; exact absurd ((readWord_write s r).symm.trans hw) nofun
  | holdRead => rw [hc] at hw; exact absurd ((holdReadWord_write s r tk.holder).symm.trans hw) nofun
  | _ => rw [hc] at hw; exact nomatch hw

theorem serveHolder_plain {i : Slot} (hw : (serveHolder s r i).write = some w) :
    (serveHolder s r i).accessed = some (wordAddress r.page r.offset)
      ∧ GuardKept s (wordAddress r.page r.offset) w := by
  unfold serveHolder at hw ⊢
  cases hc : r.command with
  | commit lanes data act => rw [hc] at hw; exact commitWord_plain hplain hw
  | read => rw [hc] at hw; exact absurd ((readWord_write s r).symm.trans hw) nofun
  | _ => rw [hc] at hw; exact nomatch hw

end

theorem request_of_inRange {s : State} {tk : Taken} {r : Request} (h : s.inRange tk = some r) : tk.request = some r := by
  unfold State.inRange at h
  cases hr : tk.request with
  | none => simp [hr] at h
  | some x =>
    simp only [hr] at h
    split at h
    · exact h
    · exact nomatch h

/-- The word that the grant of a plain request is to write keeps the guard bit (R117). -/
theorem grantWord_plain {s : State} {tk : Taken} {r : Request} {g : WordGrant} {w : StoredWord} (hfree : s.grant = .free)
    (hr : tk.request = some r) (hplain : r.privileged = false) (hg : (s.grantWord tk).grant = .word g)
    (hw : g.result.write = some w) :
    g.result.accessed = some (wordAddress r.page r.offset) ∧ GuardKept s (wordAddress r.page r.offset) w := by
  have hresult := grantWord_result s tk
  generalize s.grantWord tk = t at hresult hg
  have hsame {x : Request} (hx : s.inRange tk = some x) : x = r :=
    Option.some.inj ((request_of_inRange hx).symm.trans hr)
  cases hresult with
  | refused st => obtain rfl := Grant.word.inj hg; exact nomatch hw
  | unheld x hx hu =>
    obtain rfl := hsame hx
    obtain rfl := Grant.word.inj hg
    exact serveUnheld_plain hplain hw
  | holder x i h hx hh hmine =>
    obtain rfl := hsame hx
    obtain rfl := Grant.word.inj hg
    exact serveHolder_plain hplain hw
  | deferred o q t x i h hsource hx hh hother => exact absurd (hfree.symm.trans hg) nofun
  | again k o q t x i h hsource hx hh hother => exact absurd (hfree.symm.trans hg) nofun

theorem guardKept_advance {s : State} {c : Claim} {a : Nat} {w : StoredWord} (h : GuardKept (s.advance c) a w) :
    GuardKept s a w := by
  unfold GuardKept at h
  rw [word_advance, straps_advance] at h
  exact h

/-- BULK_STEP is granted to the job of the engine on a word that nobody holds, or else holds no bank (R154, R155). -/
theorem step_of_exec_bulkStep {s t : State} {j : Job} {g : StepGrant} (hj : s.bulk = some j)
    (h : exec .bulkStep s = .next t) (hg : t.grant = .step g) : g = jobStep s j (s.stepReserves j) := by
  have hchoice : s.choice = some .bulk := by
    by_contra hother
    change execBulkStep s = _ at h
    unfold execBulkStep at h
    split at h
    · rename_i hc _; exact hother hc
    · exact nomatch h
  obtain ⟨hfree, -, -⟩ := choice_some hchoice
  cases hheld : s.holdOn j.page j.next with
  | none =>
    rw [exec_bulkStep_of_unheld hchoice hj hheld] at h
    cases h
    exact (Grant.step.inj hg).symm
  | some x =>
    rw [exec_bulkStep_of_held (i := x.1) (h := x.2) hchoice hj hheld] at h
    cases h
    exact absurd (hfree.symm.trans hg) nofun

/-- A plain FILL spares the words that it may not write, a SCRUB rewrites a word as its check passed it on, and both
keep the guard bit (R117, R118, R157, R159). -/
theorem jobStep_write {s : State} {j : Job} {place : Bool} {w : StoredWord}
    (hw : (jobStep s j place).write = some w) :
    (j.privileged = false → s.straps.guardOn = true → checkWord (s.word (wordAddress j.page j.next)) ≠ .double)
      ∧ ∀ d gd, checkWord (s.word (wordAddress j.page j.next)) = .clean d gd
          ∨ checkWord (s.word (wordAddress j.page j.next)) = .single d gd →
        w.guard = gd ∧ (j.kind = .scrub → w.data = d)
          ∧ (j.privileged = false → s.straps.guardOn = true → gd = true → w.data = d) := by
  cases hk : j.kind with
  | check =>
    rw [jobStep_check hk, checkStep] at hw
    split at hw <;> exact nomatch hw
  | fill =>
    rw [jobStep_fill hk] at hw
    refine ⟨fun hplain hguard hdouble => ?_, fun d gd hcheck => ?_⟩
    · rw [fillStep_double_spared hdouble hguard hplain] at hw
      exact nomatch hw
    · obtain ⟨one, hpassed⟩ : ∃ one, (checkWord (s.word (wordAddress j.page j.next)) = .clean d gd ∧ one = false)
          ∨ (checkWord (s.word (wordAddress j.page j.next)) = .single d gd ∧ one = true) :=
        hcheck.elim (fun h => ⟨false, .inl ⟨h, rfl⟩⟩) fun h => ⟨true, .inr ⟨h, rfl⟩⟩
      by_cases hspares : (s.straps.guardOn = true ∧ j.privileged = false) ∧ gd = true
      · obtain ⟨⟨hguard, hplain⟩, hg⟩ := hspares
        rw [fillStep_skipped hpassed hguard hplain hg] at hw
        exact nomatch hw
      · rw [fillStep_written hpassed hspares] at hw
        cases hw
        exact ⟨rfl, nofun, fun hplain hguard hg => absurd ⟨⟨hguard, hplain⟩, hg⟩ hspares⟩
  | scrub =>
    rw [jobStep_scrub hk] at hw
    refine ⟨fun _ _ hdouble => ?_, fun d gd hcheck => ?_⟩
    · rw [scrubStep_double hdouble] at hw
      exact nomatch hw
    · rcases hcheck with hclean | hsingle
      · rw [scrubStep_passed (.inl ⟨hclean, rfl⟩)] at hw
        exact nomatch hw
      · rw [scrubStep_passed (.inr ⟨hsingle, rfl⟩)] at hw
        cases hw
        exact ⟨rfl, fun _ => rfl, fun _ _ _ => rfl⟩

/-- Settles O36: a word operation by `grantWord_plain`, a step by `jobStep_write`. -/
theorem plainRequestsLeaveGuardsAlone : Obligations.PlainRequestsLeaveGuardsAlone := by
  unfold Obligations.PlainRequestsLeaveGuardsAlone
  intro s
  refine ⟨fun o c tk r t g w hs hr hplain hexec hg hw => ?_, fun j t g w hj hexec hg hw => ?_⟩
  · obtain ⟨hchoice, -, htaken⟩ := hs
    obtain ⟨hfree, -, -⟩ := choice_some hchoice
    have hgranted (o : Op) (h : grantOf o s = .next t) : t = (s.advance c).grantWord tk := by
      obtain ⟨c', tk', hchoice', -, htaken', rfl⟩ := grantOf_next.mp h
      obtain rfl := Option.some.inj (hchoice.symm.trans hchoice')
      obtain rfl := Option.some.inj (htaken.symm.trans htaken')
      rfl
    have ht : t = (s.advance c).grantWord tk := by
      rcases hexec with h | h | h | h
      · exact hgranted .read h
      · exact hgranted .write h
      · exact hgranted .holdRead h
      · exact hgranted .commit h
    obtain ⟨haccessed, hkept⟩ := grantWord_plain (s := s.advance c) (by simpa using hfree) hr hplain (ht ▸ hg) hw
    obtain ⟨d, gd, hcheck, hguard, hclear⟩ := guardKept_advance hkept
    exact ⟨d, gd, hcheck, haccessed, hguard, hclear⟩
  · obtain rfl := step_of_exec_bulkStep hj hexec hg
    have haddress := jobStep_address s j (s.stepReserves j)
    rw [haddress]
    exact ⟨rfl, jobStep_write hw⟩

/-! ### The ends of grants -/

/-- Outside a grant an answer or DONE frame takes the reserved place, or a free one, in ONLINE, and is discarded
elsewhere (R22, R24). -/
theorem handFrame_of_free {s : State} (f : Frame) (reserved : Bool) (hfree : s.grant = .free) :
    s.handFrame f reserved =
      if s.ringState = .online ∧ (reserved = true ∨ s.transmit.length < 6) then s.withFrame f else s := by
  have hplaces : s.placesTaken = s.transmit.length := by rw [State.placesTaken, hfree]; rfl
  rw [State.handFrame, placeTransmit_eq_withFrame]
  refine if_congr ?_ rfl rfl
  rw [Bool.and_eq_true, decide_eq_true_eq, Bool.or_eq_true, freePlace_iff, hplaces]

/-- The word of a grant that ends is stored, and the bank is free (R91, R103). -/
theorem writeDue_free (s : State) (a : Nat) (due : Option StoredWord) :
    State.writeDue { s with grant := .free } a due =
      { s with
        grant := .free
        mem := match due with
          | some w => Memory.write s.mem a w
          | none => s.mem } := by
  cases due <;> rfl

/-- WORD_OPERATION_END (R103, R105). -/
theorem exec_wordOperationEnd {s : State} {g : WordGrant} (hg : s.grant = .word g) :
    exec .wordOperationEnd s = .next
      (if g.orphan then State.writeDue { s with grant := .free } (g.result.accessed.getD 0) g.result.write
      else ((State.writeDue { s with grant := .free } (g.result.accessed.getD 0) g.result.write).endWord g).acceptFor
        g.source) := by
  show execWordOperationEnd s = _
  simp only [execWordOperationEnd, hg]

/-- The same where the queue and the ring state are those of another state. -/
theorem handFrame_of_free_congr {s u : State} (f : Frame) (reserved : Bool) (hfree : u.grant = .free)
    (hstate : u.ringState = s.ringState) (htransmit : u.transmit = s.transmit) :
    u.handFrame f reserved =
      if s.ringState = .online ∧ (reserved = true ∨ s.transmit.length < 6) then u.withFrame f else u := by
  rw [handFrame_of_free _ _ hfree, hstate, htransmit]

/-- Settles O41: an orphan leaves its word, any other operation hands its outcome on by its source. -/
theorem wordOperationEndHandsOnTheOutcome : Obligations.WordOperationEndHandsOnTheOutcome := by
  unfold Obligations.WordOperationEndHandsOnTheOutcome
  intro s g hg s1 s2 sends
  have hexec : exec .wordOperationEnd s = .next (if g.orphan then s1 else (s2.deliver g.source g.result.status
      (.word g.result.guard g.result.data) g.reserved).acceptFor g.source) := by
    rw [exec_wordOperationEnd hg, writeDue_free]
    rfl
  have hfree : s2.grant = .free := by simp [s2, s1]
  have hstate : s2.ringState = s.ringState := by simp [s2, s1]
  have htransmit : s2.transmit = s.transmit := by simp [s2, s1]
  have hown : s2.own = s.own := by simp [State.own, s2, s1]
  clear_value s2 s1
  refine ⟨fun horphan => ?_, fun q horphan hsource => ?_, fun d q t horphan hsource => ?_,
    fun k d q t horphan hsource => ?_⟩
  · rw [hexec, if_pos horphan]
  · rw [hexec, horphan, hsource]
    rfl
  · change exec .wordOperationEnd s = _
    rw [hexec, horphan, hsource, ← hown]
    exact congrArg _ (handFrame_of_free_congr _ _ hfree hstate htransmit)
  · change exec .wordOperationEnd s = _
    rw [hexec, horphan, hsource, ← hown]
    exact congrArg _ (handFrame_of_free_congr (u := { s2 with deferred := s2.deferred.eraseIdx k }) _ _ hfree hstate
      htransmit)

/-- BULK_STEP_END (R105, R160). -/
theorem exec_bulkStepEnd {s : State} {g : StepGrant} (hg : s.grant = .step g) :
    exec .bulkStepEnd s = .next
      (match s.bulk with
      | some j =>
        if g.orphan then State.writeDue { s with grant := .free } g.address g.write
        else (State.writeDue { s with grant := .free } g.address g.write).endStep j g
      | none => State.writeDue { s with grant := .free } g.address g.write) := by
  show execBulkStepEnd s = _
  rw [execBulkStepEnd, hg]
  cases s.bulk <;> rfl

theorem stepped_eq (j : Job) (g : StepGrant) : stepped j g =
    { j with
      next := j.next + 1, remaining := j.remaining - 1, done := j.done + 1,
      skipped := j.skipped + (if g.skipped then 1 else 0), corrected := j.corrected + (if g.corrected then 1 else 0),
      uncorrectable := j.uncorrectable + (if g.uncorrectable then 1 else 0) } := by
  have htally (n : Nat) (b : Bool) : tally n b = n + (if b then 1 else 0) := by cases b <;> rfl
  rw [stepped, htally, htally, htally]

/-- The end of a job at a free bank: a notice to the own processor, DONE to an owner elsewhere (R161, R162). -/
theorem endJob_of_free {s u : State} {j : Job} {outcome : JobOutcome} {first : Option Offset} {reserved : Bool}
    (hfree : u.grant = .free) (hstate : u.ringState = s.ringState) (htransmit : u.transmit = s.transmit)
    (hown : u.own = s.own) :
    (j.owner.station = s.own → u.endJob j outcome first reserved =
        State.placeNotice { u with bulk := none, firstMismatch := first }
          (.bulkDone s.own j.owner.port j.kind outcome (jobTallies j) first))
      ∧ (j.owner.station ≠ s.own → u.endJob j outcome first reserved =
        if s.ringState = .online ∧ (reserved = true ∨ s.transmit.length < 6) then
          State.withFrame { u with bulk := none, firstMismatch := first }
            (doneFrame s.own j.owner j.kind outcome (jobTallies j) first)
        else { u with bulk := none, firstMismatch := first }) := by
  have hhanded := handFrame_of_free_congr (s := s) (u := { u with bulk := none, firstMismatch := first })
    (doneFrame s.own j.owner j.kind outcome (jobTallies j) first) reserved hfree hstate htransmit
  rw [State.endJob, hown]
  exact ⟨fun hmine => if_pos hmine, fun hother => (if_neg hother).trans hhanded⟩

/-- Settles O46: a job that is gone leaves the word, any other goes on by `State.endStep`. -/
theorem bulkStepEndMovesTheJobOn : Obligations.BulkStepEndMovesTheJobOn := by
  unfold Obligations.BulkStepEndMovesTheJobOn
  intro s g hg s1
  have hwritten : State.writeDue { s with grant := .free } g.address g.write = s1 := writeDue_free s g.address g.write
  have hfree : s1.grant = .free := rfl
  have hstate : s1.ringState = s.ringState := rfl
  have htransmit : s1.transmit = s.transmit := rfl
  have hown : s1.own = s.own := rfl
  clear_value s1
  refine ⟨fun hgone => ?_, fun j horphan hj => ?_⟩
  · rw [exec_bulkStepEnd hg, hwritten]
    rcases hgone with horphan | hnone
    · cases s.bulk <;> simp [horphan]
    · rw [hnone]
  intro n j1 t ends
  have hstepped : stepped j g = j1 := stepped_eq j g
  have hremaining : j1.remaining = j.remaining - 1 := rfl
  have hexec : exec .bulkStepEnd s = .next (s1.endStep j g) := by
    rw [exec_bulkStepEnd hg, hwritten, hj, horphan]
    rfl
  have hends (outcome : JobOutcome) (first : Option Offset)
      (h : s1.endStep j g = s1.endJob j1 outcome first g.reserved) : ends outcome first := by
    obtain ⟨hnotice, hframe⟩ := endJob_of_free (j := j1) (outcome := outcome) (first := first)
      (reserved := g.reserved) hfree hstate htransmit hown
    exact ⟨fun hmine => hexec.trans (congrArg _ (h.trans (hnotice hmine))),
      fun hother => hexec.trans (congrArg _ (h.trans (hframe hother)))⟩
  refine ⟨fun hmismatch => hends _ _ ?_, fun hmatch hlast => hends _ _ ?_, fun hmatch hmore => ?_⟩
  · rw [State.endStep, if_pos hmismatch, hstepped]
  · rw [State.endStep, if_neg (by simp [hmatch]), hstepped, if_pos (by omega)]
  · rw [hexec, State.endStep, if_neg (by simp [hmatch]), hstepped, if_neg (by omega)]

/-! ### The words of the bank -/

theorem word_of_bank {s t : State} (hmem : t.mem = s.mem) (hepoch : t.epoch = s.epoch) (a : Nat) :
    t.word a = s.word a := by rw [State.word, State.word, hmem, hepoch]

/-- The word due is stored at its address, and the other words stay (R85, R103). -/
theorem word_writeDue (s : State) (a b : Nat) (due : Option StoredWord) :
    (s.writeDue a due).word b = if b = a then due.getD (s.word b) else s.word b := by
  rw [State.word, lookup_writeDue]
  by_cases hb : b = a
  · subst hb
    cases due <;> simp [State.word]
  · simp [hb, State.word]

@[simp] theorem acceptFor_epoch (s : State) (src : Source) : (s.acceptFor src).epoch = s.epoch := by
  cases src <;> simp [State.acceptFor]

/-- Settles O42: at the end of either grant the bank is that of `State.writeDue`. -/
theorem onlyTheDueWordIsWritten : Obligations.OnlyTheDueWordIsWritten := by
  unfold Obligations.OnlyTheDueWordIsWritten
  intro s t a
  refine ⟨fun g hg hexec => ?_, fun g hg hexec => ?_⟩
  · have hword : t.word a = (s.writeDue (g.result.accessed.getD 0) g.result.write).word a := by
      rw [exec_wordOperationEnd hg] at hexec
      obtain rfl := Host.Outcome.next.inj hexec
      split
      · exact word_of_bank rfl rfl a
      · exact word_of_bank (by simp) (by simp) a
    rw [hword, word_writeDue]
    refine ⟨fun w hw ha => by simp [hw, ha], fun hkept => ?_⟩
    rcases hkept with hnone | ⟨b, hb, hne⟩
    · simp [hnone]
    · simp [hb, hne.symm]
  · have hword : t.word a = (s.writeDue g.address g.write).word a := by
      rw [exec_bulkStepEnd hg] at hexec
      obtain rfl := Host.Outcome.next.inj hexec
      repeat' split
      · exact word_of_bank rfl rfl a
      · exact word_of_bank (by simp) (by simp) a
      · exact word_of_bank rfl rfl a
    rw [hword, word_writeDue]
    refine ⟨fun w hw ha => by simp [hw, ha], fun hkept => ?_⟩
    rcases hkept with hnone | hne
    · simp [hnone]
    · simp [hne.symm]

/-! ### The making and the end of a hold -/

/-- The first of a rising run of slots that fits is the lowest one. -/
theorem find?_slot_of_lowest {l : List Slot} {fits : Slot → Bool} {i : Slot} (hl : l.Pairwise (· < ·)) (hi : i ∈ l)
    (hfits : fits i = true) (hlow : ∀ j, j < i → fits j = false) : l.find? fits = some i := by
  induction l with
  | nil => cases hi
  | cons a l ih =>
    obtain ⟨ha, hl⟩ := List.pairwise_cons.mp hl
    rcases List.mem_cons.mp hi with rfl | hi
    · rw [List.find?_cons_of_pos hfits]
    · rw [List.find?_cons_of_neg (by simp [hlow a (ha i hi)]), ih hl hi]

/-- The empty slot below which none is empty is the one taken (R121). -/
theorem emptySlot_of_lowest {s : State} {i : Slot} (hempty : s.slot i = none) (hlow : ∀ j, j < i → s.slot j ≠ none) :
    s.emptySlot = some i :=
  find?_slot_of_lowest (by decide) (mem_allSlots i) (by simp [hempty])
    fun j hj => by simpa [Option.isSome_iff_ne_none] using hlow j hj

/-- Settles O43: the end of a hold is `State.endHold`, its making that of the lowest empty slot. -/
theorem holdsAreMadeAndEnd : Obligations.HoldsAreMadeAndEnd := by
  unfold Obligations.HoldsAreMadeAndEnd
  intro s i ended
  refine ⟨fun h hslot hrun => ?_, rfl, fun page offset holder hempty hlow => ?_, rfl⟩
  · show execHoldTimerExpiry i s = _
    rw [execHoldTimerExpiry, hslot]
    simp only [hrun]
    rfl
  · show s.makeHold page offset holder = _
    rw [State.makeHold, emptySlot_of_lowest hempty hlow]
    rfl

end Sys2Proof.Machine
end

section
/-! PROOF. The laws at State.reset: nothing waits, nothing is held and no entry is outstanding there. -/

namespace Sys2Proof.Machine

theorem reset_entry (u : Tag) : State.reset.entry u = none := entry_replicate _ rfl u

theorem reset_slot (i : Slot) : State.reset.slot i = none := slot_replicate _ rfl i

theorem reset_port (q : Port) : State.reset.port q = .idle := by cases q <;> rfl

theorem reset_strobe (q : Port) : State.reset.strobe q = .low := by cases q <;> rfl

theorem reset_inReset : State.reset.inReset = false := rfl

theorem reset_clearInReset : ClearInReset State.reset where
  cleared h := absurd h (by simp [reset_inReset])
  grants _ := rfl
  cold h := nomatch h

theorem reset_attentionFollows : AttentionFollows State.reset where
  toClearInReset := reset_clearInReset
  level := by decide
  deasserted _ := rfl

theorem reset_queuesWithinPlaces : QueuesWithinPlaces State.reset where
  passThrough := Nat.zero_le _
  transmit := Nat.zero_le _
  inbound := Nat.zero_le _
  recent := Nat.zero_le _
  deferred := Nat.zero_le _
  notices := Nat.zero_le _

theorem reset_ringConsistent : RingConsistent State.reset where
  outCarrier := rfl
  reset h := absurd h (by simp [reset_inReset])
  offline _ _ := rfl
  broken h := nomatch h
  joined h := h.elim nofun nofun
  timer := by decide
  claim h := nomatch h

theorem reset_sendingConsistent : SendingConsistent State.reset where
  toRingConsistent := reset_ringConsistent
  ports q _ _ h := absurd ((reset_port q).symm.trans h) nofun
  entries u _ h := absurd ((reset_entry u).symm.trans h) nofun
  queue h := absurd rfl h
  probes h := nomatch h
  pass h := nomatch h
  own h := nomatch h
  idle _ := rfl

theorem reset_holdLaws : HoldLaws State.reset where
  unique i _ _ _ hi := absurd ((reset_slot i).symm.trans hi) nofun
  stopped i _ hi := absurd ((reset_slot i).symm.trans hi) nofun
  toMake _ _ _ _ hg := nomatch hg
  toEnd _ _ hg := nomatch hg
  writes _ _ _ hg := nomatch hg
  steps _ _ _ hg := nomatch hg
  stepping _ _ hg := nomatch hg
  waiting _ _ hd := nomatch hd
  engine _ _ hj := nomatch hj

theorem reset_jobLaws : JobLaws State.reset where
  record _ hj := nomatch hj
  ports q _ h := absurd ((reset_port q).symm.trans h) nofun
  deferred _ hd := nomatch hd
  skips _ hg := nomatch hg
  corrects _ hg := nomatch hg
  mismatch _ hj := nomatch hj

theorem reset_timersInRange : TimersInRange State.reset where
  toClearInReset := reset_clearInReset
  probe _ h := nomatch h
  refresh n h := by
    obtain rfl : 10 = n := Option.some.inj h
    decide
  runs := rfl
  claim h := nomatch h
  entries u _ h := absurd ((reset_entry u).symm.trans h) nofun
  holds i _ h := absurd ((reset_slot i).symm.trans h) nofun

/-- Settles O60: each law where nothing waits, nothing is held and nothing is outstanding. -/
theorem resetHasTheLaws : Obligations.ResetHasTheLaws := by
  unfold Obligations.ResetHasTheLaws
  exact ⟨reset_queuesWithinPlaces, reset_attentionFollows, wf_reset, nofun, reset_sendingConsistent,
    fun u _ _ _ hu => absurd ((reset_entry u).symm.trans hu) nofun,
    fun q _ _ h => absurd ((reset_strobe q).symm.trans h) nofun, reset_holdLaws, reset_jobLaws, reset_timersInRange⟩

end Sys2Proof.Machine
end

section
/-! PROOF. The check sequence (R14, R37): the remainder is linear in the bits that are sent, so that a damaged frame
passes the check only where the damage alone leaves no remainder. -/

namespace Sys2Proof.Machine

/-! ### One bit -/

/-- What the feedback of the division adds to the remainder. -/
def feedback (b : Bool) : BitVec 16 := if b then 0x1021#16 else 0#16

theorem feedback_xor (a b : Bool) : feedback (a ^^ b) = feedback a ^^^ feedback b := by
  cases a <;> cases b <;> decide

theorem crcBit_eq (rem : BitVec 16) (b : Bool) : crcBit rem b = (rem <<< 1) ^^^ feedback (rem.msb ^^ b) := by
  unfold crcBit feedback
  cases rem.msb <;> cases b <;> simp

theorem crcBit_xor (r q : BitVec 16) (a b : Bool) : crcBit (r ^^^ q) (a ^^ b) = crcBit r a ^^^ crcBit q b := by
  have hfeed : feedback ((r ^^^ q).msb ^^ (a ^^ b)) = feedback (r.msb ^^ a) ^^^ feedback (q.msb ^^ b) := by
    rw [← feedback_xor, BitVec.msb_xor]
    exact congrArg feedback (by rw [Bool.xor_assoc, Bool.xor_assoc, Bool.xor_left_comm q.msb])
  rw [crcBit_eq, crcBit_eq, crcBit_eq, hfeed, BitVec.shiftLeft_xor_distrib]
  ac_rfl

/-- A bit that equals the top bit of the remainder shifts it. -/
theorem crcBit_msb (rem : BitVec 16) : crcBit rem rem.msb = rem <<< 1 := by
  rw [crcBit_eq, Bool.xor_self]
  exact BitVec.xor_zero

/-- A remainder is gone after a clear bit only if there was none: the feedback sets bit 0. -/
theorem eq_zero_of_crcBit_false {rem : BitVec 16} (h : crcBit rem false = 0) : rem = 0 := by
  have hmsb : rem.msb = false := by
    have hbit := congrArg (·.getLsbD 0) h
    rw [crcBit_eq, Bool.xor_false] at hbit
    cases hm : rem.msb with
    | false => rfl
    | true => simp [hm, feedback] at hbit
  rw [crcBit_eq, hmsb] at h
  have hshift : rem <<< 1 = 0 := BitVec.xor_zero.symm.trans h
  apply BitVec.eq_of_getLsbD_eq
  intro i hi
  by_cases htop : i = 15
  · subst htop
    rw [← BitVec.msb_eq_getLsbD_last]
    simpa using hmsb
  · have hbit := congrArg (·.getLsbD (i + 1)) hshift
    simpa [hi, show i + 1 < 16 by omega] using hbit

/-- Whether an odd number of the lowest `n` bits of a remainder are set. -/
def oddTo (rem : BitVec 16) : Nat → Bool
  | 0 => false
  | n + 1 => oddTo rem n ^^ rem.getLsbD n

theorem oddTo_xor (r q : BitVec 16) (n : Nat) : oddTo (r ^^^ q) n = (oddTo r n ^^ oddTo q n) := by
  induction n with
  | zero => rfl
  | succ n ih => rw [oddTo, oddTo, oddTo, ih, BitVec.getLsbD_xor, Bool.xor_assoc, Bool.xor_assoc, Bool.xor_left_comm (oddTo q n)]

theorem oddTo_shiftLeft_one (rem : BitVec 16) {n : Nat} (hn : n < 16) : oddTo (rem <<< 1) (n + 1) = oddTo rem n := by
  induction n with
  | zero => simp [oddTo]
  | succ n ih => rw [oddTo, ih (Nat.lt_of_succ_lt hn), oddTo]; simp [hn, Nat.lt_of_succ_lt hn]

/-- The parity of a remainder: its value at x = 1, where the divisor is 0. -/
def oddBits (rem : BitVec 16) : Bool := oddTo rem 16

theorem oddBits_xor (r q : BitVec 16) : oddBits (r ^^^ q) = (oddBits r ^^ oddBits q) := oddTo_xor r q 16

theorem oddBits_crcBit_false (rem : BitVec 16) : oddBits (crcBit rem false) = oddBits rem := by
  have hfeed (b : Bool) : oddBits (feedback b) = b := by cases b <;> decide
  have hshift : oddBits (rem <<< 1) = oddTo rem 15 := oddTo_shiftLeft_one rem (by decide)
  rw [crcBit_eq, oddBits_xor, hfeed, hshift, Bool.xor_false, BitVec.msb_eq_getLsbD_last]
  rfl

/-! ### Runs of bits -/

theorem crcBits_append (rem : BitVec 16) (a b : List Bool) : crcBits rem (a ++ b) = crcBits (crcBits rem a) b :=
  List.foldl_append

theorem sentBits_append {v w : Nat} (x : BitVec v) (y : BitVec w) : sentBits (x ++ y) = sentBits x ++ sentBits y := by
  unfold sentBits
  rw [List.range_add, List.map_append, List.map_map]
  congr 1
  · apply List.map_congr_left
    intro i hi
    rw [BitVec.getMsbD_append, if_neg (Nat.not_le.mpr (List.mem_range.mp hi))]
  · apply List.map_congr_left
    intro i hi
    simp [BitVec.getMsbD_append]

/-- The remainder is linear in the bits and in the remainder before them. -/
theorem crcBits_xor {w : Nat} (r q : BitVec 16) (x y : BitVec w) :
    crcBits (r ^^^ q) (sentBits (x ^^^ y)) = crcBits r (sentBits x) ^^^ crcBits q (sentBits y) := by
  unfold crcBits sentBits
  generalize List.range w = l
  induction l generalizing r q with
  | nil => rfl
  | cons i l ih =>
    simp only [List.map_cons, List.foldl_cons]
    rw [BitVec.getMsbD_xor, crcBit_xor, ih]

/-- One clear bit sent. -/
def crcShift (rem : BitVec 16) : BitVec 16 := crcBit rem false

theorem crcBits_clear (rem : BitVec 16) (w : Nat) : crcBits rem (sentBits 0#w) = crcShift^[w] rem := by
  have hrun (l : List Nat) : crcBits rem (l.map ((0#w).getMsbD ·)) = crcShift^[l.length] rem := by
    induction l generalizing rem with
    | nil => rfl
    | cons i l ih =>
      rw [List.map_cons, BitVec.getMsbD_zero]
      exact ih (crcShift rem)
  exact (hrun (List.range w)).trans (by rw [List.length_range])

theorem crcShift_xor (r q : BitVec 16) : crcShift (r ^^^ q) = crcShift r ^^^ crcShift q := crcBit_xor r q false false

theorem crcShift_iterate_xor (n : Nat) (r q : BitVec 16) :
    crcShift^[n] (r ^^^ q) = crcShift^[n] r ^^^ crcShift^[n] q := by
  induction n generalizing r q with
  | zero => rfl
  | succ n ih =>
    rw [Function.iterate_succ_apply, Function.iterate_succ_apply, Function.iterate_succ_apply, crcShift_xor, ih]

theorem eq_zero_of_crcShift_iterate {n : Nat} {rem : BitVec 16} (h : crcShift^[n] rem = 0) : rem = 0 := by
  induction n with
  | zero => exact h
  | succ n ih =>
    rw [Function.iterate_succ_apply'] at h
    exact ih (eq_zero_of_crcBit_false h)

theorem crcBits_zero (w : Nat) : crcBits 0#16 (sentBits 0#w) = 0#16 := by
  have h := crcBits_xor 0#16 0#16 0#w 0#w
  rwa [BitVec.xor_self, BitVec.xor_self, BitVec.xor_self] at h

/-- A remainder sent after the bits that left it leaves nothing. -/
theorem crcBits_own (rem : BitVec 16) : crcBits rem (sentBits rem) = 0#16 := by
  have hshifted (k : Nat) : crcBits rem ((List.range k).map (rem.getMsbD ·)) = rem <<< k := by
    induction k with
    | zero => exact (BitVec.shiftLeft_zero rem).symm
    | succ k ih =>
      have hmsb : (rem <<< k).msb = rem.getMsbD k := by
        rw [BitVec.msb_shiftLeft]
      rw [List.range_succ, List.map_append, crcBits_append, ih, List.map_singleton, ← hmsb]
      exact (crcBit_msb _).trans (BitVec.shiftLeft_add rem k 1).symm
  exact (hshifted 16).trans (BitVec.shiftLeft_eq_zero (by decide))

/-! ### Damage -/

/-- The remainder that a damage of a frame leaves by itself. -/
def syndrome (e : Frame) : BitVec 16 := crcBits 0#16 (sentBits e)

theorem syndrome_xor (a b : Frame) : syndrome (a ^^^ b) = syndrome a ^^^ syndrome b := by
  have h := crcBits_xor 0#16 0#16 a b
  rwa [BitVec.xor_self] at h

theorem frame_eq_append (f : Frame) : f = Frame.body f ++ f.extractLsb' 0 16 :=
  (BitVec.extractLsb'_append_extractLsb' (w := 112) (len := 16)).symm

theorem body_append (body : BitVec 112) (seq : BitVec 16) : Frame.body (body ++ seq) = body := by
  rw [Frame.body, BitVec.extractLsb'_append_eq_of_le (by decide)]
  exact BitVec.extractLsb'_eq_self

/-- Over all 16 bytes of a frame that passes the check, the computation of R37 leaves nothing. -/
theorem crcBits_of_checked {f : Frame} (h : Frame.checked f = true) : crcBits 0xFFFF#16 (sentBits f) = 0#16 := by
  rw [frame_eq_append f, ← eq_of_beq h, sentBits_append, crcBits_append]
  exact crcBits_own _

/-- A damage that the check does not see leaves no remainder by itself. -/
theorem syndrome_of_checked {f e : Frame} (hf : Frame.checked f = true) (hfe : Frame.checked (f ^^^ e) = true) :
    syndrome e = 0 := by
  have h := crcBits_xor 0xFFFF#16 0#16 f e
  rw [BitVec.xor_zero, crcBits_of_checked hfe, crcBits_of_checked hf, BitVec.zero_xor] at h
  exact h.symm

theorem checked_xor_eq_false {f e : Frame} (hf : Frame.checked f = true) (he : syndrome e ≠ 0) :
    Frame.checked (f ^^^ e) = false :=
  Bool.eq_false_iff.mpr fun h => he (syndrome_of_checked hf h)

theorem sentBits_eq_cons {n : Nat} (e : BitVec (n + 1)) :
    sentBits e = e.msb :: (List.range n).map fun i => e.getMsbD (i + 1) := by
  rw [sentBits, List.range_succ_eq_map, List.map_cons, List.map_map]
  rfl

theorem sentBits_shiftLeft_one {n : Nat} (e : BitVec (n + 1)) :
    sentBits (e <<< 1) = ((List.range n).map fun i => e.getMsbD (i + 1)) ++ [false] := by
  have hlast : (e <<< 1).getMsbD n = false := by simp [BitVec.getMsbD_shiftLeft]
  rw [sentBits, List.range_succ, List.map_append, List.map_singleton, hlast]
  congr 1
  exact List.map_congr_left fun i _ => BitVec.getMsbD_shiftLeft ..

theorem crcBits_cons_clear (l : List Bool) : crcBits 0#16 (false :: l) = crcBits 0#16 l :=
  congrArg (crcBits · l) (show crcBit 0#16 false = 0#16 by decide)

/-- A damage one place further from the end is followed by one more clear bit. -/
theorem syndrome_shiftLeft_one {e : Frame} (h : e.msb = false) : syndrome (e <<< 1) = crcShift (syndrome e) := by
  rw [syndrome, syndrome, sentBits_eq_cons (n := 127) e, sentBits_shiftLeft_one (n := 127) e, crcBits_append, h, crcBits_cons_clear]
  rfl

theorem syndrome_shiftLeft {e : Frame} {k : Nat} (h : ∀ i, i < k → e.getMsbD i = false) :
    syndrome (e <<< k) = crcShift^[k] (syndrome e) := by
  induction k with
  | zero => rw [BitVec.shiftLeft_zero]; rfl
  | succ k ih =>
    have hmsb : (e <<< k).msb = false := (BitVec.msb_shiftLeft ..).trans (h k (Nat.lt_succ_self k))
    rw [BitVec.shiftLeft_add, syndrome_shiftLeft_one hmsb, ih fun i hi => h i (Nat.lt_succ_of_lt hi),
      Function.iterate_succ_apply']

theorem setWidth_eq_append (burst : BitVec 16) : burst.setWidth 128 = 0#112 ++ burst := by
  apply BitVec.eq_of_toNat_eq
  rw [BitVec.toNat_setWidth, BitVec.toNat_append]
  simp
  omega

/-- The last sixteen bits sent from no remainder leave what sixteen clear bits leave of them. -/
theorem syndrome_setWidth (burst : BitVec 16) : syndrome (burst.setWidth 128) = crcShift^[16] burst := by
  have h := crcBits_xor burst burst burst 0#16
  rw [BitVec.xor_self, BitVec.xor_zero, crcBits_own, BitVec.zero_xor, crcBits_clear] at h
  rw [setWidth_eq_append, syndrome, sentBits_append, crcBits_append, crcBits_zero, h]

/-- A burst of sixteen bits that stands `k` bits before the end (R37). -/
theorem syndrome_burst (burst : BitVec 16) {k : Nat} (hk : k ≤ 112) :
    syndrome (burst.setWidth 128 <<< k) = crcShift^[k] (crcShift^[16] burst) := by
  rw [syndrome_shiftLeft, syndrome_setWidth]
  intro i hi
  rw [setWidth_eq_append, BitVec.getMsbD_append, if_neg (by omega)]
  exact BitVec.getMsbD_zero

theorem syndrome_bit {i : Nat} (hi : i < 128) : syndrome (1#128 <<< i) = crcShift^[i] (crcShift^[16] 1#16) := by
  have hone : syndrome 1#128 = crcShift^[16] 1#16 := syndrome_setWidth 1#16
  rw [syndrome_shiftLeft, hone]
  intro k hk
  simp [BitVec.getMsbD_one]
  omega

theorem oddBits_syndrome_bit {i : Nat} (hi : i < 128) : oddBits (syndrome (1#128 <<< i)) = true := by
  rw [syndrome_bit hi, ← Function.iterate_add_apply]
  have hodd (n : Nat) : oddBits (crcShift^[n] 1#16) = true := by
    induction n with
    | zero => decide
    | succ n ih => rw [Function.iterate_succ_apply', crcShift, oddBits_crcBit_false, ih]
  exact hodd (i + 16)

/-- An odd number of wrong bits leaves an odd remainder. -/
theorem syndrome_three_ne_zero {i j k : Nat} (hi : i < 128) (hj : j < 128) (hk : k < 128) :
    syndrome ((1#128 <<< i) ^^^ (1#128 <<< j) ^^^ (1#128 <<< k)) ≠ 0 := by
  intro h
  have hodd := congrArg oddBits h
  rw [syndrome_xor, syndrome_xor, oddBits_xor, oddBits_xor, oddBits_syndrome_bit hi, oddBits_syndrome_bit hj,
    oddBits_syndrome_bit hk] at hodd
  exact absurd hodd (by decide)

/-- Within the length of a frame, the remainder of one bit does not come again. -/
theorem crcShift_iterate_ne {n : Nat} (hn : n < 127) : crcShift^[n + 1] 1#16 ≠ 1#16 := by
  revert n
  decide

theorem syndrome_two_ne_zero {i j : Nat} (hi : i < 128) (hj : j < i) :
    syndrome ((1#128 <<< i) ^^^ (1#128 <<< j)) ≠ 0 := by
  obtain ⟨n, rfl⟩ := Nat.exists_eq_add_of_lt hj
  intro h
  have hsplit : crcShift^[j + n + 1] (crcShift^[16] 1#16) = crcShift^[j] (crcShift^[16] (crcShift^[n + 1] 1#16)) := by
    rw [← Function.iterate_add_apply, ← Function.iterate_add_apply, ← Function.iterate_add_apply]
    congr 1
    omega
  rw [syndrome_xor, syndrome_bit hi, syndrome_bit (hj.trans hi), hsplit, ← crcShift_iterate_xor,
    ← crcShift_iterate_xor] at h
  exact crcShift_iterate_ne (by omega)
    (BitVec.xor_eq_zero_iff.mp (eq_zero_of_crcShift_iterate (eq_zero_of_crcShift_iterate h)))

theorem syndrome_burst_ne_zero {burst : BitVec 16} {k : Nat} (hburst : burst ≠ 0) (hk : k ≤ 112) :
    syndrome (burst.setWidth 128 <<< k) ≠ 0 := by
  rw [syndrome_burst burst hk]
  exact fun h => hburst (eq_zero_of_crcShift_iterate (eq_zero_of_crcShift_iterate h))

/-! ### The check sequence, bit by bit -/

theorem checkSequence_eq (body : BitVec 112) :
    checkSequence body =
      (List.range 112).foldl
        (fun (rem : BitVec 16) i =>
          if (rem.getLsbD 15 ^^ body.getLsbD (111 - i)) then (rem <<< 1) ^^^ 0x1021#16 else rem <<< 1)
        0xFFFF#16 := by
  rw [checkSequence, crcBits, sentBits, List.foldl_map]
  apply List.foldl_ext
  intro rem i hi
  rw [List.mem_range] at hi
  rw [crcBit, BitVec.msb_eq_getLsbD_last, BitVec.getMsbD, decide_eq_true hi, Bool.true_and]

/-- Settles O50: the made frame by `crcBits_of_checked`, the damages by their syndromes. -/
theorem madeFramesPassTheCheck : Obligations.MadeFramesPassTheCheck := by
  unfold Obligations.MadeFramesPassTheCheck
  exact ⟨fun body => ⟨checkSequence_eq body, checked_sealed body, body_append body _, crcBits_of_checked (checked_sealed body)⟩,
    fun f hf => ⟨fun i j k hi hj hk _ => checked_xor_eq_false hf (syndrome_three_ne_zero hi hj hk),
      fun i j hi hj => checked_xor_eq_false hf (syndrome_two_ne_zero hi hj),
      fun burst k hburst hk => checked_xor_eq_false hf (syndrome_burst_ne_zero hburst hk)⟩⟩

end Sys2Proof.Machine
end

section
/-! PROOF. One µs: what the expiries of a tick do, one after another (R5, R6, R64, R73 to R77, R88, R122, R136). -/

namespace Sys2Proof.Machine

/-! ### The ends of entries -/

/-- A state without what the end of an entry can change: the ports and their pins, the outstanding table, the transmit
queue with ring-out, and the notices. -/
def State.apartFromTraffic (s : State) : State :=
  { s with
    strobes := ⟨.low, .low, .low, .low⟩
    ports := ⟨.idle, .idle, .idle, .idle⟩
    completions := ⟨[], [], [], []⟩
    outstanding := Vector.replicate 16 none
    transmit := []
    ringOut := .idle
    notices := []
    lost := false
    attention := false }

/-- Tag `x` has the entry of a request that waited on the pins of a port in `s0`, just sent. -/
def SentSince (s0 : State) (x : Tag) (u : State) : Prop :=
  ∃ e r, u.entry x = some e ∧ e.state = .waitingAnswer ∧ e.attempts = 0 ∧ s0.strobe e.port = .presented r

/-- What holds between two states `u` and `w` of a tick that started in `s0`, where the timers of the entries in
`ended` expired between the two: other entries stay, other free tags are taken by requests that waited on the pins
alone, a port that had none waiting stays as it is or becomes idle, and whatever is queued or told stays. -/
structure TrafficSince (s0 : State) (ended : Tag → Prop) (u w : State) : Prop where
  apart : w.apartFromTraffic = u.apartFromTraffic
  entries : ∀ x e, ¬ended x → u.entry x = some e → w.entry x = some e
  free : ∀ x, ¬ended x → u.entry x = none → w.entry x = none ∨ SentSince s0 x w
  pins : ∀ q r, w.strobe q = .presented r → u.strobe q = .presented r
  ports : ∀ q, (∀ r, s0.strobe q ≠ .presented r) → w.port q = u.port q ∨ w.port q = .idle
  transmit : u.transmit <+: w.transmit
  notices : u.notices <+: w.notices
  lost : u.lost = true → w.lost = true
  completions : ∀ q, portGet u.completions q <+: portGet w.completions q

section
variable {s0 : State} {ended : Tag → Prop} {u v w : State}

theorem TrafficSince.refl (s0 : State) (ended : Tag → Prop) (u : State) : TrafficSince s0 ended u u where
  apart := rfl
  entries _ _ _ h := h
  free _ _ h := .inl h
  pins _ _ h := h
  ports _ _ := .inl rfl
  transmit := List.prefix_refl _
  notices := List.prefix_refl _
  lost h := h
  completions _ := List.prefix_refl _

theorem TrafficSince.trans (h : TrafficSince s0 ended u v) (k : TrafficSince s0 ended v w) :
    TrafficSince s0 ended u w where
  apart := k.apart.trans h.apart
  entries x e hx he := k.entries x e hx (h.entries x e hx he)
  free x hx hfree := by
    rcases h.free x hx hfree with hnone | ⟨e, r, he, hsent⟩
    · exact k.free x hx hnone
    · exact .inr ⟨e, r, k.entries x e hx he, hsent⟩
  pins q r hr := h.pins q r (k.pins q r hr)
  ports q hq := by
    rcases k.ports q hq with hsame | hidle
    · rw [hsame]; exact h.ports q hq
    · exact .inr hidle
  transmit := h.transmit.trans k.transmit
  notices := h.notices.trans k.notices
  lost hl := k.lost (h.lost hl)
  completions q := (h.completions q).trans (k.completions q)

theorem TrafficSince.mono {ended' : Tag → Prop} (h : TrafficSince s0 ended u w) (hsub : ∀ x, ended x → ended' x) :
    TrafficSince s0 ended' u w :=
  { h with
    entries := fun x e hx => h.entries x e fun hend => hx (hsub x hend)
    free := fun x hx => h.free x fun hend => hx (hsub x hend) }

/-! #### One change at a time -/

theorem trafficSince_setEntry (u : State) (x : Tag) (y : Option Entry) :
    TrafficSince s0 (· = x) u (u.setEntry x y) :=
  { TrafficSince.refl s0 (· = x) u with
    apart := rfl
    entries := fun z e hz he => by rw [entry_setEntry, if_neg hz]; exact he
    free := fun z hz he => .inl (by rw [entry_setEntry, if_neg hz]; exact he) }

theorem trafficSince_placeTransmit (u : State) (f : Frame) : TrafficSince s0 ended u (u.placeTransmit f) :=
  { TrafficSince.refl s0 ended u with
    apart := rfl
    transmit := List.prefix_append u.transmit [f] }

theorem trafficSince_placeNotice (u : State) (n : Notice) : TrafficSince s0 ended u (u.placeNotice n) :=
  { TrafficSince.refl s0 ended u with
    apart := rfl
    notices := by
      rw [placeNotice_notices]
      split
      · exact List.prefix_append u.notices [n]
      · exact List.prefix_refl _
    lost := fun hl => by
      rw [placeNotice_lost]
      split
      · exact hl
      · rfl }

theorem trafficSince_complete (u : State) (q : Port) (c : Completion) : TrafficSince s0 ended u (u.complete q c) :=
  { TrafficSince.refl s0 ended u with
    apart := rfl
    ports := fun x _ => by
      rw [port_complete]
      split
      · exact .inr rfl
      · exact .inl rfl
    completions := fun x => by
      rw [complete_completions, portGet_set]
      split
      · rename_i hx; exact hx ▸ List.prefix_append _ [c]
      · exact List.prefix_refl _ }

/-- A request is taken from the pins (R41). -/
theorem trafficSince_accepted (u : State) (q : Port) (r : PortRequest) :
    TrafficSince s0 ended u (u.setStrobe q (.accepted r)) :=
  { TrafficSince.refl s0 ended u with
    apart := rfl
    pins := fun x y hy => by
      rw [strobe_setStrobe] at hy
      split at hy
      · exact nomatch hy
      · exact hy }

section
variable {q : Port} {r : PortRequest} (hq : s0.strobe q = .presented r)
include hq

theorem trafficSince_setPort (u : State) (st : PortState) : TrafficSince s0 ended u (u.setPort q st) :=
  { TrafficSince.refl s0 ended u with
    apart := rfl
    ports := fun x hx => by
      have hne : x ≠ q := by rintro rfl; exact hx r hq
      exact .inl (by rw [port_setPort, if_neg hne]) }

theorem trafficSince_sendRequest (u : State) {d : Station} {req : Request} {t : Tag}
    (ht : u.sendTag q d req = some t) : TrafficSince s0 ended u (u.sendRequest q d req t) := by
  have hfree : u.entry t = none := by
    obtain ⟨-, hlowest⟩ := sendTag_some ht
    simpa using List.find?_some hlowest
  have htaken : TrafficSince s0 ended u (u.setEntry t (some (u.newEntry q d req))) :=
    { TrafficSince.refl s0 ended u with
      apart := rfl
      entries := fun x e _ he => by
        rw [entry_setEntry, if_neg]
        · exact he
        · rintro rfl; exact nomatch hfree.symm.trans he
      free := fun x _ he => by
        by_cases hx : x = t
        · subst hx
          exact .inr ⟨_, r, by rw [entry_setEntry, if_pos rfl], rfl, rfl, hq⟩
        · exact .inl (by rw [entry_setEntry, if_neg hx]; exact he) }
  have hplaced := htaken.trans (trafficSince_placeTransmit _ (u.entryFrame t (u.newEntry q d req)))
  unfold State.sendRequest
  simp only
  split
  · exact hplaced.trans (trafficSince_complete _ _ _)
  · exact hplaced.trans (trafficSince_setPort hq _ _)

theorem trafficSince_acceptMemory (u : State) (x : PortRequest) : TrafficSince s0 ended u (u.acceptMemory q x) := by
  have hrefused (code : Code) : TrafficSince s0 ended u (u.refuse q code) := trafficSince_complete u q _
  unfold State.acceptMemory State.route
  split
  · exact hrefused _
  simp only
  repeat' split
  · exact hrefused _
  · exact hrefused _
  · exact hrefused _
  · exact hrefused _
  · exact trafficSince_setPort hq u _
  · rename_i t ht
    exact trafficSince_sendRequest hq u ht
  · exact trafficSince_setPort hq u _
  · exact hrefused _

end

theorem trafficSince_acceptControl {r : PortRequest} (hq : s0.strobe .p = .presented r) (u : State) (x : PortRequest) :
    TrafficSince s0 ended u (u.acceptControl x) := by
  have hrefused (code : Code) : TrafficSince s0 ended u (u.refuse .p code) := trafficSince_complete u .p _
  have hcompleted (words : List Word) : TrafficSince s0 ended u (u.complete .p (okCompletion words)) :=
    trafficSince_complete u .p _
  have hcontrol (a : Access) : TrafficSince s0 ended u (u.setPort .p (.control a)) := trafficSince_setPort hq u _
  have hread (it : Item) : TrafficSince s0 ended u (u.controlRead it) := by
    cases it with
    | window n => exact hcompleted _
    | status => exact hcontrol _
    | notice => exact hcontrol _
    | hold i => exact hcompleted _
    | bulk => exact hcompleted _
  have hwrite (it : Item) : TrafficSince s0 ended u (u.controlWrite x.data it) := by
    cases it <;> exact hcontrol _
  unfold State.acceptControl
  simp only
  repeat' split
  · exact hrefused _
  · exact hread _
  · exact hwrite _
  · exact hrefused _
  · exact hrefused _

/-- The request accepted after the end of an entry is one that waited on the pins (R41, R59). -/
theorem trafficSince_acceptWaiting (hpins : ∀ q r, u.strobe q = .presented r → s0.strobe q = .presented r) (q : Port) :
    TrafficSince s0 ended u (u.acceptWaiting q) := by
  unfold State.acceptWaiting
  split
  · rename_i r hr
    split
    · exact .refl s0 ended u
    have haccepted : TrafficSince s0 ended u (u.setStrobe q (.accepted r)) := trafficSince_accepted u q r
    unfold State.accept
    simp only
    split
    · rename_i hcontrol
      obtain rfl : q = .p := by cases q <;> simp_all [pinsControl]
      exact haccepted.trans (trafficSince_acceptControl (hpins _ _ hr) _ r)
    · exact haccepted.trans (trafficSince_acceptMemory (hpins _ _ hr) _ r)
  · exact .refl s0 ended u

/-! #### The expiry of an entry's timer -/

/-- What the expiry of an entry's timer has brought about (R73, R74, R76, R77). -/
structure EntryExpired (s0 : State) (x : Tag) (e : Entry) (w : State) : Prop where
  answered : e.state = .waitingAnswer →
    w.entry x = some { e with state := .stale, timer := some (answerTimeout s0.straps) }
    ∧ (e.posted = false → ⟨.timeout, [0], false⟩ ∈ portGet w.completions e.port
      ∧ ((∀ r, s0.strobe e.port ≠ .presented r) → w.port e.port = .idle))
    ∧ (e.posted = true →
      .postedFail e.port x e.target e.request.page e.request.offset .timeout ∈ w.notices ∨ w.lost = true)
  resent : e.state = .waitingResend →
    (w.entry x = some { e with
        state := .waitingAnswer, attempts := e.attempts + 1, timer := some (answerTimeout s0.straps) }
      ∧ reqFrame s0.own e.target x e.port e.request ∈ w.transmit)
    ∨ (w.entry x = some { e with timer := none } ∧ 6 ≤ w.placesTaken)
  freed : e.state = .stale → w.entry x = none ∨ SentSince s0 x w

theorem placesTaken_le_of_trafficSince (h : TrafficSince s0 ended u w) : u.placesTaken ≤ w.placesTaken := by
  have hgrant : w.apartFromTraffic.grant = u.apartFromTraffic.grant := congrArg State.grant h.apart
  have hgrant : w.grant = u.grant := hgrant
  have hlength := h.transmit.length_le
  simp only [State.placesTaken, hgrant]
  omega

/-- The later expiries of the same tick leave it so. -/
theorem EntryExpired.later {x : Tag} {e : Entry} (he : EntryExpired s0 x e u) (h : TrafficSince s0 ended u w)
    (hx : ¬ended x) : EntryExpired s0 x e w where
  answered hw := by
    obtain ⟨hentry, htold, hnoticed⟩ := he.answered hw
    refine ⟨h.entries x _ hx hentry, fun hposted => ?_, fun hposted => ?_⟩
    · obtain ⟨hmem, hidle⟩ := htold hposted
      refine ⟨(h.completions e.port).subset hmem, fun hpins => ?_⟩
      rcases h.ports e.port hpins with hsame | hnow
      · exact hsame.trans (hidle hpins)
      · exact hnow
    · exact (hnoticed hposted).imp (fun hmem => h.notices.subset hmem) h.lost
  resent hw := by
    rcases he.resent hw with ⟨hentry, hmem⟩ | ⟨hentry, hfull⟩
    · exact .inl ⟨h.entries x _ hx hentry, h.transmit.subset hmem⟩
    · exact .inr ⟨h.entries x _ hx hentry, hfull.trans (placesTaken_le_of_trafficSince h)⟩
  freed hw := by
    rcases he.freed hw with hnone | ⟨y, r, hy, hsent⟩
    · exact h.free x hx hnone
    · exact .inr ⟨y, r, h.entries x _ hx hy, hsent⟩

theorem tellEnd_expired {x : Tag} {e : Entry} (hpins : ∀ q r, u.strobe q = .presented r → s0.strobe q = .presented r)
    (hw : e.state = .waitingAnswer)
    (hentry : u.entry x = some { e with state := .stale, timer := some (answerTimeout s0.straps) }) :
    TrafficSince s0 ended u (u.tellEnd x e (plainCompletion .timeout))
      ∧ EntryExpired s0 x e (u.tellEnd x e (plainCompletion .timeout)) := by
  cases hposted : e.posted with
  | false =>
    have htold := trafficSince_complete (s0 := s0) (ended := ended) u e.port ⟨.timeout, [0], false⟩
    have hmem : ⟨.timeout, [0], false⟩ ∈ portGet (u.complete e.port ⟨.timeout, [0], false⟩).completions e.port := by
      rw [complete_completions, portGet_set_self]
      exact List.mem_append_right _ (List.mem_singleton_self _)
    have hidle : (u.complete e.port ⟨.timeout, [0], false⟩).port e.port = .idle := by rw [port_complete, if_pos rfl]
    have hexpired : EntryExpired s0 x e (u.complete e.port ⟨.timeout, [0], false⟩) :=
      { answered := fun _ => ⟨hentry, fun _ => ⟨hmem, fun _ => hidle⟩, fun h => (nomatch hposted.symm.trans h)⟩
        resent := fun h => nomatch hw.symm.trans h
        freed := fun h => nomatch hw.symm.trans h }
    rw [tellEnd_of_not_posted _ _ _ hposted]
    have haccept (ended : Tag → Prop) : TrafficSince s0 ended (u.complete e.port ⟨.timeout, [0], false⟩)
        ((u.complete e.port ⟨.timeout, [0], false⟩).acceptWaiting e.port) := 
      trafficSince_acceptWaiting (u := u.complete e.port ⟨.timeout, [0], false⟩) hpins e.port
    exact ⟨htold.trans (haccept ended), hexpired.later (haccept fun _ => False) id⟩
  | true =>
    rw [tellEnd_of_posted _ _ .timeout hposted nofun nofun]
    refine ⟨trafficSince_placeNotice u _, ⟨fun _ => ⟨hentry, fun h => (nomatch hposted.symm.trans h), fun _ => ?_⟩,
      fun h => (nomatch hw.symm.trans h), fun h => (nomatch hw.symm.trans h)⟩⟩
    rw [placeNotice_notices, placeNotice_lost]
    split
    · exact .inl (List.mem_append_right _ (List.mem_singleton_self _))
    · exact .inr rfl

/-- The timer of the entry of tag `x` stands at 0. -/
def TimerDue (s : State) (x : Tag) : Prop := ∃ e, s.entry x = some e ∧ e.timer = some 0

/-- The expiry that is due for the entry of a tag, if one is. -/
def State.tagExpiries (s : State) (x : Tag) : List Instr :=
  match s.entry x with
  | some e => entryExpiry x e
  | none => []

/-- The expiry of one entry's timer (R73, R74, R76, R77). -/
theorem exec_entryExpiry {x : Tag} {e : Entry}
    (hpins : ∀ q r, u.strobe q = .presented r → s0.strobe q = .presented r) (hstraps : u.straps = s0.straps)
    (he : u.entry x = some e) (hdue : e.timer = some 0) :
    ∃ c w, entryExpiry x e = [c] ∧ exec c u = .next w ∧ TrafficSince s0 (· = x) u w ∧ EntryExpired s0 x e w := by
  have hentry (y : Option Entry) : (u.setEntry x y).entry x = y := by rw [entry_setEntry, if_pos rfl]
  cases hw : e.state with
  | waitingAnswer =>
    have hexec := exec_answerTimerExpiry he hw
    rw [hstraps] at hexec
    obtain ⟨htold, hexpired⟩ := tellEnd_expired (ended := (· = x)) (x := x) (e := e)
      (u := u.setEntry x (some { e with state := .stale, timer := some (answerTimeout s0.straps) })) hpins hw (hentry _)
    exact ⟨_, _, by rw [entryExpiry, if_pos hdue, hw], hexec, (trafficSince_setEntry u x _).trans htold, hexpired⟩
  | waitingResend =>
    have hexec := exec_backoffTimerExpiry he hw (by simp [hdue])
    by_cases hplace : u.placesTaken < 6
    · rw [if_pos hplace] at hexec
      refine ⟨_, _, by rw [entryExpiry, if_pos hdue, hw], hexec,
        (trafficSince_setEntry u x _).trans (trafficSince_placeTransmit _ _),
        ⟨fun h => (nomatch hw.symm.trans h), fun _ => .inl ⟨?_, ?_⟩, fun h => (nomatch hw.symm.trans h)⟩⟩
      · rw [entry_resend, if_pos rfl, hstraps]
      · rw [State.resend, placeTransmit_transmit]
        refine List.mem_append_right _ (List.mem_singleton.mpr ?_)
        have hown : u.own = s0.own := congrArg Straps.station hstraps
        exact (congrArg (reqFrame · e.target x e.port e.request) hown).symm
    · rw [if_neg hplace] at hexec
      exact ⟨_, _, by rw [entryExpiry, if_pos hdue, hw], hexec, trafficSince_setEntry u x _,
        ⟨fun h => (nomatch hw.symm.trans h), fun _ => .inr ⟨hentry _, Nat.not_lt.mp hplace⟩,
          fun h => (nomatch hw.symm.trans h)⟩⟩
  | stale =>
    exact ⟨_, _, by rw [entryExpiry, if_pos hdue, hw], exec_quarantineExpiry he hw, trafficSince_setEntry u x _,
      ⟨fun h => (nomatch hw.symm.trans h), fun h => (nomatch hw.symm.trans h), fun _ => .inl (hentry _)⟩⟩

theorem straps_of_trafficSince (h : TrafficSince s0 ended u w) : w.straps = u.straps := by
  have hstraps : w.apartFromTraffic.straps = u.apartFromTraffic.straps := congrArg State.straps h.apart
  exact hstraps

/-- The expiries of the entries, one tag after another: each does its own, and leaves the others to theirs. -/
theorem execAll_tagExpiries {l : List Tag} (hl : l.Nodup)
    (hpins : ∀ q r, u.strobe q = .presented r → s0.strobe q = .presented r) (hstraps : u.straps = s0.straps)
    (hkept : ∀ x ∈ l, ∀ e, v.entry x = some e → u.entry x = some e) :
    ∃ w, execAll (l.flatMap v.tagExpiries) u = .next w ∧ TrafficSince s0 (fun x => x ∈ l ∧ TimerDue v x) u w
      ∧ ∀ x ∈ l, ∀ e, v.entry x = some e → e.timer = some 0 → EntryExpired s0 x e w := by
  induction l generalizing u with
  | nil => exact ⟨u, rfl, .refl s0 _ u, fun _ hx => nomatch hx⟩
  | cons a l ih =>
    obtain ⟨ha, hl⟩ := List.nodup_cons.mp hl
    have hskipped (hnone : v.tagExpiries a = []) (hundue : ∀ e, v.entry a = some e → e.timer ≠ some 0) :
        ∃ w, execAll ((a :: l).flatMap v.tagExpiries) u = .next w
          ∧ TrafficSince s0 (fun x => x ∈ a :: l ∧ TimerDue v x) u w
          ∧ ∀ x ∈ a :: l, ∀ e, v.entry x = some e → e.timer = some 0 → EntryExpired s0 x e w := by
      obtain ⟨w, hexec, hsince, hexpired⟩ := ih hl hpins hstraps fun x hx => hkept x (List.mem_cons_of_mem _ hx)
      refine ⟨w, by rw [List.flatMap_cons, hnone]; exact hexec,
        hsince.mono fun x ⟨hx, hdue⟩ => ⟨List.mem_cons_of_mem _ hx, hdue⟩, fun x hx e he hdue => ?_⟩
      rcases List.mem_cons.mp hx with rfl | hx
      · exact absurd hdue (hundue e he)
      · exact hexpired x hx e he hdue
    cases he : v.entry a with
    | none => exact hskipped (by rw [State.tagExpiries, he]) fun e h => nomatch he.symm.trans h
    | some e =>
      by_cases hdue : e.timer = some 0
      · obtain ⟨c, u1, hc, hexec1, hsince1, hexpired1⟩ :=
          exec_entryExpiry hpins hstraps (hkept a (List.mem_cons_self ..) e he) hdue
        obtain ⟨w, hexec, hsince, hexpired⟩ := ih (u := u1) hl (fun q r hr => hpins q r (hsince1.pins q r hr))
          ((straps_of_trafficSince hsince1).trans hstraps) fun x hx y hy =>
            hsince1.entries x y (fun heq => ha (heq ▸ hx)) (hkept x (List.mem_cons_of_mem _ hx) y hy)
        refine ⟨w, ?_, ?_, fun x hx y hy hy0 => ?_⟩
        · rw [List.flatMap_cons, show v.tagExpiries a = [c] by rw [State.tagExpiries, he]; exact hc]
          simp only [List.singleton_append, execAll, hexec1]
          exact hexec
        · refine (hsince1.mono fun x hx => ?_).trans (hsince.mono fun x ⟨hx, hd⟩ => ⟨List.mem_cons_of_mem _ hx, hd⟩)
          subst hx
          exact ⟨List.mem_cons_self .., e, he, hdue⟩
        · rcases List.mem_cons.mp hx with rfl | hx
          · obtain rfl := Option.some.inj (he.symm.trans hy)
            exact hexpired1.later hsince fun hmem => ha hmem.1
          · exact hexpired x hx y hy hy0
      · refine hskipped ?_ fun y hy => ?_
        · rw [State.tagExpiries, he]
          exact if_neg hdue
        · obtain rfl := Option.some.inj (he.symm.trans hy)
          exact hdue

end

end Sys2Proof.Machine
end

section
/-! PROOF. A step with no command waiting: the tick as a whole (R5, R6, R64, R88, R122; log entry 2). -/

namespace Sys2Proof.Machine

/-! ### One expiry after another -/

theorem execAll_append {l m : List Instr} {s u : State} (h : execAll l s = .next u) :
    execAll (l ++ m) s = execAll m u := by
  induction l generalizing s with
  | nil => cases h; rfl
  | cons c l ih =>
    simp only [execAll, List.cons_append] at h ⊢
    cases hc : exec c s with
    | next v => rw [hc] at h; exact ih h
    | fault r => rw [hc] at h; exact nomatch h
    | refused r => rw [hc] at h; exact nomatch h

theorem execAll_singleton {c : Instr} {s u : State} (h : exec c s = .next u) : execAll [c] s = .next u := by
  simp only [execAll, h]

/-! ### The refresh timer and the probe timer -/

/-- A timer that restarts at `n` where one µs brings it to 0. -/
def restarted (n : Nat) (t : Option Nat) : Option Nat := t.map fun m => if m ≤ 1 then n else m - 1

/-- One µs brings a timer to 0. -/
def reachesZero (t : Option Nat) : Bool := t.any fun m => decide (m ≤ 1)

theorem countDown_eq_zero_iff (t : Option Nat) : countDown t = some 0 ↔ reachesZero t = true := by
  cases t with
  | none => simp [countDown, reachesZero]
  | some m =>
    simp only [countDown, reachesZero, Option.map_some, Option.some.injEq, Option.any_some, decide_eq_true_eq]
    omega

theorem restarted_of_reachesZero {n : Nat} {t : Option Nat} (h : reachesZero t = true) : restarted n t = some n := by
  cases t with
  | none => exact nomatch h
  | some m => exact congrArg some (if_pos (of_decide_eq_true h))

theorem restarted_of_not_reachesZero {n : Nat} {t : Option Nat} (h : reachesZero t = false) :
    restarted n t = countDown t := by
  cases t with
  | none => rfl
  | some m => exact congrArg some (if_neg (of_decide_eq_false h))

/-- The station once its timers have counted one µs and the refresh timer has expired where it reached 0 (R88). -/
def State.refreshCounted (s : State) : State :=
  { s.countTimers with
    refreshTimer := restarted 10 s.refreshTimer
    refreshClaim := s.refreshClaim || reachesZero s.refreshTimer }

theorem execAll_refreshExpiry (s : State) :
    execAll (if s.countTimers.refreshTimer = some 0 then [.refreshTimerExpiry] else []) s.countTimers =
      .next s.refreshCounted := by
  have hzero : s.countTimers.refreshTimer = some 0 ↔ reachesZero s.refreshTimer = true := countDown_eq_zero_iff _
  cases h : reachesZero s.refreshTimer with
  | true =>
    have hruns : s.countTimers.refreshTimer ≠ none := by rw [hzero.mpr h]; exact nofun
    rw [if_pos (hzero.mpr h), execAll_singleton (exec_refreshTimerExpiry hruns), State.refreshCounted,
      restarted_of_reachesZero h, h, Bool.or_true]
  | false =>
    rw [if_neg (by rw [hzero, h]; exact Bool.false_ne_true), State.refreshCounted, restarted_of_not_reachesZero h, h, Bool.or_false]
    rfl

/-- The station with the probe claim that this µs raises, unless one waits (R6). -/
def State.probed (s : State) : State :=
  if reachesZero s.probeTimer && !s.probeClaim then s.withProbeClaim else s

/-- The station once the refresh and the probe timer have been dealt with (R6, R88). -/
def State.timersCounted (s : State) : State :=
  { s.probed with
    probeTimer := restarted 100 s.probeTimer
    refreshTimer := s.refreshCounted.refreshTimer
    refreshClaim := s.refreshCounted.refreshClaim
    outstanding := s.countTimers.outstanding
    holds := s.countTimers.holds }

/-- Raising a probe claim sees nothing of the timers and tables. -/
theorem withProbeClaim_refreshCounted (s : State) (t : Option Nat) :
    State.withProbeClaim { s.refreshCounted with probeTimer := t } =
      { s.withProbeClaim with
        probeTimer := t
        refreshTimer := s.refreshCounted.refreshTimer
        refreshClaim := s.refreshCounted.refreshClaim
        outstanding := s.countTimers.outstanding
        holds := s.countTimers.holds } := by
  have hplaces : State.placesTaken { s.refreshCounted with probeTimer := t } = s.placesTaken := rfl
  rw [State.withProbeClaim, State.withProbeClaim, hplaces]
  split <;> rfl

theorem execAll_probeExpiry (s : State) :
    execAll (if s.countTimers.probeTimer = some 0 then [.probeTimerExpiry] else []) s.refreshCounted =
      .next s.timersCounted := by
  have hzero : s.countTimers.probeTimer = some 0 ↔ reachesZero s.probeTimer = true := countDown_eq_zero_iff _
  obtain ⟨hraise, hwait, -⟩ := probesAreClaimedAndPlaced s.refreshCounted
  cases h : reachesZero s.probeTimer with
  | true =>
    have hruns : s.refreshCounted.probeTimer ≠ none := fun hnone => nomatch (hzero.mpr h).symm.trans hnone
    rw [if_pos (hzero.mpr h), State.timersCounted, restarted_of_reachesZero h, State.probed, h]
    cases hclaim : s.probeClaim with
    | true => exact execAll_singleton (hwait hruns hclaim)
    | false => exact (execAll_singleton (hraise hruns hclaim)).trans (congrArg _ (withProbeClaim_refreshCounted s _))
  | false =>
    rw [if_neg (by rw [hzero, h]; exact Bool.false_ne_true), State.timersCounted, restarted_of_not_reachesZero h, State.probed, h]
    rfl

/-- Raising a probe claim changes the claim, the serials, the transmit queue and ring-out alone (R6). -/
theorem probed_eq (s : State) : s.probed =
    { s with
      probeClaim := s.probed.probeClaim, probeSerial := s.probed.probeSerial, recentProbes := s.probed.recentProbes,
      transmit := s.probed.transmit, ringOut := s.probed.ringOut } := by
  unfold State.probed State.withProbeClaim
  split
  · split <;> rfl
  · rfl

/-! ### The hold timers -/

/-- The hold timer of a slot runs and reaches 0. -/
def State.holdEnds (s : State) (i : Slot) : Bool := (s.slot i).any fun h => !h.stopped && decide (h.timer ≤ 1)

/-- The expiry that is due for a slot's hold, if one is. -/
def State.holdExpiries (s : State) (i : Slot) : List Instr :=
  match s.slot i with
  | some h => slotExpiry i h
  | none => []

theorem holdExpiries_countTimers (s : State) (i : Slot) :
    s.countTimers.holdExpiries i = if s.holdEnds i then [.holdTimerExpiry i] else [] := by
  rw [State.holdExpiries, State.holdEnds, slot_countTimers]
  cases s.slot i with
  | none => rfl
  | some h =>
    obtain ⟨page, offset, holder, timer, stopped⟩ := h
    cases stopped with
    | true => rfl
    | false =>
      have hzero : timer - 1 = 0 ↔ timer ≤ 1 := by omega
      simp [slotExpiry, countHold, hzero]

/-- The slots whose holds end in this µs. -/
def State.endingSlots (s : State) : List Slot := allSlots.filter s.holdEnds

theorem mem_endingSlots (s : State) (i : Slot) : i ∈ s.endingSlots ↔ s.holdEnds i = true := by
  rw [State.endingSlots, List.mem_filter, and_iff_right (mem_allSlots i)]

theorem flatMap_holdExpiries (s : State) :
    allSlots.flatMap s.countTimers.holdExpiries = s.endingSlots.map .holdTimerExpiry := by
  unfold State.endingSlots
  generalize allSlots = l
  induction l with
  | nil => rfl
  | cons i l ih =>
    rw [List.flatMap_cons, holdExpiries_countTimers, ih]
    cases hi : s.holdEnds i <;> simp [hi]

section
variable {l : List Slot} {u : State}

/-- Holds whose timers run end one after another (R122, R136). -/
theorem execAll_holdExpiries (hl : l.Nodup) (hrun : ∀ i ∈ l, ∃ h, u.slot i = some h ∧ h.stopped = false) :
    execAll (l.map .holdTimerExpiry) u = .next (l.foldl State.endHold u) := by
  induction l generalizing u with
  | nil => rfl
  | cons i l ih =>
    obtain ⟨hi, hl⟩ := List.nodup_cons.mp hl
    obtain ⟨h, hslot, hruns⟩ := hrun i (List.mem_cons_self ..)
    obtain ⟨hexpires, -⟩ := holdsAreMadeAndEnd u i
    have hexec : exec (.holdTimerExpiry i) u = .next (u.endHold i) := hexpires h hslot hruns
    simp only [List.map_cons, execAll, hexec, List.foldl_cons]
    refine ih hl fun j hj => ?_
    have hne : j ≠ i := fun heq => hi (heq ▸ hj)
    rw [slot_endHold, if_neg hne]
    exact hrun j (List.mem_cons_of_mem _ hj)

theorem slot_endHolds (i : Slot) : (l.foldl State.endHold u).slot i = if i ∈ l then none else u.slot i := by
  induction l generalizing u with
  | nil => rfl
  | cons j l ih =>
    rw [List.foldl_cons, ih, slot_endHold]
    by_cases hi : i = j
    · simp [hi]
    · simp [hi]

/-- Ending holds changes the holds, the deferred entries and the job alone, each entry and the job by each end (R136). -/
theorem endHolds_eq : l.foldl State.endHold u =
    { u with
      holds := (l.foldl State.endHold u).holds
      deferred := u.deferred.map fun d => l.foldl (fun d i => readied i d) d
      bulk := u.bulk.map fun j => l.foldl (fun j i => if j.slot = some i then { j with slot := none } else j) j } := by
  induction l generalizing u with
  | nil => cases u; simp
  | cons i l ih =>
    rw [List.foldl_cons, ih]
    simp only [State.endHold, engineTold, List.map_map, Option.map_map, List.foldl_cons]
    rfl

theorem foldl_readied (d : Deferred) : l.foldl (fun d i => readied i d) d =
    match d.state with
    | .waiting i => if i ∈ l then { d with state := .ready } else d
    | .ready => d := by
  induction l generalizing d with
  | nil => cases d.state <;> rfl
  | cons j l ih =>
    rw [List.foldl_cons, ih, readied]
    cases hd : d.state with
    | ready => simp [hd]
    | waiting i =>
      by_cases hi : i = j
      · simp [hi]
      · simp [hd, hi]

theorem foldl_told (j : Job) :
    l.foldl (fun j i => if j.slot = some i then { j with slot := none } else j) j =
      if j.slot.any (· ∈ l) then { j with slot := none } else j := by
  induction l generalizing j with
  | nil => cases j.slot <;> rfl
  | cons i l ih =>
    rw [List.foldl_cons, ih]
    cases hj : j.slot with
    | none => simp [hj]
    | some k =>
      by_cases hk : k = i
      · simp [hk]
      · simp [hj, hk]

end

/-! ### The tick -/

/-- The station once the timers other than those of the entries have been dealt with. -/
def State.holdsCounted (s : State) : State := s.endingSlots.foldl State.endHold s.timersCounted

theorem holdsCounted_eq (s : State) : s.holdsCounted =
    { s with
      probeTimer := restarted 100 s.probeTimer
      probeClaim := s.probed.probeClaim, probeSerial := s.probed.probeSerial, recentProbes := s.probed.recentProbes,
      transmit := s.probed.transmit, ringOut := s.probed.ringOut
      refreshTimer := restarted 10 s.refreshTimer
      refreshClaim := s.refreshClaim || reachesZero s.refreshTimer
      outstanding := s.countTimers.outstanding
      holds := s.holdsCounted.holds
      deferred := s.deferred.map fun d => s.endingSlots.foldl (fun d i => readied i d) d
      bulk := s.bulk.map fun j =>
        s.endingSlots.foldl (fun j i => if j.slot = some i then { j with slot := none } else j) j } := by
  have hcounted : s.timersCounted =
      { s with
        probeTimer := restarted 100 s.probeTimer
        probeClaim := s.probed.probeClaim, probeSerial := s.probed.probeSerial, recentProbes := s.probed.recentProbes,
        transmit := s.probed.transmit, ringOut := s.probed.ringOut
        refreshTimer := restarted 10 s.refreshTimer
        refreshClaim := s.refreshClaim || reachesZero s.refreshTimer
        outstanding := s.countTimers.outstanding
        holds := s.countTimers.holds } := by
    rw [State.timersCounted, probed_eq]
    rfl
  have hended := endHolds_eq (l := s.endingSlots) (u := s.timersCounted)
  rw [State.holdsCounted]
  generalize (s.endingSlots.foldl State.endHold s.timersCounted).holds = held at hended ⊢
  rw [hended, hcounted]

theorem entry_holdsCounted (s : State) (x : Tag) : s.holdsCounted.entry x = s.countTimers.entry x :=
  entry_of_outstanding (by rw [holdsCounted_eq]) x

theorem slot_holdsCounted (s : State) (i : Slot) : s.holdsCounted.slot i = (s.slot i).bind fun h =>
    if h.stopped then some h else if h.timer ≤ 1 then none else some { h with timer := h.timer - 1 } := by
  have hcounted : s.timersCounted.slot i = (s.slot i).map countHold :=
    (slot_of_holds (s := s.countTimers) rfl i).trans (slot_countTimers s i)
  rw [State.holdsCounted, slot_endHolds, hcounted]
  simp only [mem_endingSlots, State.holdEnds]
  cases s.slot i with
  | none => rfl
  | some h =>
    cases hstopped : h.stopped with
    | true => simp [countHold, hstopped]
    | false => by_cases hlow : h.timer ≤ 1 <;> simp [countHold, hstopped, hlow]

theorem dueExpiries_eq (s : State) : s.dueExpiries =
    (if s.refreshTimer = some 0 then [.refreshTimerExpiry] else [])
      ++ (if s.probeTimer = some 0 then [.probeTimerExpiry] else [])
      ++ allSlots.flatMap s.holdExpiries ++ allTags.flatMap s.tagExpiries := rfl

/-- What a tick does up to the expiries of the entries' timers. -/
theorem tick_eq (s : State) : tick s = execAll (allTags.flatMap s.countTimers.tagExpiries) s.holdsCounted := by
  have hholds : execAll (allSlots.flatMap s.countTimers.holdExpiries) s.timersCounted = .next s.holdsCounted := by
    rw [flatMap_holdExpiries]
    refine execAll_holdExpiries ((by decide : allSlots.Nodup).filter _) fun i hi => ?_
    have hslot : s.timersCounted.slot i = (s.slot i).map countHold :=
      (slot_of_holds (s := s.countTimers) rfl i).trans (slot_countTimers s i)
    have hends := (mem_endingSlots s i).mp hi
    rw [State.holdEnds] at hends
    cases hs : s.slot i with
    | none => simp [hs] at hends
    | some h =>
      rw [hs, Option.any_some, Bool.and_eq_true, Bool.not_eq_true'] at hends
      obtain ⟨hruns, -⟩ := hends
      exact ⟨_, by rw [hslot, hs]; rfl, by simp [countHold, hruns]⟩
  have hprobe := (execAll_append (execAll_refreshExpiry s)).trans (execAll_probeExpiry s)
  rw [tick, dueExpiries_eq]
  exact execAll_append ((execAll_append hprobe).trans hholds)

/-- A tick completes: the expiries of the entries' timers follow on the others (R64). -/
theorem tick_completes (s : State) : ∃ t, tick s = .next t
    ∧ TrafficSince s (fun x => x ∈ allTags ∧ TimerDue s.countTimers x) s.holdsCounted t
    ∧ (∀ x e, s.countTimers.entry x = some e → e.timer = some 0 → EntryExpired s x e t)
    ∧ ((∀ x, ¬TimerDue s.countTimers x) → t = s.holdsCounted) := by
  have hstrobes : s.holdsCounted.strobes = s.strobes := by rw [holdsCounted_eq]
  have hstraps : s.holdsCounted.straps = s.straps := by rw [holdsCounted_eq]
  obtain ⟨t, hexec, hsince, hexpired⟩ := execAll_tagExpiries (s0 := s) (u := s.holdsCounted) (v := s.countTimers)
    (l := allTags) (by decide) (fun q r hr => (strobe_of_strobes hstrobes q).symm.trans hr) hstraps
    fun x _ e he => (entry_holdsCounted s x).trans he
  refine ⟨t, (tick_eq s).trans hexec, hsince, fun x => hexpired x (mem_allTags x), fun hnone => ?_⟩
  have hempty : allTags.flatMap s.countTimers.tagExpiries = [] := by
    rw [List.flatMap_eq_nil_iff]
    intro x _
    rw [State.tagExpiries]
    cases hx : s.countTimers.entry x with
    | none => rfl
    | some e => exact if_neg fun hdue => hnone x ⟨e, hx, hdue⟩
  rw [hempty] at hexec
  exact (Host.Outcome.next.inj hexec).symm

/-- The deferred entries that wait on a hold that ends become READY (R136). -/
theorem map_readied (s : State) :
    (s.deferred.map fun d => s.endingSlots.foldl (fun d i => readied i d) d) =
      s.deferred.map fun d =>
        match d.state with
        | .waiting i => if s.holdEnds i then { d with state := .ready } else d
        | .ready => d := by
  refine List.map_congr_left fun d _ => ?_
  rw [foldl_readied]
  cases d.state with
  | ready => rfl
  | waiting i => exact if_congr (mem_endingSlots s i) rfl rfl

/-- The engine that waits on a hold that ends runs again (R156). -/
theorem map_told (s : State) :
    (s.bulk.map fun j =>
        s.endingSlots.foldl (fun j i => if j.slot = some i then { j with slot := none } else j) j) =
      s.bulk.map fun j => if j.slot.any s.holdEnds then { j with slot := none } else j := by
  refine congrArg (Option.map · s.bulk) (funext fun j => ?_)
  rw [foldl_told]
  refine if_congr ?_ rfl rfl
  cases j.slot with
  | none => rfl
  | some i => simp [mem_endingSlots]

section
variable {s t : State}

theorem countTimers_entry_of {x : Tag} {e : Entry} (h : s.entry x = some e) :
    s.countTimers.entry x = some (countEntry e) := by rw [entry_countTimers, h]; rfl

theorem timer_countEntry {e : Entry} {n : Nat} (h : e.timer = some n) : (countEntry e).timer = some (n - 1) := by
  rw [countEntry, h]; rfl

theorem countEntry_of_stopped {e : Entry} (h : e.timer = none) : countEntry e = e := by
  cases e
  simp only at h
  simp [countEntry, countDown, h]

theorem not_timerDue_of_running {x : Tag} {e : Entry} {n : Nat} (he : s.entry x = some e) (hn : e.timer = some n)
    (hmore : 2 ≤ n) : ¬TimerDue s.countTimers x := by
  rintro ⟨y, hy, h0⟩
  obtain rfl := Option.some.inj ((countTimers_entry_of he).symm.trans hy)
  rw [timer_countEntry hn, Option.some.injEq] at h0
  omega

theorem not_timerDue_of_stopped {x : Tag} {e : Entry} (he : s.entry x = some e) (hn : e.timer = none) :
    ¬TimerDue s.countTimers x := by
  rintro ⟨y, hy, h0⟩
  obtain rfl := Option.some.inj ((countTimers_entry_of he).symm.trans hy)
  rw [countEntry, hn] at h0
  exact nomatch h0

theorem not_timerDue_of_running_all (hrun : ∀ u e n, s.entry u = some e → e.timer = some n → 2 ≤ n) (x : Tag) :
    ¬TimerDue s.countTimers x := by
  rintro ⟨y, hy, h0⟩
  rw [entry_countTimers] at hy
  obtain ⟨e, he, rfl⟩ := Option.map_eq_some_iff.mp hy
  cases hn : e.timer with
  | none => exact not_timerDue_of_stopped he hn ⟨_, countTimers_entry_of he, h0⟩
  | some n => exact not_timerDue_of_running he hn (hrun x e n he hn) ⟨_, countTimers_entry_of he, h0⟩

theorem not_timerDue_of_free {x : Tag} (he : s.entry x = none) : ¬TimerDue s.countTimers x := by
  rintro ⟨y, hy, -⟩
  rw [entry_countTimers, he] at hy
  exact nomatch hy

end

/-- Settles O2: the timers but those of the entries by `holdsCounted_eq`, the entries' timers by `tick_completes`. -/
theorem idleStepIsOneMicrosecond : Obligations.IdleStepIsOneMicrosecond := by
  unfold Obligations.IdleStepIsOneMicrosecond
  intro s hidle ends timeout raised probed
  obtain ⟨t, htick, hsince, hexpired, hquiet⟩ := tick_completes s
  have hstep : step s = .next t := by rw [step, hidle]; exact htick
  have hapart := hsince.apart
  have hslot (i : Slot) : t.slot i = s.holdsCounted.slot i :=
    slot_of_holds (congrArg State.holds hapart :) i
  have hentry (x : Tag) (e : Entry) (hx : ¬TimerDue s.countTimers x) (he : s.entry x = some e) :
      t.entry x = some (countEntry e) :=
    hsince.entries x _ (fun hdue => hx hdue.2) ((entry_holdsCounted s x).trans (countTimers_entry_of he))
  have hdue (x : Tag) (e : Entry) (n : Nat) (he : s.entry x = some e) (hn : e.timer = some n) (hlast : n ≤ 1) :
      EntryExpired s x (countEntry e) t :=
    hexpired x _ (countTimers_entry_of he) (by rw [timer_countEntry hn, Nat.sub_eq_zero_of_le hlast])
  have htransmit := hsince.transmit
  have hnotices := hsince.notices
  have hcompletions := hsince.completions
  have hends : ends = s.holdEnds := rfl
  have hprobed : probed = s.probed := rfl
  rw [holdsCounted_eq] at hapart htransmit hnotices hcompletions
  rw [map_readied, map_told] at hapart
  rw [hends, hprobed]
  have hkept {α : Type} (field : State → α) := congrArg field hapart
  refine ⟨t, hstep, hkept State.refreshTimer, hkept State.refreshClaim,
    hkept State.probeTimer, hkept State.probeClaim, hkept State.probeSerial,
    hkept State.recentProbes, fun i => (hslot i).trans (slot_holdsCounted s i),
    hkept State.deferred, hkept State.bulk, fun u e n he hn hmore => ?_, fun u e he hn => ?_,
    fun u e n he hn hlast hw => (hdue u e n he hn hlast).answered hw,
    fun u e n he hn hlast hw => (hdue u e n he hn hlast).resent hw, fun u hfree => ?_, fun hrun => ?_, htransmit,
    hnotices, hcompletions, hkept State.mem, hkept State.epoch, hkept State.grant,
    hkept State.straps, hkept State.coldReset, hkept State.warmReset,
    hkept State.ringInCarrier, hkept State.ringOutCarrier, hkept State.ringState,
    hkept State.windows, hkept State.inbound, hkept State.passThrough,
    hkept State.rotation, hkept State.portPointer, hkept State.firstMismatch,
    (hkept State.pending).trans hidle⟩
  · rw [hentry u e (not_timerDue_of_running he hn hmore) he, countEntry, hn]
    rfl
  · rw [hentry u e (not_timerDue_of_stopped he hn) he, countEntry_of_stopped hn]
  · rcases hfree with hnone | ⟨e, n, he, hn, hlast, hw⟩
    · refine hsince.free u (fun hx => not_timerDue_of_free hnone hx.2) ?_
      rw [entry_holdsCounted, entry_countTimers, hnone]
      rfl
    · exact (hdue u e n he hn hlast).freed hw
  · have ht : t = s.holdsCounted := hquiet fun x => not_timerDue_of_running_all hrun x
    rw [ht, holdsCounted_eq]
    exact ⟨rfl, rfl, rfl, rfl, rfl, rfl, rfl, rfl⟩

end Sys2Proof.Machine
end

section
/-! PROOF. What a step does to the job of the bulk engine (R146, R155, R156, R160). -/

namespace Sys2Proof.Machine

/-- What a command can leave of the job: the job as it is, none, the job told of the end of a hold, waiting on a held
word or one word on, or where there was none a job just taken (R150 to R152, R155, R156, R160). -/
inductive JobAfter (s : State) : Option Job → Prop
  | kept : JobAfter s s.bulk
  | gone : JobAfter s none
  | told (i : Slot) : JobAfter s (engineTold i s.bulk)
  | waits (j : Job) (i : Slot) : s.bulk = some j → JobAfter s (some { j with slot := some i })
  | stepped (j : Job) (g : StepGrant) : s.bulk = some j → j.remaining - 1 ≠ 0 → JobAfter s (some (stepped j g))
  | starts (j : Job) : s.bulk = none → JobAfter s (some j)

section
variable {s t : State}

theorem JobAfter.of_eq (h : t.bulk = s.bulk) : JobAfter s t.bulk := by rw [h]; exact .kept

theorem jobAfter_handOver (s : State) (tk : Taken) : JobAfter s (s.handOver tk).bulk := by
  unfold State.handOver
  cases hr : s.inRange tk with
  | none => exact .of_eq (by simp)
  | some r =>
    have houtcome := engineDecides_outcome s.bulk tk r
    simp only [deliver_keeps]
    generalize engineDecides s.bulk tk r = d at houtcome ⊢
    cases houtcome with
    | answers st body hst => exact .kept
    | aborts body => exact .gone
    | starts kind pattern count hidle hc => exact .starts _ hidle

theorem jobAfter_handOverOf {o : Op} (h : handOverOf o s = .next t) : JobAfter s t.bulk := by
  obtain ⟨c, tk, -, -, -, rfl⟩ := handOverOf_next.mp h
  have hafter := jobAfter_handOver (s.advance c) tk
  have hsame : (s.advance c).bulk = s.bulk := by simp
  have haccept : (((s.advance c).handOver tk).acceptFor tk.source).bulk = ((s.advance c).handOver tk).bulk := by
    cases tk.source <;> simp [State.acceptFor]
  rw [haccept]
  generalize ((s.advance c).handOver tk).bulk = b at hafter
  cases hafter with
  | kept => rw [hsame]; exact .kept
  | gone => exact .gone
  | told i => rw [hsame]; exact .told i
  | waits j i hj => exact .waits j i (hsame ▸ hj)
  | stepped j g hj hmore => exact .stepped j g (hsame ▸ hj) hmore
  | starts j hnone => exact .starts j (hsame ▸ hnone)

theorem jobAfter_grantOf {o : Op} (h : grantOf o s = .next t) : JobAfter s t.bulk := by
  obtain ⟨c, tk, -, -, -, rfl⟩ := grantOf_next.mp h
  exact .of_eq (by simp)

theorem jobAfter_applyHold {u : State} (hu : u.bulk = s.bulk) (e : HoldEffect) : JobAfter s (u.applyHold e).bulk := by
  cases e with
  | keep => exact .of_eq hu
  | make page offset holder => exact .of_eq (by simpa [State.applyHold] using hu)
  | finish i =>
    show JobAfter s (engineTold i u.bulk)
    rw [hu]
    exact .told i

theorem jobAfter_wordOperationEnd (h : exec .wordOperationEnd s = .next t) : JobAfter s t.bulk := by
  cases hg : s.grant with
  | word g =>
    rw [exec_wordOperationEnd hg] at h
    obtain rfl := Host.Outcome.next.inj h
    have hwritten : (State.writeDue { s with grant := .free } (g.result.accessed.getD 0) g.result.write).bulk = s.bulk := rfl
    have haccept (u : State) (src : Source) : (u.acceptFor src).bulk = u.bulk := by
      cases src <;> simp [State.acceptFor]
    split
    · exact .of_eq hwritten
    · rw [haccept, State.endWord, show ∀ (u : State) src st b r, (u.deliver src st b r).bulk = u.bulk by simp]
      exact jobAfter_applyHold hwritten _
  | _ =>
    change execWordOperationEnd s = _ at h
    rw [execWordOperationEnd, hg] at h
    exact nomatch h

theorem jobAfter_bulkStep (h : exec .bulkStep s = .next t) : JobAfter s t.bulk := by
  change execBulkStep s = _ at h
  unfold execBulkStep at h
  split at h
  · rename_i j hchoice hj
    split at h
    · rename_i i k hheld
      cases h
      exact .waits j i hj
    · cases h
      exact .of_eq rfl
  · exact nomatch h

theorem jobAfter_bulkStepEnd (h : exec .bulkStepEnd s = .next t) : JobAfter s t.bulk := by
  cases hg : s.grant with
  | step g =>
    rw [exec_bulkStepEnd hg] at h
    obtain rfl := Host.Outcome.next.inj h
    split
    · rename_i j hj
      split
      · exact .of_eq rfl
      generalize hended : State.endStep (State.writeDue { s with grant := .free } g.address g.write) j g = w
      cases hb : w.bulk with
      | none => exact .gone
      | some x =>
        obtain ⟨rfl, -, hmore, -⟩ := endStep_bulk (hended ▸ hb)
        exact .stepped j g hj hmore
    · exact .of_eq rfl
  | _ =>
    change execBulkStepEnd s = _ at h
    rw [execBulkStepEnd, hg] at h
    exact nomatch h

/-! #### The commands that leave the job as it is -/

theorem tellEnd_bulk (u : State) (x : Tag) (e : Entry) (c : Completion) : (u.tellEnd x e c).bulk = u.bulk := by
  unfold State.tellEnd
  split <;> simp

theorem takeAnswer_bulk (u : State) (f : Frame) : (u.takeAnswer f).bulk = u.bulk := by
  have hclosed (x : Tag) (e : Entry) (c : Completion) : (u.closeEntry x e c).bulk = u.bulk := tellEnd_bulk _ x e c
  unfold State.takeAnswer State.takeRetry
  repeat' split
  · rfl
  · rfl
  · rfl
  · exact hclosed _ _ _
  · exact hclosed _ _ _
  · rfl
  · rfl

theorem classify_bulk (u : State) (k : Kind) (f : Frame) : (u.classify k f).bulk = u.bulk := by
  have hprobe : (u.takeProbe f).bulk = u.bulk := by
    unfold State.takeProbe
    repeat' split
    all_goals simp
  have hrequest : (u.takeRequest f).bulk = u.bulk := by
    unfold State.takeRequest
    split <;> simp
  have hunclaimed : (u.takeUnclaimed f).bulk = u.bulk := by
    unfold State.takeUnclaimed
    repeat' split
    · rfl
    · exact tellEnd_bulk _ _ _ _
    · rfl
  have hdone : (u.takeDone f).bulk = u.bulk := by
    unfold State.takeDone
    split <;> rfl
  unfold State.classify
  repeat' split
  · exact hprobe
  · exact hrequest
  · exact hunclaimed
  · exact takeAnswer_bulk u f
  · exact hdone
  · rfl
  · simp

theorem arrive_bulk (u : State) (f : Frame) : (u.arrive f).bulk = u.bulk := by
  unfold State.arrive
  repeat' split
  · rfl
  · simp
  · exact classify_bulk u _ f
  · rfl

theorem jobAfter_arriveAs {k : Kind} {f : Frame} (h : arriveAs k f s = .next t) : JobAfter s t.bulk := by
  unfold arriveAs at h
  split at h
  · cases h; exact .of_eq (arrive_bulk s f)
  · exact nomatch h

theorem jobAfter_exec {c : Instr} (h : exec c s = .next t) : JobAfter s t.bulk := by
  cases c with
  | coldResetAssertion =>
    cases h
    split
    · exact .kept
    · exact .gone
  | warmResetAssertion =>
    cases h
    split
    · exact .kept
    · exact .gone
  | bulkStart => exact jobAfter_handOverOf h
  | bulkQuery => exact jobAfter_handOverOf h
  | bulkAbort => exact jobAfter_handOverOf h
  | read => exact jobAfter_grantOf h
  | write => exact jobAfter_grantOf h
  | holdRead => exact jobAfter_grantOf h
  | commit => exact jobAfter_grantOf h
  | wordOperationEnd => exact jobAfter_wordOperationEnd h
  | bulkStep => exact jobAfter_bulkStep h
  | bulkStepEnd => exact jobAfter_bulkStepEnd h
  | holdTimerExpiry i =>
    change execHoldTimerExpiry i s = _ at h
    unfold execHoldTimerExpiry at h
    repeat' split at h
    · exact nomatch h
    · exact nomatch h
    · cases h
      exact .told i
  | coldResetRelease pins =>
    cases h
    split
    · exact .of_eq (by simp)
    · exact .kept
  | warmResetRelease pins =>
    cases h
    split
    · exact .of_eq (by simp)
    · exact .kept
  | lossOfCarrier =>
    cases h
    repeat' split
    all_goals exact .of_eq (by simp)
  | returnOfCarrier =>
    cases h
    repeat' split
    all_goals exact .of_eq (by simp)
  | acceptance q pins =>
    cases h
    exact .of_eq (by cases pins <;> simp)
  | loopArrival f => exact jobAfter_arriveAs h
  | reqArrival f => exact jobAfter_arriveAs h
  | ansArrival f => exact jobAfter_arriveAs h
  | doneArrival f => exact jobAfter_arriveAs h
  | throughFrameArrival f =>
    simp only [exec, execThroughFrameArrival] at h
    split at h
    · cases h; exact .of_eq (arrive_bulk s f)
    · exact nomatch h
  | probeTimerExpiry =>
    simp only [exec, execProbeTimerExpiry] at h
    split at h
    · exact nomatch h
    · cases h
      split <;> exact .of_eq (by simp)
  | probeClaim =>
    simp only [exec, execProbeClaim] at h
    repeat' split at h
    · cases h; exact .of_eq (by simp)
    · exact nomatch h
    · exact nomatch h
  | sendingEnd =>
    simp only [exec, execSendingEnd] at h
    split at h
    · exact nomatch h
    · cases h; exact .of_eq (by simp)
    · cases h; exact .of_eq (by simp)
  | send q =>
    simp only [exec, execSend] at h
    repeat' split at h
    · cases h; exact .of_eq (by simp)
    · exact nomatch h
    · exact nomatch h
    · exact nomatch h
  | answerTimerExpiry x =>
    simp only [exec, execAnswerTimerExpiry] at h
    repeat' split at h
    · exact nomatch h
    · cases h; exact .of_eq (tellEnd_bulk _ _ _ _)
    · exact nomatch h
  | backoffTimerExpiry x =>
    simp only [exec, execBackoffTimerExpiry] at h
    repeat' split at h
    · exact nomatch h
    · cases h; exact .of_eq (by simp)
    · cases h; exact .kept
    · exact nomatch h
  | resendClaim x =>
    simp only [exec, execResendClaim] at h
    repeat' split at h
    · exact nomatch h
    · cases h; exact .of_eq (by simp)
    · exact nomatch h
    · exact nomatch h
  | quarantineExpiry x =>
    simp only [exec, execQuarantineExpiry] at h
    repeat' split at h
    · exact nomatch h
    · cases h; exact .of_eq (by simp)
    · exact nomatch h
  | refreshTimerExpiry =>
    simp only [exec, execRefreshTimerExpiry] at h
    split at h
    · exact nomatch h
    · cases h; exact .kept
  | refresh =>
    simp only [exec, execRefresh] at h
    split at h
    · cases h; exact .kept
    · exact nomatch h
  | refreshEnd =>
    simp only [exec, execRefreshEnd] at h
    split at h
    · cases h; exact .kept
    · exact nomatch h
  | noticeRead =>
    simp only [exec, execNoticeRead] at h
    split at h
    · cases h; exact .of_eq (by simp [State.endAccess])
    · exact nomatch h
  | statusRead =>
    simp only [exec, execStatusRead] at h
    split at h
    · cases h; exact .of_eq (by simp [State.endAccess])
    · exact nomatch h
  | windowWrite =>
    simp only [exec, execWindowWrite] at h
    split at h
    · cases h; exact .of_eq (by simp [State.endAccess])
    · exact nomatch h
  | controlSpaceWrite =>
    simp only [exec, execControlSpaceWrite] at h
    split at h
    · cases h; exact .of_eq (by simp [State.endAccess])
    · exact nomatch h

end

/-- A job `k` that goes on from `j`: the COUNT of its start and what it was started with are those of `j`. -/
def Continues (j k : Job) : Prop :=
  k.done + k.remaining = j.done + j.remaining ∧ k.owner = j.owner ∧ k.kind = j.kind ∧ k.privileged = j.privileged
    ∧ k.page = j.page ∧ k.pattern = j.pattern ∧ k.ownerTag = j.ownerTag

theorem Continues.refl (j : Job) : Continues j j := ⟨rfl, rfl, rfl, rfl, rfl, rfl, rfl⟩

theorem continues_slot (j : Job) (x : Option Slot) : Continues j { j with slot := x } :=
  ⟨rfl, rfl, rfl, rfl, rfl, rfl, rfl⟩

theorem JobAfter.continues {s : State} {j k : Job} (hj : s.bulk = some j) (h : JobAfter s (some k)) : Continues j k := by
  generalize hb : some k = b at h
  cases h with
  | kept =>
    obtain rfl := Option.some.inj (hb.trans hj)
    exact .refl k
  | gone => exact nomatch hb
  | told i =>
    rw [hj] at hb
    obtain rfl := Option.some.inj hb
    dsimp only
    split
    · exact continues_slot j none
    · exact .refl j
  | waits x i hx =>
    obtain rfl := Option.some.inj (hj.symm.trans hx)
    obtain rfl := Option.some.inj hb
    exact continues_slot j _
  | stepped x g hx hmore =>
    obtain rfl := Option.some.inj (hj.symm.trans hx)
    obtain rfl := Option.some.inj hb
    refine ⟨?_, rfl, rfl, rfl, rfl, rfl, rfl⟩
    show j.done + 1 + (j.remaining - 1) = _
    omega
  | starts x hnone => exact nomatch hj.symm.trans hnone

/-- Settles O47: a tick leaves the job but for its slot, by `idleStepIsOneMicrosecond`, a command by `jobAfter_exec`. -/
theorem donePlusRemainingIsTheCount : Obligations.DonePlusRemainingIsTheCount := by
  unfold Obligations.DonePlusRemainingIsTheCount
  intro s t j k _ hstep hj hk
  change Continues j k
  unfold Steps at hstep
  cases hp : s.pending with
  | nil =>
    obtain ⟨t', hstep', -, -, -, -, -, -, -, -, hbulk, -⟩ := idleStepIsOneMicrosecond s hp
    obtain rfl := Host.Outcome.next.inj (hstep.symm.trans hstep')
    rw [hj, hk] at hbulk
    obtain rfl := Option.some.inj hbulk
    dsimp only
    split
    · exact continues_slot j none
    · exact .refl j
  | cons c cs =>
    rw [step, hp] at hstep
    exact JobAfter.continues (s := { s with pending := cs }) hj (hk ▸ jobAfter_exec hstep)

end Sys2Proof.Machine
end
